-- ==== Sys2Proof/Word.lean ====
section
/-! DEFINITION. The word types of the engine: unsigned, of the widths the spec names (00_scope.md R9). -/

namespace Sys2Proof

/-- `u8` (R9). -/
abbrev Byte := BitVec 8
/-- `u16` (R9). -/
abbrev U16 := BitVec 16
/-- `u32` (R9). -/
abbrev U32 := BitVec 32
/-- `u64` (R9); `usize` is `u64` too (D32). -/
abbrev U64 := BitVec 64
/-- The 9-bit command word `DIR:ALG` (R90). -/
abbrev CmdWord := BitVec 9

end Sys2Proof
end

