-- ==== Sys2Proof/Syntax.lean ====
section
/-! DEFINITION. The instructions: one constructor per row of spec/opcode_table.json. -/

namespace Sys2Proof

/-- The closed set of codecs, in the order the source lists it (R23, R294). -/
inductive Codec where
  | lz77
  | huf
  | rle
  | lzw
  deriving DecidableEq, Repr

/-- Eight host commands (R91), five stream elements (R97, R106, R109, R115) and eighteen internal operations, which
have no encoding of their own (R13). -/
inductive Instr where
  /-- C.LZ77 (R272) -/
  | cLz77
  /-- C.HUF (R273) -/
  | cHuf
  /-- C.RLE (R274) -/
  | cRle
  /-- C.LZW (R275) -/
  | cLzw
  /-- D.LZ77 (R276) -/
  | dLz77
  /-- D.HUF (R277) -/
  | dHuf
  /-- D.RLE (R278) -/
  | dRle
  /-- D.LZW (R279) -/
  | dLzw
  /-- RLE.PAIR (R97, R146) -/
  | rlePair (count value : Byte)
  /-- HUF.SYM: one code word, first path bit first, `true` is the right child (R106, R177) -/
  | hufSym (path : List Bool)
  /-- LZW.CODE (R109, R211) -/
  | lzwCode (code : U16)
  /-- LZ77.LIT: a token with offset 0 (R115, R246) -/
  | lz77Lit (length nextChar : Byte)
  /-- LZ77.REF: a token with a non-zero offset (R115, R247) -/
  | lz77Ref (offset : U16) (length nextChar : Byte)
  /-- RLE.compress (R141) -/
  | rleCompress
  /-- RLE.decompress (R145) -/
  | rleDecompress
  /-- HUF.build (R164) -/
  | hufBuild
  /-- HUF.assign (R166) -/
  | hufAssign
  /-- HUF.compress (R169) -/
  | hufCompress
  /-- HUF.decompress (R175) -/
  | hufDecompress
  /-- LZW.compress (R204) -/
  | lzwCompress
  /-- LZW.decompress (R210) -/
  | lzwDecompress
  /-- LZ77.compress (R234) -/
  | lz77Compress
  /-- LZ77.decompress (R245) -/
  | lz77Decompress
  /-- SER.RLE (R280) -/
  | serRle
  /-- SER.HUF (R281) -/
  | serHuf
  /-- SER.LZW (R282) -/
  | serLzw
  /-- SER.LZ77 (R283) -/
  | serLz77
  /-- DES.RLE (R285) -/
  | desRle
  /-- DES.HUF (R286) -/
  | desHuf
  /-- DES.LZW (R287) -/
  | desLzw
  /-- DES.LZ77 (R288) -/
  | desLz77
  deriving DecidableEq, Repr

end Sys2Proof
end

