-- ==== Sys2Proof/WellFormed.lean ====
section
/-! DEFINITION. Which instruction terms are instructions of the engine: the two operand ranges that the operand types
do not already enforce. -/

namespace Sys2Proof

/-- A code word has 1 to 255 bits (R106); a back-reference has a non-zero offset, since offset 0 is a literal (R115).
Every other operand value is an encoding of its row: opcode_table.json, "legality of the value is checked by the
rule", that is, by the element's meaning. -/
def Instr.wf : Instr → Bool
  | .hufSym path => 1 ≤ path.length && path.length ≤ 255
  | .lz77Ref offset _ _ => offset != 0
  | .cLz77 | .cHuf | .cRle | .cLzw | .dLz77 | .dHuf | .dRle | .dLzw => true
  | .rlePair _ _ | .lzwCode _ | .lz77Lit _ _ => true
  | .rleCompress | .rleDecompress | .hufBuild | .hufAssign | .hufCompress | .hufDecompress => true
  | .lzwCompress | .lzwDecompress | .lz77Compress | .lz77Decompress => true
  | .serRle | .serHuf | .serLzw | .serLz77 | .desRle | .desHuf | .desLzw | .desLz77 => true

end Sys2Proof
end

