-- ==== Sys2Proof/Decode.lean ====
section
/-! DEFINITION. Byte order (00_scope.md R11), the decoder of command words and stream elements (30_encoding.md), total
and rejecting by name, and the encoder. -/

namespace Sys2Proof

/-- The number whose base-256 digits are the bytes, least significant first (R11: le16, le32, le64). -/
def leNat : List Byte → Nat
  | [] => 0
  | b :: bs => b.toNat + 256 * leNat bs

/-- The `k` low bytes of `v`, least significant first (R11: to_le16, to_le32, to_le64). -/
def toLE : Nat → Nat → List Byte
  | 0, _ => []
  | k + 1, v => BitVec.ofNat 8 v :: toLE k (v / 256)

/-- The number whose base-256 digits are the bytes, most significant first (R11: be16, be64). -/
def beNat (bs : List Byte) : Nat := leNat bs.reverse

/-- The `k` low bytes of `v`, most significant first (R11: to_be16, to_be64). -/
def toBE (k v : Nat) : List Byte := (toLE k v).reverse

/-- `le16` (R11). -/
def le16 (bs : List Byte) : U16 := BitVec.ofNat 16 (leNat bs)
/-- `le32` (R11). -/
def le32 (bs : List Byte) : U32 := BitVec.ofNat 32 (leNat bs)
/-- `le64` (R11). -/
def le64 (bs : List Byte) : U64 := BitVec.ofNat 64 (leNat bs)
/-- `be16` (R11). -/
def be16 (bs : List Byte) : U16 := BitVec.ofNat 16 (beNat bs)
/-- `be64` (R11). -/
def be64 (bs : List Byte) : U64 := BitVec.ofNat 64 (beNat bs)
/-- `to_le16` (R11). -/
def toLe16 (v : U16) : List Byte := toLE 2 v.toNat
/-- `to_le32` (R11). -/
def toLe32 (v : U32) : List Byte := toLE 4 v.toNat
/-- `to_le64` (R11). -/
def toLe64 (v : U64) : List Byte := toLE 8 v.toNat
/-- `to_be16` (R11). -/
def toBe16 (v : U16) : List Byte := toBE 2 v.toNat
/-- `to_be64` (R11). -/
def toBe64 (v : U64) : List Byte := toBE 8 v.toNat

/-- Why a decoder refuses. -/
inductive DecodeError where
  /-- fewer bytes than the encoding has -/
  | truncated
  /-- a command word's second byte holds more than the direction bit (R90: 9 bits) -/
  | commandWordTooWide
  /-- `alg` in 4 to 255 (R92) -/
  | unknownAlgorithm (alg : Byte)
  /-- the bits end before a code word's leaf (R177) -/
  | bitsExhausted
  /-- a bit names an absent child (R175, R177) -/
  | offTheTree
  deriving DecidableEq, Repr

/-- What the bytes are read as. Which one applies is the context: the START strobe reads a command word, the decoder
of each codec reads that codec's elements (R123: boundaries never depend on the bytes, but for Huffman). -/
inductive Format where
  /-- the command word, laid out as the byte ALG and then the byte DIR -/
  | command
  | rlePair
  | lzwCode
  | lzToken
  deriving DecidableEq, Repr

/-- The selector's numbers (R23). -/
def codecOf (alg : Byte) : Option Codec :=
  if alg = 0 then some .lz77
  else if alg = 1 then some .huf
  else if alg = 2 then some .rle
  else if alg = 3 then some .lzw
  else none

/-- The command of a direction and a codec (R91). -/
def commandOf (dir : BitVec 1) : Codec → Instr
  | .lz77 => if dir = 0 then .cLz77 else .dLz77
  | .huf => if dir = 0 then .cHuf else .dHuf
  | .rle => if dir = 0 then .cRle else .dRle
  | .lzw => if dir = 0 then .cLzw else .dLzw

/-- Bits 7:0 of a command word (R90). -/
def commandAlg (w : CmdWord) : Byte := w.extractLsb' 0 8
/-- Bit 8 of a command word (R90). -/
def commandDir (w : CmdWord) : BitVec 1 := w.extractLsb' 8 1

/-- The decoder of command words: eight words decode to commands, all others to the one verdict (R92). -/
def decodeCommand (w : CmdWord) : Except DecodeError Instr :=
  match codecOf (commandAlg w) with
  | some k => .ok (commandOf (commandDir w) k)
  | none => .error (.unknownAlgorithm (commandAlg w))

/-- A token: the offset alone tells a literal from a back-reference (R114, R115). -/
def tokenInstr (offset : U16) (length nextChar : Byte) : Instr :=
  if offset = 0 then .lz77Lit length nextChar else .lz77Ref offset length nextChar

/-- One encoded thing from the front of a byte sequence, and the bytes after it. -/
def decode : Format → List Byte → Except DecodeError (Instr × List Byte)
  | .command, alg :: dir :: rest =>
    if 1 < dir.toNat then .error .commandWordTooWide
    else match decodeCommand (BitVec.ofNat 9 (leNat [alg, dir])) with
      | .ok i => .ok (i, rest)
      | .error e => .error e
  | .command, _ => .error .truncated
  | .rlePair, count :: value :: rest => .ok (.rlePair count value, rest)
  | .rlePair, _ => .error .truncated
  | .lzwCode, low :: high :: rest => .ok (.lzwCode (le16 [low, high]), rest)
  | .lzwCode, _ => .error .truncated
  | .lzToken, o1 :: o0 :: length :: nextChar :: rest =>
    .ok (tokenInstr (be16 [o1, o0]) length nextChar, rest)
  | .lzToken, _ => .error .truncated

/-- The bits of one code word, from node `cur` to the first leaf met, and the bits after it (R106). `child` and `leaf`
read the tree. -/
def takePath (child : Nat → Bool → Option Nat) (leaf : Nat → Bool) :
    Nat → List Bool → Except DecodeError (List Bool × List Bool)
  | _, [] => .error .bitsExhausted
  | cur, b :: bs =>
    match child cur b with
    | none => .error .offTheTree
    | some n =>
      if leaf n then .ok ([b], bs)
      else match takePath child leaf n bs with
        | .ok (path, rest) => .ok (b :: path, rest)
        | .error e => .error e

/-- One HUF.SYM from the front of a bit stream, given the tree (R106, R177). -/
def decodeSym (child : Nat → Bool → Option Nat) (leaf : Nat → Bool) (root : Nat) (bits : List Bool) :
    Except DecodeError (Instr × List Bool) :=
  match takePath child leaf root bits with
  | .ok (path, rest) => .ok (.hufSym path, rest)
  | .error e => .error e

/-- The bits of a byte in stream order, most significant first (R104). -/
def unpackByte (b : Byte) : List Bool := (List.range 8).map fun t => b.getLsbD (7 - t)

/-- The bit stream of packed bytes (R104). -/
def unpackBits (bs : List Byte) : List Bool := bs.flatMap unpackByte

/-- What an instruction is encoded as: bytes in a format, or bits of the Huffman stream. -/
inductive Encoded where
  | bytes (f : Format) (bs : List Byte)
  | bits (bs : List Bool)
  deriving DecidableEq, Repr

/-- The bytes of a command word: ALG, then DIR (R90). -/
def commandBytes (dir alg : Byte) : Encoded := .bytes .command [alg, dir]

/-- The encoder, written from R91, R97, R106, R109 and R114; internal operations have no encoding (R13). -/
def encode : Instr → Option Encoded
  | .cLz77 => some (commandBytes 0 0)
  | .cHuf => some (commandBytes 0 1)
  | .cRle => some (commandBytes 0 2)
  | .cLzw => some (commandBytes 0 3)
  | .dLz77 => some (commandBytes 1 0)
  | .dHuf => some (commandBytes 1 1)
  | .dRle => some (commandBytes 1 2)
  | .dLzw => some (commandBytes 1 3)
  | .rlePair count value => some (.bytes .rlePair [count, value])
  | .hufSym path => some (.bits path)
  | .lzwCode code => some (.bytes .lzwCode (toLe16 code))
  | .lz77Lit length nextChar => some (.bytes .lzToken [0, 0, length, nextChar])
  | .lz77Ref offset length nextChar => some (.bytes .lzToken (toBe16 offset ++ [length, nextChar]))
  | .rleCompress | .rleDecompress | .hufBuild | .hufAssign | .hufCompress | .hufDecompress => none
  | .lzwCompress | .lzwDecompress | .lz77Compress | .lz77Decompress => none
  | .serRle | .serHuf | .serLzw | .serLz77 | .desRle | .desHuf | .desLzw | .desLz77 => none

/-- How a word of the opcode table lies in bytes, and in which format it is read. A 32-bit word is a token read
big-endian (R114, the table's note on LZ77.LIT). A word of up to 16 bits is a command word where it is a legal one; any
other 16-bit word falls to the next row of that width, RLE.PAIR, first byte in the low bits. DESIGN CHOICE (log entry
12): the table gives three formats of at most 16 bits and the word alone does not tell which is meant. -/
def tableLayout (nbits w : Nat) : Option (Format × List Byte) :=
  if nbits = 32 then some (.lzToken, toBE 4 w)
  else if nbits ≤ 16 then
    match decode .command (toLE 2 w) with
    | .ok _ => some (.command, toLE 2 w)
    | .error _ => if nbits = 16 then some (.rlePair, toLE 2 w) else none
  else none

/-- The instruction the decoder reads from a word of the opcode table. -/
def decodeTableWord (nbits w : Nat) : Option Instr :=
  match tableLayout nbits w with
  | none => none
  | some (f, bs) =>
    match decode f bs with
    | .ok (i, _) => some i
    | .error _ => none

end Sys2Proof
end

