-- ==== Sys2Proof/Config.lean ====
section
/-! DEFINITION. The constants the source fixes (00_scope.md R7), the parameters it leaves open (R8), and the free
values. -/

namespace Sys2Proof

/-- `RLE_MAX_RUN`, the largest count of one pair (R7). -/
def Config.rleMaxRun : Nat := 255
/-- `HUF_SYMBOLS`, the entries of the frequency table (R7). -/
def Config.hufSymbols : Nat := 256
/-- `LZW_DICT_CAP`, codes 0 to 4095 (R7). -/
def Config.lzwDictCap : Nat := 4096
/-- `LZW_LITERALS`, entries 0 to 255 are the bytes (R7). -/
def Config.lzwLiterals : Nat := 256
/-- `LZW_RESERVED`, the clear-code slot that holds no sequence (R7, R203). -/
def Config.lzwReserved : Nat := 256
/-- The first slot the growth process fills (R201). -/
def Config.lzwFirstSlot : Nat := 257
/-- `LZ_WINDOW` (R7, R235). -/
def Config.lzWindow : Nat := 4096
/-- `LZ_LOOKAHEAD` (R7). -/
def Config.lzLookahead : Nat := 18
/-- `LZ_MIN_MATCH` (R7). -/
def Config.lzMinMatch : Nat := 3
/-- `LZ_HASH_SLOTS` (R7). -/
def Config.lzHashSlots : Nat := 65536
/-- `RLE_HDR` (R7, R95). -/
def Config.rleHeader : Nat := 16
/-- `HUF_HDR` (R7, R100). -/
def Config.hufHeader : Nat := 1040
/-- `LZW_HDR` (R7, R107). -/
def Config.lzwHeader : Nat := 16
/-- `LZ_HDR` (R7, R113). -/
def Config.lz77Header : Nat := 8

/-- The parameters of R8 that are arguments of the model. They are plain data and stand in State, where no step
changes them, so that a claim about every state is a claim about every admissible value.
DESIGN CHOICE (log entries 1 and 2): `hashOverrides` lists the triples, as the number `65536 b0 + 256 b1 + b2`, at
which `LZ77_HASH` differs from the default of R232; every total function from three bytes to a slot is such a list. -/
structure Params where
  capIn : Nat
  capOut : Nat
  hashOverrides : List (Nat × U16)
  deriving DecidableEq, Repr

/-- The constraints R8 puts on the capacities. -/
abbrev Params.wf (p : Params) : Prop :=
  1 ≤ p.capIn ∧ p.capIn ≤ 2 ^ 32 - 1 ∧ 1 ≤ p.capOut ∧ p.capOut ≤ 2 ^ 63

/-- The free value of this model: what a byte of a buffer is that nothing has written since reset number `epoch`
(R49: unspecified). It has no body, so nothing can be proved of its values. DESIGN CHOICE (log entry 3): it depends on
the reset count and the address alone, so that two commands with no reset and no write between them, or two engines
with the same count, read the same value. -/
opaque Config.unspecifiedByte (epoch address : Nat) : Byte

end Sys2Proof
end

