-- ==== Sys2Proof/Machine/State.lean ====
section
/-! DEFINITION. The state of one engine, as plain data, and the reasons a step can stop. INVENTORY.md lists every field
with its rule. Registers the host can read are bit vectors of the spec's width; the cursors and the private counters
are natural numbers (log entry 5), whose fit in the spec's widths is an invariant (Safety.lean). -/

namespace Sys2Proof.Machine

/-- A byte memory: addresses strictly rising, an unlisted address has no value (R30, R49; log entry 3). -/
abbrev Memory := List Host.Cell

/-- The three kinds of error (R310). -/
inductive ErrKind where
  | invalidArgument
  | outOfMemory
  | corrupt
  deriving DecidableEq, Repr

/-- The causes of R311, R313 and R314: the labels of the spec's `raise` statements. The engine keeps the kind only. -/
inductive Cause where
  /-- R271, ALG above 3 -/
  | unknownAlgorithm
  /-- R271, ILEN = 0 -/
  | emptyInput
  /-- R271, ILEN above CAP_IN -/
  | inputBeyondBuffer
  /-- R280 -/
  | rleImageBeyondOutput
  /-- R281 -/
  | hufImageBeyondOutput
  /-- R282 -/
  | lzwImageBeyondOutput
  /-- R283 -/
  | lz77ImageBeyondOutput
  /-- R290 -/
  | declaredBeyondOutput
  /-- R65: an append past CAP_OUT -/
  | outputCapacity
  /-- R285 -/
  | rleTruncated
  /-- R285 -/
  | rleSizeDiffers
  /-- R285 -/
  | rleMidPair
  /-- R145 -/
  | rleCountZero
  /-- R145 -/
  | rleWouldExceed
  /-- R145 -/
  | rleShort
  /-- R286 -/
  | hufTruncated
  /-- R286 -/
  | hufSizeDiffers
  /-- R179 -/
  | hufNoSymbol
  /-- R175 -/
  | hufBitsExhausted
  /-- R175, unreachable from a built tree (R165) -/
  | hufOffTree
  /-- R287 -/
  | lzwTruncated
  /-- R287 -/
  | lzwCountDiffers
  /-- R209 -/
  | lzwFirstNotLiteral
  /-- R210 -/
  | lzwNotResolvable
  /-- R210 -/
  | lzwWouldExceed
  /-- R210 -/
  | lzwShort
  /-- R288 -/
  | lz77Truncated
  /-- R288 -/
  | lz77PartialToken
  /-- R245 -/
  | lz77OffsetBeyond
  /-- R245 -/
  | lz77WouldExceed
  /-- R245 -/
  | lz77LengthDiffers
  deriving DecidableEq, Repr

/-- RLE-Compressed (R35): pairs (count, value). -/
structure RleObj where
  runs : List (Byte × Byte)
  originalSize : U64
  deriving DecidableEq, Repr

/-- Huffman-Compressed (R36). -/
structure HufObj where
  packedBits : List Byte
  originalSize : U64
  freqTable : List U32
  deriving DecidableEq, Repr

/-- LZW-Compressed (R37). -/
structure LzwObj where
  codes : List U16
  originalSize : U64
  deriving DecidableEq, Repr

/-- A token of the LZ77 codec (R38). -/
structure Token where
  offset : U16
  length : Byte
  nextChar : Byte
  deriving DecidableEq, Repr

/-- LZ77-Compressed (R38). -/
structure Lz77Obj where
  tokens : List Token
  originalSize : U64
  deriving DecidableEq, Repr

/-- The RLE unit (R33) and its compressed object. -/
structure RleUnit where
  v : Byte
  c : Byte
  obj : RleObj
  deriving DecidableEq, Repr

/-- A present node of the Huffman tree (R41): a leaf has no kids, an internal node its left and right child. -/
structure HufNode where
  weight : Nat
  kids : Option (Nat × Nat)
  inQueue : Bool
  deriving DecidableEq, Repr

/-- The Huffman unit (R40 to R43) and its compressed object. `nodes` lists the present nodes by id, rising; `codes`
lists the symbols that have a code. -/
structure HufUnit where
  freq : List U32
  nodes : List (Nat × HufNode)
  nnext : Nat
  root : Option Nat
  codes : List (Nat × List Bool)
  acc : Byte
  nbits : Nat
  cur : Nat
  obj : HufObj
  deriving DecidableEq, Repr

/-- The LZW unit (R44, R45) and its compressed object. `dict` holds the used entries (prefix, char), entry 257 first, so
that NEXT is 257 plus its length. -/
structure LzwUnit where
  dict : List (Nat × Byte)
  w : Option Nat
  k : Byte
  prev : Nat
  stack : List Byte
  obj : LzwObj
  deriving DecidableEq, Repr

/-- The LZ77 unit (R46, R47) and its compressed object. `hash` lists the valid slots (slot, pos), rising; the encoder's
`pos` is the cursor `ipos`. -/
structure Lz77Unit where
  hash : List (Nat × Nat)
  cand : Nat
  limit : Nat
  l : Nat
  d : Nat
  mlen : Nat
  h : U16
  i : Nat
  obj : Lz77Obj
  deriving DecidableEq, Repr

/-- Where the running command stands, while BUSY = 1 (log entry 6). -/
inductive Stage where
  /-- START accepted, nothing run yet -/
  | accepted
  /-- compress: the codec has made its object, the serializer is next -/
  | coded
  /-- decompress: the deserializer has made the object, check_output is next -/
  | parsed
  /-- decompress: the decoder consumes its stream elements, one a turn -/
  | decoding
  deriving DecidableEq, Repr

/-- Whether a turn of the engine is a whole command (R21, R365) or one operation of it (R15, R39; log entry 6). -/
inductive Grain where
  | command
  | operation
  deriving DecidableEq, Repr

/-- The seven interface registers (R22). -/
inductive Reg where
  | alg
  | dir
  | start
  | busy
  | status
  | ilen
  | olen
  deriving DecidableEq, Repr

/-- What the other agent can do (R22, R25, R355, R350), and whose turn it is (log entry 7). DESIGN CHOICE (log entry
27): there is no host read of IBUF, since R30 names only host writes of it. -/
inductive HostAct where
  /-- write a register; the bits above its width are dropped (log entry 17) -/
  | writeReg (r : Reg) (v : U64)
  /-- write bytes into IBUF from an address up -/
  | writeIbuf (addr : Nat) (bytes : List Byte)
  /-- read a register -/
  | readReg (r : Reg)
  /-- read a byte of OBUF -/
  | readObuf (addr : Nat)
  /-- copy OBUF[0..n) to IBUF[0..n), the host's own doing (R357) -/
  | copyBack (n : Nat)
  /-- reset the engine (R350) -/
  | reset
  /-- let the engine take one turn -/
  | engineTurn
  /-- read BUSY until it is 0 (R355, step 5), the engine taking its turns -/
  | awaitIdle
  deriving DecidableEq, Repr

/-- One engine, its parameters and its host. -/
structure State where
  cfg : Params
  alg : Byte
  dir : BitVec 1
  busy : BitVec 1
  status : BitVec 2
  ilen : U64
  olen : U64
  ibuf : Memory
  obuf : Memory
  ipos : Nat
  opos : Nat
  bitpos : Nat
  rle : RleUnit
  huf : HufUnit
  lzw : LzwUnit
  lz77 : Lz77Unit
  stage : Stage
  grain : Grain
  host : List HostAct
  observed : List U64
  epoch : Nat
  deriving DecidableEq, Repr

/-- Where the machine stops because the access names nothing. -/
inductive Fault where
  /-- A host access to an address at or above the buffer's capacity, which does not exist (R30). Raised by the host's
  moves only, never by an instruction. Safe: the model stops where the spec gives nothing. -/
  | noSuchAddress
  deriving DecidableEq, Repr

/-- Where the model offers no move. -/
inductive Refusal where
  /-- Raised by exec's arm of an instruction that has no meaning yet. Safe. -/
  | notModelled (mnemonic : String)
  /-- A host access other than reading BUSY or START or writing START while BUSY = 1 (R72, R356, U9). Raised by the
  host's moves. Safe: the spec asks a model to refuse it. -/
  | hostAccessWhileBusy
  /-- A host write of BUSY, STATUS or OLEN (U12). Raised by the host's moves. Safe: the spec asks a model to refuse it. -/
  | readOnlyRegister
  /-- A host read of OBUF at an address at or above OLEN (R49, U8). Raised by the host's moves. Safe: the spec asks a
  model to refuse it. -/
  | unspecifiedOutput
  deriving DecidableEq, Repr

/-- The RLE unit after reset: unspecified by R49; DESIGN CHOICE zero and empty (log entry 4). -/
def RleUnit.initial : RleUnit := ⟨0, 0, ⟨[], 0⟩⟩

/-- The Huffman unit after reset: unspecified by R49; DESIGN CHOICE zero and empty (log entry 4). -/
def HufUnit.initial : HufUnit where
  freq := List.replicate 256 0
  nodes := []
  nnext := 256
  root := none
  codes := []
  acc := 0
  nbits := 0
  cur := 0
  obj := ⟨[], 0, List.replicate 256 0⟩

/-- The LZW unit after reset: unspecified by R49; DESIGN CHOICE zero and empty (log entry 4). -/
def LzwUnit.initial : LzwUnit := ⟨[], none, 0, 0, [], ⟨[], 0⟩⟩

/-- The LZ77 unit after reset: unspecified by R49; DESIGN CHOICE zero and empty (log entry 4). -/
def Lz77Unit.initial : Lz77Unit := ⟨[], 0, 0, 0, 0, 0, 0, 0, ⟨[], 0⟩⟩

/-- Right after reset (R49, R350): the interface registers 0, the memories without value, the units unspecified (log
entry 4), the parameters at their largest admissible values and the default hash (log entry 1), no host action
waiting. -/
def State.reset : State where
  cfg := ⟨2 ^ 32 - 1, 2 ^ 63, []⟩
  alg := 0
  dir := 0
  busy := 0
  status := 0
  ilen := 0
  olen := 0
  ibuf := []
  obuf := []
  ipos := 0
  opos := 0
  bitpos := 0
  rle := RleUnit.initial
  huf := HufUnit.initial
  lzw := LzwUnit.initial
  lz77 := Lz77Unit.initial
  stage := .accepted
  grain := .command
  host := []
  observed := []
  epoch := 0

end Sys2Proof.Machine
end

