-- ==== Sys2Proof/Machine/Flags.lean ====
section
/-! DEFINITION. The engine has no arithmetic flag or condition code (10_state.md R34): its one status is STATUS
(R27), whose codes are here. -/

namespace Sys2Proof.Machine

/-- The STATUS code of an error kind (R27, R310). -/
def statusCode : ErrKind → BitVec 2
  | .invalidArgument => 1
  | .outOfMemory => 2
  | .corrupt => 3

/-- The STATUS code of success (R27). -/
def statusOk : BitVec 2 := 0

/-- The kind a cause belongs to (R311, R313, R314). -/
def causeKind : Cause → ErrKind
  | .unknownAlgorithm | .emptyInput | .inputBeyondBuffer => .invalidArgument
  | .rleImageBeyondOutput | .hufImageBeyondOutput | .lzwImageBeyondOutput | .lz77ImageBeyondOutput => .outOfMemory
  | .declaredBeyondOutput | .outputCapacity => .outOfMemory
  | .rleTruncated | .rleSizeDiffers | .rleMidPair | .rleCountZero | .rleWouldExceed | .rleShort => .corrupt
  | .hufTruncated | .hufSizeDiffers | .hufNoSymbol | .hufBitsExhausted | .hufOffTree => .corrupt
  | .lzwTruncated | .lzwCountDiffers | .lzwFirstNotLiteral | .lzwNotResolvable => .corrupt
  | .lzwWouldExceed | .lzwShort => .corrupt
  | .lz77Truncated | .lz77PartialToken | .lz77OffsetBeyond | .lz77WouldExceed | .lz77LengthDiffers => .corrupt

/-- The STATUS code a cause leaves (R330). -/
def causeStatus (c : Cause) : BitVec 2 := statusCode (causeKind c)

end Sys2Proof.Machine
end

