-- ==== Sys2Proof/Machine/Ops.lean ====
section
/-! DEFINITION. The shared operations: memory (20_memory.md), and the two ways an operation ends, raising an error and
completing (60_exceptions.md). -/

namespace Sys2Proof.Machine

/-- The canonical form: addresses strictly rising, so no address twice. -/
def Memory.wf : Memory → Bool
  | [] => true
  | [_] => true
  | x :: y :: m => decide (x.1 < y.1) && Memory.wf (y :: m)

/-- The byte at an address, where one has been written. -/
def memRead : Memory → Nat → Option Byte
  | [], _ => none
  | x :: m, a => if x.1 = a then some x.2 else memRead m a

/-- Bytes laid at ascending addresses from `a` up (R64: lowest address first). -/
def cells : Nat → List Byte → Memory
  | _, [] => []
  | a, b :: bs => (a, b) :: cells (a + 1) bs

/-- `MemWrite(space, a, n, v)` (R64): the bytes replace what the addresses held. -/
def memWrite (m : Memory) (a : Nat) (bs : List Byte) : Memory :=
  m.filter (fun x => decide (x.1 < a)) ++ cells a bs ++ m.filter (fun x => decide (a + bs.length ≤ x.1))

/-- A byte of IBUF as the engine sees it: what was written there, else a free value (R49). DESIGN CHOICE (log entry 3):
the free value is a function of the reset count and the address, the same in two engines whose counts agree. -/
def ibufByte (s : State) (a : Nat) : Byte := (memRead s.ibuf a).getD (Config.unspecifiedByte s.epoch a)

/-- A byte of OBUF as the engine sees it: what was written there, else a free value. The engine reads only addresses
it has written in the same command (R60), so the free value is never taken in a run. -/
def obufByte (s : State) (a : Nat) : Byte := (memRead s.obuf a).getD (Config.unspecifiedByte s.epoch a)

/-- The output of a command starts with length 0 (R50); what OBUF held has no value any more (R331). -/
def startOutput (s : State) : State := { s with opos := 0, obuf := [] }

/-- `append(OBUF, bytes)` (R65): at the current length, unless it would pass CAP_OUT. -/
def append (bs : List Byte) (s : State) : Except Cause State :=
  if s.cfg.capOut < s.opos + bs.length then .error .outputCapacity
  else .ok { s with obuf := memWrite s.obuf s.opos bs, opos := s.opos + bs.length }

/-- `raise E(info)` (R330): STATUS the kind's code, OLEN 0, BUSY 0, OBUF without value; IBUF, ILEN, ALG and DIR as they
were. -/
def raise (c : Cause) (s : State) : State :=
  { s with status := causeStatus c, olen := 0, busy := 0, obuf := [] }

/-- Normal completion (R331): OBUF holds the output built, OLEN its length, STATUS 0, BUSY 0. After an error nothing is
to restore: the engine is idle exactly as after a success (R335). -/
def complete (s : State) : State :=
  { s with status := statusOk, olen := BitVec.ofNat 64 s.opos, busy := 0 }

/-- How an operation inside a command ends: in a state, or by raising (R12). -/
def settle (s : State) : Except Cause State → Host.Outcome State Fault Refusal
  | .ok t => .next t
  | .error c => .next (raise c s)

/-- How a command ends: by completing, or by raising (R270). -/
def settleCommand (s : State) : Except Cause State → Host.Outcome State Fault Refusal
  | .ok t => .next (complete t)
  | .error c => .next (raise c s)

/-- One operation after another; a raise in the first ends both. -/
def andThen (r : Except Cause State) (f : State → Except Cause State) : Except Cause State :=
  match r with
  | .ok t => f t
  | .error c => .error c

end Sys2Proof.Machine
end

