-- ==== Sys2Proof/Machine/Operands.lean ====
section
/-! DEFINITION. Where instructions take their operands from: the interface registers (10_state.md R22), the command
word (R90), the input `IBUF[0..ILEN)` and the output built so far. -/

namespace Sys2Proof.Machine

/-- The number of a register (R22). -/
def regNumber : Reg → Nat
  | .alg => 0
  | .dir => 1
  | .start => 2
  | .busy => 3
  | .status => 4
  | .ilen => 5
  | .olen => 6

/-- The value a read of a register gives; START is hard-wired to read as 0 (R25). -/
def readReg (s : State) : Reg → U64
  | .alg => s.alg.setWidth 64
  | .dir => s.dir.setWidth 64
  | .start => 0
  | .busy => s.busy.setWidth 64
  | .status => s.status.setWidth 64
  | .ilen => s.ilen
  | .olen => s.olen

/-- START written 1 (R25): accepted while idle, dropped while busy. ILEN, ALG and DIR need no latch, since nothing may
change them while BUSY = 1 (log entry 8). -/
def acceptStart (s : State) : State := if s.busy = 0 then { s with busy := 1, stage := .accepted } else s

/-- What the host's write of a register does to the engine (R23, R24, R25, R28); writes of the read-only registers are
refused before they come here (U12). -/
def writeReg (s : State) (r : Reg) (v : U64) : State :=
  match r with
  | .alg => { s with alg := v.setWidth 8 }
  | .dir => { s with dir := v.setWidth 1 }
  | .start => if v.setWidth 1 = 1#1 then acceptStart s else s
  | .ilen => { s with ilen := v }
  | .busy | .status | .olen => s

/-- The command word `DIR:ALG` (R90). -/
def commandWord (s : State) : CmdWord := s.dir ++ s.alg

/-- The bytes `IBUF[0..ILEN)` (R25, R63). -/
def inputBytes (s : State) : List Byte := (List.range s.ilen.toNat).map (ibufByte s)

/-- The bytes `OBUF[0..opos)` this command has built. -/
def outBytes (s : State) : List Byte := (List.range s.opos).map (obufByte s)

/-- The last two tests of check_arguments (R271); the first is the decoding of the command word. -/
def checkInput (s : State) : Except Cause State :=
  if s.ilen.toNat = 0 then .error .emptyInput
  else if s.cfg.capIn < s.ilen.toNat then .error .inputBeyondBuffer
  else .ok s

/-- check_output (R290). -/
def checkOutput (originalSize : U64) (s : State) : Except Cause State :=
  if s.cfg.capOut < originalSize.toNat then .error .declaredBeyondOutput else .ok s

/-- The input of a codec's compress, whose contract is `Error(EmptyInput)` on an empty one (R140, R160, R200, R230;
log entry 10). -/
def codecInput (s : State) : Except Cause (List Byte) :=
  match checkInput s with
  | .ok _ => .ok (inputBytes s)
  | .error c => .error c

/-- The input of a deserializer, which takes any length that exists (R285 to R288). -/
def imageInput (s : State) : Except Cause (List Byte) :=
  if s.cfg.capIn < s.ilen.toNat then .error .inputBeyondBuffer else .ok (inputBytes s)

/-- Append what an element added to the output built so far. -/
def extend (out : List Byte) (s : State) : Except Cause State := append (out.drop s.opos) s

end Sys2Proof.Machine
end

