-- ==== Sys2Proof/Machine/Huffman.lean ====
section
/-! DEFINITION. The Huffman codec (42_huffman.md): HUF.build, HUF.assign, HUF.compress, HUF.decompress and the element
HUF.SYM. -/

namespace Sys2Proof.Machine

/-- The histogram of R161, counted as R169 does: cleared, then one increment per input byte. -/
def histogram (input : List Byte) : List U32 :=
  input.foldl (fun f b => f.modify b.toNat (· + 1)) (List.replicate Config.hufSymbols 0)

/-- The leaves of the symbols from `s` up, whose frequencies are listed (R162). -/
def hufLeavesFrom : Nat → List U32 → List (Nat × HufNode)
  | _, [] => []
  | s, f :: fs =>
    if f = 0 then hufLeavesFrom (s + 1) fs else (s, ⟨f.toNat, none, true⟩) :: hufLeavesFrom (s + 1) fs

/-- The initial leaves: one for each symbol with a non-zero frequency, its id the symbol (R162). -/
def hufLeaves (freq : List U32) : List (Nat × HufNode) := hufLeavesFrom 0 (freq.take Config.hufSymbols)

/-- The order of extraction: the pair (weight, id), lexicographically (R163). -/
def hufBefore (x y : Nat × HufNode) : Bool :=
  x.2.weight < y.2.weight || (x.2.weight == y.2.weight && x.1 < y.1)

/-- The waiting node that leaves first (R163). -/
def hufMin : List (Nat × HufNode) → Option (Nat × HufNode)
  | [] => none
  | x :: xs =>
    match hufMin xs with
    | none => if x.2.inQueue then some x else none
    | some y => if x.2.inQueue && hufBefore x y then some x else some y

/-- Clear a node's in_queue (R163). -/
def hufDequeue (nodes : List (Nat × HufNode)) (id : Nat) : List (Nat × HufNode) :=
  nodes.map fun x => if x.1 = id then (x.1, { x.2 with inQueue := false }) else x

/-- The merges of R164, at most `fuel` of them: the first node extracted becomes the left child, the second the right.
With one node waiting nothing is merged. -/
def hufMerge : Nat → List (Nat × HufNode) → Nat → List (Nat × HufNode) × Nat
  | 0, nodes, nnext => (nodes, nnext)
  | fuel + 1, nodes, nnext =>
    match hufMin nodes with
    | none => (nodes, nnext)
    | some a =>
      let rest := hufDequeue nodes a.1
      match hufMin rest with
      | none => (nodes, nnext)
      | some b =>
        let node : HufNode := ⟨a.2.weight + b.2.weight, some (a.1, b.1), true⟩
        hufMerge fuel (hufDequeue rest b.1 ++ [(nnext, node)]) (nnext + 1)

/-- HUF.build on its operand, the table `freq` (R164): the node array, NNEXT, and the one node left waiting as ROOT. 256
leaves need 255 merges. -/
def hufBuild (u : HufUnit) : HufUnit :=
  let built := hufMerge (Config.hufSymbols - 1) (hufLeaves u.freq) 256
  { u with nodes := built.1, nnext := built.2, root := (hufMin built.1).map (·.1) }

/-- The child of an internal node, `false` the left (R106). -/
def hufChild (nodes : List (Nat × HufNode)) (id : Nat) (bit : Bool) : Option Nat :=
  match nodes.lookup id with
  | some node => node.kids.map fun kids => if bit then kids.2 else kids.1
  | none => none

/-- Whether a node is a leaf (R41). -/
def hufIsLeaf (nodes : List (Nat × HufNode)) (id : Nat) : Bool :=
  match nodes.lookup id with
  | some node => node.kids.isNone
  | none => false

/-- The symbol of a leaf is its id (R41). -/
def leafSymbol (id : Nat) : Byte := BitVec.ofNat 8 id

/-- `walk(node, path)` of R166: the leaves below a node, left to right, each with its path. The fuel bounds the depth,
which is at most 255 (R165). -/
def hufWalk (nodes : List (Nat × HufNode)) : Nat → Nat → List Bool → List (Nat × List Bool)
  | 0, _, _ => []
  | fuel + 1, id, path =>
    match nodes.lookup id with
    | none => []
    | some node =>
      match node.kids with
      | none => [(id, path)]
      | some (l, r) => hufWalk nodes fuel l (path ++ [false]) ++ hufWalk nodes fuel r (path ++ [true])

/-- HUF.assign on its operand, the tree under ROOT (R166). DESIGN CHOICE (log entry 28), where R166 does not apply: with
ROOT none no symbol has a code, and a leaf as root gets the empty code. -/
def hufAssign (u : HufUnit) : HufUnit :=
  match u.root with
  | some root => { u with codes := hufWalk u.nodes Config.hufSymbols root [] }
  | none => { u with codes := [] }

/-- The code of a byte (R42); a byte without a code has no bits. -/
def codeOf (codes : List (Nat × List Bool)) (b : Byte) : List Bool := (codes.lookup b.toNat).getD []

/-- The bit packer's registers and the bytes it has emitted (R43, R168). -/
structure Packer where
  acc : Byte
  nbits : Nat
  emitted : List Byte
  deriving DecidableEq, Repr

/-- One bit into the packer, most significant first (R168). -/
def packBit (p : Packer) (bit : Bool) : Packer :=
  let acc := p.acc ||| ((if bit then 1#8 else 0#8) <<< (7 - p.nbits))
  if p.nbits + 1 = 8 then ⟨0, 0, p.emitted ++ [acc]⟩ else ⟨acc, p.nbits + 1, p.emitted⟩

/-- The bits of a stream into an empty packer (R168). -/
def packAll (bits : List Bool) : Packer := bits.foldl packBit ⟨0, 0, []⟩

/-- The last, zero-padded byte, where one is begun (R105, R168). -/
def packFlush (p : Packer) : List Byte := if 0 < p.nbits then p.emitted ++ [p.acc] else p.emitted

/-- `pack(bits)` (R168). -/
def pack (bits : List Bool) : List Byte := packFlush (packAll bits)

/-- HUF.compress on its operand (R169), with the one-symbol case of R170. -/
def hufCompress (u : HufUnit) (input : List Byte) : HufUnit :=
  let size := BitVec.ofNat 64 input.length
  let built := hufBuild { u with freq := histogram input, acc := 0, nbits := 0 }
  match built.root with
  | none => { built with obj := ⟨[], size, built.freq⟩ }
  | some root =>
    if hufIsLeaf built.nodes root then { built with obj := ⟨[leafSymbol root], size, built.freq⟩ }
    else
      let coded := hufAssign built
      let packer := packAll (input.flatMap (codeOf coded.codes))
      { coded with acc := packer.acc, nbits := packer.nbits, obj := ⟨packFlush packer, size, built.freq⟩ }

/-- The unpacker: the node the walk stands on, the next bit, and the output (R43, R177). -/
structure Unpacker where
  cur : Nat
  bitpos : Nat
  out : List Byte
  deriving DecidableEq, Repr

/-- One bit of the walk (R177). Once `originalSize` bytes are out, no bit is read (R178). -/
def hufBit (nodes : List (Nat × HufNode)) (root originalSize : Nat) (d : Unpacker) (bit : Bool) :
    Except Cause Unpacker :=
  if originalSize ≤ d.out.length then .ok d
  else match hufChild nodes d.cur bit with
    | none => .error .hufOffTree
    | some next =>
      if hufIsLeaf nodes next then .ok ⟨root, d.bitpos + 1, d.out ++ [leafSymbol next]⟩
      else .ok ⟨next, d.bitpos + 1, d.out⟩

/-- The walk over a bit sequence (R175, R177). -/
def hufBits (nodes : List (Nat × HufNode)) (root originalSize : Nat) :
    List Bool → Unpacker → Except Cause Unpacker
  | [], d => .ok d
  | bit :: bits, d =>
    match hufBit nodes root originalSize d bit with
    | .ok d' => hufBits nodes root originalSize bits d'
    | .error c => .error c

/-- HUF.decompress on its operand (R175): the unit with its tree rebuilt, the last bit position and the output. -/
def hufDecompress (u : HufUnit) : Except Cause (HufUnit × Nat × List Byte) :=
  let size := u.obj.originalSize.toNat
  let built := hufBuild { u with freq := u.obj.freqTable }
  match built.root with
  | none => if size = 0 then .ok (built, 0, []) else .error .hufNoSymbol
  | some root =>
    if hufIsLeaf built.nodes root then .ok (built, 0, List.replicate size (leafSymbol root))
    else match hufBits built.nodes root size (unpackBits u.obj.packedBits) ⟨root, 0, []⟩ with
      | .ok d =>
        if size ≤ d.out.length then .ok ({ built with cur := d.cur }, d.bitpos, d.out)
        else .error .hufBitsExhausted
      | .error c => .error c

/-- HUF.build in the machine: from FREQ to NODE, NNEXT and ROOT. -/
def hufBuildOp (s : State) : Except Cause State := .ok { s with huf := hufBuild s.huf }

/-- HUF.assign in the machine: from NODE and ROOT to CODE. -/
def hufAssignOp (s : State) : Except Cause State := .ok { s with huf := hufAssign s.huf }

/-- HUF.compress in the machine: from IBUF to the unit's object. -/
def hufCompressOp (s : State) : Except Cause State :=
  match codecInput s with
  | .ok input => .ok { s with huf := hufCompress s.huf input, ipos := input.length }
  | .error c => .error c

/-- HUF.decompress in the machine: from the unit's object to OBUF. DESIGN CHOICE (log
entry 29), where `original_size` is above CAP_OUT, which check_output lets no command reach: a bad object is Corrupt, a
sound one OutOfMemory by its append. -/
def hufDecompressOp (s : State) : Except Cause State :=
  match hufDecompress s.huf with
  | .ok (u, bitpos, out) => append out { startOutput s with huf := u, bitpos := bitpos }
  | .error c => .error c

/-- HUF.SYM in the machine: the bits of one code word (R177). Without a tree no bit has a child. -/
def hufSymOp (path : List Bool) (s : State) : Except Cause State :=
  match s.huf.root with
  | none => .error .hufOffTree
  | some root =>
    match hufBits s.huf.nodes root s.huf.obj.originalSize.toNat path ⟨s.huf.cur, s.bitpos, outBytes s⟩ with
    | .ok d => extend d.out { s with huf := { s.huf with cur := d.cur }, bitpos := d.bitpos }
    | .error c => .error c

/-- HUF.build (R164). -/
def execHufBuild (s : State) : Host.Outcome State Fault Refusal := settle s (hufBuildOp s)

/-- HUF.assign (R166). -/
def execHufAssign (s : State) : Host.Outcome State Fault Refusal := settle s (hufAssignOp s)

/-- HUF.compress (R169). -/
def execHufCompress (s : State) : Host.Outcome State Fault Refusal := settle s (hufCompressOp s)

/-- HUF.decompress (R175). -/
def execHufDecompress (s : State) : Host.Outcome State Fault Refusal := settle s (hufDecompressOp s)

/-- HUF.SYM (R177). -/
def execHufSym (path : List Bool) (s : State) : Host.Outcome State Fault Refusal := settle s (hufSymOp path s)

end Sys2Proof.Machine
end

