-- ==== Sys2Proof/Machine/Lz77.lean ====
section
/-! DEFINITION. The sliding-window codec (44_lz77.md): LZ77.compress, LZ77.decompress and the elements LZ77.LIT and
LZ77.REF. -/

namespace Sys2Proof.Machine

/-- The default hash of R232. -/
def lz77HashDefault (b0 b1 b2 : Byte) : U16 :=
  (b0.setWidth 16 <<< 8) ^^^ (b1.setWidth 16 <<< 4) ^^^ b2.setWidth 16

/-- `LZ77_HASH` (R232): the default, but where the parameters name another slot (log entry 2). -/
def lz77Hash (p : Params) (b0 b1 b2 : Byte) : U16 :=
  match p.hashOverrides.lookup (65536 * b0.toNat + 256 * b1.toNat + b2.toNat) with
  | some slot => slot
  | none => lz77HashDefault b0 b1 b2

/-- Write a slot of the hash index: each insert overwrites the previous occupant (R231). -/
def slotSet (hash : List (Nat × Nat)) (slot pos : Nat) : List (Nat × Nat) :=
  hash.filter (fun x => decide (x.1 < slot)) ++ (slot, pos) :: hash.filter (fun x => decide (slot < x.1))

/-- The inner loop of R234: how far the bytes at `cand` and at `pos` agree, up to `limit`. There is no test that `cand`
stays below the starting point: a match may overlap it (R238). -/
def matchLength (input : List Byte) : Nat → Nat → Nat → Nat
  | 0, _, _ => 0
  | limit + 1, cand, pos =>
    if input[cand]? = input[pos]? then matchLength input limit (cand + 1) (pos + 1) + 1 else 0

/-- What a candidate gives at `pos` (R234): nothing outside the window (R235), else the match capped so that a byte is
left for the literal (R236), if it has at least three bytes. -/
def lz77Try (input : List Byte) (pos cand : Nat) (u : Lz77Unit) : Lz77Unit :=
  if pos - cand ≤ Config.lzWindow then
    let limit := min Config.lzLookahead (input.length - pos - 1)
    let l := matchLength input limit cand pos
    if Config.lzMinMatch ≤ l then { u with cand := cand, limit := limit, l := l, mlen := l, d := pos - cand }
    else { u with cand := cand, limit := limit, l := l }
  else { u with cand := cand }

/-- Probe the slot of the next three bytes, then update it (R234, R237); with fewer than three bytes left nothing is
hashed. -/
def lz77Probe (p : Params) (input : List Byte) (pos : Nat) (u : Lz77Unit) : Lz77Unit :=
  match input[pos]?, input[pos + 1]?, input[pos + 2]? with
  | some b0, some b1, some b2 =>
    let h := lz77Hash p b0 b1 b2
    let tried :=
      match u.hash.lookup h.toNat with
      | some cand => lz77Try input pos cand { u with h := h }
      | none => { u with h := h }
    { tried with hash := slotSet tried.hash h.toNat pos }
  | _, _, _ => u

/-- Emit a token whose literal is the input byte at `pos` (R234). -/
def lz77Emit (input : List Byte) (offset length pos : Nat) (u : Lz77Unit) : Lz77Unit :=
  match input[pos]? with
  | some b =>
    { u with obj.tokens := u.obj.tokens ++ [⟨BitVec.ofNat 16 offset, BitVec.ofNat 8 length, b⟩] }
  | none => u

/-- One turn of the encoder (R234): the next position and the unit. -/
def lz77Turn (p : Params) (input : List Byte) (pos : Nat) (u : Lz77Unit) : Nat × Lz77Unit :=
  let probed := lz77Probe p input pos { u with mlen := 0, d := 0 }
  if Config.lzMinMatch ≤ probed.mlen then
    (pos + probed.mlen + 1, lz77Emit input probed.d probed.mlen (pos + probed.mlen) probed)
  else (pos + 1, lz77Emit input 0 0 pos probed)

/-- The turns of the encoder while input is left, at most `fuel` of them (R234). -/
def lz77Scan (p : Params) (input : List Byte) : Nat → Nat → Lz77Unit → Nat × Lz77Unit
  | 0, pos, u => (pos, u)
  | fuel + 1, pos, u =>
    if pos < input.length then
      let turned := lz77Turn p input pos u
      lz77Scan p input fuel turned.1 turned.2
    else (pos, u)

/-- LZ77.compress on its operand (R234): every slot is empty when it starts (R233). -/
def lz77Compress (p : Params) (u : Lz77Unit) (input : List Byte) : Nat × Lz77Unit :=
  lz77Scan p input input.length 0 { u with hash := [], obj := ⟨[], BitVec.ofNat 64 input.length⟩ }

/-- The copy of a back-reference, byte by byte, each read seeing the bytes the copy has just written (R73, R245). -/
def lz77Copy (offset : Nat) : Nat → List Byte → List Byte
  | 0, out => out
  | n + 1, out => lz77Copy offset n (out ++ (out[out.length - offset]?).toList)

/-- One token of LZ77.decompress, on the output built so far (the loop body of R245): with offset 0 a literal, whose
length is ignored (R246), else a back-reference (R247). -/
def lz77Element (originalSize : Nat) (out : List Byte) (t : Token) : Except Cause (List Byte) :=
  if t.offset ≠ 0 then
    if out.length < t.offset.toNat then .error .lz77OffsetBeyond
    else if originalSize < out.length + t.length.toNat + 1 then .error .lz77WouldExceed
    else .ok (lz77Copy t.offset.toNat t.length.toNat out ++ [t.nextChar])
  else if originalSize < out.length + 1 then .error .lz77WouldExceed
  else .ok (out ++ [t.nextChar])

/-- The tokens one after another, then the final length test (R245). -/
def lz77Replay (originalSize : Nat) : List Token → List Byte → Except Cause (List Byte)
  | [], out => if out.length = originalSize then .ok out else .error .lz77LengthDiffers
  | t :: ts, out =>
    match lz77Element originalSize out t with
    | .ok out' => lz77Replay originalSize ts out'
    | .error c => .error c

/-- LZ77.decompress on its operand (R245). -/
def lz77Decompress (obj : Lz77Obj) : Except Cause (List Byte) := lz77Replay obj.originalSize.toNat obj.tokens []

/-- The copy counter after a token: the length of the copy it made (R47). -/
def lz77Count (u : Lz77Unit) (t : Token) : Lz77Unit :=
  if t.offset ≠ 0 then { u with i := t.length.toNat } else u

/-- LZ77.compress in the machine: from IBUF to the unit's object. -/
def lz77CompressOp (s : State) : Except Cause State :=
  match codecInput s with
  | .ok input => .ok { s with ipos := (lz77Compress s.cfg s.lz77 input).1, lz77 := (lz77Compress s.cfg s.lz77 input).2 }
  | .error c => .error c

/-- LZ77.decompress in the machine: from the unit's object to OBUF. DESIGN CHOICE (log
entry 29), where `original_size` is above CAP_OUT, which check_output lets no command reach: a bad object is Corrupt, a
sound one OutOfMemory by its append. -/
def lz77DecompressOp (s : State) : Except Cause State :=
  match lz77Decompress s.lz77.obj with
  | .ok out =>
    append out { startOutput s with
      lz77 := s.lz77.obj.tokens.foldl lz77Count s.lz77
      ipos := s.lz77.obj.tokens.length }
  | .error c => .error c

/-- A token in the machine: its bytes onto OBUF. -/
def lz77TokenOp (t : Token) (s : State) : Except Cause State :=
  match lz77Element s.lz77.obj.originalSize.toNat (outBytes s) t with
  | .ok out => extend out { s with lz77 := lz77Count s.lz77 t, ipos := s.ipos + 1 }
  | .error c => .error c

/-- LZ77.compress (R234). -/
def execLz77Compress (s : State) : Host.Outcome State Fault Refusal := settle s (lz77CompressOp s)

/-- LZ77.decompress (R245). -/
def execLz77Decompress (s : State) : Host.Outcome State Fault Refusal := settle s (lz77DecompressOp s)

/-- LZ77.LIT (R246). -/
def execLz77Lit (length nextChar : Byte) (s : State) : Host.Outcome State Fault Refusal :=
  settle s (lz77TokenOp ⟨0, length, nextChar⟩ s)

/-- LZ77.REF (R247); the term with offset 0 is not well formed and acts as the literal it would encode (log entry
14). -/
def execLz77Ref (offset : U16) (length nextChar : Byte) (s : State) : Host.Outcome State Fault Refusal :=
  settle s (lz77TokenOp ⟨offset, length, nextChar⟩ s)

end Sys2Proof.Machine
end

