-- ==== Sys2Proof/Machine/Lzw.lean ====
section
/-! DEFINITION. The LZW codec (43_lzw.md): LZW.compress, LZW.decompress and the element LZW.CODE. -/

namespace Sys2Proof.Machine

/-- NEXT, the next slot to fill (R44, R201). -/
def lzwNext (dict : List (Nat × Byte)) : Nat := Config.lzwFirstSlot + dict.length

/-- The insertion of R204 and R210: only while NEXT is below 4096. -/
def lzwInsert (dict : List (Nat × Byte)) (entry : Nat × Byte) : List (Nat × Byte) :=
  if lzwNext dict < Config.lzwDictCap then dict ++ [entry] else dict

/-- The linear scan over used entries, the first of which is slot `e` (R202). -/
def lzwScan (e : Nat) (dict : List (Nat × Byte)) (entry : Nat × Byte) : Option Nat :=
  match dict with
  | [] => none
  | x :: xs => if x = entry then some e else lzwScan (e + 1) xs entry

/-- `find(w, k)` (R202). -/
def lzwFind (dict : List (Nat × Byte)) (w : Nat) (k : Byte) : Option Nat :=
  lzwScan Config.lzwFirstSlot dict (w, k)

/-- Emit a code (R204). -/
def lzwEmit (u : LzwUnit) (w : Nat) : LzwUnit := { u with obj.codes := u.obj.codes ++ [BitVec.ofNat 16 w] }

/-- One input byte of the encoder (R204); the first byte becomes `w`. -/
def lzwTurn (u : LzwUnit) (k : Byte) : LzwUnit :=
  match u.w with
  | none => { u with w := some k.toNat }
  | some w =>
    match lzwFind u.dict w k with
    | some e => { u with k := k, w := some e }
    | none => { lzwEmit u w with k := k, dict := lzwInsert u.dict (w, k), w := some k.toNat }

/-- LZW.compress on its operand (R204): one turn per byte, then the final `w`. -/
def lzwCompress (u : LzwUnit) (input : List Byte) : LzwUnit :=
  let fresh : LzwUnit := { u with dict := [], w := none, obj := ⟨[], BitVec.ofNat 64 input.length⟩ }
  let last := input.foldl lzwTurn fresh
  match last.w with
  | some w => lzwEmit last w
  | none => last

/-- Push the bytes of a code onto the expansion stack, last byte first, so that popping gives `str(code)` forward (R44,
R45). Entry 256 and an unused slot have no sequence (R203). The fuel bounds the prefix chain. -/
def lzwExpand (dict : List (Nat × Byte)) : Nat → Nat → List Byte → Option (List Byte)
  | 0, _, _ => none
  | fuel + 1, code, stack =>
    if code < Config.lzwLiterals then some (BitVec.ofNat 8 code :: stack)
    else if code = Config.lzwReserved then none
    else match dict[code - Config.lzwFirstSlot]? with
      | some (pre, char) => lzwExpand dict fuel pre (char :: stack)
      | none => none

/-- `str(code)` (R44). A prefix is an older code, so the chain is no longer than the dictionary and a literal. -/
def lzwStr (dict : List (Nat × Byte)) (code : Nat) : Option (List Byte) := lzwExpand dict (dict.length + 1) code []

/-- What a code stands for (R110, R210): a literal, a used entry, or the single slot ahead; anything else is not
resolvable. -/
def lzwResolve (dict : List (Nat × Byte)) (prev code : Nat) : Option (List Byte) :=
  if code < Config.lzwLiterals || (Config.lzwFirstSlot ≤ code && code < lzwNext dict) then lzwStr dict code
  else if code = lzwNext dict ∧ lzwNext dict < Config.lzwDictCap then
    match lzwStr dict prev with
    | some (b :: bs) => some (b :: bs ++ [b])
    | _ => none
  else none

/-- One code of LZW.decompress, on the output built so far (R210, R211); `first` tells the first code of the stream.
DESIGN CHOICE (log entry 30): a first code with output already built, which no run meets, is appended to it and tested
against the whole length, where R210 sets the output to the one byte. -/
def lzwElement (originalSize : Nat) (first : Bool) (u : LzwUnit) (out : List Byte) (code : U16) :
    Except Cause (LzwUnit × List Byte) :=
  if first then
    if Config.lzwLiterals ≤ code.toNat then .error .lzwFirstNotLiteral
    else if originalSize < out.length + 1 then .error .lzwWouldExceed
    else .ok ({ u with prev := code.toNat }, out ++ [BitVec.ofNat 8 code.toNat])
  else
    match lzwResolve u.dict u.prev code.toNat with
    | some (b :: bs) =>
      if originalSize < out.length + (b :: bs).length then .error .lzwWouldExceed
      else .ok ({ u with dict := lzwInsert u.dict (u.prev, b), prev := code.toNat, stack := b :: bs },
        out ++ b :: bs)
    | _ => .error .lzwNotResolvable

/-- The codes one after another, then the final length test (R210). -/
def lzwReplay (originalSize : Nat) : Bool → List U16 → LzwUnit → List Byte → Except Cause (LzwUnit × List Byte)
  | _, [], u, out => if out.length = originalSize then .ok (u, out) else .error .lzwShort
  | first, code :: codes, u, out =>
    match lzwElement originalSize first u out code with
    | .ok (u', out') => lzwReplay originalSize false codes u' out'
    | .error c => .error c

/-- LZW.decompress on its operand (R210): the unit at the end and the output. -/
def lzwDecompress (u : LzwUnit) : Except Cause (LzwUnit × List Byte) :=
  lzwReplay u.obj.originalSize.toNat true u.obj.codes { u with dict := [] } []

/-- LZW.compress in the machine: from IBUF to the unit's object. -/
def lzwCompressOp (s : State) : Except Cause State :=
  match codecInput s with
  | .ok input => .ok { s with lzw := lzwCompress s.lzw input, ipos := input.length }
  | .error c => .error c

/-- LZW.decompress in the machine: from the unit's object to OBUF. DESIGN CHOICE (log
entry 29), where `original_size` is above CAP_OUT, which check_output lets no command reach: a bad object is Corrupt, a
sound one OutOfMemory by its append. -/
def lzwDecompressOp (s : State) : Except Cause State :=
  match lzwDecompress s.lzw with
  | .ok (u, out) => append out { startOutput s with lzw := u, ipos := s.lzw.obj.codes.length }
  | .error c => .error c

/-- LZW.CODE in the machine: one code onto OBUF. The cursor at 0 tells the first code (log
entry 30 where output has been built by then). -/
def lzwCodeOp (code : U16) (s : State) : Except Cause State :=
  match lzwElement s.lzw.obj.originalSize.toNat (s.ipos == 0) s.lzw (outBytes s) code with
  | .ok (u, out) => extend out { s with lzw := u, ipos := s.ipos + 1 }
  | .error c => .error c

/-- LZW.compress (R204). -/
def execLzwCompress (s : State) : Host.Outcome State Fault Refusal := settle s (lzwCompressOp s)

/-- LZW.decompress (R210). -/
def execLzwDecompress (s : State) : Host.Outcome State Fault Refusal := settle s (lzwDecompressOp s)

/-- LZW.CODE (R211). -/
def execLzwCode (code : U16) (s : State) : Host.Outcome State Fault Refusal := settle s (lzwCodeOp code s)

end Sys2Proof.Machine
end

