-- ==== Sys2Proof/Machine/Rle.lean ====
section
/-! DEFINITION. The RLE codec (41_rle.md): RLE.compress, RLE.decompress and the element RLE.PAIR. -/

namespace Sys2Proof.Machine

/-- How many of the first `m` bytes continue a run of `v` (the inner loop of R141). -/
def runLength (v : Byte) : Nat → List Byte → Nat
  | 0, _ => 0
  | _, [] => 0
  | m + 1, b :: bs => if b = v then runLength v m bs + 1 else 0

/-- The runs of a byte sequence, left to right, each cut at 255 (R141). The fuel is the number of turns of the outer
loop; the input's length suffices. -/
def rleRuns : Nat → List Byte → List (Byte × Byte)
  | 0, _ => []
  | _, [] => []
  | fuel + 1, v :: rest =>
    let more := runLength v (Config.rleMaxRun - 1) rest
    (BitVec.ofNat 8 (more + 1), v) :: rleRuns fuel (rest.drop more)

/-- RLE.compress on its operand (R141). -/
def rleCompress (input : List Byte) : RleObj := ⟨rleRuns input.length input, BitVec.ofNat 64 input.length⟩

/-- One pair of RLE.decompress, on the output built so far (R145, R146). -/
def rleElement (originalSize : Nat) (out : List Byte) (pair : Byte × Byte) : Except Cause (List Byte) :=
  if pair.1 = 0 then .error .rleCountZero
  else if originalSize < out.length + pair.1.toNat then .error .rleWouldExceed
  else .ok (out ++ List.replicate pair.1.toNat pair.2)

/-- The pairs one after another, then the final length test (R145). -/
def rleReplay (originalSize : Nat) : List (Byte × Byte) → List Byte → Except Cause (List Byte)
  | [], out => if out.length = originalSize then .ok out else .error .rleShort
  | pair :: pairs, out =>
    match rleElement originalSize out pair with
    | .ok out' => rleReplay originalSize pairs out'
    | .error c => .error c

/-- RLE.decompress on its operand (R145). -/
def rleDecompress (obj : RleObj) : Except Cause (List Byte) := rleReplay obj.originalSize.toNat obj.runs []

/-- The registers `v` and `c` after the last turn of RLE.compress (R33). -/
def rleLast (u : RleUnit) (obj : RleObj) : RleUnit :=
  match obj.runs.getLast? with
  | some (c, v) => ⟨v, c, obj⟩
  | none => { u with obj := obj }

/-- RLE.compress in the machine: from IBUF to the unit's object. -/
def rleCompressOp (s : State) : Except Cause State :=
  match codecInput s with
  | .ok input => .ok { s with rle := rleLast s.rle (rleCompress input), ipos := input.length }
  | .error c => .error c

/-- RLE.decompress in the machine: from the unit's object to OBUF. DESIGN CHOICE (log
entry 29), where `original_size` is above CAP_OUT, which check_output lets no command reach: a sound
object is OutOfMemory by its append; a bad one is Corrupt as R145 says. -/
def rleDecompressOp (s : State) : Except Cause State :=
  match rleDecompress s.rle.obj with
  | .ok out => append out { startOutput s with ipos := s.rle.obj.runs.length }
  | .error c => .error c

/-- RLE.PAIR in the machine: one pair onto OBUF. -/
def rlePairOp (count value : Byte) (s : State) : Except Cause State :=
  match rleElement s.rle.obj.originalSize.toNat (outBytes s) (count, value) with
  | .ok out => extend out { s with ipos := s.ipos + 1 }
  | .error c => .error c

/-- RLE.compress (R141). -/
def execRleCompress (s : State) : Host.Outcome State Fault Refusal := settle s (rleCompressOp s)

/-- RLE.decompress (R145). -/
def execRleDecompress (s : State) : Host.Outcome State Fault Refusal := settle s (rleDecompressOp s)

/-- RLE.PAIR (R146). -/
def execRlePair (count value : Byte) (s : State) : Host.Outcome State Fault Refusal :=
  settle s (rlePairOp count value s)

end Sys2Proof.Machine
end

