-- ==== Sys2Proof/Machine/Serial.lean ====
section
/-! DEFINITION. The four serializers and the four deserializers (45_dispatcher.md sections 4 and 5), over the layouts of
30_encoding.md. -/

namespace Sys2Proof.Machine

/-- The RLE wire image (R95, R96, R280). -/
def serRle (c : RleObj) : List Byte :=
  toLe64 c.originalSize ++ toLe64 (BitVec.ofNat 64 (2 * c.runs.length)) ++ c.runs.flatMap fun r => [r.1, r.2]

/-- The Huffman wire image (R100, R101, R281). -/
def serHuf (c : HufObj) : List Byte :=
  toLe64 c.originalSize ++ toLe64 (BitVec.ofNat 64 c.packedBits.length) ++ c.freqTable.flatMap toLe32 ++ c.packedBits

/-- The LZW wire image (R107, R282). -/
def serLzw (c : LzwObj) : List Byte :=
  toLe64 c.originalSize ++ toLe64 (BitVec.ofNat 64 c.codes.length) ++ c.codes.flatMap toLe16

/-- The bytes of a token (R114, R283). -/
def tokenBytes (t : Token) : List Byte := toBe16 t.offset ++ [t.length, t.nextChar]

/-- The LZ77 wire image (R113, R116, R283). -/
def serLz77 (c : Lz77Obj) : List Byte := toBe64 c.originalSize ++ c.tokens.flatMap tokenBytes

/-- The pairs of a pair area (R97, R285). -/
def parsePairs : List Byte → List (Byte × Byte)
  | count :: value :: rest => (count, value) :: parsePairs rest
  | [_] => []
  | [] => []

/-- The codes of a code area (R109, R287). -/
def parseCodes : List Byte → List U16
  | low :: high :: rest => le16 [low, high] :: parseCodes rest
  | [_] => []
  | [] => []

/-- The tokens of a token area (R114, R288). -/
def parseTokens : List Byte → List Token
  | o1 :: o0 :: length :: nextChar :: rest => ⟨be16 [o1, o0], length, nextChar⟩ :: parseTokens rest
  | [_, _, _] => []
  | [_, _] => []
  | [_] => []
  | [] => []

/-- The 32-bit words of a table area (R100, R286). -/
def parseWords : List Byte → List U32
  | b0 :: b1 :: b2 :: b3 :: rest => le32 [b0, b1, b2, b3] :: parseWords rest
  | [_, _, _] => []
  | [_, _] => []
  | [_] => []
  | [] => []

/-- `n` bytes of the input at an address (R63). -/
def field (input : List Byte) (a n : Nat) : List Byte := (input.drop a).take n

/-- The frequency table of a Huffman image, at offset 16 (R100, R286). -/
def parseFreq (input : List Byte) : List U32 := parseWords (field input 16 (4 * Config.hufSymbols))

/-- DES.RLE on its operand (R285). -/
def desRle (input : List Byte) : Except Cause RleObj :=
  if input.length < Config.rleHeader then .error .rleTruncated
  else if leNat (field input 8 8) ≠ input.length - Config.rleHeader then .error .rleSizeDiffers
  else if leNat (field input 8 8) % 2 ≠ 0 then .error .rleMidPair
  else .ok ⟨parsePairs (input.drop Config.rleHeader), le64 (field input 0 8)⟩

/-- DES.HUF on its operand (R286). -/
def desHuf (input : List Byte) : Except Cause HufObj :=
  if input.length < Config.hufHeader then .error .hufTruncated
  else if leNat (field input 8 8) ≠ input.length - Config.hufHeader then .error .hufSizeDiffers
  else .ok ⟨input.drop Config.hufHeader, le64 (field input 0 8), parseFreq input⟩

/-- DES.LZW on its operand (R287): the comparison is one no product can wrap (R81). -/
def desLzw (input : List Byte) : Except Cause LzwObj :=
  if input.length < Config.lzwHeader then .error .lzwTruncated
  else if (input.length - Config.lzwHeader) % 2 ≠ 0 ∨
      leNat (field input 8 8) ≠ (input.length - Config.lzwHeader) / 2 then .error .lzwCountDiffers
  else .ok ⟨parseCodes (input.drop Config.lzwHeader), le64 (field input 0 8)⟩

/-- DES.LZ77 on its operand (R288). -/
def desLz77 (input : List Byte) : Except Cause Lz77Obj :=
  if input.length < Config.lz77Header then .error .lz77Truncated
  else if (input.length - Config.lz77Header) % 4 ≠ 0 then .error .lz77PartialToken
  else .ok ⟨parseTokens (input.drop Config.lz77Header), be64 (field input 0 8)⟩

/-- The capacity check every serializer makes before it writes (R280 to R283): the whole image or an error. -/
def imageFits (c : Cause) (capOut : Nat) (image : List Byte) : Except Cause (List Byte) :=
  if capOut < image.length then .error c else .ok image

/-- A serializer in the machine: the capacity check, then the appends in ascending order, which are one append of the
whole image. -/
def serializeOp (c : Cause) (image : List Byte) (s : State) : Except Cause State :=
  match imageFits c s.cfg.capOut image with
  | .ok bs => append bs s
  | .error e => .error e

/-- SER.RLE in the machine. -/
def serRleOp (s : State) : Except Cause State := serializeOp .rleImageBeyondOutput (serRle s.rle.obj) s
/-- SER.HUF in the machine. -/
def serHufOp (s : State) : Except Cause State := serializeOp .hufImageBeyondOutput (serHuf s.huf.obj) s
/-- SER.LZW in the machine. -/
def serLzwOp (s : State) : Except Cause State := serializeOp .lzwImageBeyondOutput (serLzw s.lzw.obj) s
/-- SER.LZ77 in the machine. -/
def serLz77Op (s : State) : Except Cause State := serializeOp .lz77ImageBeyondOutput (serLz77 s.lz77.obj) s

/-- A deserializer in the machine: from IBUF to the unit's object. -/
def parseOp {α : Type} (parse : List Byte → Except Cause α) (put : State → α → State) (s : State) :
    Except Cause State :=
  match imageInput s with
  | .ok input =>
    match parse input with
    | .ok obj => .ok (put s obj)
    | .error c => .error c
  | .error c => .error c

/-- DES.RLE in the machine. -/
def desRleOp (s : State) : Except Cause State := parseOp desRle (fun s obj => { s with rle.obj := obj }) s
/-- DES.HUF in the machine. -/
def desHufOp (s : State) : Except Cause State := parseOp desHuf (fun s obj => { s with huf.obj := obj }) s
/-- DES.LZW in the machine. -/
def desLzwOp (s : State) : Except Cause State := parseOp desLzw (fun s obj => { s with lzw.obj := obj }) s
/-- DES.LZ77 in the machine. -/
def desLz77Op (s : State) : Except Cause State := parseOp desLz77 (fun s obj => { s with lz77.obj := obj }) s

/-- SER.RLE (R280). -/
def execSerRle (s : State) : Host.Outcome State Fault Refusal := settle s (serRleOp s)
/-- SER.HUF (R281). -/
def execSerHuf (s : State) : Host.Outcome State Fault Refusal := settle s (serHufOp s)
/-- SER.LZW (R282). -/
def execSerLzw (s : State) : Host.Outcome State Fault Refusal := settle s (serLzwOp s)
/-- SER.LZ77 (R283). -/
def execSerLz77 (s : State) : Host.Outcome State Fault Refusal := settle s (serLz77Op s)
/-- DES.RLE (R285). -/
def execDesRle (s : State) : Host.Outcome State Fault Refusal := settle s (desRleOp s)
/-- DES.HUF (R286). -/
def execDesHuf (s : State) : Host.Outcome State Fault Refusal := settle s (desHufOp s)
/-- DES.LZW (R287). -/
def execDesLzw (s : State) : Host.Outcome State Fault Refusal := settle s (desLzwOp s)
/-- DES.LZ77 (R288). -/
def execDesLz77 (s : State) : Host.Outcome State Fault Refusal := settle s (desLz77Op s)

end Sys2Proof.Machine
end

