-- ==== Sys2Proof/Machine/Commands.lean ====
section
/-! DEFINITION. The eight host commands (45_dispatcher.md sections 1 to 3), in the machine and as the pure function
`run` of 00_scope.md R15. -/

namespace Sys2Proof.Machine

/-- A compress command after the selector test (R270 to R275): the input tests, an output of length 0, the codec, the
serializer. -/
def compressOp (codec serializer : State → Except Cause State) (s : State) : Except Cause State :=
  andThen (andThen (checkInput s) fun t => codec (startOutput t)) serializer

/-- A decompress command after the selector test (R276 to R279): the input tests, the deserializer, check_output on the
size it declared, the decoder. -/
def decompressOp (deserializer : State → Except Cause State) (size : State → U64)
    (codec : State → Except Cause State) (s : State) : Except Cause State :=
  andThen (andThen (andThen (checkInput s) fun t => deserializer (startOutput t))
    fun t => checkOutput (size t) t) codec

/-- `original_size` of the object the RLE deserializer made. -/
def rleSize (s : State) : U64 := s.rle.obj.originalSize
/-- `original_size` of the object the Huffman deserializer made. -/
def hufSize (s : State) : U64 := s.huf.obj.originalSize
/-- `original_size` of the object the LZW deserializer made. -/
def lzwSize (s : State) : U64 := s.lzw.obj.originalSize
/-- `original_size` of the object the LZ77 deserializer made. -/
def lz77Size (s : State) : U64 := s.lz77.obj.originalSize

/-- C.LZ77 (R272). -/
def execCLz77 (s : State) : Host.Outcome State Fault Refusal :=
  settleCommand s (compressOp lz77CompressOp serLz77Op s)
/-- C.HUF (R273). -/
def execCHuf (s : State) : Host.Outcome State Fault Refusal :=
  settleCommand s (compressOp hufCompressOp serHufOp s)
/-- C.RLE (R274). -/
def execCRle (s : State) : Host.Outcome State Fault Refusal :=
  settleCommand s (compressOp rleCompressOp serRleOp s)
/-- C.LZW (R275). -/
def execCLzw (s : State) : Host.Outcome State Fault Refusal :=
  settleCommand s (compressOp lzwCompressOp serLzwOp s)
/-- D.LZ77 (R276). -/
def execDLz77 (s : State) : Host.Outcome State Fault Refusal :=
  settleCommand s (decompressOp desLz77Op lz77Size lz77DecompressOp s)
/-- D.HUF (R277). -/
def execDHuf (s : State) : Host.Outcome State Fault Refusal :=
  settleCommand s (decompressOp desHufOp hufSize hufDecompressOp s)
/-- D.RLE (R278). -/
def execDRle (s : State) : Host.Outcome State Fault Refusal :=
  settleCommand s (decompressOp desRleOp rleSize rleDecompressOp s)
/-- D.LZW (R279). -/
def execDLzw (s : State) : Host.Outcome State Fault Refusal :=
  settleCommand s (decompressOp desLzwOp lzwSize lzwDecompressOp s)

/-- The wire image of an input under each codec (R272 to R275). -/
def imageBytes (p : Params) (input : List Byte) : Codec → List Byte
  | .lz77 => serLz77 (lz77Compress p Lz77Unit.initial input).2.obj
  | .huf => serHuf (hufCompress HufUnit.initial input).obj
  | .rle => serRle (rleCompress input)
  | .lzw => serLzw (lzwCompress LzwUnit.initial input).obj

/-- The cause of a wire image longer than CAP_OUT (R280 to R283). -/
def imageCause : Codec → Cause
  | .lz77 => .lz77ImageBeyondOutput
  | .huf => .hufImageBeyondOutput
  | .rle => .rleImageBeyondOutput
  | .lzw => .lzwImageBeyondOutput

/-- The bytes a compress command makes of its input, or its error (R272 to R275). -/
def compressBytes (p : Params) (input : List Byte) (k : Codec) : Except Cause (List Byte) :=
  imageFits (imageCause k) p.capOut (imageBytes p input k)

/-- check_output, then the decoder (R290). -/
def decodeWithin (p : Params) (size : U64) (decoded : Except Cause (List Byte)) : Except Cause (List Byte) :=
  if p.capOut < size.toNat then .error .declaredBeyondOutput else decoded

/-- The bytes a decompress command makes of its input, or its error (R276 to R279). -/
def decompressBytes (p : Params) (input : List Byte) : Codec → Except Cause (List Byte)
  | .lz77 =>
    match desLz77 input with
    | .ok c => decodeWithin p c.originalSize (lz77Decompress c)
    | .error e => .error e
  | .huf =>
    match desHuf input with
    | .ok c => decodeWithin p c.originalSize
        (match hufDecompress { HufUnit.initial with obj := c } with
          | .ok r => .ok r.2.2
          | .error e => .error e)
    | .error e => .error e
  | .rle =>
    match desRle input with
    | .ok c => decodeWithin p c.originalSize (rleDecompress c)
    | .error e => .error e
  | .lzw =>
    match desLzw input with
    | .ok c => decodeWithin p c.originalSize
        (match lzwDecompress { LzwUnit.initial with obj := c } with
          | .ok r => .ok r.2
          | .error e => .error e)
    | .error e => .error e

/-- The whole observable behaviour of a command (R15, R270, R271): from the parameters, the direction, the selector and
the input bytes to the output bytes or the cause of the error. -/
def runCommand (p : Params) (dir : BitVec 1) (alg : Byte) (input : List Byte) : Except Cause (List Byte) :=
  match codecOf alg with
  | none => .error .unknownAlgorithm
  | some k =>
    if input.length = 0 then .error .emptyInput
    else if p.capIn < input.length then .error .inputBeyondBuffer
    else if dir = 0 then compressBytes p input k
    else decompressBytes p input k

end Sys2Proof.Machine
end

