-- ==== Sys2Proof/Machine/HostPort.lean ====
section
/-! DEFINITION. The host's side of the interface: which accesses there are and which the model refuses (10_state.md
R22, 20_memory.md R72, 70_reset_and_hazards.md R350 to R357, 93_implementation_defined.md U8, U9, U12). -/

namespace Sys2Proof.Machine

/-- Reset (R350, R351): the interface registers 0, IBUF and OBUF without value, a new draw of what is unspecified, a
running command abandoned. Unit storage need not be cleared (R352) and is left; the parameters and the host are not
the engine's (log entry 19). -/
def resetEngine (s : State) : State :=
  { s with
    alg := 0, dir := 0, busy := 0, status := 0, ilen := 0, olen := 0, ibuf := [], obuf := [], epoch := s.epoch + 1 }

/-- The registers a host may write (R22). -/
def hostWritable : Reg → Bool
  | .alg | .dir | .start | .ilen => true
  | .busy | .status | .olen => false

/-- The host writes a register: never a read-only one (U12), and while BUSY = 1 only START (R72, U9). -/
def hostWriteReg (r : Reg) (v : U64) (s : State) : Host.Outcome State Fault Refusal :=
  if hostWritable r = false then .refused .readOnlyRegister
  else if s.busy = 1 ∧ r ≠ .start then .refused .hostAccessWhileBusy
  else .next (writeReg s r v)

/-- The host reads a register: while BUSY = 1 only BUSY, and START, which reads as 0 (R72, U9). The value joins what
the host has observed. -/
def hostReadReg (r : Reg) (s : State) : Host.Outcome State Fault Refusal :=
  if s.busy = 1 ∧ r ≠ .busy ∧ r ≠ .start then .refused .hostAccessWhileBusy
  else .next { s with observed := s.observed ++ [readReg s r] }

/-- The host writes bytes into IBUF, while BUSY = 0 (R30, R355), at addresses that exist. -/
def hostWriteIbuf (a : Nat) (bs : List Byte) (s : State) : Host.Outcome State Fault Refusal :=
  if s.busy = 1 then .refused .hostAccessWhileBusy
  else if s.cfg.capIn < a + bs.length then .fault .noSuchAddress
  else .next { s with ibuf := memWrite s.ibuf a bs }

/-- The host reads a byte of the result (R30, R357): not while BUSY = 1, not at an address that does not exist, not at
or above OLEN (R49). -/
def hostReadObuf (a : Nat) (s : State) : Host.Outcome State Fault Refusal :=
  if s.busy = 1 then .refused .hostAccessWhileBusy
  else if s.cfg.capOut ≤ a then .fault .noSuchAddress
  else if s.olen.toNat ≤ a then .refused .unspecifiedOutput
  else .next { s with observed := s.observed ++ [(obufByte s a).setWidth 64] }

/-- The host copies OBUF[0..n) to IBUF[0..n) (R357): the reads, then the writes. -/
def hostCopyBack (n : Nat) (s : State) : Host.Outcome State Fault Refusal :=
  if s.busy = 1 then .refused .hostAccessWhileBusy
  else if s.cfg.capIn < n then .fault .noSuchAddress
  else if s.olen.toNat < n then .refused .unspecifiedOutput
  else .next { s with ibuf := memWrite s.ibuf 0 ((List.range n).map (obufByte s)) }

/-- Whose turn it is, from the head of the host's list (log entry 7): the engine's, on this state, or the host's, with
this outcome. Without a host action waiting the engine has the turn. -/
inductive Turn where
  | engine (s : State)
  | host (o : Host.Outcome State Fault Refusal)

/-- Who moves next. `awaitIdle` reads BUSY until it is 0 (R355): it stays at the head while BUSY = 1. -/
def whoMoves (s : State) : Turn :=
  match s.host with
  | [] => .engine s
  | .engineTurn :: rest => .engine { s with host := rest }
  | .awaitIdle :: rest => if s.busy = 0 then .host (.next { s with host := rest }) else .engine s
  | .writeReg r v :: rest => .host (hostWriteReg r v { s with host := rest })
  | .readReg r :: rest => .host (hostReadReg r { s with host := rest })
  | .writeIbuf a bs :: rest => .host (hostWriteIbuf a bs { s with host := rest })
  | .readObuf a :: rest => .host (hostReadObuf a { s with host := rest })
  | .copyBack n :: rest => .host (hostCopyBack n { s with host := rest })
  | .reset :: rest => .host (.next (resetEngine { s with host := rest }))

end Sys2Proof.Machine
end

