-- ==== Sys2Proof/Machine/Sequencer.lean ====
section
/-! DEFINITION. The engine's sequencer: what one turn of the engine is, at either grain (10_state.md R21, 00_scope.md
R15), and how the next command word or stream element is fetched. It names the instruction; Step.lean runs it. -/

namespace Sys2Proof.Machine

/-- What follows an instruction the sequencer has run. -/
inductive After where
  /-- nothing: the next turn goes on from the state the instruction left -/
  | stay
  /-- the codec has made its object: the serializer is next -/
  | coded
  /-- the deserializer has made the object: check_output is next -/
  | parsed
  /-- the Huffman tree is built: the walk starts at its root -/
  | walk
  /-- the output is whole: the command completes -/
  | finish
  deriving DecidableEq, Repr

/-- One turn of the engine. -/
inductive Work where
  /-- idle: nothing to do -/
  | rest
  /-- raise an error -/
  | trap (c : Cause)
  /-- a move of the sequencer itself -/
  | go (t : State)
  /-- run an instruction on a state, then what follows -/
  | run (i : Instr) (t : State) (after : After)

/-- What follows, unless the instruction has ended the command by raising. -/
def afterRun (after : After) (t : State) : State :=
  if t.busy = 0 then t
  else match after with
    | .stay => t
    | .coded => { t with stage := .coded }
    | .parsed => { t with stage := .parsed }
    | .walk => { t with stage := .decoding, huf.cur := t.huf.root.getD t.huf.cur }
    | .finish => complete t

/-- The first operation of a command: its codec's compress, or its deserializer (R272 to R279). -/
def firstOperation (dir : BitVec 1) : Codec → Instr
  | .lz77 => if dir = 0 then .lz77Compress else .desLz77
  | .huf => if dir = 0 then .hufCompress else .desHuf
  | .rle => if dir = 0 then .rleCompress else .desRle
  | .lzw => if dir = 0 then .lzwCompress else .desLzw

/-- The serializer of a codec (R272 to R275). -/
def serializerOf : Codec → Instr
  | .lz77 => .serLz77
  | .huf => .serHuf
  | .rle => .serRle
  | .lzw => .serLzw

/-- `original_size` of the object of a codec's unit. -/
def objectSize (s : State) : Codec → U64
  | .lz77 => lz77Size s
  | .huf => hufSize s
  | .rle => rleSize s
  | .lzw => lzwSize s

/-- Start a decoder (R50): its cursor at 0, its dictionary empty. -/
def startDecoder (s : State) : Codec → State
  | .lz77 => { s with stage := .decoding, ipos := 0 }
  | .huf => { s with bitpos := 0, huf.freq := s.huf.obj.freqTable }
  | .rle => { s with stage := .decoding, ipos := 0 }
  | .lzw => { s with stage := .decoding, ipos := 0, lzw.dict := [] }

/-- check_output, then the start of the decoder, which for Huffman builds the tree (R175, R290). -/
def parsedWork (s : State) (k : Codec) : Work :=
  match checkOutput (objectSize s k) s with
  | .error c => .trap c
  | .ok t =>
    match k with
    | .huf => .run .hufBuild (startDecoder t k) .walk
    | .lz77 | .rle | .lzw => .go (startDecoder t k)

/-- The cause a stream gives that ends inside an element. -/
def cutCause : Format → Cause
  | .rlePair => .rleMidPair
  | .lzwCode => .lzwCountDiffers
  | .lzToken => .lz77PartialToken
  | .command => .unknownAlgorithm

/-- Fetch the next element of a byte stream from the wire image in IBUF (R75, R97, R109, R114): at the end of the image
the final length test (R145, R210, R245), else the element. -/
def elementWork (s : State) (f : Format) (at_ : Nat) (size : U64) (short : Cause) : Work :=
  match (inputBytes s).drop at_ with
  | [] => if s.opos = size.toNat then .go (complete s) else .trap short
  | b :: bs =>
    match decode f (b :: bs) with
    | .ok (i, _) => .run i s .stay
    | .error _ => .trap (cutCause f)

/-- The bits of the wire image not yet read (R104, R175). -/
def remainingBits (s : State) : List Bool :=
  (unpackBits ((inputBytes s).drop Config.hufHeader)).drop s.bitpos

/-- Fetch the next code word (R175 to R179): none is fetched without a tree, in the one-symbol case, or once the owed
bytes are out. -/
def symWork (s : State) : Work :=
  match s.huf.root with
  | none => if (hufSize s).toNat = 0 then .go (complete s) else .trap .hufNoSymbol
  | some root =>
    if hufIsLeaf s.huf.nodes root then
      match append (List.replicate (hufSize s).toNat (leafSymbol root)) s with
      | .ok t => .go (complete t)
      | .error c => .trap c
    else if (hufSize s).toNat ≤ s.opos then .go (complete s)
    else match decodeSym (hufChild s.huf.nodes) (hufIsLeaf s.huf.nodes) root (remainingBits s) with
      | .ok (i, _) => .run i s .stay
      | .error .offTheTree => .trap .hufOffTree
      | .error _ => .trap .hufBitsExhausted

/-- The decoder's turn (R145, R175, R210, R245). -/
def decodingWork (s : State) : Codec → Work
  | .lz77 => elementWork s .lzToken (Config.lz77Header + 4 * s.ipos) (lz77Size s) .lz77LengthDiffers
  | .huf => symWork s
  | .rle => elementWork s .rlePair (Config.rleHeader + 2 * s.ipos) (rleSize s) .rleShort
  | .lzw => elementWork s .lzwCode (Config.lzwHeader + 2 * s.ipos) (lzwSize s) .lzwShort

/-- The turn that begins a command: the command word is decoded (R92, R271); at the grain of commands it is run whole,
at the grain of operations the input is checked and the first operation is run. -/
def acceptedWork (s : State) : Work :=
  match decodeCommand (commandWord s) with
  | .error _ => .trap .unknownAlgorithm
  | .ok i =>
    match s.grain, codecOf s.alg with
    | .operation, some k =>
      match checkInput s with
      | .error c => .trap c
      | .ok t => .run (firstOperation s.dir k) (startOutput t) (if s.dir = 0 then .coded else .parsed)
    | _, _ => .run i s .stay

/-- What the engine does in its turn. -/
def nextWork (s : State) : Work :=
  if s.busy = 0 then .rest
  else match s.stage, codecOf s.alg with
    | .accepted, _ => acceptedWork s
    | .coded, some k => .run (serializerOf k) s .finish
    | .parsed, some k => parsedWork s k
    | .decoding, some k => decodingWork s k
    | _, none => .trap .unknownAlgorithm

/-- Make an encoded instruction the very next thing the engine fetches: no host action waiting, BUSY = 1, and either
the command word in DIR and ALG, or the wire image of the codec's decoder holding it as its first element (log entry
12). -/
def placeWord (s : State) (f : Format) (bs : List Byte) : State :=
  let t : State := { s with host := [], busy := 1 }
  let image (alg : Byte) (header : Nat) : State :=
    { t with
      stage := .decoding, grain := .operation, dir := 1, alg := alg, ipos := 0,
      ibuf := memWrite s.ibuf header bs, ilen := BitVec.ofNat 64 (header + bs.length) }
  match f with
  | .command =>
    { t with
      stage := .accepted, grain := .command,
      alg := commandAlg (BitVec.ofNat 9 (leNat bs)), dir := commandDir (BitVec.ofNat 9 (leNat bs)) }
  | .rlePair => image 2 Config.rleHeader
  | .lzwCode => image 3 Config.lzwHeader
  | .lzToken => image 0 Config.lz77Header

end Sys2Proof.Machine
end

