-- ==== Sys2Proof/Machine/Dispatch.lean ====
section
/-! DEFINITION. One arm per instruction, each a direct call of its meaning. -/

namespace Sys2Proof.Machine

def exec (i : Instr) (s : State) : Host.Outcome State Fault Refusal :=
  match i with
  | .cLz77 => Sys2Proof.Machine.execCLz77 s
  | .cHuf => Sys2Proof.Machine.execCHuf s
  | .cRle => Sys2Proof.Machine.execCRle s
  | .cLzw => Sys2Proof.Machine.execCLzw s
  | .dLz77 => Sys2Proof.Machine.execDLz77 s
  | .dHuf => Sys2Proof.Machine.execDHuf s
  | .dRle => Sys2Proof.Machine.execDRle s
  | .dLzw => Sys2Proof.Machine.execDLzw s
  | .rlePair count value => Sys2Proof.Machine.execRlePair count value s
  | .hufSym path => Sys2Proof.Machine.execHufSym path s
  | .lzwCode code => Sys2Proof.Machine.execLzwCode code s
  | .lz77Lit length nextChar => Sys2Proof.Machine.execLz77Lit length nextChar s
  | .lz77Ref offset length nextChar => Sys2Proof.Machine.execLz77Ref offset length nextChar s
  | .rleCompress => Sys2Proof.Machine.execRleCompress s
  | .rleDecompress => Sys2Proof.Machine.execRleDecompress s
  | .hufBuild => Sys2Proof.Machine.execHufBuild s
  | .hufAssign => Sys2Proof.Machine.execHufAssign s
  | .hufCompress => Sys2Proof.Machine.execHufCompress s
  | .hufDecompress => Sys2Proof.Machine.execHufDecompress s
  | .lzwCompress => Sys2Proof.Machine.execLzwCompress s
  | .lzwDecompress => Sys2Proof.Machine.execLzwDecompress s
  | .lz77Compress => Sys2Proof.Machine.execLz77Compress s
  | .lz77Decompress => Sys2Proof.Machine.execLz77Decompress s
  | .serRle => Sys2Proof.Machine.execSerRle s
  | .serHuf => Sys2Proof.Machine.execSerHuf s
  | .serLzw => Sys2Proof.Machine.execSerLzw s
  | .serLz77 => Sys2Proof.Machine.execSerLz77 s
  | .desRle => Sys2Proof.Machine.execDesRle s
  | .desHuf => Sys2Proof.Machine.execDesHuf s
  | .desLzw => Sys2Proof.Machine.execDesLzw s
  | .desLz77 => Sys2Proof.Machine.execDesLz77 s

end Sys2Proof.Machine
end

