-- ==== Sys2Proof/Machine/Step.lean ====
section
/-! DEFINITION. One step of the machine: the host's action or the engine's turn, and the engine's turn runs the
instruction the sequencer fetched. -/

namespace Sys2Proof.Machine

/-- One turn of the engine (10_state.md R21). -/
def engineTurn (s : State) : Host.Outcome State Fault Refusal :=
  match nextWork s with
  | .rest => .next s
  | .trap c => .next (raise c s)
  | .go t => .next t
  | .run i t after =>
    match exec i t with
    | .next u => .next (afterRun after u)
    | .fault f => .fault f
    | .refused r => .refused r

/-- One step: whoever has the turn moves. -/
def step (s : State) : Host.Outcome State Fault Refusal :=
  match whoMoves s with
  | .engine t => engineTurn t
  | .host o => o

/-- `s` with the instruction of a word of the opcode table as the next thing the engine fetches. -/
def State.withFetchWord (s : State) (nbits w : Nat) : State :=
  match tableLayout nbits w with
  | some (f, bs) => placeWord s f bs
  | none => s

end Sys2Proof.Machine
end

