-- ==== Sys2Proof/Machine/System.lean ====
section
/-! DEFINITION. Several engines (60_exceptions.md R342): independent instances that share no state. -/

namespace Sys2Proof.Machine

/-- `N_ENGINES` engines (R8, D36). -/
abbrev Engines := List State

/-- The outcome for the whole of a step of engine number `n`. -/
def stepAt (n : Nat) (es : Engines) : Host.Outcome Engines Fault Refusal :=
  match es[n]? with
  | none => .next es
  | some s =>
    match step s with
    | .next t => .next (es.set n t)
    | .fault f => .fault f
    | .refused r => .refused r

/-- A run in which the engines take turns in the order the list names them. -/
def runSchedule : List Nat → Engines → Host.Outcome Engines Fault Refusal
  | [], es => .next es
  | n :: ns, es =>
    match stepAt n es with
    | .next fs => runSchedule ns fs
    | .fault f => .fault f
    | .refused r => .refused r

end Sys2Proof.Machine
end

