-- ==== Sys2Proof/Safety.lean ====
section
/-! DEFINITION. What counts as a safe state, and the words the claims are stated in. -/

namespace Sys2Proof.Safety

open Sys2Proof.Machine

/-- A memory in canonical form within its capacity (20_memory.md R60; log entry 3). -/
def MemoryOk (m : Memory) (capacity : Nat) : Prop := Memory.wf m = true ∧ ∀ x ∈ m, x.1 < capacity

/-- A memory lists exactly the addresses below `n`. -/
def ListsExactly (m : Memory) (n : Nat) : Prop := ∀ a, (memRead m a).isSome = true ↔ a < n

/-- A memory holds exactly these bytes, from address 0. -/
def Holds (m : Memory) (bs : List Byte) : Prop := ∀ a, memRead m a = bs[a]?

/-- `t`'s memory is `s`'s but for `bs` written from address `a` up. -/
def WrittenAt (before after : Memory) (a : Nat) (bs : List Byte) : Prop :=
  ∀ x, memRead after x = if a ≤ x ∧ x < a + bs.length then bs[x - a]? else memRead before x

/-- Both buffers are in canonical form and within their capacities, which are admissible (00_scope.md R8). -/
def BuffersOk (s : State) : Prop :=
  s.cfg.wf ∧ MemoryOk s.ibuf s.cfg.capIn ∧ MemoryOk s.obuf s.cfg.capOut

/-- What the host may rely on (10_state.md R29, 60_exceptions.md R330, R331, 70_reset_and_hazards.md R357): while
idle, OBUF has a value at exactly the addresses below OLEN; after an error OLEN is 0; and while a command builds its
output, OBUF has a value at exactly the addresses below the output's length, which fits. -/
def ResultOk (s : State) : Prop :=
  s.cfg.wf ∧
  (s.busy = 0 → ListsExactly s.obuf s.olen.toNat) ∧
  (s.status ≠ 0 → s.olen = 0) ∧
  (s.busy = 1 → s.stage ≠ .accepted → ListsExactly s.obuf s.opos ∧ s.opos ≤ s.cfg.capOut)

/-- The cursors of 10_state.md R31: each is at most 2^63 (20_memory.md R80) and so never wraps. In a command past its
first turn the input exists, a parsed image has its header, and a decoder's cursor is within its stream: the elements
read lie inside the image, the bits read are bits of the packed bytes. -/
def CursorsFit (s : State) : Prop :=
  s.cfg.wf ∧ s.ipos ≤ 2 ^ 63 ∧ s.opos ≤ 2 ^ 63 ∧ s.bitpos ≤ 2 ^ 63 ∧
  (s.busy = 1 → s.stage ≠ .accepted → s.ilen.toNat ≤ s.cfg.capIn) ∧
  (s.busy = 1 → s.stage = .parsed →
    (s.alg = 0 → 8 ≤ s.ilen.toNat) ∧ (s.alg = 2 → 16 ≤ s.ilen.toNat) ∧ (s.alg = 3 → 16 ≤ s.ilen.toNat)) ∧
  (s.busy = 1 → s.stage = .decoding →
    (s.alg = 0 → 8 + 4 * s.ipos ≤ s.ilen.toNat) ∧ (s.alg = 1 → s.bitpos ≤ 8 * (s.ilen.toNat - 1040)) ∧
    (s.alg = 2 → 16 + 2 * s.ipos ≤ s.ilen.toNat) ∧ (s.alg = 3 → 16 + 2 * s.ipos ≤ s.ilen.toNat))

/-- A dictionary of the LZW unit (10_state.md R44, 43_lzw.md R201): at most 3839 entries, each prefix an older code
other than the reserved one. -/
def DictOk (dict : List (Nat × Byte)) : Prop :=
  dict.length ≤ 3839 ∧
  ∀ n pre char, dict[n]? = some (pre, char) → pre < Config.lzwFirstSlot + n ∧ pre ≠ Config.lzwReserved

/-- The LZW unit's registers fit their widths (10_state.md R44, R45), and a decoder past its first code stands on a
code that has a sequence. -/
def LzwFits (s : State) : Prop :=
  DictOk s.lzw.dict ∧
  (∀ w, s.lzw.w = some w → w < 4096) ∧
  s.lzw.prev < 4096 ∧
  s.lzw.stack.length ≤ 3840 ∧
  (s.busy = 1 → s.stage = .decoding → s.alg = 3 → s.ipos ≠ 0 →
    s.lzw.prev < lzwNext s.lzw.dict ∧ s.lzw.prev ≠ Config.lzwReserved)

/-- The Huffman unit's registers fit their widths (10_state.md R40 to R43, 20_memory.md R85). -/
def HufFits (s : State) : Prop :=
  s.huf.freq.length = 256 ∧ s.huf.obj.freqTable.length = 256 ∧
  s.huf.nodes.length ≤ 511 ∧
  (∀ x ∈ s.huf.nodes, x.1 < 511 ∧ x.2.weight < 2 ^ 40 ∧ ∀ l r, x.2.kids = some (l, r) → l < 511 ∧ r < 511) ∧
  s.huf.nnext ≤ 511 ∧
  (∀ r, s.huf.root = some r → r < 511) ∧
  (∀ c ∈ s.huf.codes, c.1 < 511 ∧ c.2.length ≤ 255) ∧
  s.huf.nbits ≤ 7 ∧ s.huf.cur < 511

/-- The LZ77 unit's registers fit their widths (10_state.md R46, R47). -/
def Lz77Fits (s : State) : Prop :=
  (∀ x ∈ s.lz77.hash, x.1 < Config.lzHashSlots ∧ x.2 < 2 ^ 64) ∧
  s.lz77.cand < 2 ^ 64 ∧ s.lz77.limit ≤ 18 ∧ s.lz77.l ≤ 18 ∧ s.lz77.mlen ≤ 18 ∧ s.lz77.d ≤ 4096 ∧
  s.lz77.i ≤ 255

/-- What two compress or decompress commands of a codec may change beside the interface: the cursors and the unit of
that codec. Everything else of `t` is as in `s`. -/
def OnlyUnit (k : Codec) (s t : State) : Prop :=
  match k with
  | .lz77 => t = { s with
      status := t.status, olen := t.olen, busy := t.busy, obuf := t.obuf,
      ipos := t.ipos, opos := t.opos, bitpos := t.bitpos, lz77 := t.lz77 }
  | .huf => t = { s with
      status := t.status, olen := t.olen, busy := t.busy, obuf := t.obuf,
      ipos := t.ipos, opos := t.opos, bitpos := t.bitpos, huf := t.huf }
  | .rle => t = { s with
      status := t.status, olen := t.olen, busy := t.busy, obuf := t.obuf,
      ipos := t.ipos, opos := t.opos, bitpos := t.bitpos, rle := t.rle }
  | .lzw => t = { s with
      status := t.status, olen := t.olen, busy := t.busy, obuf := t.obuf,
      ipos := t.ipos, opos := t.opos, bitpos := t.bitpos, lzw := t.lzw }

/-- The whole of what a host can tell of an idle engine. -/
def SameInterface (s t : State) : Prop :=
  s.busy = t.busy ∧ s.status = t.status ∧ s.olen = t.olen ∧ s.alg = t.alg ∧ s.dir = t.dir ∧ s.ilen = t.ilen ∧
  s.ibuf = t.ibuf ∧ s.obuf = t.obuf ∧ s.cfg = t.cfg

/-- The input of a command is non-empty and exists (45_dispatcher.md R271). -/
def InputOk (s : State) : Prop := s.cfg.wf ∧ 1 ≤ s.ilen.toNat ∧ s.ilen.toNat ≤ s.cfg.capIn

/-- The bytes a sequence of pairs stands for (41_rle.md R143 (d)). -/
def expandRuns (runs : List (Byte × Byte)) : List Byte := runs.flatMap fun r => List.replicate r.1.toNat r.2

/-- The node reached from `cur` by a bit string (42_huffman.md R106). -/
def hufFollow (nodes : List (Nat × HufNode)) : Nat → List Bool → Option Nat
  | cur, [] => some cur
  | cur, b :: bs =>
    match hufChild nodes cur b with
    | some n => hufFollow nodes n bs
    | none => none

/-- The number of symbols a frequency table has (42_huffman.md R162). -/
def symbolCount (freq : List U32) : Nat := (freq.filter fun f => f != 0).length

/-- The bytes a token adds to an output (44_lz77.md R239 (c)). -/
def tokenSpan (t : Token) : Nat := if t.offset = 0 then 1 else t.length.toNat + 1

/-- The input position at which token `j` starts: the positions visited of 44_lz77.md R237. -/
def tokenStart (tokens : List Token) (j : Nat) : Nat := ((tokens.take j).map tokenSpan).sum

/-- The slot of the three bytes at a position, where there are three (44_lz77.md R232, R237). -/
def slotAt (p : Params) (input : List Byte) (pos : Nat) : Option U16 :=
  match input[pos]?, input[pos + 1]?, input[pos + 2]? with
  | some b0, some b1, some b2 => some (lz77Hash p b0 b1 b2)
  | _, _, _ => none

/-- The start of token `i` is what the slot holds that is probed at the start of token `j`: the last position visited
before it whose three bytes fall into that slot (44_lz77.md R237). -/
def Candidate (p : Params) (input : List Byte) (tokens : List Token) (i j : Nat) : Prop :=
  i < j ∧ slotAt p input (tokenStart tokens j) ≠ none ∧
  slotAt p input (tokenStart tokens i) = slotAt p input (tokenStart tokens j) ∧
  ∀ m, i < m → m < j → slotAt p input (tokenStart tokens m) ≠ slotAt p input (tokenStart tokens j)

/-- The image has the low `n` bytes of `v` at address `a`, least significant first (20_memory.md R66, R67). -/
def LittleAt (image : List Byte) (a n v : Nat) : Prop :=
  ∀ k, k < n → image[a + k]? = some (BitVec.ofNat 8 (v / 256 ^ k))

/-- The image has the low `n` bytes of `v` at address `a`, most significant first (20_memory.md R66, R67). -/
def BigAt (image : List Byte) (a n v : Nat) : Prop :=
  ∀ k, k < n → image[a + k]? = some (BitVec.ofNat 8 (v / 256 ^ (n - 1 - k)))

/-- The RLE wire image, field by field (30_encoding.md R95, R96, R97). -/
def RleLayout (c : RleObj) (image : List Byte) : Prop :=
  image.length = 16 + 2 * c.runs.length ∧
  LittleAt image 0 8 c.originalSize.toNat ∧ LittleAt image 8 8 (2 * c.runs.length) ∧
  ∀ i count value, c.runs[i]? = some (count, value) →
    image[16 + 2 * i]? = some count ∧ image[17 + 2 * i]? = some value

/-- The Huffman wire image, field by field (30_encoding.md R100, R101). -/
def HufLayout (c : HufObj) (image : List Byte) : Prop :=
  image.length = 1040 + c.packedBits.length ∧
  LittleAt image 0 8 c.originalSize.toNat ∧ LittleAt image 8 8 c.packedBits.length ∧
  (∀ sym f, c.freqTable[sym]? = some f → LittleAt image (16 + 4 * sym) 4 f.toNat) ∧
  ∀ i b, c.packedBits[i]? = some b → image[1040 + i]? = some b

/-- The LZW wire image, field by field (30_encoding.md R107, R109). -/
def LzwLayout (c : LzwObj) (image : List Byte) : Prop :=
  image.length = 16 + 2 * c.codes.length ∧
  LittleAt image 0 8 c.originalSize.toNat ∧ LittleAt image 8 8 c.codes.length ∧
  ∀ i code, c.codes[i]? = some code → LittleAt image (16 + 2 * i) 2 code.toNat

/-- The LZ77 wire image, field by field (30_encoding.md R113, R114, R116). -/
def Lz77Layout (c : Lz77Obj) (image : List Byte) : Prop :=
  image.length = 8 + 4 * c.tokens.length ∧ BigAt image 0 8 c.originalSize.toNat ∧
  ∀ j k, c.tokens[j]? = some k → BigAt image (8 + 4 * j) 2 k.offset.toNat ∧
    image[10 + 4 * j]? = some k.length ∧ image[11 + 4 * j]? = some k.nextChar

/-- `original_size` as the deserializer of a codec reads it, or its error (45_dispatcher.md R285 to R288). -/
def declaredSize (input : List Byte) : Codec → Except Cause U64
  | .lz77 => match desLz77 input with | .ok c => .ok c.originalSize | .error e => .error e
  | .huf => match desHuf input with | .ok c => .ok c.originalSize | .error e => .error e
  | .rle => match desRle input with | .ok c => .ok c.originalSize | .error e => .error e
  | .lzw => match desLzw input with | .ok c => .ok c.originalSize | .error e => .error e

/-- The number of each codec's selector (10_state.md R23). -/
def selector : Codec → Byte
  | .lz77 => 0
  | .huf => 1
  | .rle => 2
  | .lzw => 3

/-- The compress command of each codec (45_dispatcher.md R272 to R275). -/
def compressInstr : Codec → Instr
  | .lz77 => .cLz77
  | .huf => .cHuf
  | .rle => .cRle
  | .lzw => .cLzw

/-- The decompress command of each codec (45_dispatcher.md R276 to R279). -/
def decompressInstr : Codec → Instr
  | .lz77 => .dLz77
  | .huf => .dHuf
  | .rle => .dRle
  | .lzw => .dLzw

/-- The engine has accepted a command and has the turn, no host action waiting (10_state.md R25). -/
def Accepted (s : State) : Prop := s.cfg.wf ∧ s.host = [] ∧ s.busy = 1 ∧ s.stage = .accepted

/-- The engine's decoder of this selector has the turn (45_dispatcher.md R276 to R279). -/
def Decoding (alg : Byte) (s : State) : Prop := s.host = [] ∧ s.busy = 1 ∧ s.stage = .decoding ∧ s.alg = alg

/-- The outcome is the end of the command by an error of this kind, with the effects of 60_exceptions.md R330. What the
cursors and the unit storage hold afterwards is not said: the spec gives them any value (U13). -/
def FailsWith (k : ErrKind) (s : State) (o : Host.Outcome State Fault Refusal) : Prop :=
  ∃ t, o = .next t ∧ t.status = statusCode k ∧ t.olen = 0 ∧ t.busy = 0 ∧ Holds t.obuf [] ∧
    t = { s with
      status := t.status, olen := t.olen, busy := t.busy, obuf := t.obuf, ipos := t.ipos, opos := t.opos
      bitpos := t.bitpos, rle := t.rle, huf := t.huf, lzw := t.lzw, lz77 := t.lz77 }

/-- The instruction ends the command by an error of this kind. -/
def Raises (i : Instr) (s : State) (k : ErrKind) : Prop := FailsWith k s (exec i s)

/-- `k` steps from `s` lead to `t`. -/
def Reaches : Nat → State → State → Prop
  | 0, s, t => s = t
  | k + 1, s, t => ∃ u, step s = .next u ∧ Reaches k u t

end Sys2Proof.Safety
end

