-- ==== Sys2Proof/Certificates/Slice0/Obligations.lean ====
section
/-! DEFINITION. The statements for the provers. A claim about every state holds for every parameter of 00_scope.md R8,
since the parameters stand in State, and for every value of the unspecified bytes, which no proof can see. -/

open Sys2Proof Sys2Proof.Machine Sys2Proof.Safety

/-! ### Encodings -/

/-- 30_encoding.md R90 to R115: reading back the bytes of a well-formed instruction gives the instruction, every
operand at every value, and leaves the bytes that follow. The layout of a command word in bytes is the model's
choice (log entry 12). -/
def Obligations.DecodeEncodeAgree : Prop :=
  ∀ (i : Instr) (f : Format) (bs rest : List Byte),
    i.wf = true → encode i = some (.bytes f bs) → decode f (bs ++ rest) = .ok (i, rest)

/-- The other direction: whatever the decoder accepts is the encoding of a well-formed instruction, so no two byte
sequences of one format mean the same instruction. The layout of a command word in bytes is the model's choice (log
entry 12). -/
def Obligations.DecodedBytesReencode : Prop :=
  ∀ (f : Format) (bs rest : List Byte) (i : Instr), decode f bs = .ok (i, rest) →
    i.wf = true ∧ ∃ ws, encode i = some (.bytes f ws) ∧ bs = ws ++ rest

/-- 30_encoding.md R106, 42_huffman.md R166: the code words of a tree are well-formed HUF.SYM elements, and each is read
back from the front of any bit stream. -/
def Obligations.HuffmanCodeWordsDecode : Prop :=
  ∀ (u : HufUnit) (root sym : Nat) (path rest : List Bool),
    (hufBuild u).root = some root → hufIsLeaf (hufBuild u).nodes root = false →
    (sym, path) ∈ (hufAssign (hufBuild u)).codes →
    (Instr.hufSym path).wf = true ∧ encode (.hufSym path) = some (.bits path) ∧
    decodeSym (hufChild (hufBuild u).nodes) (hufIsLeaf (hufBuild u).nodes) root (path ++ rest) =
      .ok (.hufSym path, rest)

/-- 30_encoding.md R91, R97, R109, R114: the command words and one word of each byte format, written out. -/
def Obligations.SampleWordsDecode : Prop :=
  decodeCommand 0b000000000 = .ok .cLz77 ∧ decodeCommand 0b000000001 = .ok .cHuf ∧
  decodeCommand 0b000000010 = .ok .cRle ∧ decodeCommand 0b000000011 = .ok .cLzw ∧
  decodeCommand 0b100000000 = .ok .dLz77 ∧ decodeCommand 0b100000001 = .ok .dHuf ∧
  decodeCommand 0b100000010 = .ok .dRle ∧ decodeCommand 0b100000011 = .ok .dLzw ∧
  decode .rlePair [0b00000011, 0b01000010] = .ok (.rlePair 3 0x42, []) ∧
  decode .lzwCode [0b00000011, 0b00000001] = .ok (.lzwCode 259, []) ∧
  decode .lzToken [0b00000000, 0b00000000, 0b00000111, 0b01000011] = .ok (.lz77Lit 7 0x43, []) ∧
  decode .lzToken [0b00010000, 0b00000000, 0b00000011, 0b00100001] = .ok (.lz77Ref 4096 3 0x21, [])

/-- 30_encoding.md R92: the decoder of command words is total, a word is legal exactly when its selector is below 4, and
an illegal one is accepted by START and completes with InvalidArgument, the command word's registers unchanged. -/
def Obligations.IllegalCommandWords : Prop :=
  (∀ w : CmdWord, (commandAlg w).toNat < 4 → ∃ i, decodeCommand w = .ok i) ∧
  (∀ w : CmdWord, 4 ≤ (commandAlg w).toNat → decodeCommand w = .error (.unknownAlgorithm (commandAlg w))) ∧
  ∀ (s : State) (rest : List HostAct), s.busy = 0 → 4 ≤ s.alg.toNat →
    s.host = .writeReg .start 1 :: .engineTurn :: rest →
    ∃ t, Reaches 2 s t ∧ t.status = 1 ∧ t.olen = 0 ∧ t.busy = 0 ∧ t.alg = s.alg ∧ t.dir = s.dir ∧ t.host = rest

/-! ### Steps -/

/-- 10_state.md R21, R25: the engine's turn after START, at the grain of commands, is the meaning of the command its
command word decodes to. The grain is the model's choice (log entry 6). -/
def Obligations.StepRunsAcceptedCommand : Prop :=
  ∀ (s : State) (i : Instr), s.host = [] → s.busy = 1 → s.stage = .accepted → s.grain = .command →
    decodeCommand (commandWord s) = .ok i → step s = exec i s

/-- 20_memory.md R75, 30_encoding.md R97, R106, R109, R114: in a decoder's turn the element at the cursor of the
wire image in IBUF is decoded, and the step is that element's meaning. The two-way grain is the model's choice (log
entry 6). So is where the elements are taken from (log entry 13). -/
def Obligations.StepRunsStreamElement : Prop :=
  (∀ (s : State) (i : Instr) (rest : List Byte), Decoding 2 s →
    decode .rlePair ((inputBytes s).drop (16 + 2 * s.ipos)) = .ok (i, rest) → step s = exec i s) ∧
  (∀ (s : State) (i : Instr) (rest : List Byte), Decoding 3 s →
    decode .lzwCode ((inputBytes s).drop (16 + 2 * s.ipos)) = .ok (i, rest) → step s = exec i s) ∧
  (∀ (s : State) (i : Instr) (rest : List Byte), Decoding 0 s →
    decode .lzToken ((inputBytes s).drop (8 + 4 * s.ipos)) = .ok (i, rest) → step s = exec i s) ∧
  (∀ (s : State) (i : Instr) (root : Nat) (rest : List Bool), Decoding 1 s →
    s.huf.root = some root → hufIsLeaf s.huf.nodes root = false → s.opos < s.huf.obj.originalSize.toNat →
    decodeSym (hufChild s.huf.nodes) (hufIsLeaf s.huf.nodes) root
      ((unpackBits ((inputBytes s).drop 1040)).drop s.bitpos) = .ok (i, rest) → step s = exec i s)

/-- 45_dispatcher.md R271, 60_exceptions.md R311: the three causes of InvalidArgument end a command in its first turn, in
either direction and at either grain, with STATUS = 1 and nothing else done; no other step of the engine raises it. -/
def Obligations.InvalidArgumentCauses : Prop :=
  (∀ s : State, Accepted s →
    (3 < s.alg.toNat ∨ s.ilen.toNat = 0 ∨ s.cfg.capIn < s.ilen.toNat) →
    FailsWith .invalidArgument s (step s)) ∧
  (∀ s t : State, s.host = [] → s.busy = 1 → step s = .next t → t.busy = 0 → t.status = 1 →
    3 < s.alg.toNat ∨ s.ilen.toNat = 0 ∨ s.cfg.capIn < s.ilen.toNat)

/-- 10_state.md R26: every command completes, at either grain, whatever its input. The number of steps is the
model's own measure, and the two grains are its choice (log entry 6). -/
def Obligations.EveryCommandCompletes : Prop :=
  ∀ s : State, Accepted s → ∃ t, Reaches (8 * s.ilen.toNat + 4) s t ∧ t.busy = 0

/-! ### The host's side -/

/-- 10_state.md R25: a START write is accepted while idle, dropped while busy, has no effect with value 0, and START
always reads as 0. That the accepted command waits in a stage of its own is the model's choice (log entry 6). -/
def Obligations.StartStrobe : Prop :=
  ∀ (s : State) (rest : List HostAct),
    (s.host = .writeReg .start 1 :: rest → s.busy = 0 →
      step s = .next { s with host := rest, busy := 1, stage := .accepted }) ∧
    (s.host = .writeReg .start 0 :: rest → step s = .next { s with host := rest }) ∧
    (s.host = .writeReg .start 1 :: rest → s.busy = 1 → step s = .next { s with host := rest }) ∧
    (s.host = .readReg .start :: rest → step s = .next { s with host := rest, observed := s.observed ++ [0] })

/-- 10_state.md R23, R24, R28, R30: while BUSY = 0 the host writes ALG, DIR, ILEN and the bytes of IBUF that exist, and
reads back what the registers hold. -/
def Obligations.HostWritesWhileIdle : Prop :=
  ∀ (s : State) (rest : List HostAct), s.busy = 0 →
    (∀ v : Byte, s.host = .writeReg .alg (v.setWidth 64) :: .readReg .alg :: rest →
      Reaches 2 s { s with host := rest, alg := v, observed := s.observed ++ [v.setWidth 64] }) ∧
    (∀ v : BitVec 1, s.host = .writeReg .dir (v.setWidth 64) :: .readReg .dir :: rest →
      Reaches 2 s { s with host := rest, dir := v, observed := s.observed ++ [v.setWidth 64] }) ∧
    (∀ v : U64, s.host = .writeReg .ilen v :: .readReg .ilen :: rest →
      Reaches 2 s { s with host := rest, ilen := v, observed := s.observed ++ [v] }) ∧
    (∀ (a : Nat) (bs : List Byte), s.host = .writeIbuf a bs :: rest → a + bs.length ≤ s.cfg.capIn →
      ∃ t, step s = .next t ∧ t = { s with host := rest, ibuf := t.ibuf } ∧ WrittenAt s.ibuf t.ibuf a bs)

/-- 20_memory.md R72, 70_reset_and_hazards.md R356, and the accesses the spec leaves out
(93_implementation_defined.md U8, U9, U12): while BUSY = 1 the host may only read BUSY (and START) and write START;
it never writes a read-only register nor reads an OBUF byte that is no result; an address beyond a buffer does not
exist. That ALG, DIR and ILEN are not read while BUSY = 1 is the model's reading (log entry 20), and so is the fault
(log entry 17). The host's copy of OBUF to IBUF is one action by the model's choice (log entry 25). -/
def Obligations.HostMovesNotOffered : Prop :=
  ∀ (s : State) (rest : List HostAct),
    (∀ r v, s.host = .writeReg r v :: rest → (r = .busy ∨ r = .status ∨ r = .olen) →
      step s = .refused .readOnlyRegister) ∧
    (∀ r v, s.host = .writeReg r v :: rest → s.busy = 1 → (r = .alg ∨ r = .dir ∨ r = .ilen) →
      step s = .refused .hostAccessWhileBusy) ∧
    (∀ r, s.host = .readReg r :: rest → s.busy = 1 → r ≠ .busy → r ≠ .start →
      step s = .refused .hostAccessWhileBusy) ∧
    (∀ a bs, s.host = .writeIbuf a bs :: rest → s.busy = 1 → step s = .refused .hostAccessWhileBusy) ∧
    (∀ a bs, s.host = .writeIbuf a bs :: rest → s.busy = 0 → s.cfg.capIn < a + bs.length →
      step s = .fault .noSuchAddress) ∧
    (∀ a, s.host = .readObuf a :: rest → s.busy = 1 → step s = .refused .hostAccessWhileBusy) ∧
    (∀ a, s.host = .readObuf a :: rest → s.busy = 0 → s.olen.toNat ≤ a → a < s.cfg.capOut →
      step s = .refused .unspecifiedOutput) ∧
    (∀ a, s.host = .readObuf a :: rest → s.busy = 0 → s.cfg.capOut ≤ a → step s = .fault .noSuchAddress) ∧
    (∀ n, s.host = .copyBack n :: rest → s.busy = 1 → step s = .refused .hostAccessWhileBusy) ∧
    (∀ n, s.host = .copyBack n :: rest → s.busy = 0 → s.cfg.capIn < n → step s = .fault .noSuchAddress) ∧
    (∀ n, s.host = .copyBack n :: rest → s.busy = 0 → n ≤ s.cfg.capIn → s.olen.toNat < n →
      step s = .refused .unspecifiedOutput)

/-- 70_reset_and_hazards.md R355, R357, 10_state.md R26, R30: once BUSY is 0 the host reads STATUS and OLEN, each byte of
OBUF below OLEN as it stands there, and may copy OBUF[0..n), n at most OLEN, into IBUF[0..n); reading BUSY until it is 0
leaves the engine its turns while it is 1. That the copy and the wait are one action each, and that the host's list says
whose turn it is, is the model's choice (log entries 7 and 25). -/
def Obligations.HostTakesResults : Prop :=
  ∀ (s : State) (rest : List HostAct),
    (s.host = .readReg .busy :: rest →
      step s = .next { s with host := rest, observed := s.observed ++ [s.busy.setWidth 64] }) ∧
    (s.host = .readReg .status :: rest → s.busy = 0 →
      step s = .next { s with host := rest, observed := s.observed ++ [s.status.setWidth 64] }) ∧
    (s.host = .readReg .olen :: rest → s.busy = 0 →
      step s = .next { s with host := rest, observed := s.observed ++ [s.olen] }) ∧
    (∀ (a : Nat) (b : Byte), s.host = .readObuf a :: rest → s.busy = 0 → a < s.olen.toNat → a < s.cfg.capOut →
      memRead s.obuf a = some b →
      step s = .next { s with host := rest, observed := s.observed ++ [b.setWidth 64] }) ∧
    (∀ n : Nat, s.host = .copyBack n :: rest → s.busy = 0 → n ≤ s.olen.toNat → n ≤ s.cfg.capIn →
      ∃ t, step s = .next t ∧ t = { s with host := rest, ibuf := t.ibuf } ∧
        (∀ a b, a < n → memRead s.obuf a = some b → memRead t.ibuf a = some b) ∧
        (∀ a, n ≤ a → memRead t.ibuf a = memRead s.ibuf a)) ∧
    (s.host = .awaitIdle :: rest → s.busy = 0 → step s = .next { s with host := rest }) ∧
    (s.host = .awaitIdle :: rest → s.busy = 1 →
      step s = engineTurn s ∧ ∃ t, step s = .next t ∧ t.host = s.host) ∧
    (s.host = .engineTurn :: rest → step s = engineTurn { s with host := rest })

/-- 70_reset_and_hazards.md R350, R351: reset, at any time, makes the engine idle with the values of R49 and the buffers
without value, and the engine accepts a command; beside reset, an accepted START and a completion nothing changes an
idle engine (its units, its cursors, OBUF, STATUS, OLEN, BUSY). That unit storage keeps its content over a reset is the
model's choice (log entry 19) and is not stated. -/
def Obligations.ResetEvent : Prop :=
  (∀ (s : State) (rest : List HostAct), s.host = .reset :: rest →
    ∃ t, step s = .next t ∧ t.alg = 0 ∧ t.dir = 0 ∧ t.busy = 0 ∧ t.status = 0 ∧ t.ilen = 0 ∧ t.olen = 0 ∧
      Holds t.ibuf [] ∧ Holds t.obuf [] ∧ t.host = rest ∧ t.cfg = s.cfg) ∧
  (∀ (s t : State) (a : HostAct) (rest : List HostAct), s.busy = 0 → s.host = a :: rest →
    a ≠ .reset → (∀ v, a = .writeReg .start v → v.getLsbD 0 = false) → step s = .next t →
    t = { s with alg := t.alg, dir := t.dir, ilen := t.ilen, ibuf := t.ibuf, host := t.host, observed := t.observed }) ∧
  (∀ s : State, s.busy = 0 → s.host = [] → step s = .next s)

/-- 10_state.md R49: every interface register is 0 after reset, the buffers have no value and a host read of OBUF is
refused, and a command started with nothing else written is C.LZ77 on an empty input, which ends with STATUS = 1. -/
def Obligations.ResetState : Prop :=
  (∀ r, readReg State.reset r = 0) ∧ Holds State.reset.ibuf [] ∧ Holds State.reset.obuf [] ∧
  (∀ a, a < State.reset.cfg.capOut →
    step { State.reset with host := [.readObuf a] } = .refused .unspecifiedOutput) ∧
  decodeCommand (commandWord State.reset) = .ok .cLz77 ∧
  ∃ t, Reaches 2 { State.reset with host := [.writeReg .start 1, .engineTurn] } t ∧
    t.busy = 0 ∧ t.status = 1 ∧ t.olen = 0

/-! ### Commands -/

/-- 60_exceptions.md R331: normal completion of each of the eight commands, when the pure function `run` of
00_scope.md R15 answers bytes; the input, the parameters, the other units and the host are as before. That the units
of the other codecs are as before is the model's choice (log entry 9), since U13 gives unit storage any value after
a command. -/
def Obligations.NormalCompletion : Prop :=
  ∀ (s : State) (k : Codec) (out : List Byte), s.cfg.wf →
    (runCommand s.cfg 0 (selector k) (inputBytes s) = .ok out →
      ∃ t, exec (compressInstr k) s = .next t ∧ Holds t.obuf out ∧ t.olen.toNat = out.length ∧ t.status = 0 ∧
        t.busy = 0 ∧ OnlyUnit k s t) ∧
    (runCommand s.cfg 1 (selector k) (inputBytes s) = .ok out →
      ∃ t, exec (decompressInstr k) s = .next t ∧ Holds t.obuf out ∧ t.olen.toNat = out.length ∧ t.status = 0 ∧
        t.busy = 0 ∧ OnlyUnit k s t)

/-- 60_exceptions.md R330: completion with an error of each of the eight commands, when the pure function `run` of
00_scope.md R15 raises: the code of the error's kind, OLEN 0, BUSY 0, OBUF without value; IBUF, ILEN, ALG, DIR and the
host as before. -/
def Obligations.ErrorCompletion : Prop :=
  ∀ (s : State) (k : Codec) (c : Cause), s.cfg.wf →
    (runCommand s.cfg 0 (selector k) (inputBytes s) = .error c →
      Raises (compressInstr k) s (causeKind c)) ∧
    (runCommand s.cfg 1 (selector k) (inputBytes s) = .error c →
      Raises (decompressInstr k) s (causeKind c))

/-- 45_dispatcher.md R272 to R275, R280 to R283, 60_exceptions.md R314: a compress command on a non-empty input that
exists completes with the codec's wire image where the image fits, ends with OutOfMemory where it does not, and is
never Corrupt. That the units of the other codecs are as before is the model's choice (log entry 9), since U13 gives
unit storage any value after a command. -/
def Obligations.CompressCommandsComplete : Prop :=
  ∀ (s : State) (k : Codec), InputOk s →
    ((imageBytes s.cfg (inputBytes s) k).length ≤ s.cfg.capOut →
      ∃ t, exec (compressInstr k) s = .next t ∧ t.status = 0 ∧ t.busy = 0 ∧
        t.olen.toNat = (imageBytes s.cfg (inputBytes s) k).length ∧
        Holds t.obuf (imageBytes s.cfg (inputBytes s) k) ∧ OnlyUnit k s t) ∧
    (s.cfg.capOut < (imageBytes s.cfg (inputBytes s) k).length → Raises (compressInstr k) s .outOfMemory) ∧
    (∀ t, exec (compressInstr k) s = .next t → t.status ≠ 3)

/-- 45_dispatcher.md R276 to R279, R292 on the machine: a decompress command whose input is the wire image the same
codec makes of `x` completes with `x`. That the units of the other codecs are as before is the model's choice (log
entry 9), since U13 gives unit storage any value after a command. -/
def Obligations.DecompressCommandsInvert : Prop :=
  ∀ (s : State) (k : Codec) (x : List Byte), InputOk s → x ≠ [] → x.length ≤ s.cfg.capIn →
    x.length ≤ s.cfg.capOut → inputBytes s = imageBytes s.cfg x k →
    ∃ t, exec (decompressInstr k) s = .next t ∧ t.status = 0 ∧ t.busy = 0 ∧ t.olen.toNat = x.length ∧
      Holds t.obuf x ∧ OnlyUnit k s t

/-- 45_dispatcher.md R290: check_output. The structure of the image is judged first, then the declared size, then the
elements, so that in a sound image within CAP_OUT no append fails. -/
def Obligations.CheckOutputOrder : Prop :=
  ∀ (s : State) (k : Codec), InputOk s →
    (∀ c, declaredSize (inputBytes s) k = .error c →
      causeKind c = .corrupt ∧ Raises (decompressInstr k) s .corrupt) ∧
    (∀ size, declaredSize (inputBytes s) k = .ok size → s.cfg.capOut < size.toNat →
      Raises (decompressInstr k) s .outOfMemory) ∧
    (∀ size, declaredSize (inputBytes s) k = .ok size → size.toNat ≤ s.cfg.capOut →
      Raises (decompressInstr k) s .corrupt ∨
      ∃ t, exec (decompressInstr k) s = .next t ∧ t.status = 0 ∧ t.busy = 0 ∧ t.olen = size)

/-- 45_dispatcher.md R293, 10_state.md R48: a command's result depends on its input bytes and the parameters alone, not
on OBUF, on the unit storage, on IBUF beyond ILEN, on earlier commands or on what is unspecified. -/
def Obligations.CommandsArePure : Prop :=
  ∀ (s₁ s₂ t₁ t₂ : State) (k : Codec) (i : Instr), s₁.cfg.wf → s₁.cfg = s₂.cfg → inputBytes s₁ = inputBytes s₂ →
    (i = compressInstr k ∨ i = decompressInstr k) → exec i s₁ = .next t₁ → exec i s₂ = .next t₂ →
    t₁.status = t₂.status ∧ t₁.olen = t₂.olen ∧ t₁.busy = t₂.busy ∧ ∀ a, memRead t₁.obuf a = memRead t₂.obuf a

/-- 45_dispatcher.md R292: the command round trip, for the four selectors. -/
def Obligations.CommandRoundTrip : Prop :=
  ∀ (p : Params) (k : Codec) (x y : List Byte), p.wf → 1 ≤ x.length → x.length ≤ p.capIn → x.length ≤ p.capOut →
    runCommand p 0 (selector k) x = .ok y → y.length ≤ p.capIn → runCommand p 1 (selector k) y = .ok x

/-- 41_rle.md R145, 42_huffman.md R175, 43_lzw.md R210, 44_lz77.md R245: an object whose declared size fits OBUF gives an
output of exactly that length or Corrupt, and nothing else ends a decoder; beside OBUF, its cursors and its own unit,
whose object stays, a decoder changes nothing. -/
def Obligations.DecodersKeepDeclaredLength : Prop :=
  ∀ s : State,
    (s.rle.obj.originalSize.toNat ≤ s.cfg.capOut → Raises .rleDecompress s .corrupt ∨
      ∃ t, exec .rleDecompress s = .next t ∧ ListsExactly t.obuf s.rle.obj.originalSize.toNat ∧
        t = { s with obuf := t.obuf, opos := s.rle.obj.originalSize.toNat, ipos := t.ipos }) ∧
    (s.huf.obj.originalSize.toNat ≤ s.cfg.capOut → Raises .hufDecompress s .corrupt ∨
      ∃ t, exec .hufDecompress s = .next t ∧ ListsExactly t.obuf s.huf.obj.originalSize.toNat ∧
        t = { s with obuf := t.obuf, opos := s.huf.obj.originalSize.toNat, bitpos := t.bitpos, huf := t.huf } ∧
        t.huf.obj = s.huf.obj) ∧
    (s.lzw.obj.originalSize.toNat ≤ s.cfg.capOut → Raises .lzwDecompress s .corrupt ∨
      ∃ t, exec .lzwDecompress s = .next t ∧ ListsExactly t.obuf s.lzw.obj.originalSize.toNat ∧
        t = { s with obuf := t.obuf, opos := s.lzw.obj.originalSize.toNat, ipos := t.ipos, lzw := t.lzw } ∧
        t.lzw.obj = s.lzw.obj) ∧
    (s.lz77.obj.originalSize.toNat ≤ s.cfg.capOut → Raises .lz77Decompress s .corrupt ∨
      ∃ t, exec .lz77Decompress s = .next t ∧ ListsExactly t.obuf s.lz77.obj.originalSize.toNat ∧
        t = { s with obuf := t.obuf, opos := s.lz77.obj.originalSize.toNat, ipos := t.ipos, lz77 := t.lz77 } ∧
        t.lz77.obj = s.lz77.obj)

/-! ### RLE -/

/-- 41_rle.md R141, R143: RLE.compress completes, changes only its unit and its cursor, and its object has the properties
(a) to (e). -/
def Obligations.RleCompressMakesRuns : Prop :=
  ∀ s : State, InputOk s → ∃ t, exec .rleCompress s = .next t ∧
    t = { s with rle := t.rle, ipos := s.ilen.toNat } ∧
    t.rle.obj.originalSize = s.ilen ∧
    t.rle.obj.runs ≠ [] ∧ t.rle.obj.runs.length ≤ s.ilen.toNat ∧
    (∀ r ∈ t.rle.obj.runs, 1 ≤ r.1.toNat) ∧
    (t.rle.obj.runs.map fun r => r.1.toNat).sum = s.ilen.toNat ∧
    expandRuns t.rle.obj.runs = inputBytes s ∧
    (∀ (i : Nat) (c d v : Byte), t.rle.obj.runs[i]? = some (c, v) → t.rle.obj.runs[i + 1]? = some (d, v) → c = 255)

/-- 20_memory.md R83, 41_rle.md R141: the run counter stops at 255 rather than wrapping. A run of `n` identical bytes is
`n div 255` full pairs and, where bytes are left, one pair of the rest; no pair of any object holds 0. -/
def Obligations.RleCounterStopsAt255 : Prop :=
  (∀ (v : Byte) (n : Nat), (rleCompress (List.replicate n v)).runs =
    List.replicate (n / 255) (255, v) ++ (if n % 255 = 0 then [] else [(BitVec.ofNat 8 (n % 255), v)])) ∧
  (∀ (x : List Byte), ∀ r ∈ (rleCompress x).runs, r.1 ≠ 0)

/-- 41_rle.md R142: the doubling of an input in which no two neighbours are equal. -/
def Obligations.RleDoublesNonRepetitive : Prop :=
  ∀ (p : Params) (x : List Byte), x.length < 2 ^ 32 →
    (∀ (i : Nat) (b c : Byte), x[i]? = some b → x[i + 1]? = some c → b ≠ c) →
    (rleCompress x).runs.length = x.length ∧
    (imageBytes p x .rle).length = 16 + 2 * x.length ∧
    leNat (field (imageBytes p x .rle) 8 8) = 2 * x.length

/-- 41_rle.md R145, R148: RLE.decompress completes with the bytes the pairs stand for exactly when no count is 0 and the
counts add up to the declared size; otherwise it is Corrupt. -/
def Obligations.RleDecompressReplays : Prop :=
  ∀ s : State,
    ((∀ r ∈ s.rle.obj.runs, r.1 ≠ 0) →
      (s.rle.obj.runs.map fun r => r.1.toNat).sum = s.rle.obj.originalSize.toNat →
      s.rle.obj.originalSize.toNat ≤ s.cfg.capOut →
      ∃ t, exec .rleDecompress s = .next t ∧ Holds t.obuf (expandRuns s.rle.obj.runs) ∧
        t = { s with
          obuf := t.obuf, opos := s.rle.obj.originalSize.toNat, ipos := s.rle.obj.runs.length }) ∧
    (¬ ((∀ r ∈ s.rle.obj.runs, r.1 ≠ 0) ∧
        (s.rle.obj.runs.map fun r => r.1.toNat).sum = s.rle.obj.originalSize.toNat) →
      Raises .rleDecompress s .corrupt)

/-- 41_rle.md R146: RLE.PAIR appends `count` copies of `value` at the end of the output, or is Corrupt; 20_memory.md R65:
an append past CAP_OUT is OutOfMemory. -/
def Obligations.RlePairAppends : Prop :=
  ∀ (s : State) (count value : Byte),
    (count ≠ 0 → s.opos + count.toNat ≤ s.rle.obj.originalSize.toNat → s.opos + count.toNat ≤ s.cfg.capOut →
      ∃ t, exec (.rlePair count value) s = .next t ∧
        t = { s with obuf := t.obuf, opos := s.opos + count.toNat, ipos := s.ipos + 1 } ∧
        WrittenAt s.obuf t.obuf s.opos (List.replicate count.toNat value)) ∧
    (count = 0 ∨ s.rle.obj.originalSize.toNat < s.opos + count.toNat → Raises (.rlePair count value) s .corrupt) ∧
    (count ≠ 0 → s.opos + count.toNat ≤ s.rle.obj.originalSize.toNat → s.cfg.capOut < s.opos + count.toNat →
      Raises (.rlePair count value) s .outOfMemory)

/-! ### Huffman -/

/-- 42_huffman.md R162 to R165, 20_memory.md R85: HUF.build completes; its leaves are the symbols present, each
with its frequency as its weight; every internal node has two present children, made earlier than the node, with weights
that add up and stay below 2^40; the two are the least by (weight, id) of the nodes still waiting when the node was made
(present then, and no child of a node made before), the least of all on the left; with `m` leaves the root and NNEXT are
as the rules say. -/
def Obligations.HufBuildMakesFullTree : Prop :=
  ∀ s : State, s.huf.freq.length = 256 → ∃ t, exec .hufBuild s = .next t ∧
    t = { s with huf := { s.huf with nodes := t.huf.nodes, nnext := t.huf.nnext, root := t.huf.root } } ∧
    (∀ id, hufIsLeaf t.huf.nodes id = true ↔ ∃ f, s.huf.freq[id]? = some f ∧ f ≠ 0) ∧
    (∀ sym f, s.huf.freq[sym]? = some f → f ≠ 0 →
      ∃ node, t.huf.nodes.lookup sym = some node ∧ node.weight = f.toNat ∧ node.kids = none) ∧
    (∀ x ∈ t.huf.nodes, x.2.weight < 2 ^ 40) ∧
    (∀ id node l r, t.huf.nodes.lookup id = some node → node.kids = some (l, r) →
      256 ≤ id ∧ id < t.huf.nnext ∧ l < id ∧ r < id ∧
      ∃ a b, t.huf.nodes.lookup l = some a ∧ t.huf.nodes.lookup r = some b ∧ node.weight = a.weight + b.weight ∧
        (a.weight < b.weight ∨ a.weight = b.weight ∧ l < r) ∧
        ∀ other c, t.huf.nodes.lookup other = some c → other < id → other ≠ l → other ≠ r →
          (∀ id' node' l' r', t.huf.nodes.lookup id' = some node' → node'.kids = some (l', r') → id' < id →
            other ≠ l' ∧ other ≠ r') →
          b.weight < c.weight ∨ b.weight = c.weight ∧ r < other) ∧
    (symbolCount s.huf.freq = 0 → t.huf.root = none ∧ t.huf.nnext = 256) ∧
    (symbolCount s.huf.freq = 1 →
      t.huf.nnext = 256 ∧ ∃ sym, t.huf.root = some sym ∧ hufIsLeaf t.huf.nodes sym = true) ∧
    (2 ≤ symbolCount s.huf.freq →
      t.huf.root = some (254 + symbolCount s.huf.freq) ∧ t.huf.nnext = 255 + symbolCount s.huf.freq)

/-- 42_huffman.md R166: after a build with at least two symbols HUF.assign completes and changes CODE alone; each symbol
present has as its code a path of 1 to 255 bits from the root to its leaf, an absent symbol has none, and no code is a
prefix of another. -/
def Obligations.HufAssignGivesPaths : Prop :=
  ∀ s : State, s.huf.freq.length = 256 → 2 ≤ symbolCount s.huf.freq →
    ∃ t root, exec .hufAssign { s with huf := hufBuild s.huf } = .next t ∧
      t = { s with huf := { hufBuild s.huf with codes := t.huf.codes } } ∧ t.huf.root = some root ∧
      (∀ sym f, s.huf.freq[sym]? = some f → f ≠ 0 → ∃ path, t.huf.codes.lookup sym = some path ∧
        1 ≤ path.length ∧ path.length ≤ 255 ∧ hufFollow t.huf.nodes root path = some sym) ∧
      (∀ sym, s.huf.freq[sym]? = some 0 → t.huf.codes.lookup sym = none) ∧
      (∀ a b path tail, t.huf.codes.lookup a = some path → t.huf.codes.lookup b = some (path ++ tail) → a = b)

/-- 42_huffman.md R161, R169: HUF.compress completes, changes only its unit and its cursor; the object's table is the
histogram of the input, and with at least two symbols CODE is what HUF.assign gives on the tree HUF.build makes of that
table, and the packed bits are the codes of the input bytes, packed. -/
def Obligations.HufCompressMakesObject : Prop :=
  ∀ s : State, InputOk s → ∃ t, exec .hufCompress s = .next t ∧
    t = { s with huf := t.huf, ipos := s.ilen.toNat } ∧
    t.huf.obj.originalSize = s.ilen ∧ t.huf.obj.freqTable.length = 256 ∧
    (∀ b : Byte, ((t.huf.obj.freqTable.getD b.toNat 0).toNat) = (inputBytes s).count b) ∧
    (2 ≤ symbolCount t.huf.obj.freqTable →
      t.huf.codes = (hufAssign (hufBuild { s.huf with freq := t.huf.obj.freqTable })).codes ∧
      t.huf.obj.packedBits = pack ((inputBytes s).flatMap (codeOf t.huf.codes)) ∧
      ∀ b ∈ inputBytes s, codeOf t.huf.codes b ≠ [])

/-- 42_huffman.md R170: the one-symbol case of the encoder, and its decompression. -/
def Obligations.HufOneSymbolInput : Prop :=
  ∀ (u : HufUnit) (b : Byte) (n : Nat), 1 ≤ n → n < 2 ^ 32 →
    (hufCompress u (List.replicate n b)).obj.packedBits = [b] ∧
    (hufCompress u (List.replicate n b)).obj.originalSize.toNat = n ∧
    (∀ c : Byte, ((hufCompress u (List.replicate n b)).obj.freqTable.getD c.toNat 0).toNat = if c = b then n else 0) ∧
    ∃ r, hufDecompress (hufCompress u (List.replicate n b)) = .ok r ∧ r.2.2 = List.replicate n b

/-- 42_huffman.md R176: the one-symbol case of the decoder reads neither the packed bits nor the symbol's count. -/
def Obligations.HufOneSymbolDecode : Prop :=
  ∀ (u : HufUnit) (sym : Byte) (f : U32), u.obj.freqTable.length = 256 → u.obj.freqTable[sym.toNat]? = some f →
    f ≠ 0 → symbolCount u.obj.freqTable = 1 →
    ∃ r, hufDecompress u = .ok r ∧ r.2.2 = List.replicate u.obj.originalSize.toNat sym

/-- 42_huffman.md R168: `pack(bits)` has `ceil(len / 8)` bytes, holds the bits most significant first, and 0 where the
stream has ended. -/
def Obligations.HufPackLayout : Prop :=
  ∀ bits : List Bool, (pack bits).length = (bits.length + 7) / 8 ∧
    ∀ (j t : Nat) (b : Byte), (pack bits)[j]? = some b → t < 8 →
      b.getLsbD (7 - t) = (bits[8 * j + t]?).getD false

/-- 42_huffman.md R175, R180: HUF.decompress completes on the object HUF.compress makes of `x`, with `x`, for every
non-empty `x` shorter than 2^32. -/
def Obligations.HufRoundTrip : Prop :=
  ∀ (s : State) (u : HufUnit) (x : List Byte), s.cfg.wf → 1 ≤ x.length → x.length < 2 ^ 32 →
    x.length ≤ s.cfg.capOut → s.huf.obj = (hufCompress u x).obj →
    ∃ t, exec .hufDecompress s = .next t ∧ Holds t.obuf x ∧ t.opos = x.length ∧
      t = { s with obuf := t.obuf, opos := t.opos, bitpos := t.bitpos, huf := t.huf } ∧ t.huf.obj = s.huf.obj

/-- 42_huffman.md R177: HUF.SYM, from the root, appends the symbol of the leaf its bits lead to, advances the bit
cursor by its length and stands on the root again; bits that name an absent child are Corrupt; 20_memory.md R65: an
append past CAP_OUT is OutOfMemory. That no bit is read once the owed bytes are out is left to log entry 15 and not
stated. -/
def Obligations.HufSymAppends : Prop :=
  ∀ (s : State) (root : Nat) (path : List Bool), s.huf.root = some root → s.huf.cur = root →
    (∀ k n, 0 < k → k < path.length → hufFollow s.huf.nodes root (path.take k) = some n →
      hufIsLeaf s.huf.nodes n = false) →
    s.opos < s.huf.obj.originalSize.toNat →
    (∀ sym, path ≠ [] → hufFollow s.huf.nodes root path = some sym → hufIsLeaf s.huf.nodes sym = true →
      s.opos < s.cfg.capOut →
      ∃ t, exec (.hufSym path) s = .next t ∧
        t = { s with obuf := t.obuf, opos := s.opos + 1, bitpos := s.bitpos + path.length } ∧
        WrittenAt s.obuf t.obuf s.opos [leafSymbol sym]) ∧
    (∀ sym, path ≠ [] → hufFollow s.huf.nodes root path = some sym → hufIsLeaf s.huf.nodes sym = true →
      s.cfg.capOut < s.opos + 1 → Raises (.hufSym path) s .outOfMemory) ∧
    (hufFollow s.huf.nodes root path = none → Raises (.hufSym path) s .corrupt)

/-! ### LZW -/

/-- 43_lzw.md R204, R206: LZW.compress completes, changes only its unit and its cursor, and its object has the properties
(a) to (e); the dictionary stays within its cap. When code `j` is emitted and the byte `k` follows it in the input, the
match was maximal (the entry `(code, k)` is none of those in use then, the first `j`), and while the dictionary is not
full that pair is the entry inserted. -/
def Obligations.LzwCompressMakesCodes : Prop :=
  ∀ s : State, InputOk s → ∃ t, exec .lzwCompress s = .next t ∧
    t = { s with lzw := t.lzw, ipos := s.ilen.toNat } ∧
    t.lzw.obj.originalSize = s.ilen ∧ DictOk t.lzw.dict ∧
    1 ≤ t.lzw.obj.codes.length ∧ t.lzw.obj.codes.length ≤ s.ilen.toNat ∧
    (∀ c, t.lzw.obj.codes[0]? = some c → c.toNat < 256) ∧
    (∀ c ∈ t.lzw.obj.codes, c.toNat < 256 ∨ 257 ≤ c.toNat ∧ c.toNat ≤ 4095) ∧
    (∀ j c, t.lzw.obj.codes[j]? = some c → 255 < c.toNat → c.toNat ≤ 257 + j - 1) ∧
    t.lzw.obj.codes.flatMap (fun c => (lzwStr t.lzw.dict c.toNat).getD []) = inputBytes s ∧
    t.lzw.dict.length = min (t.lzw.obj.codes.length - 1) 3839 ∧
    (∀ (j : Nat) (c : U16) (k : Byte), t.lzw.obj.codes[j]? = some c →
      (inputBytes s)[((t.lzw.obj.codes.take (j + 1)).flatMap fun c => (lzwStr t.lzw.dict c.toNat).getD []).length]? =
        some k →
      (∀ n, n < j → t.lzw.dict[n]? ≠ some (c.toNat, k)) ∧ (j < 3839 → t.lzw.dict[j]? = some (c.toNat, k)))

/-- 43_lzw.md R203: entry 256 has no sequence; the encoder never emits 256, and for the decoder 256 is Corrupt wherever it
appears; no step of either direction takes an entry out of the dictionary or changes one. That this holds, too, of a code
that ends in an error, after which U13 gives the dictionary any value, is the model's choice (log entry 9). -/
def Obligations.LzwReservedCode : Prop :=
  (∀ dict : List (Nat × Byte), lzwStr dict 256 = none) ∧
  (∀ (u : LzwUnit) (x : List Byte), (256 : U16) ∉ (lzwCompress u x).obj.codes) ∧
  (∀ s : State, Raises (.lzwCode 256) s .corrupt) ∧
  (∀ (u : LzwUnit) (k : Byte), u.dict <+: (lzwTurn u k).dict) ∧
  (∀ (s t : State) (code : U16), exec (.lzwCode code) s = .next t → s.lzw.dict <+: t.lzw.dict)

/-- 43_lzw.md R209, R211: the first code: Corrupt from 256 up, or where nothing is owed, else the one byte it is;
20_memory.md R65: an append past CAP_OUT is OutOfMemory. Where output has been built before the first code, which no run
meets, the append to it is the model's choice (log entry 30). -/
def Obligations.LzwFirstCode : Prop :=
  ∀ (s : State) (code : U16), s.ipos = 0 →
    (256 ≤ code.toNat ∨ s.lzw.obj.originalSize.toNat < s.opos + 1 → Raises (.lzwCode code) s .corrupt) ∧
    (code.toNat < 256 → s.opos + 1 ≤ s.lzw.obj.originalSize.toNat → s.opos + 1 ≤ s.cfg.capOut →
      ∃ t, exec (.lzwCode code) s = .next t ∧
        t = { s with
          obuf := t.obuf, opos := s.opos + 1, ipos := 1, lzw := { s.lzw with prev := code.toNat } } ∧
        WrittenAt s.obuf t.obuf s.opos [BitVec.ofNat 8 code.toNat]) ∧
    (code.toNat < 256 → s.opos + 1 ≤ s.lzw.obj.originalSize.toNat → s.cfg.capOut < s.opos + 1 →
      Raises (.lzwCode code) s .outOfMemory)

/-- 30_encoding.md R110, 10_state.md R44, 43_lzw.md R210, R211: a code after the first. Every literal, every used
entry and the previous code has a sequence: a literal its byte, an entry its prefix's sequence and its char. A
literal or a used entry gives its sequence, the single slot ahead the previous sequence and its first byte; the
insertion, the output and the cursor follow; any other code is Corrupt, and so is an output longer than declared;
20_memory.md R65: an append past CAP_OUT is OutOfMemory. What the expansion stack holds afterwards, the sequence, is
the model's choice (log entry 9). -/
def Obligations.LzwCodeAppends : Prop :=
  ∀ (s : State) (code : U16), s.ipos ≠ 0 → DictOk s.lzw.dict →
    s.lzw.prev < lzwNext s.lzw.dict → s.lzw.prev ≠ 256 →
    (∀ c, c < 256 → lzwStr s.lzw.dict c = some [BitVec.ofNat 8 c]) ∧
    (∀ n pre char, s.lzw.dict[n]? = some (pre, char) →
      ∃ p, lzwStr s.lzw.dict pre = some p ∧ lzwStr s.lzw.dict (257 + n) = some (p ++ [char])) ∧
    (∃ p, lzwStr s.lzw.dict s.lzw.prev = some p ∧ p ≠ []) ∧
    (∀ entry : List Byte,
      ((code.toNat < 256 ∨ 257 ≤ code.toNat ∧ code.toNat < lzwNext s.lzw.dict) ∧
          lzwStr s.lzw.dict code.toNat = some entry ∨
        code.toNat = lzwNext s.lzw.dict ∧ code.toNat < 4096 ∧
          ∃ p, lzwStr s.lzw.dict s.lzw.prev = some p ∧ entry = p ++ p.take 1) →
      (s.opos + entry.length ≤ s.lzw.obj.originalSize.toNat → s.opos + entry.length ≤ s.cfg.capOut →
        ∃ t b, exec (.lzwCode code) s = .next t ∧ entry.head? = some b ∧
          t = { s with
            obuf := t.obuf, opos := s.opos + entry.length, ipos := s.ipos + 1,
            lzw := { s.lzw with
              dict := if lzwNext s.lzw.dict < 4096 then s.lzw.dict ++ [(s.lzw.prev, b)] else s.lzw.dict,
              prev := code.toNat, stack := entry } } ∧
          WrittenAt s.obuf t.obuf s.opos entry) ∧
      (s.lzw.obj.originalSize.toNat < s.opos + entry.length → Raises (.lzwCode code) s .corrupt) ∧
      (s.opos + entry.length ≤ s.lzw.obj.originalSize.toNat → s.cfg.capOut < s.opos + entry.length →
        Raises (.lzwCode code) s .outOfMemory)) ∧
    (code.toNat = 256 ∨ lzwNext s.lzw.dict < code.toNat ∨ 4096 ≤ code.toNat → Raises (.lzwCode code) s .corrupt)

/-- 43_lzw.md R210, R213: LZW.decompress completes on the object LZW.compress makes of `x`, with `x`; the dictionary stays
within its cap in both. -/
def Obligations.LzwRoundTrip : Prop :=
  ∀ (s : State) (u : LzwUnit) (x : List Byte), s.cfg.wf → 1 ≤ x.length → x.length < 2 ^ 64 →
    x.length ≤ s.cfg.capOut → s.lzw.obj = (lzwCompress u x).obj →
    ∃ t, exec .lzwDecompress s = .next t ∧ Holds t.obuf x ∧
      t = { s with obuf := t.obuf, opos := x.length, ipos := s.lzw.obj.codes.length, lzw := t.lzw } ∧
      t.lzw.obj = s.lzw.obj ∧ lzwNext t.lzw.dict ≤ 4096 ∧ lzwNext (lzwCompress u x).dict ≤ 4096

/-! ### LZ77 -/

/-- 44_lz77.md R234 to R239: LZ77.compress completes, changes only its unit and its cursor, and its object has the
properties (a) to (e), for every hash function. Each token is the one the single candidate gives, the last position visited
whose bytes fall into the slot probed: a back-reference is the longest match at it that leaves a byte for the literal and
has at most 18 bytes, and a literal has no candidate in the window that matches three bytes and leaves one. -/
def Obligations.Lz77CompressMakesTokens : Prop :=
  ∀ s : State, InputOk s → ∃ t, exec .lz77Compress s = .next t ∧
    t = { s with lz77 := t.lz77, ipos := s.ilen.toNat } ∧
    t.lz77.obj.originalSize = s.ilen ∧
    1 ≤ t.lz77.obj.tokens.length ∧ t.lz77.obj.tokens.length ≤ s.ilen.toNat ∧
    (∀ k, t.lz77.obj.tokens[0]? = some k → k.offset = 0) ∧
    (t.lz77.obj.tokens.map tokenSpan).sum = s.ilen.toNat ∧
    (∀ (j p : Nat) (k : Token), t.lz77.obj.tokens[j]? = some k →
      p = ((t.lz77.obj.tokens.take j).map tokenSpan).sum →
      (k.offset = 0 ∧ k.length = 0 ∧ (inputBytes s)[p]? = some k.nextChar) ∨
      (1 ≤ k.offset.toNat ∧ k.offset.toNat ≤ 4096 ∧ 3 ≤ k.length.toNat ∧ k.length.toNat ≤ 18 ∧
        k.offset.toNat ≤ p ∧ (inputBytes s)[p + k.length.toNat]? = some k.nextChar ∧
        ∀ i, i < k.length.toNat → (inputBytes s)[p - k.offset.toNat + i]? = (inputBytes s)[p + i]?)) ∧
    (∀ (j p : Nat) (k : Token), t.lz77.obj.tokens[j]? = some k → p = tokenStart t.lz77.obj.tokens j →
      (k.offset = 0 → ∀ i q, Candidate s.cfg (inputBytes s) t.lz77.obj.tokens i j →
        q = tokenStart t.lz77.obj.tokens i → p - q ≤ 4096 → p + 3 < s.ilen.toNat →
        ∃ m, m < 3 ∧ (inputBytes s)[q + m]? ≠ (inputBytes s)[p + m]?) ∧
      (k.offset ≠ 0 → ∃ i, Candidate s.cfg (inputBytes s) t.lz77.obj.tokens i j ∧
        k.offset.toNat = p - tokenStart t.lz77.obj.tokens i ∧
        (k.length.toNat = 18 ∨ p + k.length.toNat + 1 = s.ilen.toNat ∨
          (inputBytes s)[p - k.offset.toNat + k.length.toNat]? ≠ (inputBytes s)[p + k.length.toNat]?)))

/-- 44_lz77.md R245, R249: LZ77.decompress completes on the object LZ77.compress makes of `x`, with `x`, for every hash
function. -/
def Obligations.Lz77RoundTrip : Prop :=
  ∀ (s : State) (p : Params) (u : Lz77Unit) (x : List Byte), s.cfg.wf → 1 ≤ x.length → x.length < 2 ^ 64 →
    x.length ≤ s.cfg.capOut → s.lz77.obj = (lz77Compress p u x).2.obj →
    ∃ t, exec .lz77Decompress s = .next t ∧ Holds t.obuf x ∧
      t = { s with obuf := t.obuf, opos := x.length, ipos := s.lz77.obj.tokens.length, lz77 := t.lz77 } ∧
      t.lz77.obj = s.lz77.obj

/-- 44_lz77.md R246: LZ77.LIT appends its byte, whatever its length field holds, or is Corrupt; 20_memory.md R65: an
append past CAP_OUT is OutOfMemory. -/
def Obligations.Lz77LitAppends : Prop :=
  ∀ (s : State) (length nextChar : Byte),
    (s.opos + 1 ≤ s.lz77.obj.originalSize.toNat → s.opos + 1 ≤ s.cfg.capOut →
      ∃ t, exec (.lz77Lit length nextChar) s = .next t ∧
        t = { s with obuf := t.obuf, opos := s.opos + 1, ipos := s.ipos + 1 } ∧
        WrittenAt s.obuf t.obuf s.opos [nextChar]) ∧
    (s.lz77.obj.originalSize.toNat < s.opos + 1 → Raises (.lz77Lit length nextChar) s .corrupt) ∧
    (s.opos + 1 ≤ s.lz77.obj.originalSize.toNat → s.cfg.capOut < s.opos + 1 →
      Raises (.lz77Lit length nextChar) s .outOfMemory)

/-- 44_lz77.md R247, 20_memory.md R73: LZ77.REF copies byte by byte from `offset` behind, each read seeing what the
copy has just written, then appends its literal; an offset beyond the output so far and an output beyond the
declared size are Corrupt; 20_memory.md R65: an append past CAP_OUT is OutOfMemory. What the copy counter holds
afterwards, the length, is the model's choice (log entry 9). -/
def Obligations.Lz77RefCopies : Prop :=
  ∀ (s : State) (offset : U16) (length nextChar : Byte), offset ≠ 0 →
    (offset.toNat ≤ s.opos → s.opos + length.toNat + 1 ≤ s.lz77.obj.originalSize.toNat →
      s.opos + length.toNat + 1 ≤ s.cfg.capOut →
      ∃ t, exec (.lz77Ref offset length nextChar) s = .next t ∧
        t = { s with
          obuf := t.obuf, opos := s.opos + length.toNat + 1, ipos := s.ipos + 1,
          lz77 := { s.lz77 with i := length.toNat } } ∧
        (∀ i, i < length.toNat → memRead t.obuf (s.opos + i) = some (obufByte t (s.opos + i - offset.toNat))) ∧
        memRead t.obuf (s.opos + length.toNat) = some nextChar ∧
        (∀ a, a < s.opos ∨ s.opos + length.toNat < a → memRead t.obuf a = memRead s.obuf a)) ∧
    (s.opos < offset.toNat → Raises (.lz77Ref offset length nextChar) s .corrupt) ∧
    (offset.toNat ≤ s.opos → s.lz77.obj.originalSize.toNat < s.opos + length.toNat + 1 →
      Raises (.lz77Ref offset length nextChar) s .corrupt) ∧
    (offset.toNat ≤ s.opos → s.opos + length.toNat + 1 ≤ s.lz77.obj.originalSize.toNat →
      s.cfg.capOut < s.opos + length.toNat + 1 → Raises (.lz77Ref offset length nextChar) s .outOfMemory)

/-! ### Serializers and deserializers -/

/-- 45_dispatcher.md R280 to R283: each serializer completes where its image fits, having appended exactly the image, and
is OutOfMemory where it does not; 30_encoding.md R95 to R116, 20_memory.md R66: each image has its length, and its header
fields and elements lie at the offsets and in the byte orders the formats give. -/
def Obligations.SerializersAppendImage : Prop :=
  ∀ s : State,
    (∀ (i : Instr) (image : List Byte),
      (i = .serRle ∧ image = serRle s.rle.obj ∨ i = .serHuf ∧ image = serHuf s.huf.obj ∨
        i = .serLzw ∧ image = serLzw s.lzw.obj ∨ i = .serLz77 ∧ image = serLz77 s.lz77.obj) →
      (s.opos + image.length ≤ s.cfg.capOut →
        ∃ t, exec i s = .next t ∧ t = { s with obuf := t.obuf, opos := s.opos + image.length } ∧
          WrittenAt s.obuf t.obuf s.opos image) ∧
      (s.cfg.capOut < s.opos + image.length → Raises i s .outOfMemory)) ∧
    RleLayout s.rle.obj (serRle s.rle.obj) ∧
    (s.huf.obj.freqTable.length = 256 → HufLayout s.huf.obj (serHuf s.huf.obj)) ∧
    LzwLayout s.lzw.obj (serLzw s.lzw.obj) ∧ Lz77Layout s.lz77.obj (serLz77 s.lz77.obj)

/-- 45_dispatcher.md R291: each deserializer completes on the image its serializer makes of an object, with that object,
field by field, and changes nothing else. -/
def Obligations.DeserializersInvert : Prop :=
  ∀ s : State, s.cfg.wf → s.ilen.toNat ≤ s.cfg.capIn →
    (∀ c : RleObj, inputBytes s = serRle c → exec .desRle s = .next { s with rle.obj := c }) ∧
    (∀ c : HufObj, c.freqTable.length = 256 → inputBytes s = serHuf c →
      exec .desHuf s = .next { s with huf.obj := c }) ∧
    (∀ c : LzwObj, inputBytes s = serLzw c → exec .desLzw s = .next { s with lzw.obj := c }) ∧
    (∀ c : Lz77Obj, inputBytes s = serLz77 c → exec .desLz77 s = .next { s with lz77.obj := c })

/-- 45_dispatcher.md R285 to R288: a deserializer completes on exactly the images whose structure is sound, changing its
unit's object alone, and is Corrupt on every other. -/
def Obligations.DeserializersCheckStructure : Prop :=
  ∀ (s : State) (n declared : Nat), n = s.ilen.toNat → n ≤ s.cfg.capIn →
    declared = leNat (field (inputBytes s) 8 8) →
    ((16 ≤ n ∧ declared = n - 16 ∧ declared % 2 = 0 →
        ∃ t, exec .desRle s = .next t ∧ t = { s with rle.obj := t.rle.obj }) ∧
      (¬ (16 ≤ n ∧ declared = n - 16 ∧ declared % 2 = 0) → Raises .desRle s .corrupt)) ∧
    ((1040 ≤ n ∧ declared = n - 1040 →
        ∃ t, exec .desHuf s = .next t ∧ t = { s with huf.obj := t.huf.obj }) ∧
      (¬ (1040 ≤ n ∧ declared = n - 1040) → Raises .desHuf s .corrupt)) ∧
    ((16 ≤ n ∧ (n - 16) % 2 = 0 ∧ declared = (n - 16) / 2 →
        ∃ t, exec .desLzw s = .next t ∧ t = { s with lzw.obj := t.lzw.obj }) ∧
      (¬ (16 ≤ n ∧ (n - 16) % 2 = 0 ∧ declared = (n - 16) / 2) → Raises .desLzw s .corrupt)) ∧
    ((8 ≤ n ∧ (n - 8) % 4 = 0 →
        ∃ t, exec .desLz77 s = .next t ∧ t = { s with lz77.obj := t.lz77.obj }) ∧
      (¬ (8 ≤ n ∧ (n - 8) % 4 = 0) → Raises .desLz77 s .corrupt))

/-! ### Invariants -/

/-- 20_memory.md R60: every step keeps both memories in canonical form and within their capacities, and the parameters
admissible. -/
def Obligations.BuffersStayOk : Prop :=
  ∀ s t : State, BuffersOk s → step s = .next t → BuffersOk t

/-- 10_state.md R29, 70_reset_and_hazards.md R357: every step keeps the promise that while idle OBUF has a value at exactly
the addresses below OLEN, that after an error OLEN is 0, and that a running command's output is whole up to its cursor.
10_state.md R31, 20_memory.md R80: and every step keeps the cursors within their bounds, so that none wraps. -/
def Obligations.ResultStaysReadable : Prop :=
  (∀ s t : State, ResultOk s → step s = .next t → ResultOk t) ∧
  (∀ s t : State, CursorsFit s → step s = .next t → CursorsFit t)

/-- 10_state.md R44, R45, 43_lzw.md R213: every step keeps the LZW unit's registers within their widths. -/
def Obligations.LzwRegistersFit : Prop :=
  ∀ s t : State, LzwFits s → step s = .next t → LzwFits t

/-- 10_state.md R40 to R43, 20_memory.md R85: every step keeps the Huffman unit's registers within their widths. -/
def Obligations.HufRegistersFit : Prop :=
  ∀ s t : State, HufFits s → step s = .next t → HufFits t

/-- 10_state.md R46, R47: every step keeps the LZ77 unit's registers within their widths. -/
def Obligations.Lz77RegistersFit : Prop :=
  ∀ s t : State, Lz77Fits s → step s = .next t → Lz77Fits t

/-- The six invariants hold at reset. The values the unit storage has there are the model's choice (log entry 4). -/
def Obligations.ResetMeetsInvariants : Prop :=
  BuffersOk State.reset ∧ ResultOk State.reset ∧ CursorsFit State.reset ∧ LzwFits State.reset ∧ HufFits State.reset ∧
  Lz77Fits State.reset

/-! ### The two grains, and several engines -/

/-- 00_scope.md R15, 10_state.md R21, R39: a compress command run operation by operation ends with the interface the whole
command leaves. That there are two grains is the model's choice (log entry 6). -/
def Obligations.CompressGrainsAgree : Prop :=
  ∀ s t : State, Accepted s → s.dir = 0 → s.grain = .operation → step { s with grain := .command } = .next t →
    ∃ k u, Reaches k s u ∧ SameInterface t u

/-- As CompressGrainsAgree, for D.RLE run pair by pair (41_rle.md R146). -/
def Obligations.RleDecodeGrainsAgree : Prop :=
  ∀ s t : State, Accepted s → s.dir = 1 → s.alg = 2 → s.grain = .operation →
    step { s with grain := .command } = .next t → ∃ k u, Reaches k s u ∧ SameInterface t u

/-- As CompressGrainsAgree, for D.HUF run code word by code word (42_huffman.md R177). -/
def Obligations.HufDecodeGrainsAgree : Prop :=
  ∀ s t : State, Accepted s → s.dir = 1 → s.alg = 1 → s.grain = .operation →
    step { s with grain := .command } = .next t → ∃ k u, Reaches k s u ∧ SameInterface t u

/-- As CompressGrainsAgree, for D.LZW run code by code (43_lzw.md R211). -/
def Obligations.LzwDecodeGrainsAgree : Prop :=
  ∀ s t : State, Accepted s → s.dir = 1 → s.alg = 3 → s.grain = .operation →
    step { s with grain := .command } = .next t → ∃ k u, Reaches k s u ∧ SameInterface t u

/-- As CompressGrainsAgree, for D.LZ77 run token by token (44_lz77.md R246, R247). -/
def Obligations.Lz77DecodeGrainsAgree : Prop :=
  ∀ s t : State, Accepted s → s.dir = 1 → s.alg = 0 → s.grain = .operation →
    step { s with grain := .command } = .next t → ∃ k u, Reaches k s u ∧ SameInterface t u

/-- 60_exceptions.md R342: a step of one engine changes no other, and steps of two engines commute. -/
def Obligations.EnginesIndependent : Prop :=
  ∀ (es fs : Engines) (m n : Nat), m ≠ n → stepAt n es = .next fs →
    fs[m]? = es[m]? ∧
    (∀ s, es[n]? = some s → ∃ t, step s = .next t ∧ fs[n]? = some t) ∧
    (∀ gs, stepAt m fs = .next gs → ∃ hs, stepAt m es = .next hs ∧ stepAt n hs = .next gs)
end

