-- ==== Sys2Proof/Laws/Bytes.lean ====
section
/-! SUPPORT. The laws of the byte orders (00_scope.md R11): each assembly inverts its disassembly. -/

namespace Sys2Proof

@[simp] theorem leNat_nil : leNat [] = 0 := rfl

@[simp] theorem leNat_cons (b : Byte) (bs : List Byte) : leNat (b :: bs) = b.toNat + 256 * leNat bs := rfl

@[simp] theorem length_toLE (k v : Nat) : (toLE k v).length = k := by
  induction k generalizing v with
  | zero => rfl
  | succ k ih => simp [toLE, ih]

@[simp] theorem length_toBE (k v : Nat) : (toBE k v).length = k := by simp [toBE]

/-- Assembling what was disassembled keeps the low `k` bytes. -/
theorem leNat_toLE (k v : Nat) : leNat (toLE k v) = v % 256 ^ k := by
  induction k generalizing v with
  | zero => simp [toLE, Nat.mod_one]
  | succ k ih =>
    have := Nat.mod_mul (x := v) (a := 256) (b := 256 ^ k)
    simp [toLE, ih, Nat.pow_succ, Nat.mul_comm (256 ^ k) 256, this]

/-- Disassembling what was assembled gives the bytes back. -/
theorem toLE_leNat (bs : List Byte) : toLE bs.length (leNat bs) = bs := by
  induction bs with
  | nil => rfl
  | cons b bs ih =>
    have hb : b.toNat < 256 := b.isLt
    have e : (b.toNat + 256 * leNat bs) / 256 = leNat bs := by omega
    simp only [List.length_cons, leNat_cons, toLE, e, ih, List.cons.injEq, and_true]
    apply BitVec.eq_of_toNat_eq
    simp
    omega

theorem leNat_lt (bs : List Byte) : leNat bs < 256 ^ bs.length := by
  have h := leNat_toLE bs.length (leNat bs)
  rw [toLE_leNat] at h
  rw [h]
  exact Nat.mod_lt _ (by positivity)

@[simp] theorem beNat_toBE (k v : Nat) : beNat (toBE k v) = v % 256 ^ k := by
  simp [beNat, toBE, leNat_toLE]

@[simp] theorem le16_toLe16 (v : U16) : le16 (toLe16 v) = v := by
  apply BitVec.eq_of_toNat_eq
  simp [le16, toLe16, leNat_toLE]
  exact v.isLt

@[simp] theorem le32_toLe32 (v : U32) : le32 (toLe32 v) = v := by
  apply BitVec.eq_of_toNat_eq
  simp [le32, toLe32, leNat_toLE]
  exact v.isLt

@[simp] theorem le64_toLe64 (v : U64) : le64 (toLe64 v) = v := by
  apply BitVec.eq_of_toNat_eq
  simp [le64, toLe64, leNat_toLE]
  exact v.isLt

@[simp] theorem be16_toBe16 (v : U16) : be16 (toBe16 v) = v := by
  apply BitVec.eq_of_toNat_eq
  simp [be16, toBe16]
  exact v.isLt

@[simp] theorem be64_toBe64 (v : U64) : be64 (toBe64 v) = v := by
  apply BitVec.eq_of_toNat_eq
  simp [be64, toBe64]
  exact v.isLt

end Sys2Proof
end

