-- ==== Sys2Proof/Laws/Memory.lean ====
section
/-! SUPPORT. The laws of the byte memory: a read after a write, and the canonical form. -/

namespace Sys2Proof.Machine

@[simp] theorem memRead_nil (a : Nat) : memRead [] a = none := rfl

@[simp] theorem cells_nil (a : Nat) : cells a [] = [] := rfl

@[simp] theorem cells_cons (a : Nat) (b : Byte) (bs : List Byte) : cells a (b :: bs) = (a, b) :: cells (a + 1) bs := rfl

@[simp] theorem length_cells (a : Nat) (bs : List Byte) : (cells a bs).length = bs.length := by
  induction bs generalizing a with
  | nil => rfl
  | cons b bs ih => simp [ih]

theorem memRead_append (m n : Memory) (a : Nat) :
    memRead (m ++ n) a = (memRead m a).or (memRead n a) := by
  induction m with
  | nil => simp
  | cons x m ih =>
    simp only [List.cons_append, memRead]
    split <;> simp_all

theorem memRead_filter (m : Memory) (p : Host.Cell → Bool) (a : Nat) (keep : Bool)
    (h : ∀ x ∈ m, x.1 = a → p x = keep) : memRead (m.filter p) a = if keep then memRead m a else none := by
  induction m with
  | nil => cases keep <;> rfl
  | cons x m ih =>
    have ih' := ih fun y hy => h y (List.mem_cons_of_mem x hy)
    have hx := h x List.mem_cons_self
    by_cases hxa : x.1 = a
    · have hp := hx hxa
      cases keep <;> simp_all [memRead]
    · cases hp : p x <;> simp_all [memRead]

theorem memRead_cells (a : Nat) (bs : List Byte) (x : Nat) :
    memRead (cells a bs) x = if a ≤ x then bs[x - a]? else none := by
  induction bs generalizing a with
  | nil => simp
  | cons b bs ih =>
    simp only [cells_cons, memRead, ih]
    by_cases h : a = x
    · subst h; simp
    · by_cases h' : a ≤ x
      · have e : x - a = (x - (a + 1)) + 1 := by omega
        have l : a + 1 ≤ x := by omega
        rw [if_neg h, if_pos l, if_pos h', e, List.getElem?_cons_succ]
      · have l : ¬ a + 1 ≤ x := by omega
        rw [if_neg h, if_neg l, if_neg h']

/-- The read of one byte after a write: what was written inside, as before outside. -/
theorem memRead_memWrite (m : Memory) (a : Nat) (bs : List Byte) (x : Nat) :
    memRead (memWrite m a bs) x = if a ≤ x ∧ x < a + bs.length then bs[x - a]? else memRead m x := by
  unfold memWrite
  rw [memRead_append, memRead_append, memRead_cells,
    memRead_filter m _ x (decide (x < a)) (by intro y _ h; simp [h]),
    memRead_filter m _ x (decide (a + bs.length ≤ x)) (by intro y _ h; simp [h])]
  by_cases h1 : x < a
  · have : ¬ a ≤ x := by omega
    have h2 : ¬ a + bs.length ≤ x := by omega
    simp [h1, this, h2]
  · by_cases h2 : a + bs.length ≤ x
    · have h3 : ¬ x < a + bs.length := by omega
      have h4 : bs.length ≤ x - a := by omega
      simp [h1, h2, h3, List.getElem?_eq_none h4]
    · have h3 : x - a < bs.length := by omega
      have h4 : a ≤ x := by omega
      have h5 : x < a + bs.length := by omega
      simp [h1, h2, h4, h5, List.getElem?_eq_getElem h3]

theorem memWf_iff_pairwise (m : Memory) : Memory.wf m = true ↔ m.Pairwise fun x y => x.1 < y.1 := by
  induction m with
  | nil => simp [Memory.wf]
  | cons x m ih =>
    cases m with
    | nil => simp [Memory.wf]
    | cons y m =>
      simp only [Memory.wf, Bool.and_eq_true, decide_eq_true_eq, ih]
      constructor
      · rintro ⟨h, hp⟩
        refine List.pairwise_cons.2 ⟨?_, hp⟩
        intro z hz
        rcases List.mem_cons.1 hz with rfl | hz
        · exact h
        · exact lt_trans h ((List.pairwise_cons.1 hp).1 z hz)
      · intro hp
        exact ⟨(List.pairwise_cons.1 hp).1 y List.mem_cons_self, (List.pairwise_cons.1 hp).2⟩

theorem cells_bounds (a : Nat) (bs : List Byte) : ∀ x ∈ cells a bs, a ≤ x.1 ∧ x.1 < a + bs.length := by
  induction bs generalizing a with
  | nil => simp
  | cons b bs ih =>
    intro x hx
    rcases List.mem_cons.1 hx with rfl | hx
    · simp
    · have := ih (a + 1) x hx
      simp only [List.length_cons]
      omega

theorem cells_pairwise (a : Nat) (bs : List Byte) : (cells a bs).Pairwise fun x y => x.1 < y.1 := by
  induction bs generalizing a with
  | nil => simp
  | cons b bs ih =>
    refine List.pairwise_cons.2 ⟨fun x hx => ?_, ih (a + 1)⟩
    have := (cells_bounds (a + 1) bs x hx).1
    show a < x.1
    omega

/-- Every write keeps the canonical form. -/
theorem memWf_memWrite (m : Memory) (a : Nat) (bs : List Byte) (h : Memory.wf m = true) :
    Memory.wf (memWrite m a bs) = true := by
  rw [memWf_iff_pairwise] at h ⊢
  unfold memWrite
  refine List.pairwise_append.2 ⟨List.pairwise_append.2
    ⟨h.filter _, cells_pairwise a bs, ?_⟩, h.filter _, ?_⟩
  · intro x hx y hy
    have h1 := (List.mem_filter.1 hx).2
    have h2 := (cells_bounds a bs y hy).1
    simp only [decide_eq_true_eq] at h1
    omega
  · intro x hx y hy
    have h3 := (List.mem_filter.1 hy).2
    simp only [decide_eq_true_eq] at h3
    rcases List.mem_append.1 hx with hx | hx
    · have h1 := (List.mem_filter.1 hx).2
      simp only [decide_eq_true_eq] at h1
      omega
    · have h2 := (cells_bounds a bs x hx).2
      omega

/-- Every address listed after a write was listed before or lies in what was written. -/
theorem mem_memWrite (m : Memory) (a : Nat) (bs : List Byte) :
    ∀ x ∈ memWrite m a bs, x ∈ m ∨ (a ≤ x.1 ∧ x.1 < a + bs.length) := by
  intro x hx
  unfold memWrite at hx
  rcases List.mem_append.1 hx with hx | hx
  · rcases List.mem_append.1 hx with hx | hx
    · exact .inl (List.mem_filter.1 hx).1
    · exact .inr (cells_bounds a bs x hx)
  · exact .inl (List.mem_filter.1 hx).1

/-- A write within the capacity keeps a memory in canonical form and within its capacity. -/
theorem memoryOk_memWrite (m : Memory) (a : Nat) (bs : List Byte) (capacity : Nat)
    (h : Safety.MemoryOk m capacity) (fits : a + bs.length ≤ capacity) :
    Safety.MemoryOk (memWrite m a bs) capacity := by
  refine ⟨memWf_memWrite m a bs h.1, fun x hx => ?_⟩
  rcases mem_memWrite m a bs x hx with hx | hx
  · exact h.2 x hx
  · omega

theorem memoryOk_nil (capacity : Nat) : Safety.MemoryOk [] capacity := ⟨rfl, by simp⟩

/-- `State.reset`'s memories are in canonical form. -/
theorem reset_memories_wf : Memory.wf State.reset.ibuf = true ∧ Memory.wf State.reset.obuf = true := ⟨rfl, rfl⟩

end Sys2Proof.Machine
end

