-- ==== Sys2Proof/Laws/State.lean ====
section
/-! SUPPORT. One lemma per field per update of the shared operations on State, so that no later proof unfolds a record
update. -/

namespace Sys2Proof.Machine

@[simp] theorem raise_cfg (c : Cause) (s : State) : (raise c s).cfg = s.cfg := rfl
@[simp] theorem raise_alg (c : Cause) (s : State) : (raise c s).alg = s.alg := rfl
@[simp] theorem raise_dir (c : Cause) (s : State) : (raise c s).dir = s.dir := rfl
@[simp] theorem raise_busy (c : Cause) (s : State) : (raise c s).busy = 0 := rfl
@[simp] theorem raise_status (c : Cause) (s : State) : (raise c s).status = causeStatus c := rfl
@[simp] theorem raise_ilen (c : Cause) (s : State) : (raise c s).ilen = s.ilen := rfl
@[simp] theorem raise_olen (c : Cause) (s : State) : (raise c s).olen = 0 := rfl
@[simp] theorem raise_ibuf (c : Cause) (s : State) : (raise c s).ibuf = s.ibuf := rfl
@[simp] theorem raise_obuf (c : Cause) (s : State) : (raise c s).obuf = [] := rfl
@[simp] theorem raise_ipos (c : Cause) (s : State) : (raise c s).ipos = s.ipos := rfl
@[simp] theorem raise_opos (c : Cause) (s : State) : (raise c s).opos = s.opos := rfl
@[simp] theorem raise_bitpos (c : Cause) (s : State) : (raise c s).bitpos = s.bitpos := rfl
@[simp] theorem raise_rle (c : Cause) (s : State) : (raise c s).rle = s.rle := rfl
@[simp] theorem raise_huf (c : Cause) (s : State) : (raise c s).huf = s.huf := rfl
@[simp] theorem raise_lzw (c : Cause) (s : State) : (raise c s).lzw = s.lzw := rfl
@[simp] theorem raise_lz77 (c : Cause) (s : State) : (raise c s).lz77 = s.lz77 := rfl
@[simp] theorem raise_stage (c : Cause) (s : State) : (raise c s).stage = s.stage := rfl
@[simp] theorem raise_grain (c : Cause) (s : State) : (raise c s).grain = s.grain := rfl
@[simp] theorem raise_host (c : Cause) (s : State) : (raise c s).host = s.host := rfl
@[simp] theorem raise_observed (c : Cause) (s : State) : (raise c s).observed = s.observed := rfl
@[simp] theorem raise_epoch (c : Cause) (s : State) : (raise c s).epoch = s.epoch := rfl

@[simp] theorem complete_cfg (s : State) : (complete s).cfg = s.cfg := rfl
@[simp] theorem complete_alg (s : State) : (complete s).alg = s.alg := rfl
@[simp] theorem complete_dir (s : State) : (complete s).dir = s.dir := rfl
@[simp] theorem complete_busy (s : State) : (complete s).busy = 0 := rfl
@[simp] theorem complete_status (s : State) : (complete s).status = statusOk := rfl
@[simp] theorem complete_ilen (s : State) : (complete s).ilen = s.ilen := rfl
@[simp] theorem complete_olen (s : State) : (complete s).olen = BitVec.ofNat 64 s.opos := rfl
@[simp] theorem complete_ibuf (s : State) : (complete s).ibuf = s.ibuf := rfl
@[simp] theorem complete_obuf (s : State) : (complete s).obuf = s.obuf := rfl
@[simp] theorem complete_ipos (s : State) : (complete s).ipos = s.ipos := rfl
@[simp] theorem complete_opos (s : State) : (complete s).opos = s.opos := rfl
@[simp] theorem complete_bitpos (s : State) : (complete s).bitpos = s.bitpos := rfl
@[simp] theorem complete_rle (s : State) : (complete s).rle = s.rle := rfl
@[simp] theorem complete_huf (s : State) : (complete s).huf = s.huf := rfl
@[simp] theorem complete_lzw (s : State) : (complete s).lzw = s.lzw := rfl
@[simp] theorem complete_lz77 (s : State) : (complete s).lz77 = s.lz77 := rfl
@[simp] theorem complete_stage (s : State) : (complete s).stage = s.stage := rfl
@[simp] theorem complete_grain (s : State) : (complete s).grain = s.grain := rfl
@[simp] theorem complete_host (s : State) : (complete s).host = s.host := rfl
@[simp] theorem complete_observed (s : State) : (complete s).observed = s.observed := rfl
@[simp] theorem complete_epoch (s : State) : (complete s).epoch = s.epoch := rfl

@[simp] theorem startOutput_cfg (s : State) : (startOutput s).cfg = s.cfg := rfl
@[simp] theorem startOutput_alg (s : State) : (startOutput s).alg = s.alg := rfl
@[simp] theorem startOutput_dir (s : State) : (startOutput s).dir = s.dir := rfl
@[simp] theorem startOutput_busy (s : State) : (startOutput s).busy = s.busy := rfl
@[simp] theorem startOutput_status (s : State) : (startOutput s).status = s.status := rfl
@[simp] theorem startOutput_ilen (s : State) : (startOutput s).ilen = s.ilen := rfl
@[simp] theorem startOutput_olen (s : State) : (startOutput s).olen = s.olen := rfl
@[simp] theorem startOutput_ibuf (s : State) : (startOutput s).ibuf = s.ibuf := rfl
@[simp] theorem startOutput_obuf (s : State) : (startOutput s).obuf = [] := rfl
@[simp] theorem startOutput_ipos (s : State) : (startOutput s).ipos = s.ipos := rfl
@[simp] theorem startOutput_opos (s : State) : (startOutput s).opos = 0 := rfl
@[simp] theorem startOutput_bitpos (s : State) : (startOutput s).bitpos = s.bitpos := rfl
@[simp] theorem startOutput_rle (s : State) : (startOutput s).rle = s.rle := rfl
@[simp] theorem startOutput_huf (s : State) : (startOutput s).huf = s.huf := rfl
@[simp] theorem startOutput_lzw (s : State) : (startOutput s).lzw = s.lzw := rfl
@[simp] theorem startOutput_lz77 (s : State) : (startOutput s).lz77 = s.lz77 := rfl
@[simp] theorem startOutput_stage (s : State) : (startOutput s).stage = s.stage := rfl
@[simp] theorem startOutput_grain (s : State) : (startOutput s).grain = s.grain := rfl
@[simp] theorem startOutput_host (s : State) : (startOutput s).host = s.host := rfl
@[simp] theorem startOutput_observed (s : State) : (startOutput s).observed = s.observed := rfl
@[simp] theorem startOutput_epoch (s : State) : (startOutput s).epoch = s.epoch := rfl

@[simp] theorem resetEngine_cfg (s : State) : (resetEngine s).cfg = s.cfg := rfl
@[simp] theorem resetEngine_alg (s : State) : (resetEngine s).alg = 0 := rfl
@[simp] theorem resetEngine_dir (s : State) : (resetEngine s).dir = 0 := rfl
@[simp] theorem resetEngine_busy (s : State) : (resetEngine s).busy = 0 := rfl
@[simp] theorem resetEngine_status (s : State) : (resetEngine s).status = 0 := rfl
@[simp] theorem resetEngine_ilen (s : State) : (resetEngine s).ilen = 0 := rfl
@[simp] theorem resetEngine_olen (s : State) : (resetEngine s).olen = 0 := rfl
@[simp] theorem resetEngine_ibuf (s : State) : (resetEngine s).ibuf = [] := rfl
@[simp] theorem resetEngine_obuf (s : State) : (resetEngine s).obuf = [] := rfl
@[simp] theorem resetEngine_ipos (s : State) : (resetEngine s).ipos = s.ipos := rfl
@[simp] theorem resetEngine_opos (s : State) : (resetEngine s).opos = s.opos := rfl
@[simp] theorem resetEngine_bitpos (s : State) : (resetEngine s).bitpos = s.bitpos := rfl
@[simp] theorem resetEngine_rle (s : State) : (resetEngine s).rle = s.rle := rfl
@[simp] theorem resetEngine_huf (s : State) : (resetEngine s).huf = s.huf := rfl
@[simp] theorem resetEngine_lzw (s : State) : (resetEngine s).lzw = s.lzw := rfl
@[simp] theorem resetEngine_lz77 (s : State) : (resetEngine s).lz77 = s.lz77 := rfl
@[simp] theorem resetEngine_stage (s : State) : (resetEngine s).stage = s.stage := rfl
@[simp] theorem resetEngine_grain (s : State) : (resetEngine s).grain = s.grain := rfl
@[simp] theorem resetEngine_host (s : State) : (resetEngine s).host = s.host := rfl
@[simp] theorem resetEngine_observed (s : State) : (resetEngine s).observed = s.observed := rfl
@[simp] theorem resetEngine_epoch (s : State) : (resetEngine s).epoch = s.epoch + 1 := rfl

end Sys2Proof.Machine
end

