-- ==== Sys2Proof/Laws/Ops.lean ====
section
/-! SUPPORT. One lemma per shared operation, saying once everything it can do, so that no later proof unfolds it. -/

namespace Sys2Proof.Machine

/-! ### Ending an operation -/

@[simp] theorem settle_ok (s t : State) : settle s (.ok t) = .next t := rfl
@[simp] theorem settle_error (s : State) (c : Cause) : settle s (.error c) = .next (raise c s) := rfl
@[simp] theorem settleCommand_ok (s t : State) : settleCommand s (.ok t) = .next (complete t) := rfl
@[simp] theorem settleCommand_error (s : State) (c : Cause) : settleCommand s (.error c) = .next (raise c s) := rfl

/-- How an operation inside a command ends. -/
theorem settle_cases {s t : State} {r : Except Cause State} (h : settle s r = .next t) :
    r = .ok t ∨ ∃ c, r = .error c ∧ t = raise c s := by
  cases r with
  | ok u => exact .inl (by simpa using h)
  | error c => exact .inr ⟨c, rfl, by simpa using h.symm⟩

/-- How a command ends. -/
theorem settleCommand_cases {s t : State} {r : Except Cause State} (h : settleCommand s r = .next t) :
    (∃ u, r = .ok u ∧ t = complete u) ∨ ∃ c, r = .error c ∧ t = raise c s := by
  cases r with
  | ok u => exact .inl ⟨u, rfl, by simpa using h.symm⟩
  | error c => exact .inr ⟨c, rfl, by simpa using h.symm⟩

@[simp] theorem andThen_ok (s : State) (f : State → Except Cause State) : andThen (.ok s) f = f s := rfl
@[simp] theorem andThen_error (c : Cause) (f : State → Except Cause State) : andThen (.error c) f = .error c := rfl

/-- A raise has the effects of R330 that Safety.FailsWith names. -/
theorem failsWith_raise {c : Cause} {k : ErrKind} (s : State) (h : causeKind c = k) :
    Safety.FailsWith k s (.next (raise c s)) :=
  ⟨raise c s, rfl, by simp [causeStatus, h], rfl, rfl, fun _ => rfl, rfl⟩

theorem andThen_eq_ok {r : Except Cause State} {f : State → Except Cause State} {u : State} :
    andThen r f = .ok u ↔ ∃ t, r = .ok t ∧ f t = .ok u := by
  cases r <;> simp

theorem andThen_eq_error {r : Except Cause State} {f : State → Except Cause State} {c : Cause} :
    andThen r f = .error c ↔ r = .error c ∨ ∃ t, r = .ok t ∧ f t = .error c := by
  cases r <;> simp

/-- No instruction faults and none is refused. -/
theorem exec_answers_next (i : Instr) (s : State) : ∃ t, exec i s = .next t := by
  have settles : ∀ r, ∃ t, settle s r = .next t := fun r => by cases r <;> exact ⟨_, rfl⟩
  have settlesCommand : ∀ r, ∃ t, settleCommand s r = .next t := fun r => by cases r <;> exact ⟨_, rfl⟩
  cases i <;> first | exact settles _ | exact settlesCommand _ | exact ⟨_, rfl⟩

/-- The engine's turn never stops the machine: only the host's accesses can. -/
theorem engineTurn_answers_next (s : State) : ∃ t, engineTurn s = .next t := by
  unfold engineTurn
  cases nextWork s with
  | rest => exact ⟨_, rfl⟩
  | trap c => exact ⟨_, rfl⟩
  | go t => exact ⟨_, rfl⟩
  | run i t after =>
    obtain ⟨u, h⟩ := exec_answers_next i t
    exact ⟨afterRun after u, by simp [h]⟩

/-! ### Turns -/

theorem step_of_no_host {s : State} (h : s.host = []) : step s = engineTurn s := by
  simp [step, whoMoves, h]

theorem step_engineTurn {s : State} {rest : List HostAct} (h : s.host = .engineTurn :: rest) :
    step s = engineTurn { s with host := rest } := by
  simp [step, whoMoves, h]

theorem engineTurn_idle {s : State} (h : s.busy = 0) : engineTurn s = .next s := by
  simp [engineTurn, nextWork, h]

@[simp] theorem afterRun_stay (t : State) : afterRun .stay t = t := by simp [afterRun]

theorem afterRun_idle (after : After) {t : State} (h : t.busy = 0) : afterRun after t = t := by simp [afterRun, h]

/-! ### Operands -/

@[simp] theorem length_inputBytes (s : State) : (inputBytes s).length = s.ilen.toNat := by simp [inputBytes]

@[simp] theorem length_outBytes (s : State) : (outBytes s).length = s.opos := by simp [outBytes]

theorem outBytes_getElem? (s : State) (a : Nat) :
    (outBytes s)[a]? = if a < s.opos then some (obufByte s a) else none := by
  by_cases h : a < s.opos <;> simp [outBytes, h]

theorem inputBytes_getElem? (s : State) (a : Nat) :
    (inputBytes s)[a]? = if a < s.ilen.toNat then some (ibufByte s a) else none := by
  by_cases h : a < s.ilen.toNat <;> simp [inputBytes, h]

/-- An IBUF that holds exactly `bs`, with ILEN its length, is the input `bs`. -/
theorem inputBytes_of_cells {s : State} {bs : List Byte} (hm : s.ibuf = cells 0 bs) (hl : s.ilen.toNat = bs.length) :
    inputBytes s = bs := by
  apply List.ext_getElem?
  intro a
  rw [inputBytes_getElem?, hl]
  by_cases h : a < bs.length
  · simp [h, ibufByte, hm, memRead_cells]
  · simp [h]

/-- What the input tests answer. -/
theorem checkInput_eq (s : State) :
    (s.ilen.toNat = 0 ∧ checkInput s = .error .emptyInput) ∨
    (s.ilen.toNat ≠ 0 ∧ s.cfg.capIn < s.ilen.toNat ∧ checkInput s = .error .inputBeyondBuffer) ∨
    (s.ilen.toNat ≠ 0 ∧ s.ilen.toNat ≤ s.cfg.capIn ∧ checkInput s = .ok s) := by
  unfold checkInput
  by_cases h : s.ilen.toNat = 0
  · exact .inl ⟨h, by rw [if_pos h]⟩
  · by_cases h' : s.cfg.capIn < s.ilen.toNat
    · exact .inr (.inl ⟨h, h', by rw [if_neg h, if_pos h']⟩)
    · exact .inr (.inr ⟨h, by omega, by rw [if_neg h, if_neg h']⟩)

theorem checkInput_of_inputOk {s : State} (h : Safety.InputOk s) : checkInput s = .ok s := by
  obtain ⟨-, h1, h2⟩ := h
  rcases checkInput_eq s with ⟨e, -⟩ | ⟨-, e, -⟩ | ⟨-, -, e⟩
  · omega
  · omega
  · exact e

theorem codecInput_of_inputOk {s : State} (h : Safety.InputOk s) : codecInput s = .ok (inputBytes s) := by
  simp [codecInput, checkInput_of_inputOk h]

theorem imageInput_of_fits {s : State} (h : s.ilen.toNat ≤ s.cfg.capIn) : imageInput s = .ok (inputBytes s) := by
  simp [imageInput, h]

theorem checkOutput_of_fits {s : State} {size : U64} (h : size.toNat ≤ s.cfg.capOut) : checkOutput size s = .ok s := by
  simp [checkOutput, h]

theorem checkOutput_of_beyond {s : State} {size : U64} (h : s.cfg.capOut < size.toNat) :
    checkOutput size s = .error .declaredBeyondOutput := by
  simp [checkOutput, h]

/-! ### Appending -/

theorem append_of_fits {s : State} {bs : List Byte} (h : s.opos + bs.length ≤ s.cfg.capOut) :
    append bs s = .ok { s with obuf := memWrite s.obuf s.opos bs, opos := s.opos + bs.length } := by
  unfold append
  rw [if_neg (by omega)]

theorem append_of_beyond {s : State} {bs : List Byte} (h : s.cfg.capOut < s.opos + bs.length) :
    append bs s = .error .outputCapacity := by
  unfold append
  rw [if_pos h]

/-- What an append can answer. -/
theorem append_cases (bs : List Byte) (s : State) :
    (s.cfg.capOut < s.opos + bs.length ∧ append bs s = .error .outputCapacity) ∨
    (s.opos + bs.length ≤ s.cfg.capOut ∧
      append bs s = .ok { s with obuf := memWrite s.obuf s.opos bs, opos := s.opos + bs.length }) := by
  by_cases h : s.cfg.capOut < s.opos + bs.length
  · exact .inl ⟨h, append_of_beyond h⟩
  · exact .inr ⟨by omega, append_of_fits (by omega)⟩

/-- An element that grew the output by `new` appends `new`. -/
theorem extend_outBytes {s t : State} (new : List Byte) (h : t.opos = s.opos) :
    extend (outBytes s ++ new) t = append new t := by
  unfold extend
  rw [h, List.drop_left' (length_outBytes s)]

theorem writtenAt_memWrite (m : Memory) (a : Nat) (bs : List Byte) : Safety.WrittenAt m (memWrite m a bs) a bs :=
  fun x => memRead_memWrite m a bs x

/-- Writing onto the empty memory gives exactly the bytes written. -/
theorem memWrite_nil (a : Nat) (bs : List Byte) : memWrite [] a bs = cells a bs := by simp [memWrite]

theorem holds_cells (bs : List Byte) : Safety.Holds (cells 0 bs) bs := by
  intro a
  simp [memRead_cells]

theorem cells_append (a : Nat) (bs cs : List Byte) : cells a (bs ++ cs) = cells a bs ++ cells (a + bs.length) cs := by
  induction bs generalizing a with
  | nil => simp
  | cons b bs ih =>
    have e : a + 1 + bs.length = a + (bs.length + 1) := by omega
    simp [ih, e]

/-- Two writes, the second where the first ended, are one write. -/
theorem memWrite_cells (bs cs : List Byte) : memWrite (cells 0 bs) bs.length cs = cells 0 (bs ++ cs) := by
  have h1 : (cells 0 bs).filter (fun x => decide (x.1 < bs.length)) = cells 0 bs :=
    List.filter_eq_self.2 fun x hx => by simpa using (cells_bounds 0 bs x hx).2
  have h2 : (cells 0 bs).filter (fun x => decide (bs.length + cs.length ≤ x.1)) = [] :=
    List.filter_eq_nil_iff.2 fun x hx => by
      have := (cells_bounds 0 bs x hx).2
      simp only [decide_eq_true_eq]
      omega
  simp [memWrite, h1, h2, cells_append]

end Sys2Proof.Machine
end

