-- ==== Sys2Proof/Laws/Frame.lean ====
section
/-! SUPPORT. What no instruction changes, whatever it does: the input, the command word, the parameters and the host's
side of State (20_memory.md R60, 60_exceptions.md R330, R331). -/

namespace Sys2Proof.Machine

/-- `t` has the input, the command word, the parameters, the stage and the host's fields of `s`. -/
structure Keeps (s t : State) : Prop where
  cfg : t.cfg = s.cfg
  alg : t.alg = s.alg
  dir : t.dir = s.dir
  ilen : t.ilen = s.ilen
  ibuf : t.ibuf = s.ibuf
  stage : t.stage = s.stage
  grain : t.grain = s.grain
  host : t.host = s.host
  observed : t.observed = s.observed
  epoch : t.epoch = s.epoch

theorem Keeps.refl (s : State) : Keeps s s := ⟨rfl, rfl, rfl, rfl, rfl, rfl, rfl, rfl, rfl, rfl⟩

theorem Keeps.trans {s t u : State} (h : Keeps s t) (k : Keeps t u) : Keeps s u :=
  ⟨k.cfg.trans h.cfg, k.alg.trans h.alg, k.dir.trans h.dir, k.ilen.trans h.ilen, k.ibuf.trans h.ibuf,
    k.stage.trans h.stage, k.grain.trans h.grain, k.host.trans h.host, k.observed.trans h.observed,
    k.epoch.trans h.epoch⟩

theorem keeps_raise (c : Cause) (s : State) : Keeps s (raise c s) := ⟨rfl, rfl, rfl, rfl, rfl, rfl, rfl, rfl, rfl, rfl⟩

theorem keeps_complete (s : State) : Keeps s (complete s) := ⟨rfl, rfl, rfl, rfl, rfl, rfl, rfl, rfl, rfl, rfl⟩

theorem keeps_startOutput (s : State) : Keeps s (startOutput s) := ⟨rfl, rfl, rfl, rfl, rfl, rfl, rfl, rfl, rfl, rfl⟩

/-- An operation of which this can be said keeps the frame wherever it succeeds. -/
def KeepsFrame (f : State → Except Cause State) : Prop := ∀ s t, f s = .ok t → Keeps s t

theorem keeps_append {bs : List Byte} {s t : State} (h : append bs s = .ok t) : Keeps s t := by
  rcases append_cases bs s with ⟨-, e⟩ | ⟨-, e⟩
  · rw [e] at h; cases h
  · rw [e] at h; cases h; exact ⟨rfl, rfl, rfl, rfl, rfl, rfl, rfl, rfl, rfl, rfl⟩

/-- An append onto a state that agrees with `s` in the frame. -/
theorem keeps_append_of {bs : List Byte} {s u t : State} (h : append bs u = .ok t) (k : Keeps s u) : Keeps s t :=
  k.trans (keeps_append h)

theorem keepsFrame_andThen {f g : State → Except Cause State} (hf : KeepsFrame f) (hg : KeepsFrame g) :
    KeepsFrame fun s => andThen (f s) g := by
  intro s t h
  obtain ⟨u, h1, h2⟩ := andThen_eq_ok.1 h
  exact (hf s u h1).trans (hg u t h2)

theorem keepsFrame_checkInput : KeepsFrame checkInput := by
  intro s t h
  rcases checkInput_eq s with ⟨-, e⟩ | ⟨-, -, e⟩ | ⟨-, -, e⟩ <;> rw [e] at h <;> cases h
  exact .refl s

theorem keepsFrame_checkOutput (size : State → U64) : KeepsFrame fun s => checkOutput (size s) s := by
  intro s t h
  simp only [checkOutput] at h
  split at h <;> cases h
  exact .refl s

theorem keepsFrame_parseOp {α : Type} (parse : List Byte → Except Cause α) (put : State → α → State)
    (hput : ∀ s a, Keeps s (put s a)) : KeepsFrame (parseOp parse put) := by
  intro s t h
  unfold parseOp at h
  split at h
  · split at h <;> cases h
    exact hput s _
  · cases h

theorem keepsFrame_serializeOp (c : Cause) (image : State → List Byte) :
    KeepsFrame fun s => serializeOp c (image s) s := by
  intro s t h
  simp only [serializeOp] at h
  split at h
  · exact keeps_append h
  · cases h

theorem keepsFrame_rleCompressOp : KeepsFrame rleCompressOp := by
  intro s t h
  unfold rleCompressOp at h
  split at h <;> cases h
  exact ⟨rfl, rfl, rfl, rfl, rfl, rfl, rfl, rfl, rfl, rfl⟩

theorem keepsFrame_hufCompressOp : KeepsFrame hufCompressOp := by
  intro s t h
  unfold hufCompressOp at h
  split at h <;> cases h
  exact ⟨rfl, rfl, rfl, rfl, rfl, rfl, rfl, rfl, rfl, rfl⟩

theorem keepsFrame_lzwCompressOp : KeepsFrame lzwCompressOp := by
  intro s t h
  unfold lzwCompressOp at h
  split at h <;> cases h
  exact ⟨rfl, rfl, rfl, rfl, rfl, rfl, rfl, rfl, rfl, rfl⟩

theorem keepsFrame_lz77CompressOp : KeepsFrame lz77CompressOp := by
  intro s t h
  unfold lz77CompressOp at h
  split at h <;> cases h
  exact ⟨rfl, rfl, rfl, rfl, rfl, rfl, rfl, rfl, rfl, rfl⟩

theorem keepsFrame_rleDecompressOp : KeepsFrame rleDecompressOp := by
  intro s t h
  unfold rleDecompressOp at h
  split at h
  · exact keeps_append_of h ⟨rfl, rfl, rfl, rfl, rfl, rfl, rfl, rfl, rfl, rfl⟩
  · cases h

theorem keepsFrame_hufDecompressOp : KeepsFrame hufDecompressOp := by
  intro s t h
  unfold hufDecompressOp at h
  split at h
  · exact keeps_append_of h ⟨rfl, rfl, rfl, rfl, rfl, rfl, rfl, rfl, rfl, rfl⟩
  · cases h

theorem keepsFrame_lzwDecompressOp : KeepsFrame lzwDecompressOp := by
  intro s t h
  unfold lzwDecompressOp at h
  split at h
  · exact keeps_append_of h ⟨rfl, rfl, rfl, rfl, rfl, rfl, rfl, rfl, rfl, rfl⟩
  · cases h

theorem keepsFrame_lz77DecompressOp : KeepsFrame lz77DecompressOp := by
  intro s t h
  unfold lz77DecompressOp at h
  split at h
  · exact keeps_append_of h ⟨rfl, rfl, rfl, rfl, rfl, rfl, rfl, rfl, rfl, rfl⟩
  · cases h

theorem keepsFrame_rlePairOp (count value : Byte) : KeepsFrame (rlePairOp count value) := by
  intro s t h
  unfold rlePairOp at h
  split at h
  · exact keeps_append_of h ⟨rfl, rfl, rfl, rfl, rfl, rfl, rfl, rfl, rfl, rfl⟩
  · cases h

theorem keepsFrame_hufSymOp (path : List Bool) : KeepsFrame (hufSymOp path) := by
  intro s t h
  unfold hufSymOp at h
  split at h
  · cases h
  · split at h
    · exact keeps_append_of h ⟨rfl, rfl, rfl, rfl, rfl, rfl, rfl, rfl, rfl, rfl⟩
    · cases h

theorem keepsFrame_lzwCodeOp (code : U16) : KeepsFrame (lzwCodeOp code) := by
  intro s t h
  unfold lzwCodeOp at h
  split at h
  · exact keeps_append_of h ⟨rfl, rfl, rfl, rfl, rfl, rfl, rfl, rfl, rfl, rfl⟩
  · cases h

theorem keepsFrame_lz77TokenOp (token : Token) : KeepsFrame (lz77TokenOp token) := by
  intro s t h
  unfold lz77TokenOp at h
  split at h
  · exact keeps_append_of h ⟨rfl, rfl, rfl, rfl, rfl, rfl, rfl, rfl, rfl, rfl⟩
  · cases h

theorem keepsFrame_hufBuildOp : KeepsFrame hufBuildOp := by
  intro s t h
  cases h
  exact ⟨rfl, rfl, rfl, rfl, rfl, rfl, rfl, rfl, rfl, rfl⟩

theorem keepsFrame_hufAssignOp : KeepsFrame hufAssignOp := by
  intro s t h
  cases h
  exact ⟨rfl, rfl, rfl, rfl, rfl, rfl, rfl, rfl, rfl, rfl⟩

theorem keepsFrame_desRleOp : KeepsFrame desRleOp :=
  keepsFrame_parseOp _ _ fun _ _ => ⟨rfl, rfl, rfl, rfl, rfl, rfl, rfl, rfl, rfl, rfl⟩
theorem keepsFrame_desHufOp : KeepsFrame desHufOp :=
  keepsFrame_parseOp _ _ fun _ _ => ⟨rfl, rfl, rfl, rfl, rfl, rfl, rfl, rfl, rfl, rfl⟩
theorem keepsFrame_desLzwOp : KeepsFrame desLzwOp :=
  keepsFrame_parseOp _ _ fun _ _ => ⟨rfl, rfl, rfl, rfl, rfl, rfl, rfl, rfl, rfl, rfl⟩
theorem keepsFrame_desLz77Op : KeepsFrame desLz77Op :=
  keepsFrame_parseOp _ _ fun _ _ => ⟨rfl, rfl, rfl, rfl, rfl, rfl, rfl, rfl, rfl, rfl⟩

theorem keepsFrame_serRleOp : KeepsFrame serRleOp := keepsFrame_serializeOp _ fun s => serRle s.rle.obj
theorem keepsFrame_serHufOp : KeepsFrame serHufOp := keepsFrame_serializeOp _ fun s => serHuf s.huf.obj
theorem keepsFrame_serLzwOp : KeepsFrame serLzwOp := keepsFrame_serializeOp _ fun s => serLzw s.lzw.obj
theorem keepsFrame_serLz77Op : KeepsFrame serLz77Op := keepsFrame_serializeOp _ fun s => serLz77 s.lz77.obj

theorem keepsFrame_compressOp {codec serializer : State → Except Cause State} (hc : KeepsFrame codec)
    (hs : KeepsFrame serializer) : KeepsFrame (compressOp codec serializer) :=
  keepsFrame_andThen
    (keepsFrame_andThen keepsFrame_checkInput fun s _ h => (keeps_startOutput s).trans (hc _ _ h)) hs

theorem keepsFrame_decompressOp {deserializer codec : State → Except Cause State} (size : State → U64)
    (hd : KeepsFrame deserializer) (hc : KeepsFrame codec) : KeepsFrame (decompressOp deserializer size codec) :=
  keepsFrame_andThen
    (keepsFrame_andThen
      (keepsFrame_andThen keepsFrame_checkInput fun s _ h => (keeps_startOutput s).trans (hd _ _ h))
      (keepsFrame_checkOutput size)) hc

theorem keeps_settle {f : State → Except Cause State} (hf : KeepsFrame f) {s t : State}
    (h : settle s (f s) = .next t) : Keeps s t := by
  rcases settle_cases h with e | ⟨c, -, rfl⟩
  · exact hf s t e
  · exact keeps_raise c s

theorem keeps_settleCommand {f : State → Except Cause State} (hf : KeepsFrame f) {s t : State}
    (h : settleCommand s (f s) = .next t) : Keeps s t := by
  rcases settleCommand_cases h with ⟨u, e, rfl⟩ | ⟨c, -, rfl⟩
  · exact (hf s u e).trans (keeps_complete u)
  · exact keeps_raise c s

/-- No instruction changes the input, the command word, the parameters, the stage or the host's fields. -/
theorem exec_keeps (i : Instr) {s t : State} (h : exec i s = .next t) : Keeps s t := by
  cases i with
  | cLz77 => exact keeps_settleCommand (keepsFrame_compressOp keepsFrame_lz77CompressOp keepsFrame_serLz77Op) h
  | cHuf => exact keeps_settleCommand (keepsFrame_compressOp keepsFrame_hufCompressOp keepsFrame_serHufOp) h
  | cRle => exact keeps_settleCommand (keepsFrame_compressOp keepsFrame_rleCompressOp keepsFrame_serRleOp) h
  | cLzw => exact keeps_settleCommand (keepsFrame_compressOp keepsFrame_lzwCompressOp keepsFrame_serLzwOp) h
  | dLz77 => exact keeps_settleCommand (keepsFrame_decompressOp _ keepsFrame_desLz77Op keepsFrame_lz77DecompressOp) h
  | dHuf => exact keeps_settleCommand (keepsFrame_decompressOp _ keepsFrame_desHufOp keepsFrame_hufDecompressOp) h
  | dRle => exact keeps_settleCommand (keepsFrame_decompressOp _ keepsFrame_desRleOp keepsFrame_rleDecompressOp) h
  | dLzw => exact keeps_settleCommand (keepsFrame_decompressOp _ keepsFrame_desLzwOp keepsFrame_lzwDecompressOp) h
  | rlePair count value => exact keeps_settle (keepsFrame_rlePairOp count value) h
  | hufSym path => exact keeps_settle (keepsFrame_hufSymOp path) h
  | lzwCode code => exact keeps_settle (keepsFrame_lzwCodeOp code) h
  | lz77Lit length nextChar => exact keeps_settle (keepsFrame_lz77TokenOp _) h
  | lz77Ref offset length nextChar => exact keeps_settle (keepsFrame_lz77TokenOp _) h
  | rleCompress => exact keeps_settle keepsFrame_rleCompressOp h
  | rleDecompress => exact keeps_settle keepsFrame_rleDecompressOp h
  | hufBuild => exact keeps_settle keepsFrame_hufBuildOp h
  | hufAssign => exact keeps_settle keepsFrame_hufAssignOp h
  | hufCompress => exact keeps_settle keepsFrame_hufCompressOp h
  | hufDecompress => exact keeps_settle keepsFrame_hufDecompressOp h
  | lzwCompress => exact keeps_settle keepsFrame_lzwCompressOp h
  | lzwDecompress => exact keeps_settle keepsFrame_lzwDecompressOp h
  | lz77Compress => exact keeps_settle keepsFrame_lz77CompressOp h
  | lz77Decompress => exact keeps_settle keepsFrame_lz77DecompressOp h
  | serRle => exact keeps_settle keepsFrame_serRleOp h
  | serHuf => exact keeps_settle keepsFrame_serHufOp h
  | serLzw => exact keeps_settle keepsFrame_serLzwOp h
  | serLz77 => exact keeps_settle keepsFrame_serLz77Op h
  | desRle => exact keeps_settle keepsFrame_desRleOp h
  | desHuf => exact keeps_settle keepsFrame_desHufOp h
  | desLzw => exact keeps_settle keepsFrame_desLzwOp h
  | desLz77 => exact keeps_settle keepsFrame_desLz77Op h

end Sys2Proof.Machine
end

