-- ==== Sys2Proof/Laws/PerInstr.lean ====
section
/-! SUPPORT. Statements made per instruction: the width of each encoding (30_encoding.md R90, R123). -/

namespace Sys2Proof.Laws.EncodesInWidth

/-- The bytes of one element of a format (R90, R97, R109, R114). -/
def width : Format → Nat
  | .command => 2
  | .rlePair => 2
  | .lzwCode => 2
  | .lzToken => 4

/-- A well-formed instruction is encoded in exactly the bytes its format has, or in 1 to 255 bits of the Huffman stream;
an internal operation has no encoding (R123, R106, R13). -/
def Statement (i : Instr) : Prop :=
  i.wf = true → ∀ e, encode i = some e →
    match e with
    | .bytes f bs => bs.length = width f
    | .bits bs => 1 ≤ bs.length ∧ bs.length ≤ 255

theorem of_bytes {i : Instr} {f : Format} {bs : List Byte} (h : encode i = some (.bytes f bs))
    (len : bs.length = width f) : Statement i := by
  intro _ e he
  rw [h] at he
  cases he
  exact len

theorem of_none {i : Instr} (h : encode i = none) : Statement i := by
  intro _ e he
  rw [h] at he
  cases he

theorem cLz77 : Statement .cLz77 := of_bytes rfl rfl
theorem cHuf : Statement .cHuf := of_bytes rfl rfl
theorem cRle : Statement .cRle := of_bytes rfl rfl
theorem cLzw : Statement .cLzw := of_bytes rfl rfl
theorem dLz77 : Statement .dLz77 := of_bytes rfl rfl
theorem dHuf : Statement .dHuf := of_bytes rfl rfl
theorem dRle : Statement .dRle := of_bytes rfl rfl
theorem dLzw : Statement .dLzw := of_bytes rfl rfl
theorem rlePair (count value : Byte) : Statement (.rlePair count value) := of_bytes rfl rfl
theorem hufSym (path : List Bool) : Statement (.hufSym path) := by
  intro wf e he
  cases he
  simpa [Instr.wf] using wf
theorem lzwCode (code : U16) : Statement (.lzwCode code) := of_bytes rfl rfl
theorem lz77Lit (length nextChar : Byte) : Statement (.lz77Lit length nextChar) := of_bytes rfl rfl
theorem lz77Ref (offset : U16) (length nextChar : Byte) : Statement (.lz77Ref offset length nextChar) :=
  of_bytes rfl rfl
theorem rleCompress : Statement .rleCompress := of_none rfl
theorem rleDecompress : Statement .rleDecompress := of_none rfl
theorem hufBuild : Statement .hufBuild := of_none rfl
theorem hufAssign : Statement .hufAssign := of_none rfl
theorem hufCompress : Statement .hufCompress := of_none rfl
theorem hufDecompress : Statement .hufDecompress := of_none rfl
theorem lzwCompress : Statement .lzwCompress := of_none rfl
theorem lzwDecompress : Statement .lzwDecompress := of_none rfl
theorem lz77Compress : Statement .lz77Compress := of_none rfl
theorem lz77Decompress : Statement .lz77Decompress := of_none rfl
theorem serRle : Statement .serRle := of_none rfl
theorem serHuf : Statement .serHuf := of_none rfl
theorem serLzw : Statement .serLzw := of_none rfl
theorem serLz77 : Statement .serLz77 := of_none rfl
theorem desRle : Statement .desRle := of_none rfl
theorem desHuf : Statement .desHuf := of_none rfl
theorem desLzw : Statement .desLzw := of_none rfl
theorem desLz77 : Statement .desLz77 := of_none rfl

end Sys2Proof.Laws.EncodesInWidth
end

