-- ==== Sys2Proof/Tests/Slice0.lean ====
section
/-! SUPPORT. The model's own tests: ill-formed terms refused, words written out from 30_encoding.md decoded, one step of
each instruction against the spec's worked values, and for each obligation with hypotheses a state that meets them.
Expected values are those of 95_test_vectors.md and of the rules' examples, named at each test. -/

namespace Sys2Proof.Tests.Slice0

-- One theorem is checked before the next is read: many small evaluations at once would each hold a thread's stack.
set_option Elab.async false

open Sys2Proof Sys2Proof.Machine Sys2Proof.Safety

/-- The outcome is a next state with this property. -/
def gives (o : Host.Outcome State Fault Refusal) (p : State → Bool) : Bool :=
  match o with
  | .next t => p t
  | .fault _ => false
  | .refused _ => false

/-- An idle engine with CAP_IN 64 and CAP_OUT 2000, and an input. -/
def withInput (input : List Byte) : State :=
  { State.reset with cfg := ⟨64, 2000, []⟩, ibuf := cells 0 input, ilen := BitVec.ofNat 64 input.length }

/-- The command of this direction and selector accepted on an input. -/
def accepted (dir : BitVec 1) (alg : Byte) (input : List Byte) : State :=
  { withInput input with busy := 1, dir := dir, alg := alg }

/-- Accepted, at the grain of operations. -/
def acceptedFine (dir : BitVec 1) (alg : Byte) (input : List Byte) : State :=
  { accepted dir alg input with grain := .operation }

/-- In the middle of a decoder, with this output so far and every object owing `size` bytes. -/
def building (out : List Byte) (size : Nat) : State :=
  { withInput [] with
    busy := 1, stage := .decoding, grain := .operation, dir := 1,
    obuf := cells 0 out, opos := out.length
    rle.obj.originalSize := BitVec.ofNat 64 size
    huf.obj.originalSize := BitVec.ofNat 64 size
    lzw.obj.originalSize := BitVec.ofNat 64 size
    lz77.obj.originalSize := BitVec.ofNat 64 size }

/-- The host has these actions to do. -/
def asking (acts : List HostAct) : State := { withInput [1] with host := acts }

/-- The host has these actions to do while a command runs. -/
def askingBusy (acts : List HostAct) : State := { asking acts with busy := 1 }

/-- The output built so far is exactly this. -/
def built (t : State) (out : List Byte) : Bool := t.obuf == cells 0 out && t.opos == out.length

/-- The command completed with exactly this result. -/
def result (t : State) (out : List Byte) : Bool :=
  t.busy == 0 && t.status == 0 && t.olen.toNat == out.length && t.obuf == cells 0 out

/-- The command was ended by an error of this code. -/
def failed (t : State) (code : BitVec 2) : Bool := t.busy == 0 && t.status == code && t.olen == 0 && t.obuf == []

/-- "AAAABBBCC" -/
def text : List Byte := [0x41, 0x41, 0x41, 0x41, 0x42, 0x42, 0x42, 0x43, 0x43]

/-- "ABABABA" -/
def weave : List Byte := [0x41, 0x42, 0x41, 0x42, 0x41, 0x42, 0x41]

/-- S8: the RLE image of "AAAABBBCC". -/
def rleImage : List Byte :=
  [0x09, 0, 0, 0, 0, 0, 0, 0, 0x06, 0, 0, 0, 0, 0, 0, 0, 0x04, 0x41, 0x03, 0x42, 0x02, 0x43]

/-- W5: the LZW image of "ABABABA". -/
def lzwImage : List Byte :=
  [0x07, 0, 0, 0, 0, 0, 0, 0, 0x04, 0, 0, 0, 0, 0, 0, 0, 0x41, 0x00, 0x42, 0x00, 0x01, 0x01, 0x03, 0x01]

/-- R272: the LZ77 image of ten "A". -/
def lz77Image : List Byte := [0, 0, 0, 0, 0, 0, 0, 0x0A, 0, 0, 0, 0x41, 0, 0x01, 0x08, 0x41]

/-- The frequency table of "AAAABBBCC". -/
def textFreq : List U32 := List.replicate 65 0 ++ [4, 3, 2] ++ List.replicate 188 0

/-- The Huffman object of "AAAABBBCC" (H8). -/
def hufObject : HufObj := ⟨[0x0F, 0xE8], 9, textFreq⟩

/-- The Huffman unit with the tree of H8, written out, and standing on its root. -/
def hufTree : HufUnit :=
  { HufUnit.initial with
    freq := textFreq
    nodes := [(65, ⟨4, none, false⟩), (66, ⟨3, none, false⟩), (67, ⟨2, none, false⟩), (256, ⟨5, some (67, 66), false⟩),
      (257, ⟨9, some (65, 256), true⟩)]
    nnext := 258, root := some 257, cur := 257, obj := hufObject }

/-! ### WellFormed refuses -/

/-- R106: no empty code word. -/
theorem test_wf_empty_code_word : (Instr.hufSym []).wf = false := by decide
/-- R106: no code word of 256 bits. -/
theorem test_wf_long_code_word : (Instr.hufSym (List.replicate 256 true)).wf = false := by decide +kernel
/-- R106: one of 255 bits is well formed. -/
theorem test_wf_longest_code_word : (Instr.hufSym (List.replicate 255 true)).wf = true := by decide +kernel
/-- R115: a back-reference with offset 0 is no back-reference. -/
theorem test_wf_offset_zero : (Instr.lz77Ref 0 3 0x41).wf = false := by decide

/-! ### Words written out from the spec's encodings decode to what they stand for -/

theorem test_decode_cLz77 : decodeCommand 0b000000000 = .ok .cLz77 := by rfl
theorem test_decode_cHuf : decodeCommand 0b000000001 = .ok .cHuf := by rfl
theorem test_decode_cRle : decodeCommand 0b000000010 = .ok .cRle := by rfl
theorem test_decode_cLzw : decodeCommand 0b000000011 = .ok .cLzw := by rfl
theorem test_decode_dLz77 : decodeCommand 0b100000000 = .ok .dLz77 := by rfl
theorem test_decode_dHuf : decodeCommand 0b100000001 = .ok .dHuf := by rfl
theorem test_decode_dRle : decodeCommand 0b100000010 = .ok .dRle := by rfl
theorem test_decode_dLzw : decodeCommand 0b100000011 = .ok .dLzw := by rfl
/-- R92: the first and the last illegal selector, in either direction. -/
theorem test_decode_illegal_commands :
    decodeCommand 0b000000100 = .error (.unknownAlgorithm 4) ∧
    decodeCommand 0b111111111 = .error (.unknownAlgorithm 255) := by exact ⟨rfl, rfl⟩
/-- R97: byte 0 is the count, byte 1 the value. -/
theorem test_decode_rlePair : decode .rlePair [0b11111111, 0b01000001, 0b1] = .ok (.rlePair 255 0x41, [1]) := by rfl
/-- R109: byte 0 is code[7:0], byte 1 code[15:8]; 0x0103 = 259. -/
theorem test_decode_lzwCode : decode .lzwCode [0b00000011, 0b00000001] = .ok (.lzwCode 259, []) := by rfl
/-- R114, R115: offset 0 in bytes 0 and 1, big-endian. -/
theorem test_decode_lz77Lit :
    decode .lzToken [0b00000000, 0b00000000, 0b00000111, 0b01000011] = .ok (.lz77Lit 7 0x43, []) := by rfl
/-- R114, R115: offset 0x0102 = 258. -/
theorem test_decode_lz77Ref :
    decode .lzToken [0b00000001, 0b00000010, 0b00010010, 0b01011000] = .ok (.lz77Ref 258 18 0x58, []) := by rfl
/-- R106, H8: in the tree of "AAAABBBCC" the bits 1 0 are one code word, of C, and the rest is left. -/
theorem test_decode_hufSym :
    decodeSym (hufChild hufTree.nodes) (hufIsLeaf hufTree.nodes) 257 [true, false, true, true] =
      .ok (.hufSym [true, false], [true, true]) := by rfl
/-- R104: the bits of 0x0F, 0xE8, most significant first. -/
theorem test_bits_of_bytes : unpackBits [0x0F, 0xE8] =
    [false, false, false, false, true, true, true, true, true, true, true, false, true, false, false, false] := by
  decide +kernel
/-- A byte sequence that ends inside an element has no element. -/
theorem test_decode_truncated :
    decode .rlePair [3] = .error .truncated ∧ decode .lzwCode [65] = .error .truncated ∧
    decode .lzToken [0, 3, 3] = .error .truncated ∧ decode .command [0] = .error .truncated := ⟨rfl, rfl, rfl, rfl⟩

/-! ### Words of the opcode table -/

theorem test_table_words :
    decodeTableWord 16 0x000 = some .cLz77 ∧ decodeTableWord 16 0x001 = some .cHuf ∧
    decodeTableWord 16 0x002 = some .cRle ∧ decodeTableWord 16 0x003 = some .cLzw ∧
    decodeTableWord 16 0x100 = some .dLz77 ∧ decodeTableWord 16 0x101 = some .dHuf ∧
    decodeTableWord 16 0x102 = some .dRle ∧ decodeTableWord 16 0x103 = some .dLzw ∧
    decodeTableWord 32 0x00000743 = some (.lz77Lit 7 0x43) ∧
    decodeTableWord 32 0x10000321 = some (.lz77Ref 4096 3 0x21) ∧
    decodeTableWord 16 0x4204 = some (.rlePair 4 0x42) := by decide +kernel

/-- From reset, a command word placed runs as the next step: C.RLE on an empty input ends with STATUS = 1 (R49, R271). -/
theorem test_placed_command_runs : gives (step (State.reset.withFetchWord 16 0x002)) (failed · 1) = true := by
  decide +kernel

/-- From reset, a token placed runs as the next step: nothing is owed, so LZ77.LIT is Corrupt (R246). -/
theorem test_placed_token_runs : gives (step (State.reset.withFetchWord 32 0x00000743)) (failed · 3) = true := by
  decide +kernel

/-! ### One step of each instruction -/

/-- R272, the example of C.LZ77. -/
theorem test_cLz77 : gives (step (accepted 0 0 (List.replicate 10 0x41))) (result · lz77Image) = true := by
  decide +kernel
/-- S6: a first token that is a back-reference. -/
theorem test_dLz77_corrupt :
    gives (step (accepted 1 0 [0, 0, 0, 0, 0, 0, 0, 4, 0, 3, 3, 0x58])) (failed · 3) = true := by decide +kernel
/-- R276, the example of D.LZ77. -/
theorem test_dLz77 : gives (step (accepted 1 0 lz77Image)) (result · (List.replicate 10 0x41)) = true := by
  decide +kernel
/-- R273, the example of C.HUF: the length, the last two bytes, and the table entry of A. -/
theorem test_cHuf : gives (step (accepted 0 1 text)) (fun t =>
    t.busy == 0 && t.status == 0 && t.olen == 1042 && memRead t.obuf 1040 == some 0x0F &&
    memRead t.obuf 1041 == some 0xE8 && memRead t.obuf 276 == some 4 && memRead t.obuf 8 == some 2) = true := by
  decide +kernel
/-- H21: CAP_OUT one byte short of the image. -/
theorem test_cHuf_capacity :
    gives (step { accepted 0 1 [0x41] with cfg := ⟨64, 1040, []⟩ }) (failed · 2) = true := by decide +kernel
/-- H14: an image shorter than 1040 bytes. -/
theorem test_dHuf_truncated : gives (step (accepted 1 1 text)) (failed · 3) = true := by decide +kernel
/-- S8, the image of C.RLE. -/
theorem test_cRle : gives (step (accepted 0 2 text)) (result · rleImage) = true := by decide +kernel
/-- E6: CAP_OUT one byte short of the image. -/
theorem test_cRle_capacity :
    gives (step { accepted 0 2 [0x41, 0x42, 0x43] with cfg := ⟨64, 21, []⟩ }) (failed · 2) = true := by decide +kernel
/-- S8, back. -/
theorem test_dRle : gives (step (accepted 1 2 rleImage)) (result · text) = true := by decide +kernel
/-- E16: the declared size is beyond CAP_OUT. -/
theorem test_dRle_capacity :
    gives (step { accepted 1 2 rleImage with cfg := ⟨64, 8, []⟩ }) (failed · 2) = true := by decide +kernel
/-- W5, the image of C.LZW. -/
theorem test_cLzw : gives (step (accepted 0 3 weave)) (result · lzwImage) = true := by decide +kernel
/-- W10, back. -/
theorem test_dLzw : gives (step (accepted 1 3 lzwImage)) (result · weave) = true := by decide +kernel
/-- W16: 256 is never resolvable. -/
theorem test_dLzw_reserved :
    gives (step (accepted 1 3 [2, 0, 0, 0, 0, 0, 0, 0, 2, 0, 0, 0, 0, 0, 0, 0, 65, 0, 0, 1])) (failed · 3) = true := by
  decide +kernel
/-- R146, its example: "AAAA", then (3, 'B'). -/
theorem test_rlePair : gives (exec (.rlePair 3 0x42) (building [0x41, 0x41, 0x41, 0x41] 9))
    (fun t => built t [0x41, 0x41, 0x41, 0x41, 0x42, 0x42, 0x42] && t.busy == 1) = true := by decide +kernel
/-- R145: a count of 0 is Corrupt (E13). -/
theorem test_rlePair_zero : gives (exec (.rlePair 0 0x42) (building [] 9)) (failed · 3) = true := by decide +kernel
/-- H8: the bits 1 0 append C and the walk is back on the root. -/
theorem test_hufSym : gives (exec (.hufSym [true, false]) { building [0x41] 9 with huf := hufTree, bitpos := 1 })
    (fun t => built t [0x41, 0x43] && t.huf.cur == 257 && t.bitpos == 3) = true := by decide +kernel
/-- R177: two bits that end inside the tree leave the walk on an inner node. -/
theorem test_hufSym_inside : gives (exec (.hufSym [true]) { building [] 9 with huf := hufTree })
    (fun t => built t [] && t.huf.cur == 256 && t.bitpos == 1) = true := by decide +kernel
/-- R211, its example: after [65, 66], the code 258 = NEXT. -/
theorem test_lzwCode : gives
    (exec (.lzwCode 258)
      { building [0x41, 0x42] 4 with
        ipos := 2, lzw := ⟨[(65, 0x42)], none, 0, 66, [], ⟨[], 4⟩⟩ })
    (fun t => built t [0x41, 0x42, 0x42, 0x42] && t.lzw.dict == [(65, 0x42), (66, 0x42)] && t.lzw.prev == 258) = true := by
  decide +kernel
/-- W15: a first code that is no literal. -/
theorem test_lzwCode_first : gives (exec (.lzwCode 300) (building [] 1)) (failed · 3) = true := by decide +kernel
/-- R246, its example: (0, 7, 'C') appends C. -/
theorem test_lz77Lit : gives (exec (.lz77Lit 7 0x43) (building [0x41, 0x42] 3)) (built · [0x41, 0x42, 0x43]) = true := by
  decide +kernel
/-- R247, its example: "ABC", then (3, 6, 'X'), an overlapping copy. -/
theorem test_lz77Ref : gives (exec (.lz77Ref 3 6 0x58) (building [0x41, 0x42, 0x43] 10))
    (built · [0x41, 0x42, 0x43, 0x41, 0x42, 0x43, 0x41, 0x42, 0x43, 0x58]) = true := by decide +kernel
/-- R247: an offset one beyond the output so far. -/
theorem test_lz77Ref_beyond :
    gives (exec (.lz77Ref 4 3 0x58) (building [0x41, 0x42, 0x43] 10)) (failed · 3) = true := by decide +kernel
/-- S8: the pairs of "AAAABBBCC". -/
theorem test_rleCompress : gives (exec .rleCompress (accepted 0 2 text))
    (fun t => t.rle.obj == ⟨[(4, 0x41), (3, 0x42), (2, 0x43)], 9⟩ && t.busy == 1) = true := by decide +kernel
/-- S3: 256 identical bytes are (255, v), (1, v). -/
theorem test_rle_boundary :
    (rleCompress (List.replicate 256 0x41)).runs = [(255, 0x41), (1, 0x41)] := by decide +kernel
/-- E15: equal neighbours are accepted by the decoder. -/
theorem test_rleDecompress : gives
    (exec .rleDecompress { withInput [] with rle.obj := ⟨[(1, 0x41), (1, 0x41)], 2⟩ }) (built · [0x41, 0x41]) = true := by
  decide +kernel
/-- H8: the tree of "AAAABBBCC". -/
theorem test_hufBuild : gives (exec .hufBuild { withInput [] with huf := { HufUnit.initial with freq := textFreq } })
    (fun t => t.huf.root == some 257 && t.huf.nnext == 258 &&
      t.huf.nodes.lookup 256 == some ⟨5, some (67, 66), false⟩ &&
      t.huf.nodes.lookup 257 == some ⟨9, some (65, 256), true⟩) = true := by decide +kernel
/-- H8: A=0, C=10, B=11. -/
theorem test_hufAssign : gives (exec .hufAssign { withInput [] with huf := hufTree })
    (fun t => t.huf.codes == [(65, [false]), (67, [true, false]), (66, [true, true])]) = true := by decide +kernel
/-- H8: the packed bytes of "AAAABBBCC". -/
theorem test_hufCompress : gives (exec .hufCompress (accepted 0 1 text)) (fun t => t.huf.obj == hufObject) = true := by
  decide +kernel
/-- S4: 100 copies of one byte are stored as that byte. -/
theorem test_hufCompress_one_symbol :
    (hufCompress HufUnit.initial (List.replicate 100 0x41)).obj.packedBits = [0x41] := by decide +kernel
/-- H10: back. -/
theorem test_hufDecompress : gives (exec .hufDecompress { withInput [] with huf.obj := hufObject }) (built · text) = true := by
  decide +kernel
/-- H13: the bits end after 11 symbols. -/
theorem test_hufDecompress_exhausted :
    gives (exec .hufDecompress { withInput [] with huf.obj := ⟨[0x0F, 0xE8], 12, textFreq⟩ }) (failed · 3) = true := by
  decide +kernel
/-- W5: the codes and the entries of "ABABABA". -/
theorem test_lzwCompress : gives (exec .lzwCompress (accepted 0 3 weave))
    (fun t => t.lzw.obj == ⟨[65, 66, 257, 259], 7⟩ && t.lzw.dict == [(65, 0x42), (66, 0x41), (257, 0x41)]) = true := by
  decide +kernel
/-- W11: the single slot ahead right after the first code. -/
theorem test_lzwDecompress : gives (exec .lzwDecompress { withInput [] with lzw.obj := ⟨[65, 257], 3⟩ })
    (built · [0x41, 0x41, 0x41]) = true := by decide +kernel
/-- W13: one slot further is Corrupt. -/
theorem test_lzwDecompress_ahead :
    gives (exec .lzwDecompress { withInput [] with lzw.obj := ⟨[65, 258], 3⟩ }) (failed · 3) = true := by decide +kernel
/-- R272: a literal and a match that overlaps itself, the last byte kept for the literal. -/
theorem test_lz77Compress : gives (exec .lz77Compress (accepted 0 0 (List.replicate 10 0x41)))
    (fun t => t.lz77.obj == ⟨[⟨0, 0, 0x41⟩, ⟨1, 8, 0x41⟩], 10⟩ && t.ipos == 10) = true := by decide +kernel
/-- R276: back. -/
theorem test_lz77Decompress : gives
    (exec .lz77Decompress { withInput [] with lz77.obj := ⟨[⟨0, 0, 0x41⟩, ⟨1, 8, 0x41⟩], 10⟩ })
    (built · (List.replicate 10 0x41)) = true := by decide +kernel
/-- R280, its example. -/
theorem test_serRle : gives
    (exec .serRle { withInput [] with rle.obj := ⟨[(4, 0x41), (3, 0x42), (2, 0x43)], 9⟩ }) (built · rleImage) = true := by
  decide +kernel
/-- R281: the first header byte, the packed size, a table entry and the last byte. -/
theorem test_serHuf : gives (exec .serHuf { withInput [] with huf.obj := hufObject })
    (fun t => t.opos == 1042 && memRead t.obuf 0 == some 9 && memRead t.obuf 8 == some 2 &&
      memRead t.obuf 280 == some 3 && memRead t.obuf 1041 == some 0xE8) = true := by decide +kernel
/-- R282: W5's image. -/
theorem test_serLzw : gives (exec .serLzw { withInput [] with lzw.obj := ⟨[65, 66, 257, 259], 7⟩ })
    (built · lzwImage) = true := by decide +kernel
/-- R283: big-endian size and offsets. -/
theorem test_serLz77 : gives
    (exec .serLz77 { withInput [] with lz77.obj := ⟨[⟨0, 0, 0x41⟩, ⟨1, 8, 0x41⟩], 10⟩ }) (built · lz77Image) = true := by
  decide +kernel
/-- R285, its inverse. -/
theorem test_desRle : gives (exec .desRle (withInput rleImage))
    (fun t => t.rle.obj == ⟨[(4, 0x41), (3, 0x42), (2, 0x43)], 9⟩) = true := by decide +kernel
/-- E7: the image without its last byte. -/
theorem test_desRle_short : gives (exec .desRle (withInput rleImage.dropLast)) (failed · 3) = true := by decide +kernel
/-- R286: H8's image parsed back (its bytes stand for the input here, without the memory). -/
theorem test_desHuf : (match desHuf (serHuf hufObject) with | .ok c => c == hufObject | .error _ => false) = true := by
  decide +kernel
/-- R286: 1039 bytes are too few. -/
theorem test_desHuf_truncated :
    (match desHuf (List.replicate 1039 0) with | .ok _ => none | .error c => some c) = some .hufTruncated := by
  decide +kernel
/-- R287: W5's image parsed back. -/
theorem test_desLzw : gives (exec .desLzw (withInput lzwImage)) (fun t => t.lzw.obj == ⟨[65, 66, 257, 259], 7⟩) = true := by
  decide +kernel
/-- W21: an odd code area. -/
theorem test_desLzw_odd : gives (exec .desLzw (withInput (List.replicate 17 0))) (failed · 3) = true := by decide +kernel
/-- R288: the image of ten "A" parsed back. -/
theorem test_desLz77 : gives (exec .desLz77 (withInput lz77Image))
    (fun t => t.lz77.obj == ⟨[⟨0, 0, 0x41⟩, ⟨1, 8, 0x41⟩], 10⟩) = true := by decide +kernel
/-- R288: a token area that is no multiple of 4. -/
theorem test_desLz77_partial : gives (exec .desLz77 (withInput (List.replicate 9 0))) (failed · 3) = true := by
  decide +kernel

/-! ### For each obligation with hypotheses, states and operands that meet them -/

/-- The parameters of the small engine are admissible. -/
theorem small_wf (input : List Byte) : (withInput input).cfg.wf := by
  refine ⟨?_, ?_, ?_, ?_⟩ <;> simp [withInput]

theorem small_inputOk {s : State} (hc : s.cfg = ⟨64, 2000, []⟩) (h : 1 ≤ s.ilen.toNat ∧ s.ilen.toNat ≤ 64) :
    InputOk s := by
  refine ⟨?_, h.1, ?_⟩
  · rw [hc]; refine ⟨?_, ?_, ?_, ?_⟩ <;> simp
  · rw [hc]; exact h.2

theorem small_accepted {s : State} (hc : s.cfg = ⟨64, 2000, []⟩) (hh : s.host = []) (hb : s.busy = 1)
    (hs : s.stage = .accepted) : Accepted s := by
  refine ⟨?_, hh, hb, hs⟩
  rw [hc]; refine ⟨?_, ?_, ?_, ?_⟩ <;> simp

theorem witness_DecodeEncodeAgree : ∃ i f bs, i.wf = true ∧ encode i = some (.bytes f bs) :=
  ⟨.lz77Ref 65535 255 255, _, _, rfl, rfl⟩

theorem witness_DecodedBytesReencode : ∃ f bs rest i, decode f bs = .ok (i, rest) :=
  ⟨.lzToken, [0, 1, 0, 0, 9], _, _, rfl⟩

theorem witness_HuffmanCodeWordsDecode : ∃ (u : HufUnit) (root sym : Nat) (path : List Bool),
    (hufBuild u).root = some root ∧ hufIsLeaf (hufBuild u).nodes root = false ∧
    (sym, path) ∈ (hufAssign (hufBuild u)).codes :=
  ⟨{ HufUnit.initial with freq := [4, 3, 2] }, 257, 2, [true, false], by decide +kernel⟩

/-- The last legal and the first illegal selector, and an illegal command about to be started. -/
theorem witness_IllegalCommandWords : ∃ (v w : CmdWord) (s : State) (rest : List HostAct),
    (commandAlg v).toNat = 3 ∧ (commandAlg w).toNat = 4 ∧ s.busy = 0 ∧ s.alg.toNat = 4 ∧
    s.host = .writeReg .start 1 :: .engineTurn :: rest :=
  ⟨0x103, 0x104, { asking [.writeReg .start 1, .engineTurn] with alg := 4 }, [], by decide⟩

theorem witness_StepRunsAcceptedCommand : ∃ (s : State) (i : Instr), s.host = [] ∧ s.busy = 1 ∧ s.stage = .accepted ∧
    s.grain = .command ∧ decodeCommand (commandWord s) = .ok i :=
  ⟨accepted 1 3 lzwImage, .dLzw, rfl, rfl, rfl, rfl, rfl⟩

/-- The decoder of this selector on this input, its unit `u`. -/
def decoding (alg : Byte) (input : List Byte) (cursor : Nat) : State :=
  { accepted 1 alg input with stage := .decoding, ipos := cursor, huf := hufTree }

theorem witness_StepRunsStreamElement : ∃ (r w z : State) (i j k : Instr),
    (Decoding 2 r ∧ decode .rlePair ((inputBytes r).drop (16 + 2 * r.ipos)) = .ok (i, [])) ∧
    (Decoding 3 w ∧ decode .lzwCode ((inputBytes w).drop (16 + 2 * w.ipos)) = .ok (j, [])) ∧
    (Decoding 0 z ∧ decode .lzToken ((inputBytes z).drop (8 + 4 * z.ipos)) = .ok (k, [])) :=
  ⟨decoding 2 rleImage 2, decoding 3 lzwImage 3, decoding 0 lz77Image 1,
    .rlePair 2 0x43, .lzwCode 259, .lz77Ref 1 8 0x41,
    ⟨⟨rfl, rfl, rfl, rfl⟩, rfl⟩, ⟨⟨rfl, rfl, rfl, rfl⟩, rfl⟩, ⟨⟨rfl, rfl, rfl, rfl⟩, rfl⟩⟩

/-- The Huffman clause of StepRunsStreamElement: H8's image, after four code words A. -/
theorem witness_StepRunsStreamElement_sym : ∃ (s : State) (i : Instr) (rest : List Bool), Decoding 1 s ∧
    s.huf.root = some 257 ∧ hufIsLeaf s.huf.nodes 257 = false ∧ s.opos < s.huf.obj.originalSize.toNat ∧
    decodeSym (hufChild s.huf.nodes) (hufIsLeaf s.huf.nodes) 257
      ((unpackBits ((inputBytes s).drop 1040)).drop s.bitpos) = .ok (i, rest) := by
  refine ⟨{ decoding 1 (serHuf hufObject) 0 with bitpos := 4, opos := 4 }, .hufSym [true, true],
    [true, true, true, true, true, false, true, false, false, false], ⟨rfl, rfl, rfl, rfl⟩, rfl, by decide +kernel,
    by decide +kernel, ?_⟩
  rw [inputBytes_of_cells (bs := serHuf hufObject) rfl (by decide +kernel)]
  have e : (serHuf hufObject).drop 1040 = [0x0F, 0xE8] := by decide +kernel
  rw [e]
  rfl

/-- Each cause at its boundary, and a step that raises one. -/
theorem witness_InvalidArgumentCauses : ∃ s t u v w : State,
    (Accepted s ∧ s.alg.toNat = 4) ∧ (Accepted t ∧ t.ilen.toNat = 0) ∧
    (Accepted u ∧ u.ilen.toNat = u.cfg.capIn + 1) ∧
    (v.host = [] ∧ v.busy = 1 ∧ step v = .next w ∧ w.busy = 0 ∧ w.status = 1) :=
  ⟨acceptedFine 0 4 [1], acceptedFine 0 2 [], accepted 1 2 (List.replicate 65 0), accepted 0 4 [1],
    raise .unknownAlgorithm (accepted 0 4 [1]),
    ⟨small_accepted rfl rfl rfl rfl, rfl⟩, ⟨small_accepted rfl rfl rfl rfl, rfl⟩,
    ⟨small_accepted rfl rfl rfl rfl, rfl⟩, rfl, rfl, rfl, rfl, rfl⟩

theorem witness_EveryCommandCompletes : ∃ s, Accepted s ∧ s.grain = .operation :=
  ⟨acceptedFine 1 2 rleImage, small_accepted rfl rfl rfl rfl, rfl⟩

theorem witness_StartStrobe : ∃ (s t u v : State) (rest : List HostAct),
    (s.host = .writeReg .start 1 :: rest ∧ s.busy = 0) ∧ t.host = .writeReg .start 0 :: rest ∧
    (u.host = .writeReg .start 1 :: rest ∧ u.busy = 1) ∧ v.host = .readReg .start :: rest :=
  ⟨asking [.writeReg .start 1], asking [.writeReg .start 0], askingBusy [.writeReg .start 1],
    askingBusy [.readReg .start], [], by decide⟩

/-- The last byte that exists is written. -/
theorem witness_HostWritesWhileIdle : ∃ (s t u v : State) (rest : List HostAct) (a : Nat) (bs : List Byte),
    (s.busy = 0 ∧ s.host = .writeReg .alg ((255 : Byte).setWidth 64) :: .readReg .alg :: rest) ∧
    (t.busy = 0 ∧ t.host = .writeReg .dir ((1 : BitVec 1).setWidth 64) :: .readReg .dir :: rest) ∧
    (u.busy = 0 ∧ u.host = .writeReg .ilen (BitVec.allOnes 64) :: .readReg .ilen :: rest) ∧
    (v.busy = 0 ∧ v.host = .writeIbuf a bs :: rest ∧ a + bs.length = v.cfg.capIn) :=
  ⟨asking [.writeReg .alg 255, .readReg .alg], asking [.writeReg .dir 1, .readReg .dir],
    asking [.writeReg .ilen (BitVec.allOnes 64), .readReg .ilen], asking [.writeIbuf 62 [1, 2]], [], 62, [1, 2],
    by decide⟩

theorem witness_HostMovesNotOffered : ∃ (r s t u v w x : State) (rest : List HostAct),
    r.host = .writeReg .olen 1 :: rest ∧
    (s.host = .writeReg .ilen 1 :: rest ∧ s.busy = 1) ∧
    (t.host = .readReg .status :: rest ∧ t.busy = 1) ∧
    (u.host = .writeIbuf 0 [1] :: rest ∧ u.busy = 1) ∧
    (v.host = .writeIbuf 63 [1, 2] :: rest ∧ v.busy = 0 ∧ v.cfg.capIn < 63 + 2) ∧
    (w.host = .readObuf 0 :: rest ∧ w.busy = 1) ∧
    (x.host = .readObuf 1999 :: rest ∧ x.busy = 0 ∧ x.olen.toNat ≤ 1999 ∧ 1999 < x.cfg.capOut) :=
  ⟨asking [.writeReg .olen 1], askingBusy [.writeReg .ilen 1], askingBusy [.readReg .status],
    askingBusy [.writeIbuf 0 [1]], asking [.writeIbuf 63 [1, 2]], askingBusy [.readObuf 0], asking [.readObuf 1999], [],
    by decide⟩

/-- The first address beyond OBUF, a copy while busy, one byte too many for IBUF, and one more than OLEN. -/
theorem witness_HostMovesNotOffered_edges : ∃ (s t u v : State) (rest : List HostAct),
    (s.host = .readObuf 2000 :: rest ∧ s.busy = 0 ∧ s.cfg.capOut = 2000) ∧
    (t.host = .copyBack 0 :: rest ∧ t.busy = 1) ∧
    (u.host = .copyBack 65 :: rest ∧ u.busy = 0 ∧ u.cfg.capIn < 65) ∧
    (v.host = .copyBack 1 :: rest ∧ v.busy = 0 ∧ 1 ≤ v.cfg.capIn ∧ v.olen.toNat < 1) :=
  ⟨asking [.readObuf 2000], askingBusy [.copyBack 0], asking [.copyBack 65], asking [.copyBack 1], [], by decide⟩

/-- A result of two bytes: its last byte read, all of it copied; and the wait, idle and busy. -/
theorem witness_HostTakesResults : ∃ (q r s t u v w x : State) (rest : List HostAct),
    q.host = .readReg .busy :: rest ∧ (r.host = .readReg .status :: rest ∧ r.busy = 0) ∧
    (s.host = .readReg .olen :: rest ∧ s.busy = 0) ∧
    (t.host = .readObuf 1 :: rest ∧ t.busy = 0 ∧ t.olen.toNat = 2 ∧ 1 < t.cfg.capOut ∧ memRead t.obuf 1 = some 0x42) ∧
    (u.host = .copyBack 2 :: rest ∧ u.busy = 0 ∧ u.olen.toNat = 2 ∧ 2 ≤ u.cfg.capIn) ∧
    (v.host = .awaitIdle :: rest ∧ v.busy = 0) ∧ (w.host = .awaitIdle :: rest ∧ w.busy = 1) ∧
    x.host = .engineTurn :: rest :=
  ⟨askingBusy [.readReg .busy], asking [.readReg .status], asking [.readReg .olen],
    { asking [.readObuf 1] with obuf := cells 0 [0x41, 0x42], olen := 2 },
    { asking [.copyBack 2] with obuf := cells 0 [0x41, 0x42], olen := 2 },
    asking [.awaitIdle], askingBusy [.awaitIdle], askingBusy [.engineTurn], [], by decide⟩

theorem witness_ResetEvent : ∃ (r s t u : State) (rest : List HostAct),
    (r.host = .reset :: rest ∧ r.busy = 1) ∧
    (s.busy = 0 ∧ s.host = .writeReg .ilen 5 :: rest ∧ step s = .next t ∧ t.ilen = 5) ∧
    (u.busy = 0 ∧ u.host = []) :=
  ⟨askingBusy [.reset], asking [.writeReg .ilen 5], { asking [] with ilen := 5 }, asking [], [], ⟨rfl, rfl⟩,
    ⟨rfl, rfl, rfl, rfl⟩, rfl, rfl⟩

/-- The last address of OBUF. -/
theorem witness_ResetState : ∃ a, a < State.reset.cfg.capOut := ⟨2 ^ 63 - 1, by decide⟩

theorem witness_NormalCompletion : ∃ (s t : State) (x y : List Byte), s.cfg.wf ∧ t.cfg.wf ∧
    runCommand s.cfg 0 (selector .rle) (inputBytes s) = .ok x ∧
    runCommand t.cfg 1 (selector .lzw) (inputBytes t) = .ok y :=
  ⟨withInput text, withInput lzwImage, rleImage, weave, small_wf _, small_wf _, rfl, rfl⟩

theorem witness_ErrorCompletion : ∃ (s t : State) (c d : Cause), s.cfg.wf ∧ t.cfg.wf ∧
    runCommand s.cfg 0 (selector .rle) (inputBytes s) = .error c ∧
    runCommand t.cfg 1 (selector .lz77) (inputBytes t) = .error d :=
  ⟨withInput [], withInput [0, 0, 0, 0, 0, 0, 0, 4, 0, 3, 3, 0x58], .emptyInput, .lz77OffsetBeyond,
    small_wf _, small_wf _, rfl, rfl⟩

/-- CAP_OUT exactly the image (E6), and one byte short of it. -/
theorem witness_CompressCommandsComplete : ∃ s t u : State,
    (InputOk s ∧ (imageBytes s.cfg (inputBytes s) .rle).length = s.cfg.capOut) ∧
    (InputOk t ∧ (imageBytes t.cfg (inputBytes t) .rle).length = t.cfg.capOut + 1) ∧
    exec (compressInstr .rle) t = .next u :=
  ⟨{ withInput [0x41, 0x42, 0x43] with cfg := ⟨64, 22, []⟩ }, { withInput [0x41, 0x42, 0x43] with cfg := ⟨64, 21, []⟩ }, _,
    ⟨⟨by decide, by decide, by decide⟩, rfl⟩, ⟨⟨by decide, by decide, by decide⟩, rfl⟩, rfl⟩

/-- The output exactly fills OBUF. -/
theorem witness_DecompressCommandsInvert : ∃ (s : State) (x : List Byte), InputOk s ∧ x ≠ [] ∧
    x.length ≤ s.cfg.capIn ∧ x.length = s.cfg.capOut ∧ inputBytes s = imageBytes s.cfg x .rle :=
  ⟨{ withInput rleImage with cfg := ⟨64, 9, []⟩ }, text, ⟨by decide, by decide, by decide⟩, by decide, by decide, rfl, rfl⟩

/-- E7, and E16 on either side of CAP_OUT. -/
theorem witness_CheckOutputOrder : ∃ (s t u : State) (c : Cause),
    (InputOk s ∧ declaredSize (inputBytes s) .rle = .error c) ∧
    (InputOk t ∧ declaredSize (inputBytes t) .rle = .ok 9 ∧ t.cfg.capOut = 8) ∧
    (InputOk u ∧ declaredSize (inputBytes u) .rle = .ok 9 ∧ u.cfg.capOut = 9) :=
  ⟨withInput rleImage.dropLast, { withInput rleImage with cfg := ⟨64, 8, []⟩ },
    { withInput rleImage with cfg := ⟨64, 9, []⟩ }, .rleSizeDiffers,
    ⟨small_inputOk rfl (by decide), rfl⟩, ⟨⟨by decide, by decide, by decide⟩, rfl, rfl⟩,
    ⟨by decide, by decide, by decide⟩, rfl, rfl⟩

/-- Two states that differ beyond ILEN, in OBUF and in a unit. -/
theorem witness_CommandsArePure : ∃ s₁ s₂ t₁ t₂ : State, s₁.cfg.wf ∧ s₁.cfg = s₂.cfg ∧
    inputBytes s₁ = inputBytes s₂ ∧ s₁.ibuf ≠ s₂.ibuf ∧ s₁.obuf ≠ s₂.obuf ∧ s₁.rle ≠ s₂.rle ∧
    exec (compressInstr .rle) s₁ = .next t₁ ∧ exec (compressInstr .rle) s₂ = .next t₂ :=
  ⟨withInput text, { withInput text with ibuf := cells 0 (text ++ [9]), obuf := [(5, 5)], rle.v := 7 }, _, _,
    small_wf _, rfl, rfl, by decide, by decide, by decide, rfl, rfl⟩

theorem witness_CommandRoundTrip : ∃ (p : Params) (x y : List Byte), p.wf ∧ 1 ≤ x.length ∧ x.length ≤ p.capIn ∧
    x.length ≤ p.capOut ∧ runCommand p 0 (selector .rle) x = .ok y ∧ y.length ≤ p.capIn :=
  ⟨⟨22, 22, []⟩, text, rleImage, by decide, by decide, by decide, by decide, rfl, by decide⟩

/-- OBUF has exactly the declared size, for each decoder. -/
theorem witness_DecodersKeepDeclaredLength : ∃ s : State,
    s.rle.obj.originalSize.toNat = s.cfg.capOut ∧ s.huf.obj.originalSize.toNat = s.cfg.capOut ∧
    s.lzw.obj.originalSize.toNat = s.cfg.capOut ∧ s.lz77.obj.originalSize.toNat = s.cfg.capOut :=
  ⟨{ building [] 2 with cfg := ⟨64, 2, []⟩ }, by decide⟩

/-- RleCompressMakesRuns: the longest input CAP_IN allows here. -/
theorem witness_RleCompressMakesRuns : ∃ s : State, InputOk s ∧ s.ilen.toNat = s.cfg.capIn :=
  ⟨withInput (List.replicate 64 0), small_inputOk rfl (by decide), rfl⟩

/-- A pair of the object of 256 equal bytes. -/
theorem witness_RleCounterStopsAt255 : ∃ (x : List Byte) (r : Byte × Byte), r ∈ (rleCompress x).runs ∧ r.1 = 255 :=
  ⟨List.replicate 256 0x41, (255, 0x41), by decide +kernel⟩

theorem witness_RleDoublesNonRepetitive : ∃ x : List Byte, x.length < 2 ^ 32 ∧
    ∀ (i : Nat) (b c : Byte), x[i]? = some b → x[i + 1]? = some c → b ≠ c := by
  refine ⟨[0x41, 0x42], by decide, fun i b c hb hc => ?_⟩
  match i with
  | 0 => simp at hb hc; subst hb hc; decide
  | i + 1 => simp at hc

/-- An object whose size is CAP_OUT, and E12, whose counts fall short. -/
theorem witness_RleDecompressReplays : ∃ s t : State,
    ((∀ r ∈ s.rle.obj.runs, r.1 ≠ 0) ∧
      (s.rle.obj.runs.map fun r => r.1.toNat).sum = s.rle.obj.originalSize.toNat ∧
      s.rle.obj.originalSize.toNat = s.cfg.capOut) ∧
    ¬ ((∀ r ∈ t.rle.obj.runs, r.1 ≠ 0) ∧
      (t.rle.obj.runs.map fun r => r.1.toNat).sum = t.rle.obj.originalSize.toNat) :=
  ⟨{ withInput [] with cfg := ⟨64, 9, []⟩, rle.obj := ⟨[(4, 0x41), (3, 0x42), (2, 0x43)], 9⟩ },
    { withInput [] with rle.obj := ⟨[(4, 0x41), (3, 0x42), (2, 0x43)], 10⟩ },
    ⟨by simp, by decide +kernel, rfl⟩, fun h => absurd h.2 (by decide +kernel)⟩

/-- Two bytes are out, of three owed: one byte fits, two are too many, and OBUF may be short of the one. -/
theorem witness_RlePairAppends : ∃ (s t : State) (count : Byte),
    (count ≠ 0 ∧ s.opos + count.toNat = s.rle.obj.originalSize.toNat ∧ s.opos + count.toNat ≤ s.cfg.capOut) ∧
    s.rle.obj.originalSize.toNat < s.opos + (count + 1).toNat ∧
    (count ≠ 0 ∧ t.opos + count.toNat ≤ t.rle.obj.originalSize.toNat ∧ t.cfg.capOut + 1 = t.opos + count.toNat) :=
  ⟨building [1, 2] 3, { building [1, 2] 3 with cfg := ⟨64, 2, []⟩ }, 1, by decide +kernel⟩

/-- No symbol, one (of frequency 7) and all 256; and in the tree of H8 the node A, still waiting when node 256 took C and B. -/
theorem witness_HufBuildMakesFullTree : ∃ s t u : State,
    (s.huf.freq.length = 256 ∧ symbolCount s.huf.freq = 0) ∧ (t.huf.freq.length = 256 ∧ symbolCount t.huf.freq = 1) ∧
    t.huf.freq[0]? = some 7 ∧ (u.huf.freq.length = 256 ∧ symbolCount u.huf.freq = 256) ∧
    (∃ id node l r, hufTree.nodes.lookup id = some node ∧ node.kids = some (l, r)) ∧
    ∃ other c, hufTree.nodes.lookup other = some c ∧ other < 256 ∧ other ≠ 67 ∧ other ≠ 66 :=
  ⟨withInput [], { withInput [] with huf.freq := 7 :: List.replicate 255 0 },
    { withInput [] with huf.freq := List.replicate 256 1 }, by decide +kernel, by decide +kernel, rfl, by decide +kernel,
    ⟨257, _, 65, 256, rfl, rfl⟩, 65, _, rfl, by decide⟩

theorem witness_HufAssignGivesPaths : ∃ s : State, s.huf.freq.length = 256 ∧ symbolCount s.huf.freq = 2 ∧
    s.huf.freq[0]? = some 9 ∧ s.huf.freq[2]? = some 0 :=
  ⟨{ withInput [] with huf.freq := 9 :: 1 :: List.replicate 254 0 }, by decide +kernel⟩

/-- HufCompressMakesObject: an input with two symbols, and its object's table. -/
theorem witness_HufCompressMakesObject : ∃ s : State, InputOk s ∧ symbolCount (histogram (inputBytes s)) = 2 :=
  ⟨withInput [0, 1, 0], small_inputOk rfl (by decide), by decide +kernel⟩

theorem witness_HufOneSymbolInput : ∃ n : Nat, 1 ≤ n ∧ n < 2 ^ 32 := ⟨2 ^ 32 - 1, by decide⟩

/-- H17: the table's count need not be the declared size. -/
theorem witness_HufOneSymbolDecode : ∃ (u : HufUnit) (sym : Byte) (f : U32), u.obj.freqTable.length = 256 ∧
    u.obj.freqTable[sym.toNat]? = some f ∧ f ≠ 0 ∧ symbolCount u.obj.freqTable = 1 :=
  ⟨{ HufUnit.initial with obj := ⟨[], 5, 100 :: List.replicate 255 0⟩ }, 0, 100, by decide +kernel⟩

theorem witness_HufPackLayout : ∃ (bits : List Bool) (j t : Nat) (b : Byte), (pack bits)[j]? = some b ∧ t < 8 :=
  ⟨[true, true, false], 0, 7, 0xC0, by decide⟩

/-- An engine whose Huffman object is `o`, with this CAP_OUT. -/
def holdingHuf (capOut : Nat) (o : HufObj) : State := { withInput [] with cfg := ⟨64, capOut, []⟩, huf.obj := o }

theorem holdingHuf_obj (capOut : Nat) (o : HufObj) : (holdingHuf capOut o).huf.obj = o := rfl

/-- The object of an input, and OBUF exactly as large as it. -/
theorem witness_HufRoundTrip : ∃ (s : State) (u : HufUnit) (x : List Byte), s.cfg.wf ∧ 1 ≤ x.length ∧
    x.length < 2 ^ 32 ∧ x.length = s.cfg.capOut ∧ s.huf.obj = (hufCompress u x).obj :=
  ⟨holdingHuf 3 (hufCompress HufUnit.initial [0, 1, 0]).obj, HufUnit.initial, [0, 1, 0], by decide, by decide,
    by decide, rfl, holdingHuf_obj _ _⟩

/-- The code word of C where its byte is the last one owed, where OBUF is short of it; and a bit the leaf A has no child
for. -/
theorem witness_HufSymAppends : ∃ (s t u : State) (path off : List Bool),
    (s.huf.root = some 257 ∧ s.huf.cur = 257 ∧
      (∀ k n, 0 < k → k < path.length → hufFollow s.huf.nodes 257 (path.take k) = some n →
        hufIsLeaf s.huf.nodes n = false) ∧
      s.opos + 1 = s.huf.obj.originalSize.toNat ∧ path ≠ [] ∧ hufFollow s.huf.nodes 257 path = some 67 ∧
      hufIsLeaf s.huf.nodes 67 = true ∧ s.opos + 1 ≤ s.cfg.capOut) ∧
    (t = { s with cfg := t.cfg } ∧ t.cfg.capOut < t.opos + 1) ∧
    (u.huf.root = some 65 ∧ u.huf.cur = 65 ∧ hufFollow u.huf.nodes 65 off = none ∧ off.length = 1 ∧
      u.opos < u.huf.obj.originalSize.toNat) := by
  refine ⟨{ building [1, 1, 1, 1, 1, 1, 1, 1] 9 with huf := hufTree },
    { building [1, 1, 1, 1, 1, 1, 1, 1] 9 with huf := hufTree, cfg := ⟨64, 8, []⟩ },
    { building [] 9 with huf := { hufTree with root := some 65, cur := 65 } },
    [true, false], [true], ⟨rfl, rfl, ?_, by decide +kernel⟩, ⟨rfl, by decide⟩, ?_⟩
  · intro k n h0 h1 hf
    have hk : k = 1 := by simp at h1; omega
    subst hk
    have hn : n = 256 := by
      have e : hufFollow hufTree.nodes 257 [true] = some 256 := by decide +kernel
      exact Option.some.inj (hf.symm.trans e)
    subst hn
    decide +kernel
  · exact ⟨rfl, rfl, by decide, rfl, by decide⟩

theorem witness_LzwCompressMakesCodes : ∃ (s : State) (k : Byte), InputOk s ∧
    (∃ c ∈ (lzwCompress s.lzw (inputBytes s)).obj.codes, 255 < c.toNat) ∧
    (lzwCompress s.lzw (inputBytes s)).obj.codes[0]? = some 65 ∧ (inputBytes s)[1]? = some k :=
  ⟨withInput weave, 0x42, small_inputOk rfl (by decide), ⟨257, by decide +kernel, by decide⟩, by decide +kernel,
    by decide +kernel⟩

theorem witness_LzwReservedCode : ∃ (s t : State) (code : U16), exec (.lzwCode code) s = .next t ∧
    s.lzw.dict ≠ t.lzw.dict :=
  ⟨{ building [0x41, 0x42] 4 with ipos := 2, lzw := ⟨[(65, 0x42)], none, 0, 66, [], ⟨[], 4⟩⟩ }, _, 258, rfl,
    by decide +kernel⟩

/-- Codes 255 and 256 first, the byte the last one owed; nothing owed; and OBUF full. -/
theorem witness_LzwFirstCode : ∃ (s t u : State) (code : U16), code.toNat = 255 ∧ (code + 1).toNat = 256 ∧
    (s.ipos = 0 ∧ s.opos + 1 = s.lzw.obj.originalSize.toNat ∧ s.opos + 1 ≤ s.cfg.capOut) ∧
    (t.ipos = 0 ∧ t.lzw.obj.originalSize.toNat < t.opos + 1) ∧
    (u.ipos = 0 ∧ u.opos + 1 ≤ u.lzw.obj.originalSize.toNat ∧ u.cfg.capOut < u.opos + 1) :=
  ⟨building [] 1, building [] 0, { building [1] 2 with cfg := ⟨64, 1, []⟩ }, 255, by decide +kernel⟩

theorem dictOk_one : DictOk [(65, 0x42)] := by
  refine ⟨by decide, fun n pre char h => ?_⟩
  match n with
  | 0 => simp at h; obtain ⟨rfl, rfl⟩ := h; decide
  | n + 1 => simp at h

/-- After [65, 66]: the used entry 257, the single slot ahead 258, what each asks of the sizes, and 259. -/
theorem witness_LzwCodeAppends : ∃ (s t u v : State) (used ahead beyond : U16), DictOk s.lzw.dict ∧
    (s.ipos ≠ 0 ∧ s.lzw.prev < lzwNext s.lzw.dict ∧ s.lzw.prev ≠ 256) ∧
    t = { s with lzw := t.lzw } ∧ u = { s with cfg := u.cfg } ∧ v.lzw.dict = s.lzw.dict ∧
    ((257 ≤ used.toNat ∧ used.toNat < lzwNext s.lzw.dict) ∧ lzwStr s.lzw.dict used.toNat = some [0x41, 0x42]) ∧
    ((ahead.toNat = lzwNext s.lzw.dict ∧ ahead.toNat < 4096) ∧ lzwStr s.lzw.dict s.lzw.prev = some [0x42]) ∧
    (s.opos + 2 = s.lzw.obj.originalSize.toNat ∧ s.opos + 2 ≤ s.cfg.capOut) ∧
    t.lzw.obj.originalSize.toNat < t.opos + 2 ∧
    (u.opos + 2 ≤ u.lzw.obj.originalSize.toNat ∧ u.cfg.capOut < u.opos + 2) ∧
    lzwNext s.lzw.dict < beyond.toNat :=
  ⟨{ building [0x41, 0x42] 4 with ipos := 2, lzw := ⟨[(65, 0x42)], none, 0, 66, [], ⟨[], 4⟩⟩ },
    { building [0x41, 0x42] 4 with ipos := 2, lzw := ⟨[(65, 0x42)], none, 0, 66, [], ⟨[], 3⟩⟩ },
    { building [0x41, 0x42] 4 with
      cfg := ⟨64, 3, []⟩, ipos := 2, lzw := ⟨[(65, 0x42)], none, 0, 66, [], ⟨[], 4⟩⟩ },
    { building [0x41, 0x42] 4 with lzw := ⟨[(65, 0x42)], none, 0, 66, [], ⟨[], 4⟩⟩ },
    257, 258, 259, dictOk_one, by decide +kernel⟩

theorem dictOk_full : DictOk (List.replicate 3839 (65, 0x42)) := by
  refine ⟨by rw [List.length_replicate], fun n pre char h => ?_⟩
  obtain ⟨rfl, rfl⟩ := Prod.mk.inj (List.eq_of_mem_replicate (List.mem_of_getElem? h))
  exact ⟨by unfold Config.lzwFirstSlot; omega, by decide⟩

/-- A full dictionary: NEXT is 4096, code 4095 is used, and 4096 and 256 are Corrupt. -/
theorem witness_LzwCodeAppends_full : ∃ (s : State) (used reserved beyond : U16), DictOk s.lzw.dict ∧
    s.ipos ≠ 0 ∧ s.lzw.prev < lzwNext s.lzw.dict ∧ s.lzw.prev ≠ 256 ∧ lzwNext s.lzw.dict = 4096 ∧
    (257 ≤ used.toNat ∧ used.toNat + 1 = lzwNext s.lzw.dict) ∧ lzwStr s.lzw.dict used.toNat = some [0x41, 0x42] ∧
    reserved.toNat = 256 ∧ beyond.toNat = lzwNext s.lzw.dict :=
  ⟨{ building [0x41, 0x42] 4 with
      ipos := 2, lzw := ⟨List.replicate 3839 (65, 0x42), none, 0, 66, [], ⟨[], 4⟩⟩ },
    4095, 256, 4096, dictOk_full, by decide +kernel⟩

theorem witness_LzwRoundTrip : ∃ (s : State) (u : LzwUnit) (x : List Byte), s.cfg.wf ∧ 1 ≤ x.length ∧
    x.length < 2 ^ 64 ∧ x.length = s.cfg.capOut ∧ s.lzw.obj = (lzwCompress u x).obj :=
  ⟨{ withInput [] with cfg := ⟨64, 7, []⟩, lzw.obj := (lzwCompress LzwUnit.initial weave).obj },
    LzwUnit.initial, weave, by decide, by decide, by decide, rfl, rfl⟩

/-- Lz77CompressMakesTokens: an input whose object has a back-reference. -/
theorem witness_Lz77CompressMakesTokens : ∃ s : State, InputOk s ∧
    ∃ k ∈ (lz77Compress s.cfg s.lz77 (inputBytes s)).2.obj.tokens, k.offset ≠ 0 :=
  ⟨withInput (List.replicate 10 0x41), small_inputOk rfl (by decide), ⟨1, 8, 0x41⟩, by decide +kernel, by decide⟩

/-- Seven bytes, and a hash under which the first two triples fall into one slot (R232 lets it): a candidate that gives no
match, one back, with three bytes to compare and one to leave. -/
theorem witness_Lz77CompressMakesTokens_literal : ∃ (s : State) (k : Token), InputOk s ∧
    (lz77Compress s.cfg s.lz77 (inputBytes s)).2.obj.tokens[1]? = some k ∧ k.offset = 0 ∧
    Candidate s.cfg (inputBytes s) (lz77Compress s.cfg s.lz77 (inputBytes s)).2.obj.tokens 0 1 ∧
    1 + 3 < s.ilen.toNat := by
  refine ⟨{ withInput [1, 2, 3, 4, 5, 6, 7] with cfg := ⟨64, 2000, [(131844, 291)]⟩ }, ⟨0, 0, 2⟩,
    ⟨by decide, by decide, by decide⟩, by decide +kernel, rfl,
    ⟨by decide, by decide +kernel, by decide +kernel, fun m h0 h1 => by omega⟩, by decide⟩

theorem witness_Lz77RoundTrip : ∃ (s : State) (p : Params) (u : Lz77Unit) (x : List Byte), s.cfg.wf ∧ 1 ≤ x.length ∧
    x.length < 2 ^ 64 ∧ x.length = s.cfg.capOut ∧ s.lz77.obj = (lz77Compress p u x).2.obj :=
  ⟨{ withInput [] with
      cfg := ⟨64, 10, []⟩
      lz77.obj := (lz77Compress ⟨64, 10, []⟩ Lz77Unit.initial (List.replicate 10 0x41)).2.obj },
    ⟨64, 10, []⟩, Lz77Unit.initial, List.replicate 10 0x41, by decide, by decide, by decide, rfl, rfl⟩

theorem witness_Lz77LitAppends : ∃ s t u : State,
    (s.opos + 1 = s.lz77.obj.originalSize.toNat ∧ s.opos + 1 ≤ s.cfg.capOut) ∧
    t.lz77.obj.originalSize.toNat < t.opos + 1 ∧
    (u.opos + 1 ≤ u.lz77.obj.originalSize.toNat ∧ u.cfg.capOut < u.opos + 1) :=
  ⟨building [1, 2] 3, building [1, 2] 2, { building [1, 2] 3 with cfg := ⟨64, 2, []⟩ }, by decide +kernel⟩

/-- An offset as far back as the output goes, the copy ending exactly at the declared size; then one further back, one
byte too few owed, and OBUF one byte short. -/
theorem witness_Lz77RefCopies : ∃ (s t u : State) (offset : U16) (length : Byte), offset ≠ 0 ∧
    (offset.toNat = s.opos ∧ s.opos + length.toNat + 1 = s.lz77.obj.originalSize.toNat ∧
      s.opos + length.toNat + 1 ≤ s.cfg.capOut) ∧
    s.opos < (offset + 1).toNat ∧
    (offset.toNat ≤ t.opos ∧ t.lz77.obj.originalSize.toNat < t.opos + length.toNat + 1) ∧
    (offset.toNat ≤ u.opos ∧ u.opos + length.toNat + 1 ≤ u.lz77.obj.originalSize.toNat ∧
      u.cfg.capOut < u.opos + length.toNat + 1) :=
  ⟨building [1, 2, 3] 10, building [1, 2, 3] 9, { building [1, 2, 3] 10 with cfg := ⟨64, 9, []⟩ }, 3, 6,
    by decide +kernel⟩

/-- An image that exactly fills OBUF, and one that is a byte too long. -/
theorem witness_SerializersAppendImage : ∃ s t : State,
    s.opos + (serRle s.rle.obj).length = s.cfg.capOut ∧ t.cfg.capOut + 1 = t.opos + (serRle t.rle.obj).length ∧
    s.huf.obj.freqTable.length = 256 :=
  ⟨{ withInput [] with cfg := ⟨64, 18, []⟩, rle.obj := ⟨[(1, 1)], 1⟩ },
    { withInput [] with cfg := ⟨64, 17, []⟩, rle.obj := ⟨[(1, 1)], 1⟩ }, by decide +kernel⟩

/-- Each codec's object as the input; the Huffman image needs a larger IBUF. -/
theorem witness_DeserializersInvert : ∃ (r h w z : State) (c : RleObj) (d : HufObj) (e : LzwObj) (f : Lz77Obj),
    (r.cfg.wf ∧ r.ilen.toNat ≤ r.cfg.capIn ∧ inputBytes r = serRle c) ∧
    (h.cfg.wf ∧ h.ilen.toNat ≤ h.cfg.capIn ∧ d.freqTable.length = 256 ∧ inputBytes h = serHuf d) ∧
    (w.cfg.wf ∧ w.ilen.toNat ≤ w.cfg.capIn ∧ inputBytes w = serLzw e) ∧
    (z.cfg.wf ∧ z.ilen.toNat ≤ z.cfg.capIn ∧ inputBytes z = serLz77 f) := by
  refine ⟨withInput rleImage, { withInput (serHuf hufObject) with cfg := ⟨1042, 2000, []⟩ }, withInput lzwImage,
    withInput lz77Image, ⟨[(4, 0x41), (3, 0x42), (2, 0x43)], 9⟩, hufObject, ⟨[65, 66, 257, 259], 7⟩,
    ⟨[⟨0, 0, 0x41⟩, ⟨1, 8, 0x41⟩], 10⟩, ⟨small_wf _, by decide, rfl⟩, ⟨by decide, ?_, by decide +kernel, ?_⟩,
    ⟨small_wf _, by decide, rfl⟩, ⟨small_wf _, by decide, rfl⟩⟩
  · decide +kernel
  · exact inputBytes_of_cells rfl (by decide +kernel)

/-- The shortest sound image of each codec that a small IBUF holds, and one byte less; the Huffman header is 1040. -/
theorem witness_DeserializersCheckStructure : ∃ (s t z h : State),
    (s.ilen.toNat = 16 ∧ s.ilen.toNat ≤ s.cfg.capIn ∧ leNat (field (inputBytes s) 8 8) = 0) ∧
    (t.ilen.toNat = 15 ∧ t.ilen.toNat ≤ t.cfg.capIn) ∧
    (z.ilen.toNat = 8 ∧ z.ilen.toNat ≤ z.cfg.capIn) ∧
    (h.ilen.toNat = 1040 ∧ h.ilen.toNat ≤ h.cfg.capIn ∧ leNat (field (inputBytes h) 8 8) = 0) := by
  refine ⟨withInput (List.replicate 16 0), withInput (List.replicate 15 0), withInput (List.replicate 8 0),
    { withInput (List.replicate 1040 0) with cfg := ⟨1040, 2000, []⟩ }, by decide +kernel, by decide +kernel,
    by decide +kernel, by decide +kernel, by decide +kernel, ?_⟩
  rw [inputBytes_of_cells (bs := List.replicate 1040 0) rfl (by decide +kernel)]
  decide +kernel

/-- A running decoder with bytes out: both buffers non-empty, and it steps. -/
theorem witness_BuffersStayOk : ∃ s t : State, BuffersOk s ∧ s.ibuf ≠ [] ∧ s.obuf ≠ [] ∧ step s = .next t :=
  ⟨{ decoding 2 rleImage 1 with obuf := cells 0 [0x41], opos := 1 }, _,
    ⟨by decide, ⟨by decide, by decide⟩, ⟨by decide, by decide⟩⟩, by decide, by decide, rfl⟩

theorem listsExactly_cells (bs : List Byte) : ListsExactly (cells 0 bs) bs.length := by
  intro a
  rw [memRead_cells]
  simp

theorem witness_ResultStaysReadable : ∃ s t u v : State,
    (ResultOk s ∧ s.busy = 1 ∧ s.opos ≠ 0 ∧ step s = .next t) ∧
    (ResultOk u ∧ u.busy = 0 ∧ u.olen ≠ 0 ∧ step u = .next v) := by
  refine ⟨{ decoding 2 rleImage 1 with obuf := cells 0 [0x41], opos := 1 }, _,
    { asking [.readObuf 0] with obuf := cells 0 [0x41], olen := 1 }, _, ⟨?_, rfl, by decide, rfl⟩,
    ⟨?_, rfl, by decide, rfl⟩⟩
  · exact ⟨by decide, fun h => absurd h (by decide), fun h => absurd rfl h,
      fun _ _ => ⟨listsExactly_cells [0x41], by decide⟩⟩
  · exact ⟨by decide, fun _ => listsExactly_cells [0x41], fun h => absurd rfl h, fun h => absurd h (by decide)⟩

/-- The cursors: RLE and Huffman decoders in the middle of their streams, the one with a whole pair left, the other with
its last bit read; and a parsed LZ77 image that is its header alone. -/
theorem witness_ResultStaysReadable_cursors : ∃ s t u v w x : State,
    (CursorsFit s ∧ s.stage = .decoding ∧ s.alg = 2 ∧ s.ipos ≠ 0 ∧ step s = .next t) ∧
    (CursorsFit u ∧ u.stage = .decoding ∧ u.alg = 1 ∧ u.bitpos = 8 * (u.ilen.toNat - 1040) ∧ step u = .next v) ∧
    (CursorsFit w ∧ w.stage = .parsed ∧ w.alg = 0 ∧ w.ilen.toNat = 8 ∧ step w = .next x) := by
  refine ⟨{ decoding 2 rleImage 1 with obuf := cells 0 [0x41], opos := 1 }, _,
    { building [0x41] 1 with
      cfg := ⟨1042, 2000, []⟩, ilen := 1042, alg := 1, bitpos := 16
      huf := { hufTree with obj := ⟨[0x0F, 0xE8], 1, textFreq⟩ } }, _,
    { accepted 1 0 (List.replicate 8 0) with stage := .parsed, grain := .operation }, _,
    ⟨?_, rfl, rfl, by decide, rfl⟩, ⟨?_, rfl, rfl, by decide +kernel, rfl⟩, ⟨?_, rfl, rfl, by decide +kernel, rfl⟩⟩ <;>
  exact ⟨by decide +kernel, by decide +kernel, by decide +kernel, by decide +kernel, by decide +kernel,
    by decide +kernel, by decide +kernel⟩

/-- A decoder past its first code. -/
theorem witness_LzwRegistersFit : ∃ s t : State, LzwFits s ∧ s.ipos ≠ 0 ∧ s.lzw.dict ≠ [] ∧ step s = .next t := by
  refine ⟨{ decoding 3 lzwImage 2 with lzw := ⟨[(65, 0x42)], none, 0, 66, [0x42], ⟨[], 7⟩⟩ }, _,
    ⟨dictOk_one, by simp, by decide, by decide, fun _ _ _ _ => ⟨by decide, by decide⟩⟩, by decide, by decide, rfl⟩

theorem hufFits_tree (s : State) (h : s.huf = hufTree) : HufFits s := by
  unfold HufFits
  rw [h]
  refine ⟨by decide +kernel, by decide +kernel, by decide +kernel, fun x hx => ?_, by decide +kernel, ?_, ?_,
    by decide +kernel, by decide +kernel⟩
  · simp only [hufTree, List.mem_cons, List.not_mem_nil, or_false] at hx
    rcases hx with rfl | rfl | rfl | rfl | rfl <;> simp
  · intro r hr
    simp only [hufTree, Option.some.injEq] at hr
    omega
  · intro c hc
    have e : hufTree.codes = [] := rfl
    rw [e] at hc
    cases hc

theorem witness_HufRegistersFit : ∃ s t : State, HufFits s ∧ s.huf.nodes ≠ [] ∧ s.busy = 1 ∧ step s = .next t :=
  ⟨accepted 0 2 text |> fun s => { s with huf := hufTree }, _, hufFits_tree _ rfl, by decide, rfl, rfl⟩

theorem witness_Lz77RegistersFit : ∃ s t : State, Lz77Fits s ∧ s.lz77.hash ≠ [] ∧ step s = .next t := by
  refine ⟨{ accepted 0 0 (List.replicate 10 0x41) with lz77 := ⟨[(65535, 9)], 3, 18, 18, 4096, 18, 5, 255, ⟨[], 0⟩⟩ }, _,
    ⟨?_, by decide, by decide, by decide, by decide, by decide, by decide⟩, by decide, rfl⟩
  simp [Config.lzHashSlots]

theorem witness_CompressGrainsAgree : ∃ s t : State, Accepted s ∧ s.dir = 0 ∧ s.grain = .operation ∧
    step { s with grain := .command } = .next t :=
  ⟨acceptedFine 0 2 text, _, small_accepted rfl rfl rfl rfl, rfl, rfl, rfl⟩

theorem witness_RleDecodeGrainsAgree : ∃ s t : State, Accepted s ∧ s.dir = 1 ∧ s.alg = 2 ∧ s.grain = .operation ∧
    step { s with grain := .command } = .next t :=
  ⟨acceptedFine 1 2 rleImage, _, small_accepted rfl rfl rfl rfl, rfl, rfl, rfl, rfl⟩

theorem witness_HufDecodeGrainsAgree : ∃ s t : State, Accepted s ∧ s.dir = 1 ∧ s.alg = 1 ∧ s.grain = .operation ∧
    step { s with grain := .command } = .next t :=
  ⟨acceptedFine 1 1 text, _, small_accepted rfl rfl rfl rfl, rfl, rfl, rfl, rfl⟩

theorem witness_LzwDecodeGrainsAgree : ∃ s t : State, Accepted s ∧ s.dir = 1 ∧ s.alg = 3 ∧ s.grain = .operation ∧
    step { s with grain := .command } = .next t :=
  ⟨acceptedFine 1 3 lzwImage, _, small_accepted rfl rfl rfl rfl, rfl, rfl, rfl, rfl⟩

theorem witness_Lz77DecodeGrainsAgree : ∃ s t : State, Accepted s ∧ s.dir = 1 ∧ s.alg = 0 ∧ s.grain = .operation ∧
    step { s with grain := .command } = .next t :=
  ⟨acceptedFine 1 0 lz77Image, _, small_accepted rfl rfl rfl rfl, rfl, rfl, rfl, rfl⟩

theorem witness_EnginesIndependent : ∃ (es fs gs : Engines) (s : State), (0 : Nat) ≠ 1 ∧ stepAt 1 es = .next fs ∧
    es[1]? = some s ∧ stepAt 0 fs = .next gs :=
  ⟨[accepted 0 2 text, accepted 1 3 lzwImage], _, _, _, by decide, rfl, rfl, rfl⟩

end Sys2Proof.Tests.Slice0
end

/-! PROOFS. The two grains of a compress command (10_state.md R21, 00_scope.md R15, R39; log entry 6). The idea: no
operation of a compress command looks at BUSY, the stage or the grain, and none changes them, so an operation run by
itself in a turn of its own makes what it makes inside the whole command. -/

namespace Sys2Proof.Machine

open Sys2Proof.Safety

/-! ### What the sequencer fetches -/

@[simp] theorem commandAlg_commandWord (s : State) : commandAlg (commandWord s) = s.alg :=
  BitVec.extractLsb'_append_eq_right

@[simp] theorem commandDir_commandWord (s : State) : commandDir (commandWord s) = s.dir :=
  BitVec.extractLsb'_append_eq_left

theorem decodeCommand_of_codec {s : State} {k : Codec} (h : codecOf s.alg = some k) :
    decodeCommand (commandWord s) = .ok (commandOf s.dir k) := by
  simp [decodeCommand, h]

theorem decodeCommand_of_no_codec {s : State} (h : codecOf s.alg = none) :
    decodeCommand (commandWord s) = .error (.unknownAlgorithm s.alg) := by
  simp [decodeCommand, h]

theorem nextWork_accepted {s : State} (hb : s.busy = 1) (hst : s.stage = .accepted) : nextWork s = acceptedWork s := by
  simp [nextWork, hb, hst]

theorem nextWork_coded {s : State} {k : Codec} (hb : s.busy = 1) (hst : s.stage = .coded)
    (hk : codecOf s.alg = some k) : nextWork s = .run (serializerOf k) s .finish := by
  simp [nextWork, hb, hst, hk]

theorem acceptedWork_no_codec {s : State} (hk : codecOf s.alg = none) : acceptedWork s = .trap .unknownAlgorithm := by
  simp [acceptedWork, decodeCommand_of_no_codec hk]

theorem acceptedWork_command {s : State} {k : Codec} (hk : codecOf s.alg = some k) (hg : s.grain = .command) :
    acceptedWork s = .run (commandOf s.dir k) s .stay := by
  simp [acceptedWork, decodeCommand_of_codec hk, hg]

theorem acceptedWork_badInput {s : State} {k : Codec} {c : Cause} (hk : codecOf s.alg = some k)
    (hg : s.grain = .operation) (hc : checkInput s = .error c) : acceptedWork s = .trap c := by
  simp [acceptedWork, decodeCommand_of_codec hk, hg, hk, hc]

theorem acceptedWork_operation {s t : State} {k : Codec} (hk : codecOf s.alg = some k) (hg : s.grain = .operation)
    (hc : checkInput s = .ok t) :
    acceptedWork s = .run (firstOperation s.dir k) (startOutput t) (if s.dir = 0 then .coded else .parsed) := by
  simp [acceptedWork, decodeCommand_of_codec hk, hg, hk, hc]

theorem engineTurn_of_trap {s : State} {c : Cause} (h : nextWork s = .trap c) : engineTurn s = .next (raise c s) := by
  simp [engineTurn, h]

theorem engineTurn_of_run {s t u : State} {i : Instr} {after : After} (h : nextWork s = .run i t after)
    (he : exec i t = .next u) : engineTurn s = .next (afterRun after u) := by
  simp [engineTurn, h, he]

/-! ### The operations of a compress command -/

/-- The codec of a compress command, in the machine (45_dispatcher.md R272 to R275). -/
def codecCompressOp : Codec → State → Except Cause State
  | .lz77 => lz77CompressOp
  | .huf => hufCompressOp
  | .rle => rleCompressOp
  | .lzw => lzwCompressOp

/-- The serializer of a compress command, in the machine (45_dispatcher.md R280 to R283). -/
def codecSerializeOp : Codec → State → Except Cause State
  | .lz77 => serLz77Op
  | .huf => serHufOp
  | .rle => serRleOp
  | .lzw => serLzwOp

theorem exec_firstOperation_compress (k : Codec) (s : State) :
    exec (firstOperation 0 k) s = settle s (codecCompressOp k s) := by
  cases k <;> rfl

theorem exec_serializerOf (k : Codec) (s : State) : exec (serializerOf k) s = settle s (codecSerializeOp k s) := by
  cases k <;> rfl

theorem exec_commandOf_compress (k : Codec) (s : State) :
    exec (commandOf 0 k) s = settleCommand s (compressOp (codecCompressOp k) (codecSerializeOp k) s) := by
  cases k <;> rfl

theorem keepsFrame_codecCompressOp (k : Codec) : KeepsFrame (codecCompressOp k) := by
  cases k
  case lz77 => exact keepsFrame_lz77CompressOp
  case huf => exact keepsFrame_hufCompressOp
  case rle => exact keepsFrame_rleCompressOp
  case lzw => exact keepsFrame_lzwCompressOp

/-! ### Operations free of the sequencer's fields -/

/-- `s` with other values in the fields by which the sequencer tells where a command stands (log entry 6). -/
def State.withControl (busy : BitVec 1) (stage : Stage) (grain : Grain) (s : State) : State :=
  { s with busy := busy, stage := stage, grain := grain }

/-- The operation neither looks at BUSY, the stage and the grain nor changes them. -/
def ControlFree (f : State → Except Cause State) : Prop :=
  ∀ busy stage grain s, f (s.withControl busy stage grain) = (f s).map (State.withControl busy stage grain)

theorem ControlFree.keeps_busy {f : State → Except Cause State} (hf : ControlFree f) {s t : State}
    (h : f s = .ok t) : t.busy = s.busy := by
  have e : f s = (f s).map (State.withControl s.busy s.stage s.grain) := hf s.busy s.stage s.grain s
  rw [h] at e
  have ht : t = t.withControl s.busy s.stage s.grain := Except.ok.inj e
  exact (congrArg State.busy ht).trans rfl

theorem controlFree_andThen {f g : State → Except Cause State} (hf : ControlFree f) (hg : ControlFree g) :
    ControlFree fun s => andThen (f s) g := by
  intro busy stage grain s
  simp only [hf busy stage grain s]
  cases f s with
  | ok t => exact hg busy stage grain t
  | error c => rfl

theorem controlFree_checkInput : ControlFree checkInput := by
  intro busy stage grain s
  rw [checkInput, checkInput, apply_ite (Except.map _), apply_ite (Except.map _)]
  rfl

theorem checkInput_eq_self {s t : State} (h : checkInput s = .ok t) : t = s := by
  rcases checkInput_eq s with ⟨-, e⟩ | ⟨-, -, e⟩ | ⟨-, -, e⟩ <;> rw [e] at h <;> cases h
  rfl

theorem controlFree_append (bs : List Byte) : ControlFree (append bs) := by
  intro busy stage grain s
  rw [append, append, apply_ite (Except.map _)]
  rfl

theorem codecInput_withControl (busy : BitVec 1) (stage : Stage) (grain : Grain) (s : State) :
    codecInput (s.withControl busy stage grain) = codecInput s := by
  simp only [codecInput, controlFree_checkInput busy stage grain s]
  rcases checkInput_eq s with ⟨-, e⟩ | ⟨-, -, e⟩ | ⟨-, -, e⟩ <;> rw [e] <;> rfl

/-- The four codecs take no operand but the input, the parameters and their own unit. -/
theorem controlFree_codecCompressOp (k : Codec) : ControlFree (codecCompressOp k) := by
  intro busy stage grain s
  cases k <;>
  · simp only [codecCompressOp, lz77CompressOp, hufCompressOp, rleCompressOp, lzwCompressOp, codecInput_withControl]
    cases codecInput s <;> rfl

theorem controlFree_serializeOp (c : Cause) (image : State → List Byte)
    (himage : ∀ busy stage grain s, image (s.withControl busy stage grain) = image s) :
    ControlFree fun s => serializeOp c (image s) s := by
  intro busy stage grain s
  simp only [serializeOp, himage]
  have hcap : (s.withControl busy stage grain).cfg = s.cfg := rfl
  rw [hcap]
  cases imageFits c s.cfg.capOut (image s) with
  | ok bs => exact controlFree_append bs busy stage grain s
  | error e => rfl

theorem controlFree_codecSerializeOp (k : Codec) : ControlFree (codecSerializeOp k) := by
  cases k
  case lz77 => exact controlFree_serializeOp _ (fun s => serLz77 s.lz77.obj) fun _ _ _ _ => rfl
  case huf => exact controlFree_serializeOp _ (fun s => serHuf s.huf.obj) fun _ _ _ _ => rfl
  case rle => exact controlFree_serializeOp _ (fun s => serRle s.rle.obj) fun _ _ _ _ => rfl
  case lzw => exact controlFree_serializeOp _ (fun s => serLzw s.lzw.obj) fun _ _ _ _ => rfl

theorem controlFree_compressOp {codec serializer : State → Except Cause State} (hc : ControlFree codec)
    (hs : ControlFree serializer) : ControlFree (compressOp codec serializer) :=
  controlFree_andThen
    (controlFree_andThen controlFree_checkInput fun busy stage grain s => hc busy stage grain (startOutput s)) hs

/-! ### The interface at the end of a command -/

theorem sameInterface_trans {s t u : State} (h : SameInterface s t) (k : SameInterface t u) : SameInterface s u := by
  obtain ⟨h1, h2, h3, h4, h5, h6, h7, h8, h9⟩ := h
  obtain ⟨k1, k2, k3, k4, k5, k6, k7, k8, k9⟩ := k
  exact ⟨h1.trans k1, h2.trans k2, h3.trans k3, h4.trans k4, h5.trans k5, h6.trans k6, h7.trans k7, h8.trans k8,
    h9.trans k9⟩

theorem sameInterface_symm {s t : State} (h : SameInterface s t) : SameInterface t s := by
  obtain ⟨h1, h2, h3, h4, h5, h6, h7, h8, h9⟩ := h
  exact ⟨h1.symm, h2.symm, h3.symm, h4.symm, h5.symm, h6.symm, h7.symm, h8.symm, h9.symm⟩

theorem sameInterface_refl (s : State) : SameInterface s s := ⟨rfl, rfl, rfl, rfl, rfl, rfl, rfl, rfl, rfl⟩

/-- An error leaves the same interface wherever in its command it is raised (60_exceptions.md R330). -/
theorem sameInterface_raise {s t : State} (c : Cause) (h : Keeps s t) : SameInterface (raise c s) (raise c t) :=
  ⟨rfl, rfl, rfl, h.alg.symm, h.dir.symm, h.ilen.symm, h.ibuf.symm, rfl, h.cfg.symm⟩

/-- A command that ends alike ends with the same interface, whatever BUSY, the stage and the grain were. -/
theorem sameInterface_settleCommand_withControl {busy : BitVec 1} {stage : Stage} {grain : Grain} {s t v : State}
    {r : Except Cause State} (hv : settleCommand s r = .next v)
    (ht : settleCommand (s.withControl busy stage grain) (r.map (State.withControl busy stage grain)) = .next t) :
    SameInterface t v := by
  cases r <;> cases hv <;> cases ht <;> exact ⟨rfl, rfl, rfl, rfl, rfl, rfl, rfl, rfl, rfl⟩

/-! ### A compress command at the grain of commands -/

theorem step_compress_command {s : State} {k : Codec} (ha : Accepted s) (hd : s.dir = 0)
    (hk : codecOf s.alg = some k) :
    step { s with grain := .command } = settleCommand (s.withControl 1 .accepted .command)
      ((compressOp (codecCompressOp k) (codecSerializeOp k) s).map (State.withControl 1 .accepted .command)) := by
  obtain ⟨-, hh, hb, hst⟩ := ha
  have hs : ({ s with grain := .command } : State) = s.withControl 1 .accepted .command := by
    rw [State.withControl, ← hb, ← hst]
  rw [hs, ← controlFree_compressOp (controlFree_codecCompressOp k) (controlFree_codecSerializeOp k) 1 .accepted
    .command s, ← exec_commandOf_compress]
  obtain ⟨t, ht⟩ := exec_answers_next (commandOf 0 k) (s.withControl 1 .accepted .command)
  have hw : nextWork (s.withControl 1 .accepted .command) = .run (commandOf 0 k) _ .stay :=
    (nextWork_accepted rfl rfl).trans (hd ▸ acceptedWork_command (s := s.withControl 1 .accepted .command) hk rfl)
  rw [step_of_no_host (s := s.withControl 1 .accepted .command) hh, engineTurn_of_run hw ht, ht, afterRun_stay]

/-! ### A compress command at the grain of operations -/

theorem afterRun_coded {t : State} (hb : t.busy = 1) : afterRun .coded t = { t with stage := .coded } := by
  rw [afterRun, if_neg (by simp [hb])]

/-- The first turn where an input test fails. -/
theorem step_accepted_badInput {s : State} {k : Codec} {c : Cause} (ha : Accepted s) (hg : s.grain = .operation)
    (hk : codecOf s.alg = some k) (hc : checkInput s = .error c) : step s = .next (raise c s) := by
  obtain ⟨-, hh, hb, hst⟩ := ha
  rw [step_of_no_host hh, engineTurn_of_trap ((nextWork_accepted hb hst).trans (acceptedWork_badInput hk hg hc))]

/-- The first turn where the input tests pass: the codec, on an output of length 0. -/
theorem step_accepted_codec {s u : State} {k : Codec} (ha : Accepted s) (hd : s.dir = 0) (hg : s.grain = .operation)
    (hk : codecOf s.alg = some k) (hc : checkInput s = .ok s)
    (he : settle (startOutput s) (codecCompressOp k (startOutput s)) = .next u) :
    step s = .next (afterRun .coded u) := by
  obtain ⟨-, hh, hb, hst⟩ := ha
  have hw : nextWork s = .run (firstOperation 0 k) (startOutput s) .coded := by
    rw [nextWork_accepted hb hst, acceptedWork_operation hk hg hc, hd]
    rfl
  rw [step_of_no_host hh, engineTurn_of_run hw ((exec_firstOperation_compress k _).trans he)]

/-- An operation that ends in a busy engine or raises, and is followed by completion, ends as a command does. -/
theorem settleCommand_of_settle_finish {s u : State} {r : Except Cause State} (hb : ∀ w, r = .ok w → w.busy = 1)
    (h : settle s r = .next u) : settleCommand s r = .next (afterRun .finish u) := by
  rcases settle_cases h with rfl | ⟨c, rfl, rfl⟩
  · simp [afterRun, hb u rfl]
  · rw [afterRun_idle _ (raise_busy c s), settleCommand_error]

/-- The second turn: the serializer, after which the command ends. -/
theorem step_coded {s : State} {k : Codec} (hh : s.host = []) (hb : s.busy = 1) (hst : s.stage = .coded)
    (hk : codecOf s.alg = some k) : step s = settleCommand s (codecSerializeOp k s) := by
  obtain ⟨u, hu⟩ := exec_answers_next (serializerOf k) s
  have hbusy : ∀ w, codecSerializeOp k s = .ok w → w.busy = 1 := fun w hw =>
    ((controlFree_codecSerializeOp k).keeps_busy hw).trans hb
  rw [settleCommand_of_settle_finish hbusy ((exec_serializerOf k s).symm.trans hu), step_of_no_host hh,
    engineTurn_of_run (nextWork_coded hb hst hk) hu]

/-- The codec's turn has made `v`: the serializer's turn ends as the whole command does. -/
theorem step_coded_ends_command {s v : State} {k : Codec} (hh : s.host = []) (hb : s.busy = 1)
    (hk : codecOf s.alg = some k) (hv : codecCompressOp k (startOutput s) = .ok v) :
    ∃ u w, step { v with stage := .coded } = .next u ∧ settleCommand s (codecSerializeOp k v) = .next w ∧
      SameInterface w u := by
  have hkeep : Keeps s v := (keeps_startOutput s).trans (keepsFrame_codecCompressOp k _ _ hv)
  have hvb : v.busy = 1 := ((controlFree_codecCompressOp k).keeps_busy hv).trans hb
  have hturn := step_coded (s := v.withControl v.busy .coded v.grain) (k := k) (hkeep.host.trans hh) hvb rfl
    (show codecOf v.alg = some k from hkeep.alg ▸ hk)
  rw [controlFree_codecSerializeOp k v.busy .coded v.grain v] at hturn
  cases hr : codecSerializeOp k v with
  | ok w =>
    rw [hr] at hturn
    exact ⟨_, complete w, hturn, rfl,
      sameInterface_symm (sameInterface_settleCommand_withControl (s := v) (r := .ok w) rfl rfl)⟩
  | error c =>
    rw [hr] at hturn
    exact ⟨_, raise c s, hturn, rfl, sameInterface_trans (sameInterface_raise c hkeep)
      (sameInterface_symm (sameInterface_settleCommand_withControl (s := v) (r := .error c) rfl rfl))⟩

/-- Run operation by operation, an accepted compress command ends as the whole command does. -/
theorem compress_operations_reach_end {s : State} {k : Codec} (ha : Accepted s) (hd : s.dir = 0)
    (hg : s.grain = .operation) (hk : codecOf s.alg = some k) :
    ∃ n u w, Reaches n s u ∧
      settleCommand s (compressOp (codecCompressOp k) (codecSerializeOp k) s) = .next w ∧ SameInterface w u := by
  have ⟨_, hh, hb, _⟩ := ha
  cases hc : checkInput s with
  | error c =>
    exact ⟨1, _, raise c s, ⟨_, step_accepted_badInput ha hg hk hc, rfl⟩, by simp [compressOp, hc],
      sameInterface_refl _⟩
  | ok t =>
    obtain rfl : t = s := checkInput_eq_self hc
    cases hv : codecCompressOp k (startOutput t) with
    | error c =>
      have hstep := step_accepted_codec ha hd hg hk hc (by rw [hv]; rfl)
      rw [afterRun_idle _ (raise_busy c _)] at hstep
      exact ⟨1, _, raise c t, ⟨_, hstep, rfl⟩, by simp [compressOp, hc, hv],
        sameInterface_raise c (keeps_startOutput t)⟩
    | ok v =>
      have hvb : v.busy = 1 := ((controlFree_codecCompressOp k).keeps_busy hv).trans hb
      have hcodec : step t = .next { v with stage := .coded } := by
        rw [step_accepted_codec ha hd hg hk hc (by rw [hv]; rfl), afterRun_coded hvb]
      obtain ⟨u, w, hser, hend, hsame⟩ := step_coded_ends_command hh hb hk hv
      exact ⟨2, u, w, ⟨_, hcodec, u, hser, rfl⟩, by simpa [compressOp, hc, hv] using hend, hsame⟩

/-- A selector that names no codec raises alike at both grains (30_encoding.md R92). -/
theorem step_accepted_no_codec {s : State} (ha : Accepted s) (hk : codecOf s.alg = none) :
    step s = .next (raise .unknownAlgorithm s) := by
  obtain ⟨-, hh, hb, hst⟩ := ha
  rw [step_of_no_host hh, engineTurn_of_trap ((nextWork_accepted hb hst).trans (acceptedWork_no_codec hk))]

/-- Settles O54: every compress operation is free of the sequencer's fields, so the codec's turn and the serializer's
compose to the whole command. -/
theorem compressGrainsAgree : Obligations.CompressGrainsAgree := by
  unfold Obligations.CompressGrainsAgree
  intro s t ha hd hg ht
  cases hk : codecOf s.alg with
  | none =>
    rw [step_accepted_no_codec (s := { s with grain := .command }) ha hk] at ht
    cases ht
    exact ⟨1, _, ⟨_, step_accepted_no_codec ha hk, rfl⟩, ⟨rfl, rfl, rfl, rfl, rfl, rfl, rfl, rfl, rfl⟩⟩
  | some k =>
    obtain ⟨n, u, w, hreach, hend, hsame⟩ := compress_operations_reach_end ha hd hg hk
    rw [step_compress_command ha hd hk] at ht
    exact ⟨n, u, hreach, sameInterface_trans (sameInterface_settleCommand_withControl hend ht) hsame⟩

end Sys2Proof.Machine

/-! PROOFS. What one step of the machine can do (10_state.md R21, 45_dispatcher.md, 60_exceptions.md R330, R331), said
once: a host's move, or a move of the engine made of the operations of one codec. Every invariant is a case analysis
over these moves. -/

namespace Sys2Proof.Machine

open Sys2Proof.Safety

theorem busy_cases (s : State) : s.busy = 0 ∨ s.busy = 1 := BitVec.eq_zero_or_eq_one s.busy

theorem dir_cases (s : State) : s.dir = 0 ∨ s.dir = 1 := BitVec.eq_zero_or_eq_one s.dir

/-! ### Operations of one codec -/

/-- `t` is `s` after operations of the codec `k`: the frame, the completion registers and the other units as in `s`, the
output as in `s`, started again, or grown by appends. -/
structure Operated (k : Codec) (s t : State) : Prop extends Keeps s t where
  busy : t.busy = s.busy
  status : t.status = s.status
  olen : t.olen = s.olen
  rle : k ≠ .rle → t.rle = s.rle
  huf : k ≠ .huf → t.huf = s.huf
  lzw : k ≠ .lzw → t.lzw = s.lzw
  lz77 : k ≠ .lz77 → t.lz77 = s.lz77
  opos : t.opos ≤ s.opos ∨ t.opos ≤ s.cfg.capOut
  memoryOk : MemoryOk s.obuf s.cfg.capOut → MemoryOk t.obuf s.cfg.capOut
  listsExactly : ListsExactly s.obuf s.opos → ListsExactly t.obuf t.opos

variable {k : Codec} {s t u : State}

theorem Operated.trans (h : Operated k s t) (h' : Operated k t u) : Operated k s u where
  toKeeps := h.toKeeps.trans h'.toKeeps
  busy := h'.busy.trans h.busy
  status := h'.status.trans h.status
  olen := h'.olen.trans h.olen
  rle hk := (h'.rle hk).trans (h.rle hk)
  huf hk := (h'.huf hk).trans (h.huf hk)
  lzw hk := (h'.lzw hk).trans (h.lzw hk)
  lz77 hk := (h'.lz77 hk).trans (h.lz77 hk)
  opos := by
    have := h.opos
    have := h'.opos
    rw [h.cfg] at this
    omega
  memoryOk hm := h.cfg ▸ h'.memoryOk (h.cfg ▸ h.memoryOk hm)
  listsExactly hl := h'.listsExactly (h.listsExactly hl)

/-- `t` is `s` but for two cursors and the unit of a codec. -/
def UpdatesUnit (k : Codec) (s t : State) : Prop :=
  match k with
  | .lz77 => t = { s with ipos := t.ipos, bitpos := t.bitpos, lz77 := t.lz77 }
  | .huf => t = { s with ipos := t.ipos, bitpos := t.bitpos, huf := t.huf }
  | .rle => t = { s with ipos := t.ipos, bitpos := t.bitpos, rle := t.rle }
  | .lzw => t = { s with ipos := t.ipos, bitpos := t.bitpos, lzw := t.lzw }

theorem UpdatesUnit.operated (h : UpdatesUnit k s t) : Operated k s t := by
  cases k <;> rw [UpdatesUnit] at h <;> rw [h] <;>
    exact ⟨⟨rfl, rfl, rfl, rfl, rfl, rfl, rfl, rfl, rfl, rfl⟩, rfl, rfl, rfl, by simp, by simp, by simp, by simp,
      .inl le_rfl, id, id⟩

theorem listsExactly_nil : ListsExactly [] 0 := fun a => by simp

theorem operated_startOutput (k : Codec) (s : State) : Operated k s (startOutput s) :=
  ⟨keeps_startOutput s, rfl, rfl, rfl, fun _ => rfl, fun _ => rfl, fun _ => rfl, fun _ => rfl, .inl (Nat.zero_le _),
    fun _ => memoryOk_nil _, fun _ => listsExactly_nil⟩

theorem append_eq_ok {bs : List Byte} :
    append bs s = .ok t ↔ s.opos + bs.length ≤ s.cfg.capOut ∧
      t = { s with obuf := memWrite s.obuf s.opos bs, opos := s.opos + bs.length } := by
  rcases append_cases bs s with ⟨hcap, e⟩ | ⟨hcap, e⟩
  · simp [e, hcap]
  · simp [e, hcap, eq_comm]

theorem listsExactly_memWrite {m : Memory} {n : Nat} (h : ListsExactly m n) (bs : List Byte) :
    ListsExactly (memWrite m n bs) (n + bs.length) := by
  intro a
  rw [memRead_memWrite]
  by_cases ha : n ≤ a ∧ a < n + bs.length
  · have hlt : a - n < bs.length := by omega
    simp [ha, hlt]
  · rw [if_neg ha, h a]
    omega

theorem operated_append {bs : List Byte} (h : append bs s = .ok t) : Operated k s t := by
  have hkeep := keeps_append h
  obtain ⟨hcap, rfl⟩ := append_eq_ok.1 h
  exact ⟨hkeep, rfl, rfl, rfl, fun _ => rfl, fun _ => rfl, fun _ => rfl, fun _ => rfl, .inr hcap,
    fun hm => memoryOk_memWrite _ _ _ _ hm hcap, fun hl => listsExactly_memWrite hl bs⟩

/-! ### The operations by codec -/

/-- The deserializer of a decompress command, in the machine (45_dispatcher.md R285 to R288). -/
def codecParseOp : Codec → State → Except Cause State
  | .lz77 => desLz77Op
  | .huf => desHufOp
  | .rle => desRleOp
  | .lzw => desLzwOp

/-- The decoder of a decompress command, in the machine (45_dispatcher.md R276 to R279). -/
def codecDecompressOp : Codec → State → Except Cause State
  | .lz77 => lz77DecompressOp
  | .huf => hufDecompressOp
  | .rle => rleDecompressOp
  | .lzw => lzwDecompressOp

theorem exec_firstOperation_decompress (k : Codec) (s : State) :
    exec (firstOperation 1 k) s = settle s (codecParseOp k s) := by
  cases k <;> rfl

theorem exec_commandOf_decompress (k : Codec) (s : State) :
    exec (commandOf 1 k) s =
      settleCommand s (decompressOp (codecParseOp k) (objectSize · k) (codecDecompressOp k) s) := by
  cases k <;> rfl

/-! ### What each operation answers when it succeeds -/

theorem codecInput_eq_ok {input : List Byte} (h : codecInput s = .ok input) :
    input = inputBytes s ∧ s.ilen.toNat ≤ s.cfg.capIn := by
  rcases checkInput_eq s with ⟨-, e⟩ | ⟨-, -, e⟩ | ⟨-, hcap, e⟩ <;> simp only [codecInput, e] at h <;> cases h
  exact ⟨rfl, hcap⟩

theorem imageInput_eq_ok {input : List Byte} (h : imageInput s = .ok input) :
    input = inputBytes s ∧ s.ilen.toNat ≤ s.cfg.capIn := by
  unfold imageInput at h
  split at h <;> cases h
  exact ⟨rfl, by omega⟩

theorem rleCompressOp_eq_ok (h : rleCompressOp s = .ok t) :
    t = { s with rle := rleLast s.rle (rleCompress (inputBytes s)), ipos := s.ilen.toNat } := by
  unfold rleCompressOp at h
  split at h <;> cases h
  next hinput => obtain ⟨rfl, -⟩ := codecInput_eq_ok hinput; rw [length_inputBytes]

theorem hufCompressOp_eq_ok (h : hufCompressOp s = .ok t) :
    t = { s with huf := hufCompress s.huf (inputBytes s), ipos := s.ilen.toNat } := by
  unfold hufCompressOp at h
  split at h <;> cases h
  next hinput => obtain ⟨rfl, -⟩ := codecInput_eq_ok hinput; rw [length_inputBytes]

theorem lzwCompressOp_eq_ok (h : lzwCompressOp s = .ok t) :
    t = { s with lzw := lzwCompress s.lzw (inputBytes s), ipos := s.ilen.toNat } := by
  unfold lzwCompressOp at h
  split at h <;> cases h
  next hinput => obtain ⟨rfl, -⟩ := codecInput_eq_ok hinput; rw [length_inputBytes]

theorem lz77CompressOp_eq_ok (h : lz77CompressOp s = .ok t) :
    t = { s with
      ipos := (lz77Compress s.cfg s.lz77 (inputBytes s)).1, lz77 := (lz77Compress s.cfg s.lz77 (inputBytes s)).2 } := by
  unfold lz77CompressOp at h
  split at h <;> cases h
  next hinput => obtain ⟨rfl, -⟩ := codecInput_eq_ok hinput; rfl

theorem parseOp_eq_ok {α : Type} {parse : List Byte → Except Cause α} {put : State → α → State}
    (h : parseOp parse put s = .ok t) :
    s.ilen.toNat ≤ s.cfg.capIn ∧ ∃ obj, parse (inputBytes s) = .ok obj ∧ t = put s obj := by
  unfold parseOp at h
  split at h
  next hinput =>
    obtain ⟨rfl, hcap⟩ := imageInput_eq_ok hinput
    split at h <;> cases h
    next obj hobj => exact ⟨hcap, obj, hobj, rfl⟩
  next => cases h

theorem desRleOp_eq_ok (h : desRleOp s = .ok t) :
    s.ilen.toNat ≤ s.cfg.capIn ∧ ∃ obj, desRle (inputBytes s) = .ok obj ∧ t = { s with rle.obj := obj } :=
  parseOp_eq_ok h

theorem desHufOp_eq_ok (h : desHufOp s = .ok t) :
    s.ilen.toNat ≤ s.cfg.capIn ∧ ∃ obj, desHuf (inputBytes s) = .ok obj ∧ t = { s with huf.obj := obj } :=
  parseOp_eq_ok h

theorem desLzwOp_eq_ok (h : desLzwOp s = .ok t) :
    s.ilen.toNat ≤ s.cfg.capIn ∧ ∃ obj, desLzw (inputBytes s) = .ok obj ∧ t = { s with lzw.obj := obj } :=
  parseOp_eq_ok h

theorem desLz77Op_eq_ok (h : desLz77Op s = .ok t) :
    s.ilen.toNat ≤ s.cfg.capIn ∧ ∃ obj, desLz77 (inputBytes s) = .ok obj ∧ t = { s with lz77.obj := obj } :=
  parseOp_eq_ok h

theorem serializeOp_eq_ok {c : Cause} {image : List Byte} (h : serializeOp c image s = .ok t) :
    append image s = .ok t := by
  unfold serializeOp imageFits at h
  split at h
  next hfits => split at hfits <;> cases hfits; exact h
  next => cases h

theorem codecSerializeOp_eq_ok (h : codecSerializeOp k s = .ok t) : ∃ image, append image s = .ok t := by
  cases k <;> exact ⟨_, serializeOp_eq_ok h⟩

theorem rleDecompressOp_eq_ok (h : rleDecompressOp s = .ok t) :
    ∃ out, append out { startOutput s with ipos := s.rle.obj.runs.length } = .ok t := by
  unfold rleDecompressOp at h
  split at h
  · exact ⟨_, h⟩
  · cases h

theorem hufDecompressOp_eq_ok (h : hufDecompressOp s = .ok t) :
    ∃ u bitpos out, hufDecompress s.huf = .ok (u, bitpos, out) ∧
      append out { startOutput s with huf := u, bitpos := bitpos } = .ok t := by
  unfold hufDecompressOp at h
  split at h
  next hrun => exact ⟨_, _, _, hrun, h⟩
  next => cases h

theorem lzwDecompressOp_eq_ok (h : lzwDecompressOp s = .ok t) :
    ∃ u out, lzwDecompress s.lzw = .ok (u, out) ∧
      append out { startOutput s with lzw := u, ipos := s.lzw.obj.codes.length } = .ok t := by
  unfold lzwDecompressOp at h
  split at h
  next hrun => exact ⟨_, _, hrun, h⟩
  next => cases h

theorem lz77DecompressOp_eq_ok (h : lz77DecompressOp s = .ok t) :
    ∃ out, append out { startOutput s with
      lz77 := s.lz77.obj.tokens.foldl lz77Count s.lz77, ipos := s.lz77.obj.tokens.length } = .ok t := by
  unfold lz77DecompressOp at h
  split at h
  · exact ⟨_, h⟩
  · cases h

theorem rlePairOp_eq_ok {count value : Byte} (h : rlePairOp count value s = .ok t) :
    ∃ new, append new { s with ipos := s.ipos + 1 } = .ok t := by
  unfold rlePairOp at h
  split at h
  · exact ⟨_, h⟩
  · cases h

theorem hufSymOp_eq_ok {path : List Bool} (h : hufSymOp path s = .ok t) :
    ∃ root d new, s.huf.root = some root ∧
      hufBits s.huf.nodes root s.huf.obj.originalSize.toNat path ⟨s.huf.cur, s.bitpos, outBytes s⟩ = .ok d ∧
      append new { s with huf := { s.huf with cur := d.cur }, bitpos := d.bitpos } = .ok t := by
  unfold hufSymOp at h
  split at h
  · cases h
  next root hroot =>
    split at h
    next d hrun => exact ⟨root, d, _, hroot, hrun, h⟩
    next => cases h

theorem lzwCodeOp_eq_ok {code : U16} (h : lzwCodeOp code s = .ok t) :
    ∃ u out new, lzwElement s.lzw.obj.originalSize.toNat (s.ipos == 0) s.lzw (outBytes s) code = .ok (u, out) ∧
      append new { s with lzw := u, ipos := s.ipos + 1 } = .ok t := by
  unfold lzwCodeOp at h
  split at h
  next hrun => exact ⟨_, _, _, hrun, h⟩
  next => cases h

theorem lz77TokenOp_eq_ok {token : Token} (h : lz77TokenOp token s = .ok t) :
    ∃ new, append new { s with lz77 := lz77Count s.lz77 token, ipos := s.ipos + 1 } = .ok t := by
  unfold lz77TokenOp at h
  split at h
  · exact ⟨_, h⟩
  · cases h

/-! ### Every operation stays within its codec -/

theorem operated_compress (h : codecCompressOp k s = .ok t) : Operated k s t := by
  cases k
  case lz77 => obtain rfl := lz77CompressOp_eq_ok h; exact UpdatesUnit.operated (k := .lz77) rfl
  case huf => obtain rfl := hufCompressOp_eq_ok h; exact UpdatesUnit.operated (k := .huf) rfl
  case rle => obtain rfl := rleCompressOp_eq_ok h; exact UpdatesUnit.operated (k := .rle) rfl
  case lzw => obtain rfl := lzwCompressOp_eq_ok h; exact UpdatesUnit.operated (k := .lzw) rfl

theorem operated_parse (h : codecParseOp k s = .ok t) : Operated k s t := by
  cases k
  case lz77 => obtain ⟨-, obj, -, rfl⟩ := desLz77Op_eq_ok h; exact UpdatesUnit.operated (k := .lz77) rfl
  case huf => obtain ⟨-, obj, -, rfl⟩ := desHufOp_eq_ok h; exact UpdatesUnit.operated (k := .huf) rfl
  case rle => obtain ⟨-, obj, -, rfl⟩ := desRleOp_eq_ok h; exact UpdatesUnit.operated (k := .rle) rfl
  case lzw => obtain ⟨-, obj, -, rfl⟩ := desLzwOp_eq_ok h; exact UpdatesUnit.operated (k := .lzw) rfl

/-- A serializer changes no unit, its own neither. -/
theorem operated_serialize {k' : Codec} (h : codecSerializeOp k s = .ok t) : Operated k' s t :=
  let ⟨_, happend⟩ := codecSerializeOp_eq_ok h
  operated_append happend

/-- An append onto a state that differs from `s` in the codec's unit. -/
theorem operated_append_of {bs : List Byte} (h : append bs u = .ok t) (hu : UpdatesUnit k s u) : Operated k s t :=
  hu.operated.trans (operated_append h)

theorem operated_decompress (h : codecDecompressOp k s = .ok t) : Operated k s t := by
  refine (operated_startOutput k s).trans ?_
  cases k
  case lz77 => obtain ⟨out, h⟩ := lz77DecompressOp_eq_ok h; exact operated_append_of (k := .lz77) h rfl
  case huf => obtain ⟨u, bitpos, out, -, h⟩ := hufDecompressOp_eq_ok h; exact operated_append_of (k := .huf) h rfl
  case rle => obtain ⟨out, h⟩ := rleDecompressOp_eq_ok h; exact operated_append_of (k := .rle) h rfl
  case lzw => obtain ⟨u, out, -, h⟩ := lzwDecompressOp_eq_ok h; exact operated_append_of (k := .lzw) h rfl

theorem operated_rlePair {count value : Byte} (h : rlePairOp count value s = .ok t) : Operated .rle s t :=
  let ⟨_, h⟩ := rlePairOp_eq_ok h
  operated_append_of h rfl

theorem operated_hufSym {path : List Bool} (h : hufSymOp path s = .ok t) : Operated .huf s t :=
  let ⟨_, _, _, _, _, h⟩ := hufSymOp_eq_ok h
  operated_append_of h rfl

theorem operated_lzwCode {code : U16} (h : lzwCodeOp code s = .ok t) : Operated .lzw s t :=
  let ⟨_, _, _, _, h⟩ := lzwCodeOp_eq_ok h
  operated_append_of h rfl

theorem operated_lz77Token {token : Token} (h : lz77TokenOp token s = .ok t) : Operated .lz77 s t :=
  let ⟨_, h⟩ := lz77TokenOp_eq_ok h
  operated_append_of h rfl

/-! ### The moves of a busy engine -/

/-- The unit with the tree a Huffman decoder starts with (42_huffman.md R175). -/
def hufStartUnit (u : HufUnit) : HufUnit :=
  let built := hufBuild { u with freq := u.obj.freqTable }
  { built with cur := built.root.getD built.cur }

/-- What a turn of the busy engine leaves: it raises, runs the accepted command or its first operation, or goes on from
the stage the command is in. -/
inductive EngineMove (s : State) : State → Prop
  /-- an error, from the state the turn found -/
  | raises (c : Cause) : EngineMove s (raise c s)
  /-- an error of a first operation, whose output has been started -/
  | raisesStarted (c : Cause) : EngineMove s (raise c (startOutput s))
  /-- a whole compress command (45_dispatcher.md R272 to R275) -/
  | compresses {k : Codec} {v u : State} (stage : s.stage = .accepted) (codec : codecOf s.alg = some k)
      (input : s.ilen.toNat ≤ s.cfg.capIn) (compress : codecCompressOp k (startOutput s) = .ok v)
      (serialize : codecSerializeOp k v = .ok u) : EngineMove s (complete u)
  /-- a whole decompress command (45_dispatcher.md R276 to R279) -/
  | decompresses {k : Codec} {v u : State} (stage : s.stage = .accepted) (codec : codecOf s.alg = some k)
      (input : s.ilen.toNat ≤ s.cfg.capIn) (parse : codecParseOp k (startOutput s) = .ok v)
      (decompress : codecDecompressOp k v = .ok u) : EngineMove s (complete u)
  /-- the first operation of a compress command -/
  | codes {k : Codec} {u : State} (stage : s.stage = .accepted) (codec : codecOf s.alg = some k)
      (input : s.ilen.toNat ≤ s.cfg.capIn) (compress : codecCompressOp k (startOutput s) = .ok u) :
      EngineMove s { u with stage := .coded }
  /-- the first operation of a decompress command -/
  | parses {k : Codec} {u : State} (stage : s.stage = .accepted) (codec : codecOf s.alg = some k)
      (input : s.ilen.toNat ≤ s.cfg.capIn) (parse : codecParseOp k (startOutput s) = .ok u) :
      EngineMove s { u with stage := .parsed }
  /-- the serializer, after which the command completes -/
  | serializes {k : Codec} {u : State} (stage : s.stage = .coded) (codec : codecOf s.alg = some k)
      (serialize : codecSerializeOp k s = .ok u) : EngineMove s (complete u)
  /-- the start of a decoder of bytes -/
  | startsDecoder {k : Codec} (stage : s.stage = .parsed) (codec : codecOf s.alg = some k) (bytes : k ≠ .huf) :
      EngineMove s (startDecoder s k)
  /-- the start of the walk of a Huffman decoder -/
  | startsWalk (stage : s.stage = .parsed) (codec : codecOf s.alg = some .huf) :
      EngineMove s { s with bitpos := 0, stage := .decoding, huf := hufStartUnit s.huf }
  /-- the end of a decoder whose output is whole -/
  | finishes (stage : s.stage = .decoding) : EngineMove s (complete s)
  /-- the one-symbol case (42_huffman.md R176) -/
  | repeats {bs : List Byte} {u : State} (stage : s.stage = .decoding) (output : append bs s = .ok u) :
      EngineMove s (complete u)
  /-- an RLE.PAIR that lies in the image -/
  | pair {count value : Byte} {u : State} (stage : s.stage = .decoding) (codec : codecOf s.alg = some .rle)
      (inside : 16 + 2 * s.ipos + 2 ≤ s.ilen.toNat) (element : rlePairOp count value s = .ok u) : EngineMove s u
  /-- an LZW.CODE that lies in the image -/
  | code {code : U16} {u : State} (stage : s.stage = .decoding) (codec : codecOf s.alg = some .lzw)
      (inside : 16 + 2 * s.ipos + 2 ≤ s.ilen.toNat) (element : lzwCodeOp code s = .ok u) : EngineMove s u
  /-- a token that lies in the image -/
  | token {token : Token} {u : State} (stage : s.stage = .decoding) (codec : codecOf s.alg = some .lz77)
      (inside : 8 + 4 * s.ipos + 4 ≤ s.ilen.toNat) (element : lz77TokenOp token s = .ok u) : EngineMove s u
  /-- a code word that lies in the packed bits, while bytes are owed -/
  | symbol {path : List Bool} {u : State} (stage : s.stage = .decoding) (codec : codecOf s.alg = some .huf)
      (owed : s.opos < s.huf.obj.originalSize.toNat) (nonempty : path ≠ [])
      (inside : s.bitpos + path.length ≤ 8 * (s.ilen.toNat - 1040)) (element : hufSymOp path s = .ok u) :
      EngineMove s u

/-! ### The elements fetched from the image -/

theorem length_unpackBits (bs : List Byte) : (unpackBits bs).length = 8 * bs.length := by
  induction bs with
  | nil => rfl
  | cons b bs ih =>
    have hb : (unpackByte b).length = 8 := by simp [unpackByte]
    rw [unpackBits, List.flatMap_cons, List.length_append, hb, ← unpackBits, ih, List.length_cons]
    omega

theorem takePath_eq_ok {child : Nat → Bool → Option Nat} {leaf : Nat → Bool} {cur : Nat} {bits path rest : List Bool}
    (h : takePath child leaf cur bits = .ok (path, rest)) : path ≠ [] ∧ bits = path ++ rest := by
  induction bits generalizing cur path with
  | nil => cases h
  | cons b bs ih =>
    unfold takePath at h
    split at h
    · cases h
    · split at h
      · cases h
        exact ⟨by simp, rfl⟩
      · split at h <;> cases h
        next hsub => exact ⟨by simp, by rw [(ih hsub).2]; rfl⟩

/-- A code word read from the stream is a non-empty piece of it. -/
theorem decodeSym_eq_ok {child : Nat → Bool → Option Nat} {leaf : Nat → Bool} {root : Nat} {bits rest : List Bool}
    {i : Instr} (h : decodeSym child leaf root bits = .ok (i, rest)) :
    ∃ path, i = .hufSym path ∧ path ≠ [] ∧ bits = path ++ rest := by
  unfold decodeSym at h
  split at h <;> cases h
  next hpath => exact ⟨_, rfl, takePath_eq_ok hpath⟩

theorem length_remainingBits (s : State) :
    (remainingBits s).length = 8 * (s.ilen.toNat - 1040) - s.bitpos := by
  rw [remainingBits, List.length_drop, length_unpackBits, List.length_drop, length_inputBytes]
  rfl

theorem decode_rlePair_eq_ok {bs rest : List Byte} {i : Instr} (h : decode .rlePair bs = .ok (i, rest)) :
    ∃ count value, i = .rlePair count value ∧ 2 ≤ bs.length := by
  rcases bs with _ | ⟨count, _ | ⟨value, bs⟩⟩ <;> cases h
  exact ⟨_, _, rfl, by simp⟩

theorem decode_lzwCode_eq_ok {bs rest : List Byte} {i : Instr} (h : decode .lzwCode bs = .ok (i, rest)) :
    ∃ code, i = .lzwCode code ∧ 2 ≤ bs.length := by
  rcases bs with _ | ⟨low, _ | ⟨high, bs⟩⟩ <;> cases h
  exact ⟨_, rfl, by simp⟩

/-- Whatever its offset, a token read from the image is run as the operation on tokens. -/
theorem decode_lzToken_eq_ok {bs rest : List Byte} {i : Instr} (h : decode .lzToken bs = .ok (i, rest)) :
    ∃ token, (∀ s, exec i s = settle s (lz77TokenOp token s)) ∧ 4 ≤ bs.length := by
  rcases bs with _ | ⟨o1, _ | ⟨o0, _ | ⟨length, _ | ⟨nextChar, bs⟩⟩⟩⟩ <;> cases h
  by_cases ho : be16 [o1, o0] = 0
  · exact ⟨⟨0, length, nextChar⟩, fun s => by rw [tokenInstr, if_pos ho]; rfl, by simp⟩
  · exact ⟨⟨be16 [o1, o0], length, nextChar⟩, fun s => by rw [tokenInstr, if_neg ho]; rfl, by simp⟩

/-! ### A busy engine's turn is one of its moves -/

/-- What an instruction run in a turn leaves, when it is an operation that ends the turn. -/
theorem engineMove_of_settle {r : Except Cause State} (hmove : ∀ v, r = .ok v → EngineMove s v)
    (h : settle s r = .next t) : EngineMove s t := by
  rcases settle_cases h with hok | ⟨c, -, rfl⟩
  · exact hmove t hok
  · exact .raises c

theorem compressOp_eq_ok {codec serializer : State → Except Cause State} (h : compressOp codec serializer s = .ok u) :
    s.ilen.toNat ≤ s.cfg.capIn ∧ ∃ v, codec (startOutput s) = .ok v ∧ serializer v = .ok u := by
  obtain ⟨v, hv, hser⟩ := andThen_eq_ok.1 h
  obtain ⟨w, hin, hcodec⟩ := andThen_eq_ok.1 hv
  rcases checkInput_eq s with ⟨-, e⟩ | ⟨-, -, e⟩ | ⟨-, hcap, e⟩ <;> rw [e] at hin <;> cases hin
  exact ⟨hcap, v, hcodec, hser⟩

theorem decompressOp_eq_ok {deserializer codec : State → Except Cause State} {size : State → U64}
    (h : decompressOp deserializer size codec s = .ok u) :
    s.ilen.toNat ≤ s.cfg.capIn ∧ ∃ v, deserializer (startOutput s) = .ok v ∧ codec v = .ok u := by
  obtain ⟨v, hv, hcodec⟩ := andThen_eq_ok.1 h
  obtain ⟨w, hw, hsize⟩ := andThen_eq_ok.1 hv
  obtain ⟨x, hin, hdes⟩ := andThen_eq_ok.1 hw
  rcases checkInput_eq s with ⟨-, e⟩ | ⟨-, -, e⟩ | ⟨-, hcap, e⟩ <;> rw [e] at hin <;> cases hin
  unfold checkOutput at hsize
  split at hsize <;> cases hsize
  exact ⟨hcap, v, hdes, hcodec⟩

/-- A whole command. -/
theorem engineMove_of_command (hst : s.stage = .accepted) (hk : codecOf s.alg = some k)
    (h : exec (commandOf s.dir k) s = .next t) : EngineMove s t := by
  rcases dir_cases s with hd | hd <;> rw [hd] at h
  · rw [exec_commandOf_compress] at h
    rcases settleCommand_cases h with ⟨u, hu, rfl⟩ | ⟨c, -, rfl⟩
    · obtain ⟨hin, v, hv, hser⟩ := compressOp_eq_ok hu
      exact .compresses hst hk hin hv hser
    · exact .raises c
  · rw [exec_commandOf_decompress] at h
    rcases settleCommand_cases h with ⟨u, hu, rfl⟩ | ⟨c, -, rfl⟩
    · obtain ⟨hin, v, hv, hdec⟩ := decompressOp_eq_ok hu
      exact .decompresses hst hk hin hv hdec
    · exact .raises c

theorem afterRun_parsed {t : State} (hb : t.busy = 1) : afterRun .parsed t = { t with stage := .parsed } := by
  rw [afterRun, if_neg (by simp [hb])]

theorem afterRun_walk {t : State} (hb : t.busy = 1) :
    afterRun .walk t = { t with stage := .decoding, huf.cur := t.huf.root.getD t.huf.cur } := by
  rw [afterRun, if_neg (by simp [hb])]

/-- The first operation of a command. -/
theorem engineMove_of_firstOperation (hb : s.busy = 1) (hst : s.stage = .accepted) (hk : codecOf s.alg = some k)
    (hin : s.ilen.toNat ≤ s.cfg.capIn) (h : exec (firstOperation s.dir k) (startOutput s) = .next u) :
    EngineMove s (afterRun (if s.dir = 0 then .coded else .parsed) u) := by
  rcases dir_cases s with hd | hd <;> rw [hd] at h ⊢
  · rw [exec_firstOperation_compress] at h
    rcases settle_cases h with hok | ⟨c, -, rfl⟩
    · rw [if_pos rfl, afterRun_coded ((operated_compress hok).busy.trans hb)]
      exact .codes hst hk hin hok
    · rw [afterRun_idle _ (raise_busy c _)]
      exact .raisesStarted c
  · rw [exec_firstOperation_decompress] at h
    rcases settle_cases h with hok | ⟨c, -, rfl⟩
    · rw [if_neg (by decide), afterRun_parsed ((operated_parse hok).busy.trans hb)]
      exact .parses hst hk hin hok
    · rw [afterRun_idle _ (raise_busy c _)]
      exact .raisesStarted c

/-- The serializer's turn. -/
theorem engineMove_of_serializer (hb : s.busy = 1) (hst : s.stage = .coded) (hk : codecOf s.alg = some k)
    (h : exec (serializerOf k) s = .next u) : EngineMove s (afterRun .finish u) := by
  rw [exec_serializerOf] at h
  rcases settle_cases h with hok | ⟨c, -, rfl⟩
  · have hfinish : afterRun .finish u = complete u := by
      simp [afterRun, (operated_serialize (k' := k) hok).busy.trans hb]
    rw [hfinish]
    exact .serializes hst hk hok
  · rw [afterRun_idle _ (raise_busy c _)]
    exact .raises c

/-- What the sequencer's choice of work leaves, each kind of work with its outcome. -/
def WorkMoves (s : State) : Work → Prop
  | .rest => False
  | .trap _ => True
  | .go t => EngineMove s t
  | .run i t after => ∀ u, exec i t = .next u → EngineMove s (afterRun after u)

theorem acceptedWork_moves (hb : s.busy = 1) (hst : s.stage = .accepted) : WorkMoves s (acceptedWork s) := by
  cases hk : codecOf s.alg with
  | none => rw [acceptedWork_no_codec hk]; trivial
  | some k =>
    cases hg : s.grain with
    | command =>
      rw [acceptedWork_command hk hg]
      intro u hu
      rw [afterRun_stay]
      exact engineMove_of_command hst hk hu
    | operation =>
      rcases checkInput_eq s with ⟨-, e⟩ | ⟨-, -, e⟩ | ⟨-, hcap, e⟩
      · rw [acceptedWork_badInput hk hg e]; trivial
      · rw [acceptedWork_badInput hk hg e]; trivial
      · rw [acceptedWork_operation hk hg e]
        exact fun u hu => engineMove_of_firstOperation hb hst hk hcap hu

theorem parsedWork_moves (hb : s.busy = 1) (hst : s.stage = .parsed) (hk : codecOf s.alg = some k) :
    WorkMoves s (parsedWork s k) := by
  by_cases hcap : s.cfg.capOut < (objectSize s k).toNat
  · rw [parsedWork, checkOutput_of_beyond hcap]; trivial
  · rw [parsedWork, checkOutput_of_fits (by omega)]
    cases k
    case huf =>
      intro u hu
      obtain rfl : _ = u := Host.Outcome.next.inj hu
      rw [afterRun_walk (by exact hb)]
      exact .startsWalk hst hk
    case lz77 => exact .startsDecoder hst hk (by decide)
    case rle => exact .startsDecoder hst hk (by decide)
    case lzw => exact .startsDecoder hst hk (by decide)

/-- The element of a byte stream: what is fetched, and that it lies in the image. -/
theorem elementWork_moves {f : Format} {at_ : Nat} {size : U64} {short : Cause} (hst : s.stage = .decoding)
    (hrun : ∀ i rest, decode f ((inputBytes s).drop at_) = .ok (i, rest) → ∀ u, exec i s = .next u → EngineMove s u) :
    WorkMoves s (elementWork s f at_ size short) := by
  unfold elementWork
  split
  · split
    · exact .finishes hst
    · trivial
  next b bs hdrop =>
    rw [hdrop] at hrun
    split
    next i rest hdec =>
      intro u hu
      rw [afterRun_stay]
      exact hrun i rest hdec u hu
    · trivial

theorem length_drop_inputBytes (s : State) (n : Nat) : ((inputBytes s).drop n).length = s.ilen.toNat - n := by
  rw [List.length_drop, length_inputBytes]

theorem symWork_moves (hst : s.stage = .decoding) (hk : codecOf s.alg = some .huf) : WorkMoves s (symWork s) := by
  unfold symWork
  split
  · split
    · exact .finishes hst
    · trivial
  next root hroot =>
    split
    · split
      next happend => exact .repeats hst happend
      · trivial
    · split
      · exact .finishes hst
      next howed =>
        split
        next i rest hdec =>
          intro u hu
          obtain ⟨path, rfl, hne, hbits⟩ := decodeSym_eq_ok hdec
          have hlen := congrArg List.length hbits
          rw [length_remainingBits, List.length_append] at hlen
          have hpos := List.length_pos_of_ne_nil hne
          rw [afterRun_stay]
          exact engineMove_of_settle (fun v hv => .symbol hst hk (Nat.not_le.1 howed) hne (by omega) hv) hu
        · trivial
        · trivial

theorem decodingWork_moves (hst : s.stage = .decoding) (hk : codecOf s.alg = some k) :
    WorkMoves s (decodingWork s k) := by
  cases k
  case huf => exact symWork_moves hst hk
  case rle =>
    refine elementWork_moves hst fun i rest hdec u hu => ?_
    obtain ⟨count, value, rfl, hlen⟩ := decode_rlePair_eq_ok hdec
    rw [length_drop_inputBytes, Config.rleHeader] at hlen
    exact engineMove_of_settle (fun v hv => .pair hst hk (by omega) hv) hu
  case lzw =>
    refine elementWork_moves hst fun i rest hdec u hu => ?_
    obtain ⟨code, rfl, hlen⟩ := decode_lzwCode_eq_ok hdec
    rw [length_drop_inputBytes, Config.lzwHeader] at hlen
    exact engineMove_of_settle (fun v hv => .code hst hk (by omega) hv) hu
  case lz77 =>
    refine elementWork_moves hst fun i rest hdec u hu => ?_
    obtain ⟨token, hexec, hlen⟩ := decode_lzToken_eq_ok hdec
    rw [length_drop_inputBytes, Config.lz77Header] at hlen
    exact engineMove_of_settle (fun v hv => .token hst hk (by omega) hv) ((hexec s).symm.trans hu)

theorem nextWork_moves (hb : s.busy = 1) : WorkMoves s (nextWork s) := by
  have hbusy : s.busy ≠ 0 := by simp [hb]
  cases hst : s.stage with
  | accepted => rw [nextWork_accepted hb hst]; exact acceptedWork_moves hb hst
  | coded =>
    cases hk : codecOf s.alg with
    | none => simp only [nextWork, if_neg hbusy, hst, hk]; trivial
    | some k =>
      rw [nextWork_coded hb hst hk]
      exact fun u hu => engineMove_of_serializer hb hst hk hu
  | parsed =>
    cases hk : codecOf s.alg with
    | none => simp only [nextWork, if_neg hbusy, hst, hk]; trivial
    | some k => simp only [nextWork, if_neg hbusy, hst, hk]; exact parsedWork_moves hb hst hk
  | decoding =>
    cases hk : codecOf s.alg with
    | none => simp only [nextWork, if_neg hbusy, hst, hk]; trivial
    | some k => simp only [nextWork, if_neg hbusy, hst, hk]; exact decodingWork_moves hst hk

/-- A busy engine's turn is one of its moves. -/
theorem engineMove_of_turn (hb : s.busy = 1) (h : engineTurn s = .next t) : EngineMove s t := by
  have hmoves := nextWork_moves hb
  cases hw : nextWork s with
  | rest => rw [hw] at hmoves; exact hmoves.elim
  | trap c =>
    rw [engineTurn_of_trap hw] at h
    cases h
    exact .raises c
  | go v =>
    rw [hw] at hmoves
    simp only [engineTurn, hw] at h
    cases h
    exact hmoves
  | run i v after =>
    rw [hw] at hmoves
    obtain ⟨u, hu⟩ := exec_answers_next i v
    rw [engineTurn_of_run hw hu] at h
    cases h
    exact hmoves u hu

/-! ### The moves of the host -/

/-- What an access of the host leaves (10_state.md R22 to R30, R350). -/
inductive HostMove (s : State) : State → Prop
  /-- a read, a wait that is over, or a START without effect -/
  | observes (rest : List HostAct) (seen : List U64) : HostMove s { s with host := rest, observed := seen }
  /-- a START that is accepted -/
  | starts (rest : List HostAct) : HostMove s { s with host := rest, busy := 1, stage := .accepted }
  /-- a write of ALG, DIR or ILEN -/
  | writesRegister (idle : s.busy = 0) (rest : List HostAct) (alg : Byte) (dir : BitVec 1) (ilen : U64) :
      HostMove s { s with host := rest, alg := alg, dir := dir, ilen := ilen }
  /-- a write of IBUF, also by the copy of OBUF -/
  | writesIbuf (rest : List HostAct) (a : Nat) (bs : List Byte) (fits : a + bs.length ≤ s.cfg.capIn) :
      HostMove s { s with host := rest, ibuf := memWrite s.ibuf a bs }
  /-- reset -/
  | resets (rest : List HostAct) : HostMove s (resetEngine { s with host := rest })

theorem hostMove_of_writeReg {r : Reg} {v : U64} {rest : List HostAct}
    (h : hostWriteReg r v { s with host := rest } = .next t) : HostMove s t := by
  unfold hostWriteReg at h
  split at h
  · cases h
  next hwritable =>
    split at h
    · cases h
    next hfree =>
      cases h
      have idle : r ≠ .start → s.busy = 0 := fun hr =>
        (busy_cases s).resolve_right fun hb => hfree ⟨hb, hr⟩
      cases r
      case alg => exact .writesRegister (idle (by decide)) rest _ s.dir s.ilen
      case dir => exact .writesRegister (idle (by decide)) rest s.alg _ s.ilen
      case ilen => exact .writesRegister (idle (by decide)) rest s.alg s.dir v
      case start =>
        simp only [writeReg, acceptStart]
        split
        · split
          · exact .starts rest
          · exact .observes rest s.observed
        · exact .observes rest s.observed
      case busy => exact absurd rfl hwritable
      case status => exact absurd rfl hwritable
      case olen => exact absurd rfl hwritable

/-- A step is a move of the host or a turn of the engine, on `s` but for the host's list. -/
theorem step_cases (h : step s = .next t) :
    HostMove s t ∨ ∃ rest, engineTurn { s with host := rest } = .next t := by
  unfold step whoMoves at h
  cases hh : s.host with
  | nil => rw [hh] at h; exact .inr ⟨s.host, h⟩
  | cons a rest =>
    rw [hh] at h
    cases a with
    | engineTurn => exact .inr ⟨rest, h⟩
    | awaitIdle =>
      dsimp only at h
      split at h
      next t' hturn =>
        split at hturn <;> cases hturn
        exact .inr ⟨s.host, h⟩
      next o hturn =>
        split at hturn <;> cases hturn
        cases h
        exact .inl (.observes rest s.observed)
    | writeReg r v => exact .inl (hostMove_of_writeReg h)
    | readReg r =>
      simp only [hostReadReg] at h
      split at h <;> cases h
      exact .inl (.observes rest _)
    | writeIbuf addr bs =>
      simp only [hostWriteIbuf] at h
      split at h
      · cases h
      · split at h <;> cases h
        next hcap => exact .inl (.writesIbuf rest addr bs (Nat.not_lt.1 hcap))
    | readObuf addr =>
      simp only [hostReadObuf] at h
      split at h
      · cases h
      · split at h
        · cases h
        · split at h <;> cases h
          exact .inl (.observes rest _)
    | copyBack n =>
      simp only [hostCopyBack] at h
      split at h
      · cases h
      · split at h
        · cases h
        next hcap =>
          split at h <;> cases h
          exact .inl (.writesIbuf rest 0 _ (by simpa using hcap))
    | reset =>
      cases h
      exact .inl (.resets rest)

/-- A property of states that does not look at the host's list is kept by every step, if it is kept by every move of the
host and by every move of a busy engine. -/
theorem step_keeps {P : State → Prop} (hcongr : ∀ s rest, P s → P { s with host := rest })
    (hhost : ∀ s t, P s → HostMove s t → P t) (hengine : ∀ s t, P s → s.busy = 1 → EngineMove s t → P t)
    (hP : P s) (h : step s = .next t) : P t := by
  rcases step_cases h with hmove | ⟨rest, hturn⟩
  · exact hhost s t hP hmove
  · rcases busy_cases s with hb | hb
    · rw [engineTurn_idle (s := { s with host := rest }) hb] at hturn
      cases hturn
      exact hcongr s rest hP
    · exact hengine _ t (hcongr s rest hP) hb (engineMove_of_turn (s := { s with host := rest }) hb hturn)

/-! ### Properties of the units -/

/-- The units of `t` are those of `s`. -/
structure SameUnits (s t : State) : Prop where
  rle : t.rle = s.rle
  huf : t.huf = s.huf
  lzw : t.lzw = s.lzw
  lz77 : t.lz77 = s.lz77

theorem SameUnits.of_append {bs : List Byte} (h : append bs s = .ok t) : SameUnits s t := by
  obtain ⟨-, rfl⟩ := append_eq_ok.1 h
  exact ⟨rfl, rfl, rfl, rfl⟩

theorem SameUnits.of_serialize (h : codecSerializeOp k s = .ok t) : SameUnits s t :=
  let ⟨_, happend⟩ := codecSerializeOp_eq_ok h
  .of_append happend

/-- The host has no access to a unit (10_state.md R48). -/
theorem HostMove.sameUnits (h : HostMove s t) : SameUnits s t := by
  cases h <;> exact ⟨rfl, rfl, rfl, rfl⟩

/-- A property of the units is kept by every step, if it is kept by the operations that change a unit. -/
theorem step_keeps_of_units {P : State → Prop} (hsame : ∀ {s t}, P s → SameUnits s t → P t)
    (hcompress : ∀ {k s t}, P s → codecCompressOp k s = .ok t → P t)
    (hparse : ∀ {k s t}, P s → codecParseOp k s = .ok t → P t)
    (hdecompress : ∀ {k s t}, P s → codecDecompressOp k s = .ok t → P t)
    (hstart : ∀ {s} k, P s → P (startDecoder s k)) (hwalk : ∀ {s}, P s → P { s with huf := hufStartUnit s.huf })
    (hpair : ∀ {count value s t}, P s → rlePairOp count value s = .ok t → P t)
    (hcode : ∀ {code s t}, P s → lzwCodeOp code s = .ok t → P t)
    (htoken : ∀ {token s t}, P s → lz77TokenOp token s = .ok t → P t)
    (hsymbol : ∀ {path s t}, P s → hufSymOp path s = .ok t → P t)
    (hs : P s) (h : step s = .next t) : P t := by
  have hstarted : ∀ {s}, P s → P (startOutput s) := fun h => hsame h ⟨rfl, rfl, rfl, rfl⟩
  have hcomplete : ∀ {s}, P s → P (complete s) := fun h => hsame h ⟨rfl, rfl, rfl, rfl⟩
  have hstage : ∀ {s} stage, P s → P { s with stage := stage } := fun _ h => hsame h ⟨rfl, rfl, rfl, rfl⟩
  have hraise : ∀ {s} c, P s → P (raise c s) := fun _ h => hsame h ⟨rfl, rfl, rfl, rfl⟩
  refine step_keeps (fun s rest h => hsame h ⟨rfl, rfl, rfl, rfl⟩) (fun s t h hmove => hsame h hmove.sameUnits)
    (fun s t hs _ hmove => ?_) hs h
  cases hmove with
  | raises c => exact hraise c hs
  | raisesStarted c => exact hraise c (hstarted hs)
  | compresses _ _ _ compress serialize =>
    exact hcomplete (hsame (hcompress (hstarted hs) compress) (.of_serialize serialize))
  | decompresses _ _ _ parse decompress => exact hcomplete (hdecompress (hparse (hstarted hs) parse) decompress)
  | codes _ _ _ compress => exact hstage _ (hcompress (hstarted hs) compress)
  | parses _ _ _ parse => exact hstage _ (hparse (hstarted hs) parse)
  | serializes _ _ serialize => exact hcomplete (hsame hs (.of_serialize serialize))
  | startsDecoder => exact hstart _ hs
  | startsWalk => exact hsame (hwalk hs) ⟨rfl, rfl, rfl, rfl⟩
  | finishes => exact hcomplete hs
  | repeats _ output => exact hcomplete (hsame hs (.of_append output))
  | pair _ _ _ element => exact hpair hs element
  | code _ _ _ element => exact hcode hs element
  | token _ _ _ element => exact htoken hs element
  | symbol _ _ _ _ _ element => exact hsymbol hs element

end Sys2Proof.Machine

/-! PROOFS. What the host's accesses do while the engine is idle, START, and the state right after reset
(10_state.md R22 to R30, R49). -/

namespace Sys2Proof.Machine

open Sys2Proof.Safety

/-! ### The host's turn -/

theorem step_writeReg {s : State} {r : Reg} {v : U64} {rest : List HostAct} (h : s.host = .writeReg r v :: rest)
    (hw : hostWritable r = true) (hb : s.busy = 0 ∨ r = .start) :
    step s = .next (writeReg { s with host := rest } r v) := by
  have hbusy : s.busy = 1 → r = .start := by rcases hb with hb | hb <;> simp [hb]
  simpa [step, whoMoves, h, hostWriteReg, hw] using hbusy

theorem step_readReg {s : State} {r : Reg} {rest : List HostAct} (h : s.host = .readReg r :: rest)
    (hb : s.busy = 0 ∨ r = .start) :
    step s = .next { s with host := rest, observed := s.observed ++ [readReg s r] } := by
  have hbusy : s.busy = 1 → ¬ r = .busy → r = .start := by rcases hb with hb | hb <;> simp [hb]
  have hread : readReg { s with host := rest } r = readReg s r := by cases r <;> rfl
  simpa [step, whoMoves, h, hostReadReg, hread] using hbusy

theorem step_writeIbuf {s : State} {a : Nat} {bs : List Byte} {rest : List HostAct}
    (h : s.host = .writeIbuf a bs :: rest) (hb : s.busy = 0) (hfits : a + bs.length ≤ s.cfg.capIn) :
    step s = .next { s with host := rest, ibuf := memWrite s.ibuf a bs } := by
  simp [step, whoMoves, h, hostWriteIbuf, hb, hfits]

/-- A register written and then read back, while idle. -/
theorem reaches_write_read {s : State} {r : Reg} {v : U64} {rest : List HostAct}
    (h : s.host = .writeReg r v :: .readReg r :: rest) (hw : hostWritable r = true)
    (hb : s.busy = 0) (w : State) (hwrite : writeReg { s with host := .readReg r :: rest } r v = w)
    (hwb : w.busy = 0) (hwh : w.host = .readReg r :: rest) :
    Reaches 2 s { w with host := rest, observed := w.observed ++ [readReg w r] } :=
  ⟨w, by rw [step_writeReg h hw (.inl hb), hwrite], _, step_readReg hwh (.inl hwb), rfl⟩

/-- Settles O11: each access is one host action, and the value written fits its register. -/
theorem hostWritesWhileIdle : Obligations.HostWritesWhileIdle := by
  unfold Obligations.HostWritesWhileIdle
  intro s rest hb
  refine ⟨fun v h => ?_, fun v h => ?_, fun v h => ?_, fun a bs h hfits => ?_⟩
  · have hv : (v.setWidth 64).setWidth 8 = v := by simp
    exact reaches_write_read h rfl hb { s with host := .readReg .alg :: rest, alg := v }
      (by simp [writeReg, hv]) hb rfl
  · have hv : (v.setWidth 64).setWidth 1 = v := by simp
    exact reaches_write_read h rfl hb { s with host := .readReg .dir :: rest, dir := v }
      (by simp [writeReg, hv]) hb rfl
  · exact reaches_write_read h rfl hb { s with host := .readReg .ilen :: rest, ilen := v } rfl hb rfl
  · exact ⟨_, step_writeIbuf h hb hfits, rfl, writtenAt_memWrite _ _ _⟩

/-- Settles O10: START acts by bit 0 of the value written, and only on an idle engine. -/
theorem startStrobe : Obligations.StartStrobe := by
  unfold Obligations.StartStrobe
  intro s rest
  refine ⟨fun h hb => ?_, fun h => ?_, fun h hb => ?_, fun h => step_readReg h (.inr rfl)⟩
  · rw [step_writeReg h rfl (.inr rfl)]
    simp [writeReg, acceptStart, hb]
  · rw [step_writeReg h rfl (.inr rfl)]
    simp [writeReg]
  · rw [step_writeReg h rfl (.inr rfl)]
    simp [writeReg, acceptStart, hb]

/-! ### The turn after START -/

/-- Settles O6: at the grain of commands the first turn runs the decoded command and nothing follows it. -/
theorem stepRunsAcceptedCommand : Obligations.StepRunsAcceptedCommand := by
  unfold Obligations.StepRunsAcceptedCommand
  intro s i hh hb hst hg hi
  have hwork : nextWork s = .run i s .stay := by
    rw [nextWork_accepted hb hst]
    simp [acceptedWork, hi, hg]
  obtain ⟨t, ht⟩ := exec_answers_next i s
  rw [step_of_no_host hh, engineTurn_of_run hwork ht, ht, afterRun_stay]

/-- An accepted command whose input is empty raises in its first turn, at either grain (45_dispatcher.md R271). -/
theorem exec_command_emptyInput {s : State} (k : Codec) (h : s.ilen.toNat = 0) :
    exec (commandOf s.dir k) s = .next (raise .emptyInput s) := by
  have hc : checkInput s = .error .emptyInput := by simp [checkInput, h]
  rcases dir_cases s with hd | hd <;> rw [hd]
  · rw [exec_commandOf_compress, compressOp, hc]; rfl
  · rw [exec_commandOf_decompress, decompressOp, hc]; rfl

/-- That first turn, given by the host, at the grain of commands. -/
theorem step_accepted_emptyInput {s : State} {k : Codec} {rest : List HostAct} (hh : s.host = .engineTurn :: rest)
    (hb : s.busy = 1) (hst : s.stage = .accepted) (hg : s.grain = .command) (hk : codecOf s.alg = some k)
    (hi : s.ilen.toNat = 0) : step s = .next (raise .emptyInput { s with host := rest }) := by
  have hwork : nextWork { s with host := rest } = .run (commandOf s.dir k) { s with host := rest } .stay :=
    (nextWork_accepted (s := { s with host := rest }) hb hst).trans (acceptedWork_command hk hg)
  rw [step_engineTurn hh, engineTurn_of_run hwork (exec_command_emptyInput (s := { s with host := rest }) k hi),
    afterRun_stay]

/-- Settles O14: the command word after reset is that of C.LZ77, and ILEN is 0. -/
theorem resetState : Obligations.ResetState := by
  unfold Obligations.ResetState
  refine ⟨fun r => by cases r <;> rfl, fun _ => rfl, fun _ => rfl, fun a ha => ?_, rfl, ?_⟩
  · have hcap : a < 2 ^ 63 := ha
    simpa [step, whoMoves, hostReadObuf, State.reset] using hcap
  · have hstart := step_writeReg (s := { State.reset with host := [.writeReg .start 1, .engineTurn] }) (v := 1) rfl
      rfl (.inr rfl)
    exact ⟨_, ⟨_, hstart, _, step_accepted_emptyInput (k := .lz77) rfl rfl rfl rfl rfl rfl, rfl⟩, rfl, rfl, rfl⟩

/-- Settles O53: nothing is listed in the buffers and the tables, and every register is 0 or none. -/
theorem resetMeetsInvariants : Obligations.ResetMeetsInvariants := by
  unfold Obligations.ResetMeetsInvariants
  have hcfg : State.reset.cfg.wf := by decide
  refine ⟨⟨hcfg, memoryOk_nil _, memoryOk_nil _⟩, ⟨hcfg, fun _ a => ?_, fun h => absurd rfl h, fun h => ?_⟩,
    ⟨hcfg, ?_⟩, ⟨?_, ?_⟩, ?_, ?_⟩
  · simp [State.reset]
  · exact absurd h (by decide)
  · simp [State.reset]
  · simp [DictOk, State.reset, LzwUnit.initial]
  · simp [State.reset, LzwUnit.initial]
  · refine ⟨List.length_replicate, List.length_replicate, ?_, ?_, ?_, ?_, ?_, ?_, ?_⟩ <;>
      simp [State.reset, HufUnit.initial, - List.reduceReplicate]
  · simp [Lz77Fits, State.reset, Lz77Unit.initial]

end Sys2Proof.Machine

/-! PROOFS. The sequences of the LZW dictionary (10_state.md R44, 43_lzw.md R203, R210, R211). The idea: an entry
extends an older code, so the chain of slot `257 + n` ends within `n + 2` steps, and more fuel changes nothing. -/

namespace Sys2Proof.Machine

open Sys2Proof.Safety

/-! ### Expanding a code -/

/-- What is on the stack stays below what is pushed. -/
theorem lzwExpand_stack (dict : List (Nat × Byte)) (fuel code : Nat) (stack : List Byte) :
    lzwExpand dict fuel code stack = (lzwExpand dict fuel code []).map (· ++ stack) := by
  induction fuel generalizing code stack with
  | zero => rfl
  | succ fuel ih =>
    unfold lzwExpand
    split
    · rfl
    · split
      · rfl
      · split
        next pre char _ =>
          rw [ih pre (char :: stack), ih pre [char], Option.map_map]
          congr 1
          funext bs
          simp
        next => rfl

theorem lzwExpand_fuel_succ {dict : List (Nat × Byte)} {fuel code : Nat} {stack bs : List Byte}
    (h : lzwExpand dict fuel code stack = some bs) : lzwExpand dict (fuel + 1) code stack = some bs := by
  induction fuel generalizing code stack with
  | zero => cases h
  | succ fuel ih =>
    unfold lzwExpand at h ⊢
    split at h
    next hlit => rw [if_pos hlit]; exact h
    next hlit =>
      rw [if_neg hlit]
      split at h
      next => cases h
      next hres =>
        rw [if_neg hres]
        split at h
        next pre char hentry => simpa only [hentry] using ih h
        next => cases h

theorem lzwExpand_fuel_le {dict : List (Nat × Byte)} {fuel more code : Nat} {stack bs : List Byte}
    (h : lzwExpand dict fuel code stack = some bs) (hle : fuel ≤ more) :
    lzwExpand dict more code stack = some bs := by
  induction hle with
  | refl => exact h
  | step _ ih => exact lzwExpand_fuel_succ ih

/-- One byte is pushed for each step of the chain, and one at least. -/
theorem length_lzwExpand {dict : List (Nat × Byte)} {fuel code : Nat} {stack bs : List Byte}
    (h : lzwExpand dict fuel code stack = some bs) :
    stack.length < bs.length ∧ bs.length ≤ fuel + stack.length := by
  induction fuel generalizing code stack with
  | zero => cases h
  | succ fuel ih =>
    unfold lzwExpand at h
    split at h
    · cases h
      simp only [List.length_cons]
      omega
    · split at h
      · cases h
      · split at h
        next pre char _ =>
          have := ih h
          simp only [List.length_cons] at this
          omega
        next => cases h

theorem lzwExpand_literal (dict : List (Nat × Byte)) (fuel : Nat) {code : Nat} (h : code < 256) (stack : List Byte) :
    lzwExpand dict (fuel + 1) code stack = some (BitVec.ofNat 8 code :: stack) := by
  rw [lzwExpand, if_pos (show code < Config.lzwLiterals from h)]

theorem lzwExpand_entry {dict : List (Nat × Byte)} {n pre : Nat} {char : Byte} (h : dict[n]? = some (pre, char))
    (fuel : Nat) (stack : List Byte) :
    lzwExpand dict (fuel + 1) (257 + n) stack = lzwExpand dict fuel pre (char :: stack) := by
  have hlit : ¬ 257 + n < Config.lzwLiterals := by simp only [Config.lzwLiterals]; omega
  have hres : ¬ 257 + n = Config.lzwReserved := by simp only [Config.lzwReserved]; omega
  have hslot : 257 + n - Config.lzwFirstSlot = n := by simp only [Config.lzwFirstSlot]; omega
  rw [lzwExpand, if_neg hlit, if_neg hres, hslot, h]

/-! ### Which codes have a sequence -/

/-- A code older than slot `257 + n` has a sequence, found within `n + 1` steps. -/
theorem lzwExpand_of_older {dict : List (Nat × Byte)} (hd : DictOk dict) {n code : Nat} (hn : n ≤ dict.length)
    (hc : code < 257 + n) (hr : code ≠ 256) : ∃ bs, lzwExpand dict (n + 1) code [] = some bs := by
  induction n using Nat.strongRecOn generalizing code with
  | ind n ih =>
    by_cases hlit : code < 256
    · exact ⟨_, lzwExpand_literal dict n hlit []⟩
    · obtain ⟨m, rfl⟩ : ∃ m, code = 257 + m := ⟨code - 257, by omega⟩
      have hm : m < dict.length := by omega
      obtain ⟨⟨pre, char⟩, hget⟩ : ∃ entry, dict[m]? = some entry := ⟨_, List.getElem?_eq_getElem hm⟩
      obtain ⟨hpre, hpr⟩ := hd.2 m pre char hget
      obtain ⟨bs, hbs⟩ := ih m (by omega) (by omega) hpre hpr
      refine ⟨bs ++ [char], ?_⟩
      rw [lzwExpand_entry hget, lzwExpand_stack, lzwExpand_fuel_le hbs (by omega)]
      rfl

theorem lzwStr_literal (dict : List (Nat × Byte)) {code : Nat} (h : code < 256) :
    lzwStr dict code = some [BitVec.ofNat 8 code] :=
  lzwExpand_literal dict dict.length h []

theorem lzwStr_of_used {dict : List (Nat × Byte)} (hd : DictOk dict) {code : Nat} (hc : code < lzwNext dict)
    (hr : code ≠ 256) : ∃ bs, lzwStr dict code = some bs :=
  lzwExpand_of_older hd le_rfl hc hr

/-- A sequence has a byte at least, and no more than the dictionary has entries and one. -/
theorem length_lzwStr {dict : List (Nat × Byte)} {code : Nat} {bs : List Byte} (h : lzwStr dict code = some bs) :
    0 < bs.length ∧ bs.length ≤ dict.length + 1 := by
  simpa using length_lzwExpand h

theorem lzwStr_entry {dict : List (Nat × Byte)} (hd : DictOk dict) {n pre : Nat} {char : Byte}
    (h : dict[n]? = some (pre, char)) :
    ∃ p, lzwStr dict pre = some p ∧ lzwStr dict (257 + n) = some (p ++ [char]) := by
  have hn : n < dict.length := (List.getElem?_eq_some_iff.1 h).1
  obtain ⟨hpre, hpr⟩ := hd.2 n pre char h
  obtain ⟨p, hp⟩ := lzwExpand_of_older hd hn.le hpre hpr
  refine ⟨p, lzwExpand_fuel_le hp (by omega), ?_⟩
  rw [lzwStr, lzwExpand_entry h, lzwExpand_stack, lzwExpand_fuel_le hp (by omega)]
  rfl

/-! ### What a code resolves to -/

theorem lzwNext_eq (dict : List (Nat × Byte)) : lzwNext dict = 257 + dict.length := rfl

theorem lzwNext_le {dict : List (Nat × Byte)} (hd : DictOk dict) : lzwNext dict ≤ 4096 := by
  have := hd.1
  rw [lzwNext_eq]
  omega

/-- The test for a literal or a used entry. -/
theorem lzwKnown_iff (dict : List (Nat × Byte)) (code : Nat) :
    (code < Config.lzwLiterals || (Config.lzwFirstSlot ≤ code && code < lzwNext dict)) = true ↔
      code < 256 ∨ 257 ≤ code ∧ code < lzwNext dict := by
  simp only [Bool.or_eq_true, Bool.and_eq_true, decide_eq_true_eq]
  exact Iff.rfl

theorem lzwResolve_known (dict : List (Nat × Byte)) (prev : Nat) {code : Nat}
    (h : code < 256 ∨ 257 ≤ code ∧ code < lzwNext dict) : lzwResolve dict prev code = lzwStr dict code := by
  rw [lzwResolve, if_pos ((lzwKnown_iff dict code).2 h)]

theorem lzwResolve_ahead {dict : List (Nat × Byte)} {prev : Nat} {p : List Byte} (hp : lzwStr dict prev = some p)
    (hn : lzwNext dict < 4096) : lzwResolve dict prev (lzwNext dict) = some (p ++ p.take 1) := by
  have hknown : ¬ (lzwNext dict < 256 ∨ 257 ≤ lzwNext dict ∧ lzwNext dict < lzwNext dict) := by
    rw [lzwNext_eq]
    omega
  rw [lzwResolve, if_neg ((lzwKnown_iff dict _).not.2 hknown), if_pos ⟨rfl, hn⟩, hp]
  cases p with
  | nil => exact absurd (length_lzwStr hp).1 (by simp)
  | cons b bs => rfl

theorem lzwResolve_none {dict : List (Nat × Byte)} (hd : DictOk dict) (prev : Nat) {code : Nat}
    (h : code = 256 ∨ lzwNext dict < code ∨ 4096 ≤ code) : lzwResolve dict prev code = none := by
  have hle := lzwNext_le hd
  have hnext := lzwNext_eq dict
  have hknown : ¬ (code < 256 ∨ 257 ≤ code ∧ code < lzwNext dict) := by omega
  have hahead : ¬ (code = lzwNext dict ∧ lzwNext dict < Config.lzwDictCap) := by simp only [Config.lzwDictCap]; omega
  rw [lzwResolve, if_neg ((lzwKnown_iff dict code).not.2 hknown), if_neg hahead]

/-! ### The element LZW.CODE after the first -/

/-- The unit after a code that stands for `entry` (43_lzw.md R210). -/
def lzwAfterCode (u : LzwUnit) (code : U16) (b : Byte) (entry : List Byte) : LzwUnit :=
  { u with dict := lzwInsert u.dict (u.prev, b), prev := code.toNat, stack := entry }

theorem lzwElement_of_resolved {u : LzwUnit} {code : U16} {b : Byte} {entry : List Byte} (size : Nat) (out : List Byte)
    (h : lzwResolve u.dict u.prev code.toNat = some entry) (hb : entry.head? = some b) :
    lzwElement size false u out code =
      if size < out.length + entry.length then .error .lzwWouldExceed
      else .ok (lzwAfterCode u code b entry, out ++ entry) := by
  cases entry with
  | nil => cases hb
  | cons c cs =>
    cases hb
    rw [lzwElement, if_neg (by simp), h]
    rfl

theorem lzwElement_of_unresolved {u : LzwUnit} {code : U16} (size : Nat) (out : List Byte)
    (h : lzwResolve u.dict u.prev code.toNat = none) :
    lzwElement size false u out code = .error .lzwNotResolvable := by
  rw [lzwElement, if_neg (by simp), h]

section

variable {s : State} {code : U16} {b : Byte} {entry : List Byte}

/-- A resolvable code within the declared size is one append (20_memory.md R65). -/
theorem lzwCodeOp_of_resolved (hi : s.ipos ≠ 0) (h : lzwResolve s.lzw.dict s.lzw.prev code.toNat = some entry)
    (hb : entry.head? = some b) (hsize : s.opos + entry.length ≤ s.lzw.obj.originalSize.toNat) :
    lzwCodeOp code s =
      append entry { s with lzw := lzwAfterCode s.lzw code b entry, ipos := s.ipos + 1 } := by
  have hfirst : (s.ipos == 0) = false := by simpa using hi
  rw [lzwCodeOp, hfirst, lzwElement_of_resolved _ _ h hb, length_outBytes, if_neg (by omega)]
  exact extend_outBytes (t := { s with lzw := lzwAfterCode s.lzw code b entry, ipos := s.ipos + 1 }) entry rfl

theorem lzwCodeOp_beyond_size (hi : s.ipos ≠ 0) (h : lzwResolve s.lzw.dict s.lzw.prev code.toNat = some entry)
    (hb : entry.head? = some b) (hsize : s.lzw.obj.originalSize.toNat < s.opos + entry.length) :
    lzwCodeOp code s = .error .lzwWouldExceed := by
  have hfirst : (s.ipos == 0) = false := by simpa using hi
  rw [lzwCodeOp, hfirst, lzwElement_of_resolved _ _ h hb, length_outBytes, if_pos hsize]

theorem lzwCodeOp_unresolved (hi : s.ipos ≠ 0) (h : lzwResolve s.lzw.dict s.lzw.prev code.toNat = none) :
    lzwCodeOp code s = .error .lzwNotResolvable := by
  have hfirst : (s.ipos == 0) = false := by simpa using hi
  rw [lzwCodeOp, hfirst, lzwElement_of_unresolved _ _ h]

/-- An operation that raises ends the command by its cause's kind. -/
theorem raises_of_error {i : Instr} {r : Except Cause State} {c : Cause} {k : ErrKind} (he : exec i s = settle s r)
    (hr : r = .error c) (hk : causeKind c = k) : Raises i s k := by
  rw [Raises, he, hr, settle_error]
  exact failsWith_raise s hk

/-- What the element does with a code that stands for `entry`, in the three cases that exclude each other. -/
theorem exec_lzwCode_of_resolved (hi : s.ipos ≠ 0)
    (h : lzwResolve s.lzw.dict s.lzw.prev code.toNat = some entry) (hb : entry.head? = some b) :
    (s.opos + entry.length ≤ s.lzw.obj.originalSize.toNat → s.opos + entry.length ≤ s.cfg.capOut →
      exec (.lzwCode code) s = .next { s with
        obuf := memWrite s.obuf s.opos entry, opos := s.opos + entry.length, ipos := s.ipos + 1,
        lzw := lzwAfterCode s.lzw code b entry }) ∧
    (s.lzw.obj.originalSize.toNat < s.opos + entry.length → Raises (.lzwCode code) s .corrupt) ∧
    (s.opos + entry.length ≤ s.lzw.obj.originalSize.toNat → s.cfg.capOut < s.opos + entry.length →
      Raises (.lzwCode code) s .outOfMemory) := by
  refine ⟨fun hsize hcap => ?_, fun hsize => ?_, fun hsize hcap => ?_⟩
  · change settle s (lzwCodeOp code s) = _
    rw [lzwCodeOp_of_resolved hi h hb hsize, append_of_fits (by exact hcap)]
    rfl
  · exact raises_of_error rfl (lzwCodeOp_beyond_size hi h hb hsize) rfl
  · exact raises_of_error rfl ((lzwCodeOp_of_resolved hi h hb hsize).trans (append_of_beyond hcap)) rfl

end

/-- The two ways a code past the first stands for a sequence (30_encoding.md R110): its own, or the slot ahead. -/
theorem lzwResolve_of_sequence {dict : List (Nat × Byte)} {prev code : Nat} {entry : List Byte}
    (h : (code < 256 ∨ 257 ≤ code ∧ code < lzwNext dict) ∧ lzwStr dict code = some entry ∨
      code = lzwNext dict ∧ code < 4096 ∧ ∃ p, lzwStr dict prev = some p ∧ entry = p ++ p.take 1) :
    lzwResolve dict prev code = some entry ∧ ∃ b, entry.head? = some b := by
  have head_of_pos : ∀ bs : List Byte, 0 < bs.length → ∃ b, bs.head? = some b := fun bs hpos =>
    ⟨_, List.head?_eq_some_head (List.ne_nil_of_length_pos hpos)⟩
  rcases h with ⟨hknown, hstr⟩ | ⟨rfl, hcap, p, hp, rfl⟩
  · exact ⟨(lzwResolve_known dict prev hknown).trans hstr, head_of_pos _ (length_lzwStr hstr).1⟩
  · have := (length_lzwStr hp).1
    exact ⟨lzwResolve_ahead hp hcap, head_of_pos _ (by simp; omega)⟩

/-- Settles O39: with a legal dictionary every code in use has a sequence, and the element appends what its code
resolves to. -/
theorem lzwCodeAppends : Obligations.LzwCodeAppends := by
  unfold Obligations.LzwCodeAppends
  intro s code hi hd hprev hres
  refine ⟨fun c hc => lzwStr_literal _ hc, fun n pre char h => lzwStr_entry hd h, ?_, fun entry hentry => ?_,
    fun hbad => raises_of_error rfl (lzwCodeOp_unresolved hi (lzwResolve_none hd _ hbad)) rfl⟩
  · obtain ⟨p, hp⟩ := lzwStr_of_used hd hprev hres
    exact ⟨p, hp, List.ne_nil_of_length_pos (length_lzwStr hp).1⟩
  · obtain ⟨hresolve, b, hb⟩ := lzwResolve_of_sequence hentry
    obtain ⟨happend, hcorrupt, hmemory⟩ := exec_lzwCode_of_resolved hi hresolve hb
    exact ⟨fun hsize hcap => ⟨_, b, happend hsize hcap, hb, rfl, writtenAt_memWrite _ _ _⟩, hcorrupt, hmemory⟩

end Sys2Proof.Machine

/-! PROOFS. The registers of the LZ77 unit within their widths (10_state.md R46, R47). The idea: a candidate is a
position the encoder has visited, a match is never longer than its limit, and no position is beyond the input. -/

namespace Sys2Proof.Machine

open Sys2Proof.Safety

/-! ### The match -/

theorem matchLength_le (input : List Byte) (limit cand pos : Nat) : matchLength input limit cand pos ≤ limit := by
  induction limit generalizing cand pos with
  | zero => exact le_rfl
  | succ limit ih =>
    unfold matchLength
    split
    · exact Nat.succ_le_succ (ih _ _)
    · exact Nat.zero_le _

/-- A slot that is listed after a write was listed before or is the one written. -/
theorem mem_slotSet {hash : List (Nat × Nat)} {slot pos : Nat} {x : Nat × Nat} (h : x ∈ slotSet hash slot pos) :
    x ∈ hash ∨ x = (slot, pos) := by
  simp only [slotSet, List.mem_append, List.mem_filter, List.mem_cons] at h
  tauto

theorem mem_of_lookup {α : Type} {l : List (Nat × α)} {key : Nat} {a : α} (h : l.lookup key = some a) :
    (key, a) ∈ l := by
  obtain ⟨before, after, rfl, -⟩ := List.lookup_eq_some_iff.1 h
  simp

/-! ### The encoder keeps the unit's registers within their widths -/

/-- The registers of the LZ77 unit fit their widths: Safety.Lz77Fits, said of the unit. -/
def Lz77UnitOk (u : Lz77Unit) : Prop :=
  (∀ x ∈ u.hash, x.1 < Config.lzHashSlots ∧ x.2 < 2 ^ 64) ∧
  u.cand < 2 ^ 64 ∧ u.limit ≤ 18 ∧ u.l ≤ 18 ∧ u.mlen ≤ 18 ∧ u.d ≤ 4096 ∧ u.i ≤ 255

theorem lz77Fits_iff (s : State) : Lz77Fits s ↔ Lz77UnitOk s.lz77 := Iff.rfl

/-- What a candidate can do to the unit: the match register is kept, or is at most the limit. -/
theorem lz77Try_cases (input : List Byte) (pos cand : Nat) (u : Lz77Unit) :
    let limit := min 18 (input.length - pos - 1)
    let tried := lz77Try input pos cand u
    tried.hash = u.hash ∧ tried.cand = cand ∧ tried.i = u.i ∧
    (tried.limit = u.limit ∧ tried.l = u.l ∨ tried.limit = limit ∧ tried.l ≤ limit) ∧
    (tried.mlen = u.mlen ∧ tried.d = u.d ∨ tried.mlen ≤ limit ∧ tried.d ≤ 4096) := by
  have hmatch := matchLength_le input (min 18 (input.length - pos - 1)) cand pos
  simp only [lz77Try]
  split
  next hwindow =>
    split
    · exact ⟨rfl, rfl, rfl, .inr ⟨rfl, hmatch⟩, .inr ⟨hmatch, hwindow⟩⟩
    · exact ⟨rfl, rfl, rfl, .inr ⟨rfl, hmatch⟩, .inl ⟨rfl, rfl⟩⟩
  next => exact ⟨rfl, rfl, rfl, .inl ⟨rfl, rfl⟩, .inl ⟨rfl, rfl⟩⟩

theorem lz77UnitOk_try {u : Lz77Unit} (hu : Lz77UnitOk u) (input : List Byte) (pos : Nat) {cand : Nat}
    (hc : cand < 2 ^ 64) : Lz77UnitOk (lz77Try input pos cand u) := by
  obtain ⟨hhash, -, hlimit, hl, hmlen, hd, hi⟩ := hu
  obtain ⟨ehash, ecand, ei, elimit, emlen⟩ := lz77Try_cases input pos cand u
  refine ⟨ehash ▸ hhash, ecand.symm ▸ hc, ?_, ?_, ?_, ?_, ei ▸ hi⟩ <;> omega

theorem lz77UnitOk_slotSet {u : Lz77Unit} (hu : Lz77UnitOk u) (h : U16) {pos : Nat} (hpos : pos < 2 ^ 64) :
    Lz77UnitOk { u with hash := slotSet u.hash h.toNat pos } := by
  obtain ⟨hhash, hrest⟩ := hu
  refine ⟨fun x hx => ?_, hrest⟩
  rcases mem_slotSet hx with hx | rfl
  · exact hhash x hx
  · exact ⟨h.isLt, hpos⟩

section

variable {input : List Byte} {pos : Nat} {u : Lz77Unit}

/-- The candidate of the slot, tried where there is one. -/
def lz77Tried (input : List Byte) (pos : Nat) (h : U16) (u : Lz77Unit) : Lz77Unit :=
  match u.hash.lookup h.toNat with
  | some cand => lz77Try input pos cand { u with h := h }
  | none => { u with h := h }

/-- A probe hashes three bytes, tries the slot's candidate and takes the slot; or, near the end, does nothing. -/
theorem lz77Probe_cases (p : Params) (input : List Byte) (pos : Nat) (u : Lz77Unit) :
    (∃ h : U16, pos < input.length ∧ lz77Probe p input pos u =
      { lz77Tried input pos h u with hash := slotSet (lz77Tried input pos h u).hash h.toNat pos }) ∨
    lz77Probe p input pos u = u := by
  unfold lz77Probe
  split
  next b0 b1 b2 h0 _ _ =>
    exact .inl ⟨lz77Hash p b0 b1 b2, (List.getElem?_eq_some_iff.1 h0).1, by unfold lz77Tried; rfl⟩
  next => exact .inr rfl

theorem lz77UnitOk_tried (hu : Lz77UnitOk u) (h : U16) : Lz77UnitOk (lz77Tried input pos h u) := by
  unfold lz77Tried
  split
  next cand hcand =>
    have hc : cand < 2 ^ 64 := (hu.1 _ (mem_of_lookup hcand)).2
    exact lz77UnitOk_try (u := { u with h := h }) hu input pos hc
  next => exact hu

theorem lz77UnitOk_probe (p : Params) (hu : Lz77UnitOk u) (hinput : input.length < 2 ^ 64) :
    Lz77UnitOk (lz77Probe p input pos u) := by
  rcases lz77Probe_cases p input pos u with ⟨h, hpos, e⟩ | e <;> rw [e]
  · exact lz77UnitOk_slotSet (lz77UnitOk_tried hu h) h (by omega)
  · exact hu

/-- A match leaves a byte of the input for the literal (44_lz77.md R236). -/
theorem lz77Probe_mlen (p : Params) (hu : u.mlen = 0) :
    (lz77Probe p input pos u).mlen ≤ input.length - pos - 1 := by
  rcases lz77Probe_cases p input pos u with ⟨h, -, e⟩ | e <;> rw [e]
  · show (lz77Tried input pos h u).mlen ≤ _
    unfold lz77Tried
    split
    next cand _ =>
      obtain ⟨-, -, -, -, hm⟩ := lz77Try_cases input pos cand { u with h := h }
      dsimp only at hm
      omega
    next =>
      show u.mlen ≤ _
      omega
  · omega

theorem lz77Emit_obj (input : List Byte) (offset length pos : Nat) (u : Lz77Unit) :
    ∃ obj, lz77Emit input offset length pos u = { u with obj := obj } := by
  unfold lz77Emit
  split <;> exact ⟨_, rfl⟩

theorem lz77UnitOk_emit (offset length : Nat) (hu : Lz77UnitOk u) :
    Lz77UnitOk (lz77Emit input offset length pos u) := by
  obtain ⟨obj, e⟩ := lz77Emit_obj input offset length pos u
  rw [e]
  exact hu

theorem lz77UnitOk_turn (p : Params) (hu : Lz77UnitOk u) (hinput : input.length < 2 ^ 64) :
    Lz77UnitOk (lz77Turn p input pos u).2 := by
  obtain ⟨hhash, hcand, hlimit, hl, -, -, hi⟩ := hu
  have hstart : Lz77UnitOk { u with mlen := 0, d := 0 } :=
    ⟨hhash, hcand, hlimit, hl, Nat.zero_le _, Nat.zero_le _, hi⟩
  have hprobe := lz77UnitOk_probe (pos := pos) p hstart hinput
  unfold lz77Turn
  dsimp only
  split <;> exact lz77UnitOk_emit _ _ hprobe

/-- A turn within the input ends within it or at its end. -/
theorem lz77Turn_pos_le (p : Params) (h : pos < input.length) : (lz77Turn p input pos u).1 ≤ input.length := by
  have hm := lz77Probe_mlen (u := { u with mlen := 0, d := 0 }) (input := input) (pos := pos) p rfl
  unfold lz77Turn
  dsimp only
  split
  · dsimp only
    omega
  · exact h

theorem lz77Scan_pos_le (p : Params) (fuel : Nat) (hpos : pos ≤ input.length) :
    (lz77Scan p input fuel pos u).1 ≤ input.length := by
  induction fuel generalizing pos u with
  | zero => exact hpos
  | succ fuel ih =>
    unfold lz77Scan
    split
    next hlt => exact ih (lz77Turn_pos_le p hlt)
    next => exact hpos

theorem lz77Compress_pos_le (p : Params) (u : Lz77Unit) (input : List Byte) :
    (lz77Compress p u input).1 ≤ input.length :=
  lz77Scan_pos_le p _ (Nat.zero_le _)

theorem lz77UnitOk_scan (p : Params) (hinput : input.length < 2 ^ 64) (fuel : Nat) (hu : Lz77UnitOk u) :
    Lz77UnitOk (lz77Scan p input fuel pos u).2 := by
  induction fuel generalizing pos u with
  | zero => exact hu
  | succ fuel ih =>
    unfold lz77Scan
    split
    · exact ih (lz77UnitOk_turn p hu hinput)
    · exact hu

theorem lz77UnitOk_compress (p : Params) (hinput : input.length < 2 ^ 64) (hu : Lz77UnitOk u) :
    Lz77UnitOk (lz77Compress p u input).2 :=
  lz77UnitOk_scan p hinput _ ⟨by simp, hu.2⟩

end

/-- The copy counter holds a byte (10_state.md R47). -/
theorem lz77UnitOk_count {u : Lz77Unit} (hu : Lz77UnitOk u) (token : Token) : Lz77UnitOk (lz77Count u token) := by
  obtain ⟨hhash, hcand, hlimit, hl, hmlen, hd, hi⟩ := hu
  have hlen := token.length.isLt
  unfold lz77Count
  split
  · exact ⟨hhash, hcand, hlimit, hl, hmlen, hd, by dsimp only; omega⟩
  · exact ⟨hhash, hcand, hlimit, hl, hmlen, hd, hi⟩

theorem lz77UnitOk_foldl_count {u : Lz77Unit} (hu : Lz77UnitOk u) (tokens : List Token) :
    Lz77UnitOk (tokens.foldl lz77Count u) := by
  induction tokens generalizing u with
  | nil => exact hu
  | cons token tokens ih => exact ih (lz77UnitOk_count hu token)

/-! ### Every operation, and every step -/

section

variable {k : Codec} {s t : State}

theorem lz77Fits_of_sameUnits (hs : Lz77UnitOk s.lz77) (h : SameUnits s t) : Lz77Fits t := by
  rw [lz77Fits_iff, h.lz77]
  exact hs

theorem lz77Fits_of_other (hs : Lz77Fits s) (h : Operated k s t) (hk : k ≠ .lz77) : Lz77Fits t := by
  rw [lz77Fits_iff, h.lz77 hk]
  exact hs

theorem lz77Fits_compress (hs : Lz77Fits s) (h : codecCompressOp k s = .ok t) : Lz77Fits t := by
  by_cases hk : k = .lz77
  · subst hk
    obtain rfl := lz77CompressOp_eq_ok h
    exact lz77UnitOk_compress s.cfg (by rw [length_inputBytes]; exact s.ilen.isLt) hs
  · exact lz77Fits_of_other hs (operated_compress h) hk

theorem lz77Fits_parse (hs : Lz77Fits s) (h : codecParseOp k s = .ok t) : Lz77Fits t := by
  by_cases hk : k = .lz77
  · subst hk
    obtain ⟨-, obj, -, rfl⟩ := desLz77Op_eq_ok h
    exact hs
  · exact lz77Fits_of_other hs (operated_parse h) hk

theorem lz77Fits_decompress (hs : Lz77Fits s) (h : codecDecompressOp k s = .ok t) : Lz77Fits t := by
  by_cases hk : k = .lz77
  · subst hk
    obtain ⟨out, happend⟩ := lz77DecompressOp_eq_ok h
    exact lz77Fits_of_sameUnits (lz77UnitOk_foldl_count hs _) (.of_append happend)
  · exact lz77Fits_of_other hs (operated_decompress h) hk

theorem lz77Fits_token {token : Token} (hs : Lz77Fits s) (h : lz77TokenOp token s = .ok t) : Lz77Fits t := by
  obtain ⟨new, happend⟩ := lz77TokenOp_eq_ok h
  exact lz77Fits_of_sameUnits (lz77UnitOk_count hs token) (.of_append happend)

end

/-- Settles O52: each operation of the LZ77 codec keeps its unit's registers within their widths, and no other operation
touches them. -/
theorem lz77RegistersFit : Obligations.Lz77RegistersFit := by
  unfold Obligations.Lz77RegistersFit
  intro s t
  exact step_keeps_of_units (fun hs h => lz77Fits_of_sameUnits hs h) lz77Fits_compress lz77Fits_parse
    lz77Fits_decompress (fun k hs => by cases k <;> exact hs) (fun hs => hs)
    (fun hs h => lz77Fits_of_other hs (operated_rlePair h) (by decide))
    (fun hs h => lz77Fits_of_other hs (operated_lzwCode h) (by decide)) lz77Fits_token
    (fun hs h => lz77Fits_of_other hs (operated_hufSym h) (by decide))

end Sys2Proof.Machine

/-! PROOFS. The two memories and the result (20_memory.md R60, R65, 10_state.md R29, 60_exceptions.md R330, R331). The
idea: a busy engine raises, or its move is operations of one codec on an output that is the invariant's or has just been
started, and operations keep an output whole. -/

namespace Sys2Proof.Machine

open Sys2Proof.Safety

variable {k : Codec} {s t u v : State}

theorem startDecoder_operated (s : State) (k : Codec) : Operated k s { startDecoder s k with stage := s.stage } := by
  cases k
  case lz77 => exact UpdatesUnit.operated (k := .lz77) rfl
  case huf => exact UpdatesUnit.operated (k := .huf) rfl
  case rle => exact UpdatesUnit.operated (k := .rle) rfl
  case lzw => exact UpdatesUnit.operated (k := .lzw) rfl

/-- The state an engine's move builds on: its own, past the first turn, or its own with the output started. -/
def BuildsOn (s v : State) : Prop := v = startOutput s ∨ v = s ∧ s.stage ≠ .accepted

theorem buildsOn_self (h : s.stage ≠ .accepted) : BuildsOn s s := .inr ⟨rfl, h⟩

theorem buildsOn_started (s : State) : BuildsOn s (startOutput s) := .inl rfl

/-- What a move of a busy engine does to everything but the units: it raises, or it is operations of one codec, after
which the command completes or goes on in some stage. -/
theorem EngineMove.operated (h : EngineMove s t) :
    (∃ c, t = raise c s ∨ t = raise c (startOutput s)) ∨
    ∃ k v u, BuildsOn s v ∧ Operated k v u ∧ (t = complete u ∨ ∃ stage, t = { u with stage := stage }) := by
  have hnot : ∀ {stage : Stage}, s.stage = stage → stage ≠ .accepted → BuildsOn s s := fun h hne =>
    buildsOn_self (h ▸ hne)
  have hself : Operated .rle s s := UpdatesUnit.operated (k := .rle) rfl
  cases h with
  | raises c => exact .inl ⟨c, .inl rfl⟩
  | raisesStarted c => exact .inl ⟨c, .inr rfl⟩
  | compresses _ _ _ compress serialize =>
    exact .inr ⟨_, _, _, buildsOn_started s, (operated_compress compress).trans (operated_serialize serialize),
      .inl rfl⟩
  | decompresses _ _ _ parse decompress =>
    exact .inr ⟨_, _, _, buildsOn_started s, (operated_parse parse).trans (operated_decompress decompress), .inl rfl⟩
  | codes _ _ _ compress => exact .inr ⟨_, _, _, buildsOn_started s, operated_compress compress, .inr ⟨_, rfl⟩⟩
  | parses _ _ _ parse => exact .inr ⟨_, _, _, buildsOn_started s, operated_parse parse, .inr ⟨_, rfl⟩⟩
  | serializes stage _ serialize =>
    exact .inr ⟨.rle, _, _, hnot stage (by decide), operated_serialize serialize, .inl rfl⟩
  | startsDecoder stage => exact .inr ⟨_, _, _, hnot stage (by decide), startDecoder_operated s _, .inr ⟨_, rfl⟩⟩
  | startsWalk stage =>
    exact .inr ⟨.huf, s, { s with bitpos := 0, huf := hufStartUnit s.huf }, hnot stage (by decide),
      UpdatesUnit.operated (k := .huf) rfl, .inr ⟨_, rfl⟩⟩
  | finishes stage => exact .inr ⟨_, _, _, hnot stage (by decide), hself, .inl rfl⟩
  | repeats stage output => exact .inr ⟨.huf, _, _, hnot stage (by decide), operated_append output, .inl rfl⟩
  | pair stage _ _ element =>
    exact .inr ⟨_, _, _, hnot stage (by decide), operated_rlePair element, .inr ⟨_, rfl⟩⟩
  | code stage _ _ element =>
    exact .inr ⟨_, _, _, hnot stage (by decide), operated_lzwCode element, .inr ⟨_, rfl⟩⟩
  | token stage _ _ element =>
    exact .inr ⟨_, _, _, hnot stage (by decide), operated_lz77Token element, .inr ⟨_, rfl⟩⟩
  | symbol stage _ _ _ _ element =>
    exact .inr ⟨_, _, _, hnot stage (by decide), operated_hufSym element, .inr ⟨_, rfl⟩⟩

/-! ### Canonical form and capacities -/

theorem buffersOk_started (hs : BuffersOk s) : BuffersOk (startOutput s) :=
  ⟨hs.1, hs.2.1, memoryOk_nil _⟩

theorem buffersOk_raise (c : Cause) (hs : BuffersOk s) : BuffersOk (raise c s) :=
  ⟨hs.1, hs.2.1, memoryOk_nil _⟩

theorem buffersOk_operated (hs : BuffersOk s) (h : Operated k s t) : BuffersOk t := by
  obtain ⟨hwf, hibuf, hobuf⟩ := hs
  rw [BuffersOk, h.cfg, h.ibuf]
  exact ⟨hwf, hibuf, h.memoryOk hobuf⟩

theorem buffersOk_engineMove (hs : BuffersOk s) (h : EngineMove s t) : BuffersOk t := by
  rcases h.operated with ⟨c, rfl | rfl⟩ | ⟨k, v, u, hv, hu, ht⟩
  · exact buffersOk_raise c hs
  · exact buffersOk_raise c (buffersOk_started hs)
  · have hvok : BuffersOk v := by
      rcases hv with rfl | ⟨rfl, -⟩
      · exact buffersOk_started hs
      · exact hs
    have huok := buffersOk_operated hvok hu
    rcases ht with rfl | ⟨stage, rfl⟩ <;> exact huok

theorem buffersOk_hostMove (hs : BuffersOk s) (h : HostMove s t) : BuffersOk t := by
  have ⟨hwf, hibuf, hobuf⟩ := hs
  cases h with
  | observes => exact hs
  | starts => exact hs
  | writesRegister => exact hs
  | writesIbuf rest a bs fits => exact ⟨hwf, memoryOk_memWrite _ _ _ _ hibuf fits, hobuf⟩
  | resets => exact ⟨hwf, memoryOk_nil _, memoryOk_nil _⟩

/-- Settles O48: the host writes IBUF within CAP_IN, and the engine grows OBUF by appends within CAP_OUT. -/
theorem buffersStayOk : Obligations.BuffersStayOk := by
  unfold Obligations.BuffersStayOk
  intro s t
  exact step_keeps (fun _ _ h => h) (fun _ _ => buffersOk_hostMove) fun _ _ h _ => buffersOk_engineMove h

/-! ### The result -/

/-- The output built so far is whole up to its cursor, and fits. -/
def OutputWhole (s : State) : Prop := ListsExactly s.obuf s.opos ∧ s.opos ≤ s.cfg.capOut

theorem outputWhole_operated (hs : OutputWhole s) (h : Operated k s t) : OutputWhole t := by
  obtain ⟨hlists, hcap⟩ := hs
  have hopos := h.opos
  exact ⟨h.listsExactly hlists, by rw [h.cfg]; omega⟩

theorem resultOk_raise (c : Cause) (hwf : s.cfg.wf) : ResultOk (raise c s) :=
  ⟨hwf, fun _ => listsExactly_nil, fun _ => rfl, fun hb => absurd hb (by simp)⟩

/-- A whole output is the result of a completed command: its length does not wrap in OLEN (20_memory.md R80). -/
theorem resultOk_complete (hwf : s.cfg.wf) (hs : OutputWhole s) : ResultOk (complete s) := by
  obtain ⟨hlists, hcap⟩ := hs
  have hlen : (BitVec.ofNat 64 s.opos).toNat = s.opos := by
    have := hwf.2.2.2
    rw [BitVec.toNat_ofNat, Nat.mod_eq_of_lt (by omega)]
  refine ⟨hwf, fun _ => ?_, fun h => absurd rfl h, fun hb => absurd hb (by simp)⟩
  rw [complete_obuf, complete_olen, hlen]
  exact hlists

theorem resultOk_engineMove (hs : ResultOk s) (hb : s.busy = 1) (h : EngineMove s t) : ResultOk t := by
  obtain ⟨hwf, -, hstatus, hbuilding⟩ := hs
  rcases h.operated with ⟨c, rfl | rfl⟩ | ⟨k, v, u, hv, hu, ht⟩
  · exact resultOk_raise c hwf
  · exact resultOk_raise c (s := startOutput s) hwf
  · have hvwhole : OutputWhole v ∧ v.cfg.wf ∧ v.busy = 1 ∧ (v.status ≠ 0 → v.olen = 0) := by
      rcases hv with rfl | ⟨rfl, hstage⟩
      · exact ⟨⟨listsExactly_nil, Nat.zero_le _⟩, hwf, hb, hstatus⟩
      · exact ⟨hbuilding hb hstage, hwf, hb, hstatus⟩
    obtain ⟨hwhole, hvwf, hvb, hvstatus⟩ := hvwhole
    have huwhole := outputWhole_operated hwhole hu
    have huwf : u.cfg.wf := hu.cfg ▸ hvwf
    rcases ht with rfl | ⟨stage, rfl⟩
    · exact resultOk_complete huwf huwhole
    · have hub : u.busy = 1 := hu.busy.trans hvb
      refine ⟨huwf, fun h0 => absurd (hub.symm.trans h0) (by decide), fun h1 => ?_, fun _ _ => huwhole⟩
      exact hu.olen.trans (hvstatus (hu.status ▸ h1))

theorem resultOk_hostMove (hs : ResultOk s) (h : HostMove s t) : ResultOk t := by
  have ⟨hwf, hidle, hstatus, hbuilding⟩ := hs
  cases h with
  | observes => exact hs
  | starts => exact ⟨hwf, fun h0 => absurd h0 (by simp), hstatus, fun _ h => absurd rfl h⟩
  | writesRegister => exact hs
  | writesIbuf => exact hs
  | resets => exact ⟨hwf, fun _ => listsExactly_nil, fun h => absurd rfl h, fun hb => absurd hb (by simp)⟩

theorem resultOk_step (hs : ResultOk s) (h : step s = .next t) : ResultOk t :=
  step_keeps (fun _ _ h => h) (fun _ _ => resultOk_hostMove) (fun _ _ h hb => resultOk_engineMove h hb) hs h

end Sys2Proof.Machine

/-! PROOFS. The cursors within their bounds (10_state.md R31, 20_memory.md R80). The idea: a cursor of a whole operation
ends within the input or the object made of it, and an element is fetched only where it lies inside the image. -/

namespace Sys2Proof.Machine

open Sys2Proof.Safety

variable {k : Codec} {s t u v : State}

/-! ### How far an operation moves a cursor -/

theorem hufBit_bitpos {nodes : List (Nat × HufNode)} {root size : Nat} {d d' : Unpacker} {bit : Bool}
    (h : hufBit nodes root size d bit = .ok d') :
    size ≤ d.out.length ∧ d' = d ∨ d.out.length < size ∧ d'.bitpos = d.bitpos + 1 := by
  unfold hufBit at h
  split at h
  next howed => cases h; exact .inl ⟨howed, rfl⟩
  next howed =>
    split at h
    · cases h
    · split at h <;> cases h <;> exact .inr ⟨by omega, rfl⟩

/-- A walk reads no more bits than it is given. -/
theorem hufBits_bitpos_le {nodes : List (Nat × HufNode)} {root size : Nat} {bits : List Bool} {d d' : Unpacker}
    (h : hufBits nodes root size bits d = .ok d') : d.bitpos ≤ d'.bitpos ∧ d'.bitpos ≤ d.bitpos + bits.length := by
  induction bits generalizing d with
  | nil => cases h; simp
  | cons bit bits ih =>
    unfold hufBits at h
    split at h
    next d₁ hbit =>
      have hrest := ih h
      rw [List.length_cons]
      rcases hufBit_bitpos hbit with ⟨-, rfl⟩ | ⟨-, hpos⟩ <;> omega
    next => cases h

theorem hufDecompress_bitpos_le {u u' : HufUnit} {bitpos : Nat} {out : List Byte}
    (h : hufDecompress u = .ok (u', bitpos, out)) : bitpos ≤ 8 * u.obj.packedBits.length := by
  unfold hufDecompress at h
  dsimp only at h
  split at h
  · split at h <;> cases h
    exact Nat.zero_le _
  · split at h
    · cases h
      exact Nat.zero_le _
    · split at h
      next d hrun =>
        split at h <;> cases h
        have := (hufBits_bitpos_le hrun).2
        rw [length_unpackBits] at this
        dsimp only at this
        omega
      next => cases h

/-- The elements of the object of a codec's unit, or its packed bytes. -/
def objectLength (s : State) : Codec → Nat
  | .lz77 => s.lz77.obj.tokens.length
  | .huf => s.huf.obj.packedBits.length
  | .rle => s.rle.obj.runs.length
  | .lzw => s.lzw.obj.codes.length

theorem length_parsePairs_le (bs : List Byte) : (parsePairs bs).length ≤ bs.length := by
  induction bs using parsePairs.induct with
  | case1 count value rest ih => simp only [parsePairs, List.length_cons]; omega
  | case2 b => simp [parsePairs]
  | case3 => simp [parsePairs]

theorem length_parseCodes_le (bs : List Byte) : (parseCodes bs).length ≤ bs.length := by
  induction bs using parseCodes.induct with
  | case1 low high rest ih => simp only [parseCodes, List.length_cons]; omega
  | case2 b => simp [parseCodes]
  | case3 => simp [parseCodes]

theorem length_parseTokens_le (bs : List Byte) : (parseTokens bs).length ≤ bs.length := by
  induction bs using parseTokens.induct with
  | case1 o1 o0 length nextChar rest ih => simp only [parseTokens, List.length_cons]; omega
  | case2 => simp [parseTokens]
  | case3 => simp [parseTokens]
  | case4 => simp [parseTokens]
  | case5 => simp [parseTokens]

/-- The image has the header of its codec; the Huffman decoder's cursor counts bits after it. -/
def HeaderInside (s : State) : Codec → Prop
  | .lz77 => 8 ≤ s.ilen.toNat
  | .huf => True
  | .rle | .lzw => 16 ≤ s.ilen.toNat

/-- The cursor of a decoder is within its stream. -/
def StreamInside (s : State) : Codec → Prop
  | .lz77 => 8 + 4 * s.ipos ≤ s.ilen.toNat
  | .huf => s.bitpos ≤ 8 * (s.ilen.toNat - 1040)
  | .rle | .lzw => 16 + 2 * s.ipos ≤ s.ilen.toNat

theorem cursors_append {bs : List Byte} (h : append bs s = .ok t) : t.ipos = s.ipos ∧ t.bitpos = s.bitpos := by
  obtain ⟨-, rfl⟩ := append_eq_ok.1 h
  exact ⟨rfl, rfl⟩

theorem cursors_compress (h : codecCompressOp k s = .ok t) : t.ipos ≤ s.ilen.toNat ∧ t.bitpos = s.bitpos := by
  cases k
  case lz77 =>
    obtain rfl := lz77CompressOp_eq_ok h
    exact ⟨by simpa using lz77Compress_pos_le s.cfg s.lz77 (inputBytes s), rfl⟩
  case huf => obtain rfl := hufCompressOp_eq_ok h; exact ⟨le_rfl, rfl⟩
  case rle => obtain rfl := rleCompressOp_eq_ok h; exact ⟨le_rfl, rfl⟩
  case lzw => obtain rfl := lzwCompressOp_eq_ok h; exact ⟨le_rfl, rfl⟩

theorem desRle_eq_ok {input : List Byte} {obj : RleObj} (h : desRle input = .ok obj) :
    16 ≤ input.length ∧ obj.runs.length ≤ input.length := by
  have hlen := length_parsePairs_le (input.drop Config.rleHeader)
  have hheader : Config.rleHeader = 16 := rfl
  rw [List.length_drop] at hlen
  unfold desRle at h
  repeat' split at h
  all_goals cases h
  exact ⟨by omega, by dsimp only; omega⟩

theorem desHuf_eq_ok {input : List Byte} {obj : HufObj} (h : desHuf input = .ok obj) :
    1040 ≤ input.length ∧ obj.packedBits.length ≤ input.length ∧ obj.freqTable = parseFreq input := by
  have hheader : Config.hufHeader = 1040 := rfl
  unfold desHuf at h
  repeat' split at h
  all_goals cases h
  exact ⟨by omega, by simp, rfl⟩

theorem desLzw_eq_ok {input : List Byte} {obj : LzwObj} (h : desLzw input = .ok obj) :
    16 ≤ input.length ∧ obj.codes.length ≤ input.length := by
  have hlen := length_parseCodes_le (input.drop Config.lzwHeader)
  have hheader : Config.lzwHeader = 16 := rfl
  rw [List.length_drop] at hlen
  unfold desLzw at h
  repeat' split at h
  all_goals cases h
  exact ⟨by omega, by dsimp only; omega⟩

theorem desLz77_eq_ok {input : List Byte} {obj : Lz77Obj} (h : desLz77 input = .ok obj) :
    8 ≤ input.length ∧ obj.tokens.length ≤ input.length := by
  have hlen := length_parseTokens_le (input.drop Config.lz77Header)
  have hheader : Config.lz77Header = 8 := rfl
  rw [List.length_drop] at hlen
  unfold desLz77 at h
  repeat' split at h
  all_goals cases h
  exact ⟨by omega, by dsimp only; omega⟩

/-- A deserializer moves no cursor; the image has its header, and the object no more elements than the image bytes. -/
theorem cursors_parse (h : codecParseOp k s = .ok t) :
    t.ipos = s.ipos ∧ t.bitpos = s.bitpos ∧ HeaderInside t k ∧ objectLength t k ≤ s.ilen.toNat := by
  cases k
  case lz77 =>
    obtain ⟨-, obj, hobj, rfl⟩ := desLz77Op_eq_ok h
    obtain ⟨hheader, hlen⟩ := desLz77_eq_ok hobj
    rw [length_inputBytes] at hheader hlen
    exact ⟨rfl, rfl, hheader, hlen⟩
  case huf =>
    obtain ⟨-, obj, hobj, rfl⟩ := desHufOp_eq_ok h
    obtain ⟨-, hlen, -⟩ := desHuf_eq_ok hobj
    rw [length_inputBytes] at hlen
    exact ⟨rfl, rfl, trivial, hlen⟩
  case rle =>
    obtain ⟨-, obj, hobj, rfl⟩ := desRleOp_eq_ok h
    obtain ⟨hheader, hlen⟩ := desRle_eq_ok hobj
    rw [length_inputBytes] at hheader hlen
    exact ⟨rfl, rfl, hheader, hlen⟩
  case lzw =>
    obtain ⟨-, obj, hobj, rfl⟩ := desLzwOp_eq_ok h
    obtain ⟨hheader, hlen⟩ := desLzw_eq_ok hobj
    rw [length_inputBytes] at hheader hlen
    exact ⟨rfl, rfl, hheader, hlen⟩

/-- A decoder leaves its cursor at the end of the object, in elements or in bits. -/
theorem cursors_decompress (h : codecDecompressOp k s = .ok t) :
    t.ipos ≤ max s.ipos (objectLength s k) ∧ t.bitpos ≤ max s.bitpos (8 * objectLength s k) := by
  cases k
  case lz77 =>
    obtain ⟨out, happend⟩ := lz77DecompressOp_eq_ok h
    obtain ⟨hi, hb⟩ := cursors_append happend
    exact ⟨hi.le.trans (le_max_right _ _), hb.le.trans (le_max_left _ _)⟩
  case huf =>
    obtain ⟨u, bitpos, out, hrun, happend⟩ := hufDecompressOp_eq_ok h
    obtain ⟨hi, hb⟩ := cursors_append happend
    exact ⟨hi.le.trans (le_max_left _ _), hb.le.trans ((hufDecompress_bitpos_le hrun).trans (le_max_right _ _))⟩
  case rle =>
    obtain ⟨out, happend⟩ := rleDecompressOp_eq_ok h
    obtain ⟨hi, hb⟩ := cursors_append happend
    exact ⟨hi.le.trans (le_max_right _ _), hb.le.trans (le_max_left _ _)⟩
  case lzw =>
    obtain ⟨u, out, -, happend⟩ := lzwDecompressOp_eq_ok h
    obtain ⟨hi, hb⟩ := cursors_append happend
    exact ⟨hi.le.trans (le_max_right _ _), hb.le.trans (le_max_left _ _)⟩

theorem cursors_rlePair {count value : Byte} (h : rlePairOp count value s = .ok t) :
    t.ipos = s.ipos + 1 ∧ t.bitpos = s.bitpos :=
  let ⟨_, happend⟩ := rlePairOp_eq_ok h
  cursors_append happend

theorem cursors_lzwCode {code : U16} (h : lzwCodeOp code s = .ok t) : t.ipos = s.ipos + 1 ∧ t.bitpos = s.bitpos :=
  let ⟨_, _, _, _, happend⟩ := lzwCodeOp_eq_ok h
  cursors_append happend

theorem cursors_lz77Token {token : Token} (h : lz77TokenOp token s = .ok t) :
    t.ipos = s.ipos + 1 ∧ t.bitpos = s.bitpos :=
  let ⟨_, happend⟩ := lz77TokenOp_eq_ok h
  cursors_append happend

theorem cursors_hufSym {path : List Bool} (h : hufSymOp path s = .ok t) :
    t.ipos = s.ipos ∧ t.bitpos ≤ s.bitpos + path.length := by
  obtain ⟨root, d, new, -, hrun, happend⟩ := hufSymOp_eq_ok h
  obtain ⟨hi, hb⟩ := cursors_append happend
  exact ⟨hi, hb.le.trans (hufBits_bitpos_le hrun).2⟩

/-! ### The invariant, codec by codec -/

theorem codecOf_eq_some_iff {alg : Byte} {k : Codec} : codecOf alg = some k ↔ alg = selector k := by
  constructor
  · intro h
    unfold codecOf at h
    repeat' split at h
    all_goals cases h
    all_goals assumption
  · rintro rfl
    cases k <;> rfl

/-- The three cursors fit 2^63 (20_memory.md R80). -/
def CursorsBounded (s : State) : Prop := s.ipos ≤ 2 ^ 63 ∧ s.opos ≤ 2 ^ 63 ∧ s.bitpos ≤ 2 ^ 63

/-- CursorsFit, with the codec of the running command named once. -/
theorem cursorsFit_iff : CursorsFit s ↔ s.cfg.wf ∧ CursorsBounded s ∧
    (s.busy = 1 → s.stage ≠ .accepted → s.ilen.toNat ≤ s.cfg.capIn) ∧
    (s.busy = 1 → s.stage = .parsed → ∀ k, codecOf s.alg = some k → HeaderInside s k) ∧
    (s.busy = 1 → s.stage = .decoding → ∀ k, codecOf s.alg = some k → StreamInside s k) := by
  simp only [codecOf_eq_some_iff]
  constructor
  · rintro ⟨hwf, hi, ho, hb, hin, hparsed, hdecoding⟩
    refine ⟨hwf, ⟨hi, ho, hb⟩, hin, fun hbusy hst k hk => ?_, fun hbusy hst k hk => ?_⟩
    · obtain ⟨hlz77, hrle, hlzw⟩ := hparsed hbusy hst
      cases k
      exacts [hlz77 hk, trivial, hrle hk, hlzw hk]
    · obtain ⟨hlz77, hhuf, hrle, hlzw⟩ := hdecoding hbusy hst
      cases k
      exacts [hlz77 hk, hhuf hk, hrle hk, hlzw hk]
  · rintro ⟨hwf, ⟨hi, ho, hb⟩, hin, hparsed, hdecoding⟩
    exact ⟨hwf, hi, ho, hb, hin,
      fun hbusy hst => ⟨hparsed hbusy hst .lz77, hparsed hbusy hst .rle, hparsed hbusy hst .lzw⟩,
      fun hbusy hst => ⟨hdecoding hbusy hst .lz77, hdecoding hbusy hst .huf, hdecoding hbusy hst .rle,
        hdecoding hbusy hst .lzw⟩⟩

theorem cursorsFit_idle (hwf : s.cfg.wf) (hc : CursorsBounded s) (hb : s.busy = 0) : CursorsFit s := by
  have hnot : ¬ s.busy = 1 := by simp [hb]
  exact cursorsFit_iff.2 ⟨hwf, hc, fun h => absurd h hnot, fun h => absurd h hnot, fun h => absurd h hnot⟩

theorem Operated.opos_le (h : Operated k s t) (hwf : s.cfg.wf) (ho : s.opos ≤ 2 ^ 63) : t.opos ≤ 2 ^ 63 := by
  have := h.opos
  have := hwf.2.2.2
  omega

/-- A cursor within an input that exists, in bytes or in bits, fits. -/
theorem cursorsBounded_of_inside (hwf : s.cfg.wf) (hin : s.ilen.toNat ≤ s.cfg.capIn) (ho : t.opos ≤ 2 ^ 63)
    (hi : t.ipos ≤ max (2 ^ 63) s.ilen.toNat) (hb : t.bitpos ≤ max (2 ^ 63) (8 * s.ilen.toNat)) :
    CursorsBounded t := by
  have := hwf.2.1
  exact ⟨by omega, ho, by omega⟩

/-! ### Every move keeps the cursors within their bounds -/

theorem cursorsBounded_append {bs : List Byte} (hwf : s.cfg.wf) (hc : CursorsBounded s) (h : append bs s = .ok t) :
    CursorsBounded t := by
  obtain ⟨hi, ho, hb⟩ := hc
  obtain ⟨hipos, hbit⟩ := cursors_append h
  exact ⟨hipos.le.trans hi, (operated_append (k := .rle) h).opos_le hwf ho, hbit.le.trans hb⟩

theorem cursorsBounded_serialize (hwf : s.cfg.wf) (hc : CursorsBounded s) (h : codecSerializeOp k s = .ok t) :
    CursorsBounded t :=
  let ⟨_, happend⟩ := codecSerializeOp_eq_ok h
  cursorsBounded_append hwf hc happend

theorem cursorsBounded_parse (hwf : s.cfg.wf) (hc : CursorsBounded s) (h : codecParseOp k (startOutput s) = .ok u) :
    CursorsBounded u := by
  obtain ⟨hi, -, hb⟩ := hc
  obtain ⟨hipos, hbit, -, -⟩ := cursors_parse h
  exact ⟨hipos.le.trans hi, (operated_parse h).opos_le hwf (Nat.zero_le _), hbit.le.trans hb⟩

section

variable (hwf : s.cfg.wf) (hc : CursorsBounded s) (hin : s.ilen.toNat ≤ s.cfg.capIn)

include hwf hc hin

theorem cursorsBounded_compress (h : codecCompressOp k (startOutput s) = .ok u) : CursorsBounded u := by
  obtain ⟨-, -, hb⟩ := hc
  obtain ⟨hi, hbit⟩ := cursors_compress h
  exact cursorsBounded_of_inside hwf hin ((operated_compress h).opos_le hwf (Nat.zero_le _))
    (hi.trans (le_max_right _ _)) (hbit.le.trans (hb.trans (le_max_left _ _)))

theorem cursorsBounded_decompress (hp : codecParseOp k (startOutput s) = .ok v)
    (h : codecDecompressOp k v = .ok u) : CursorsBounded u := by
  obtain ⟨hi, -, hb⟩ := hc
  obtain ⟨hipos, hbit, -, hlen⟩ := cursors_parse hp
  obtain ⟨hi', hb'⟩ := cursors_decompress h
  simp only [startOutput_ipos, startOutput_bitpos, startOutput_ilen] at hipos hbit hlen
  exact cursorsBounded_of_inside hwf hin
    (((operated_parse hp).trans (operated_decompress h)).opos_le hwf (Nat.zero_le _)) (by omega) (by omega)

omit hc in
/-- A command that goes on in a stage has the cursors that stage asks for. -/
theorem cursorsFit_at_stage {stage : Stage} (hk : codecOf s.alg = some k) (h : Operated k s u) (hcu : CursorsBounded u)
    (hparsed : stage = .parsed → HeaderInside u k) (hdecoding : stage = .decoding → StreamInside u k) :
    CursorsFit { u with stage := stage } := by
  have halg : codecOf u.alg = some k := h.alg ▸ hk
  have hcap : u.ilen.toNat ≤ u.cfg.capIn := by rw [h.ilen, h.cfg]; exact hin
  refine cursorsFit_iff.2 ⟨h.cfg.symm ▸ hwf, hcu, fun _ _ => hcap, fun _ hst k' hk' => ?_, fun _ hst k' hk' => ?_⟩
  · obtain rfl : k = k' := Option.some.inj (halg.symm.trans hk')
    exact hparsed hst
  · obtain rfl : k = k' := Option.some.inj (halg.symm.trans hk')
    exact hdecoding hst

omit hc in
/-- An element leaves the decoder in its stage, so the cursor has to be within the stream again. -/
theorem cursorsFit_element (hst : s.stage = .decoding) (hk : codecOf s.alg = some k) (h : Operated k s t)
    (ho : s.opos ≤ 2 ^ 63) (hi : t.ipos ≤ max (2 ^ 63) s.ilen.toNat)
    (hb : t.bitpos ≤ max (2 ^ 63) (8 * s.ilen.toNat)) (hstream : StreamInside t k) : CursorsFit t := by
  have hstage : t.stage = .decoding := h.stage.trans hst
  exact cursorsFit_at_stage (stage := t.stage) hwf hin hk h
    (cursorsBounded_of_inside hwf hin (h.opos_le hwf ho) hi hb) (fun e => by rw [hstage] at e; cases e)
    (fun _ => hstream)

end

/-- A decoder starts at the front of its stream. -/
theorem streamInside_startDecoder (h : HeaderInside s k) : StreamInside (startDecoder s k) k := by
  cases k
  case huf => exact Nat.zero_le _
  all_goals exact h

theorem cursorsBounded_startDecoder (hc : CursorsBounded s) (k : Codec) : CursorsBounded (startDecoder s k) := by
  obtain ⟨hi, ho, hb⟩ := hc
  cases k
  case huf => exact ⟨hi, ho, Nat.zero_le _⟩
  all_goals exact ⟨Nat.zero_le _, ho, hb⟩

theorem startDecoder_of_bytes (s : State) (h : k ≠ .huf) :
    startDecoder s k = { startDecoder s k with stage := .decoding } := by
  cases k
  case huf => exact absurd rfl h
  all_goals rfl

theorem cursorsFit_engineMove (hs : CursorsFit s) (hbusy : s.busy = 1) (h : EngineMove s t) : CursorsFit t := by
  obtain ⟨hwf, hc, hinput, hheader, -⟩ := cursorsFit_iff.1 hs
  have ⟨hi, ho, hb⟩ := hc
  have hin {stage : Stage} (hst : s.stage = stage) (hne : stage ≠ .accepted) : s.ilen.toNat ≤ s.cfg.capIn :=
    hinput hbusy (hst ▸ hne)
  cases h with
  | raises c => exact cursorsFit_idle hwf hc rfl
  | raisesStarted c => exact cursorsFit_idle hwf ⟨hi, Nat.zero_le _, hb⟩ rfl
  | @compresses k v u _ _ hin compress serialize =>
    have hcfg : v.cfg = s.cfg := (operated_compress compress).cfg
    have hu : CursorsBounded u := cursorsBounded_serialize (hcfg.symm ▸ hwf)
      (cursorsBounded_compress hwf hc hin compress) serialize
    exact cursorsFit_idle (((operated_serialize (k' := k) serialize).cfg.trans hcfg).symm ▸ hwf) hu rfl
  | @decompresses k v u _ _ hin parse decompress =>
    have hu : CursorsBounded u := cursorsBounded_decompress hwf hc hin parse decompress
    exact cursorsFit_idle (((operated_parse parse).trans (operated_decompress decompress)).cfg.symm ▸ hwf) hu rfl
  | @codes k u _ codec hin compress =>
    exact cursorsFit_at_stage (u := u) hwf hin codec ((operated_startOutput k s).trans (operated_compress compress))
      (cursorsBounded_compress hwf hc hin compress) nofun nofun
  | @parses k u _ codec hin parse =>
    obtain ⟨-, -, hheader, -⟩ := cursors_parse parse
    exact cursorsFit_at_stage (u := u) hwf hin codec ((operated_startOutput k s).trans (operated_parse parse))
      (cursorsBounded_parse hwf hc parse) (fun _ => hheader) nofun
  | @serializes k u _ _ serialize =>
    have hu : CursorsBounded u := cursorsBounded_serialize hwf hc serialize
    exact cursorsFit_idle ((operated_serialize (k' := k) serialize).cfg.symm ▸ hwf) hu rfl
  | @startsDecoder k stage codec bytes =>
    rw [startDecoder_of_bytes s bytes]
    exact cursorsFit_at_stage (u := { startDecoder s k with stage := s.stage }) hwf (hin stage (by decide)) codec
      (startDecoder_operated s k) (cursorsBounded_startDecoder hc k) nofun
      (fun _ => streamInside_startDecoder (hheader hbusy stage k codec))
  | startsWalk stage codec =>
    exact cursorsFit_at_stage (k := .huf) (u := { s with bitpos := 0, huf := hufStartUnit s.huf }) hwf
      (hin stage (by decide)) codec (UpdatesUnit.operated (k := .huf) rfl) ⟨hi, ho, Nat.zero_le _⟩ nofun
      (fun _ => Nat.zero_le _)
  | finishes => exact cursorsFit_idle hwf hc rfl
  | @repeats bs u _ output =>
    have hu : CursorsBounded u := cursorsBounded_append hwf hc output
    exact cursorsFit_idle ((operated_append (k := .huf) output).cfg.symm ▸ hwf) hu rfl
  | pair stage codec inside element =>
    obtain ⟨hipos, hbit⟩ := cursors_rlePair element
    have hop := operated_rlePair element
    refine cursorsFit_element hwf (hin stage (by decide)) stage codec hop ho (by omega) (by omega) ?_
    rw [StreamInside, hop.ilen, hipos]
    omega
  | code stage codec inside element =>
    obtain ⟨hipos, hbit⟩ := cursors_lzwCode element
    have hop := operated_lzwCode element
    refine cursorsFit_element hwf (hin stage (by decide)) stage codec hop ho (by omega) (by omega) ?_
    rw [StreamInside, hop.ilen, hipos]
    omega
  | token stage codec inside element =>
    obtain ⟨hipos, hbit⟩ := cursors_lz77Token element
    have hop := operated_lz77Token element
    refine cursorsFit_element hwf (hin stage (by decide)) stage codec hop ho (by omega) (by omega) ?_
    rw [StreamInside, hop.ilen, hipos]
    omega
  | symbol stage codec _ _ inside element =>
    obtain ⟨hipos, hbit⟩ := cursors_hufSym element
    have hop := operated_hufSym element
    refine cursorsFit_element hwf (hin stage (by decide)) stage codec hop ho (by omega) (by omega) ?_
    rw [StreamInside, hop.ilen]
    omega

theorem cursorsFit_hostMove (hs : CursorsFit s) (h : HostMove s t) : CursorsFit t := by
  obtain ⟨hwf, hc, -⟩ := cursorsFit_iff.1 hs
  cases h with
  | observes => exact hs
  | starts =>
    refine cursorsFit_iff.2 ⟨hwf, hc, fun _ h => absurd rfl h, ?_, ?_⟩ <;> exact fun _ h => nomatch h
  | writesRegister idle => exact cursorsFit_idle hwf hc idle
  | writesIbuf => exact hs
  | resets => exact cursorsFit_idle hwf hc rfl

theorem cursorsFit_step (hs : CursorsFit s) (h : step s = .next t) : CursorsFit t :=
  step_keeps (fun _ _ h => h) (fun _ _ => cursorsFit_hostMove) (fun _ _ h hb => cursorsFit_engineMove h hb) hs h

/-- Settles O49: an output is started empty and grows by appends up to its cursor, a completion makes its length OLEN
and an error empties it; and a cursor moves only inside the input. -/
theorem resultStaysReadable : Obligations.ResultStaysReadable := by
  unfold Obligations.ResultStaysReadable
  exact ⟨fun _ _ => resultOk_step, fun _ _ => cursorsFit_step⟩

end Sys2Proof.Machine

/-! PROOFS. The registers of the Huffman unit within their widths (10_state.md R40 to R43, 20_memory.md R85). The idea:
a merge moves the weights of two waiting nodes into one, so the weights that wait never sum to more than 256 frequencies
do, and 255 merges after 256 leaves give no more than 511 nodes. -/

namespace Sys2Proof.Machine

open Sys2Proof.Safety

/-! ### The node array -/

/-- A node's id, weight and kids fit their widths. -/
def NodeOk (x : Nat × HufNode) : Prop :=
  x.1 < 511 ∧ x.2.weight < 2 ^ 40 ∧ ∀ l r, x.2.kids = some (l, r) → l < 511 ∧ r < 511

/-- The sum of the weights that wait to be merged. -/
def queueWeight (nodes : List (Nat × HufNode)) : Nat :=
  (nodes.map fun x => if x.2.inQueue then x.2.weight else 0).sum

theorem queueWeight_cons (x : Nat × HufNode) (nodes : List (Nat × HufNode)) :
    queueWeight (x :: nodes) = (if x.2.inQueue then x.2.weight else 0) + queueWeight nodes := by
  simp [queueWeight]

theorem queueWeight_append (xs ys : List (Nat × HufNode)) :
    queueWeight (xs ++ ys) = queueWeight xs + queueWeight ys := by
  simp [queueWeight]

section

variable {nodes : List (Nat × HufNode)} {a : Nat × HufNode}

theorem hufMin_mem (h : hufMin nodes = some a) : a ∈ nodes ∧ a.2.inQueue = true := by
  induction nodes with
  | nil => cases h
  | cons x xs ih =>
    unfold hufMin at h
    split at h
    · split at h
      next hx => cases h; exact ⟨List.mem_cons_self, hx⟩
      next => cases h
    next y hy =>
      split at h
      next hx =>
        cases h
        exact ⟨List.mem_cons_self, (Bool.and_eq_true_iff.1 hx).1⟩
      next =>
        cases h
        exact ⟨List.mem_cons_of_mem _ (ih hy).1, (ih hy).2⟩

theorem queueWeight_dequeue_le (nodes : List (Nat × HufNode)) (id : Nat) :
    queueWeight (hufDequeue nodes id) ≤ queueWeight nodes := by
  induction nodes with
  | nil => exact le_rfl
  | cons x xs ih =>
    rw [hufDequeue, List.map_cons, ← hufDequeue, queueWeight_cons, queueWeight_cons]
    split
    · simp only [Bool.false_eq_true, if_false]
      omega
    · omega

/-- A node that leaves the queue takes its weight with it. -/
theorem queueWeight_dequeue_mem (h : a ∈ nodes) (hq : a.2.inQueue = true) :
    queueWeight (hufDequeue nodes a.1) + a.2.weight ≤ queueWeight nodes := by
  induction nodes with
  | nil => cases h
  | cons x xs ih =>
    rw [hufDequeue, List.map_cons, ← hufDequeue, queueWeight_cons, queueWeight_cons]
    rcases List.mem_cons.1 h with rfl | h
    · have := queueWeight_dequeue_le xs a.1
      simp only [if_true, Bool.false_eq_true, if_false, hq]
      omega
    · have := ih h
      split
      · simp only [Bool.false_eq_true, if_false]
        omega
      · omega

theorem nodeOk_dequeue (h : ∀ x ∈ nodes, NodeOk x) (id : Nat) : ∀ x ∈ hufDequeue nodes id, NodeOk x := by
  intro x hx
  obtain ⟨y, hy, rfl⟩ := List.mem_map.1 hx
  split
  · exact h y hy
  · exact h y hy

theorem length_hufDequeue (nodes : List (Nat × HufNode)) (id : Nat) : (hufDequeue nodes id).length = nodes.length :=
  List.length_map ..

/-- What holds before each merge, when `fuel` merges may follow. -/
structure MergeOk (fuel : Nat) (nodes : List (Nat × HufNode)) (nnext : Nat) : Prop where
  length : nodes.length + fuel ≤ 511
  nnext : nnext + fuel ≤ 511
  node : ∀ x ∈ nodes, NodeOk x
  weight : queueWeight nodes < 2 ^ 40

theorem MergeOk.le {fuel fuel' nnext : Nat} (h : MergeOk fuel nodes nnext) (hle : fuel' ≤ fuel) :
    MergeOk fuel' nodes nnext :=
  ⟨by have := h.length; omega, by have := h.nnext; omega, h.node, h.weight⟩

theorem mergeOk_merge {fuel nnext : Nat} {b : Nat × HufNode} (h : MergeOk (fuel + 1) nodes nnext)
    (ha : hufMin nodes = some a) (hb : hufMin (hufDequeue nodes a.1) = some b) :
    MergeOk fuel (hufDequeue (hufDequeue nodes a.1) b.1 ++
      [(nnext, ⟨a.2.weight + b.2.weight, some (a.1, b.1), true⟩)]) (nnext + 1) := by
  obtain ⟨hlength, hnnext, hnode, hweight⟩ := h
  obtain ⟨hamem, haq⟩ := hufMin_mem ha
  obtain ⟨hbmem, hbq⟩ := hufMin_mem hb
  have hwa := queueWeight_dequeue_mem hamem haq
  have hwb := queueWeight_dequeue_mem hbmem hbq
  have hrest := nodeOk_dequeue hnode a.1
  refine ⟨?_, by omega, fun x hx => ?_, ?_⟩
  · simp only [List.length_append, length_hufDequeue, List.length_singleton]
    omega
  · rcases List.mem_append.1 hx with hx | hx
    · exact nodeOk_dequeue hrest b.1 x hx
    · obtain rfl := List.mem_singleton.1 hx
      refine ⟨by dsimp only; omega, by dsimp only; omega, fun l r hkids => ?_⟩
      cases hkids
      exact ⟨(hnode a hamem).1, (hrest b hbmem).1⟩
  · rw [queueWeight_append, queueWeight_cons]
    simp only [if_true, queueWeight, List.map_nil, List.sum_nil]
    simp only [queueWeight] at hwa hwb hweight
    omega

theorem mergeOk_hufMerge (fuel : Nat) {nnext : Nat} (h : MergeOk fuel nodes nnext) :
    MergeOk 0 (hufMerge fuel nodes nnext).1 (hufMerge fuel nodes nnext).2 := by
  induction fuel generalizing nodes nnext with
  | zero => exact h
  | succ fuel ih =>
    unfold hufMerge
    split
    · exact h.le (Nat.zero_le _)
    next a ha =>
      dsimp only
      split
      · exact h.le (Nat.zero_le _)
      next b hb => exact ih (mergeOk_merge h ha hb)

end

/-! ### The leaves -/

theorem length_hufLeavesFrom_le (s : Nat) (freq : List U32) : (hufLeavesFrom s freq).length ≤ freq.length := by
  induction freq generalizing s with
  | nil => exact le_rfl
  | cons f fs ih =>
    have := ih (s + 1)
    unfold hufLeavesFrom
    split <;> simp only [List.length_cons] <;> omega

theorem hufLeavesFrom_nodeOk {s : Nat} {freq : List U32} (h : s + freq.length ≤ 511) :
    ∀ x ∈ hufLeavesFrom s freq, NodeOk x := by
  induction freq generalizing s with
  | nil => intro x hx; cases hx
  | cons f fs ih =>
    rw [List.length_cons] at h
    intro x hx
    unfold hufLeavesFrom at hx
    split at hx
    · exact ih (by omega) x hx
    · rcases List.mem_cons.1 hx with rfl | hx
      · have := f.isLt
        exact ⟨by dsimp only; omega, by dsimp only; omega, fun l r hkids => by cases hkids⟩
      · exact ih (by omega) x hx

theorem queueWeight_hufLeavesFrom_le (s : Nat) (freq : List U32) :
    queueWeight (hufLeavesFrom s freq) ≤ 4294967295 * freq.length := by
  induction freq generalizing s with
  | nil => simp [hufLeavesFrom, queueWeight]
  | cons f fs ih =>
    have hrest := ih (s + 1)
    have hf := f.isLt
    unfold hufLeavesFrom
    rw [List.length_cons]
    split
    · omega
    · rw [queueWeight_cons, if_pos rfl]
      dsimp only
      omega

theorem mergeOk_hufLeaves (freq : List U32) : MergeOk 255 (hufLeaves freq) 256 := by
  have hle : (freq.take Config.hufSymbols).length ≤ 256 := List.length_take_le ..
  have hlength := length_hufLeavesFrom_le 0 (freq.take Config.hufSymbols)
  have hweight := queueWeight_hufLeavesFrom_le 0 (freq.take Config.hufSymbols)
  exact ⟨by rw [hufLeaves]; omega, by omega, hufLeavesFrom_nodeOk (by omega), by rw [hufLeaves]; omega⟩

/-! ### The registers of the unit -/

/-- The node array, NNEXT and ROOT fit their widths. -/
structure HufTreeOk (nodes : List (Nat × HufNode)) (nnext : Nat) (root : Option Nat) : Prop where
  length : nodes.length ≤ 511
  node : ∀ x ∈ nodes, NodeOk x
  nnext : nnext ≤ 511
  root : ∀ r, root = some r → r < 511

/-- The registers of the Huffman unit fit their widths: Safety.HufFits, said of the unit. -/
structure HufUnitOk (u : HufUnit) : Prop where
  freq : u.freq.length = 256
  freqTable : u.obj.freqTable.length = 256
  tree : HufTreeOk u.nodes u.nnext u.root
  codes : ∀ c ∈ u.codes, c.1 < 511 ∧ c.2.length ≤ 255
  nbits : u.nbits ≤ 7
  cur : u.cur < 511

theorem hufFits_iff (s : State) : HufFits s ↔ HufUnitOk s.huf := by
  constructor
  · rintro ⟨hfreq, htable, hlength, hnode, hnnext, hroot, hcodes, hnbits, hcur⟩
    exact ⟨hfreq, htable, ⟨hlength, hnode, hnnext, hroot⟩, hcodes, hnbits, hcur⟩
  · rintro ⟨hfreq, htable, ⟨hlength, hnode, hnnext, hroot⟩, hcodes, hnbits, hcur⟩
    exact ⟨hfreq, htable, hlength, hnode, hnnext, hroot, hcodes, hnbits, hcur⟩

theorem hufTreeOk_build (u : HufUnit) :
    HufTreeOk (hufBuild u).nodes (hufBuild u).nnext (hufBuild u).root := by
  obtain ⟨hlength, hnnext, hnode, -⟩ := mergeOk_hufMerge 255 (mergeOk_hufLeaves u.freq)
  refine ⟨hlength, hnode, hnnext, fun r hr => ?_⟩
  obtain ⟨x, hx, rfl⟩ := Option.map_eq_some_iff.1 hr
  exact (hnode x (hufMin_mem hx).1).1

theorem hufUnitOk_startUnit {u : HufUnit} (hu : HufUnitOk u) : HufUnitOk (hufStartUnit u) := by
  have htree := hufTreeOk_build { u with freq := u.obj.freqTable }
  refine ⟨hu.freqTable, hu.freqTable, htree, hu.codes, hu.nbits, ?_⟩
  rw [hufStartUnit]
  dsimp only
  cases hroot : (hufBuild { u with freq := u.obj.freqTable }).root with
  | none => exact hu.cur
  | some root => exact htree.root root hroot

theorem hufChild_lt {nodes : List (Nat × HufNode)} (h : ∀ x ∈ nodes, NodeOk x) {id next : Nat} {bit : Bool}
    (hc : hufChild nodes id bit = some next) : next < 511 := by
  unfold hufChild at hc
  split at hc
  next node hnode =>
    obtain ⟨⟨l, r⟩, hkids, rfl⟩ := Option.map_eq_some_iff.1 hc
    obtain ⟨hl, hr⟩ := (h _ (mem_of_lookup hnode)).2.2 l r hkids
    cases bit
    · exact hl
    · exact hr
  next => cases hc

/-- A path grows by one bit for each unit of fuel, so no code is longer than 255 bits. -/
theorem hufWalk_ok {nodes : List (Nat × HufNode)} (h : ∀ x ∈ nodes, NodeOk x) {fuel id : Nat} {path : List Bool}
    (hid : id < 511) (hpath : path.length + fuel ≤ 256) :
    ∀ c ∈ hufWalk nodes fuel id path, c.1 < 511 ∧ c.2.length ≤ 255 := by
  induction fuel generalizing id path with
  | zero => intro c hc; cases hc
  | succ fuel ih =>
    intro c hc
    unfold hufWalk at hc
    split at hc
    · cases hc
    next node hnode =>
      split at hc
      next =>
        obtain rfl := List.mem_singleton.1 hc
        exact ⟨hid, by dsimp only; omega⟩
      next l r hkids =>
        obtain ⟨hl, hr⟩ := (h _ (mem_of_lookup hnode)).2.2 l r hkids
        have hlonger : ∀ bit : Bool, (path ++ [bit]).length + fuel ≤ 256 := fun bit => by
          rw [List.length_append, List.length_singleton]
          omega
        rcases List.mem_append.1 hc with hc | hc
        · exact ih hl (hlonger _) c hc
        · exact ih hr (hlonger _) c hc

theorem hufUnitOk_assign {u : HufUnit} (hu : HufUnitOk u) : HufUnitOk (hufAssign u) := by
  unfold hufAssign
  split
  next root hr =>
    exact ⟨hu.freq, hu.freqTable, hu.tree, hufWalk_ok hu.tree.node (hu.tree.root root hr) le_rfl, hu.nbits, hu.cur⟩
  next => exact ⟨hu.freq, hu.freqTable, hu.tree, nofun, hu.nbits, hu.cur⟩

theorem packBit_nbits_le {p : Packer} (h : p.nbits ≤ 7) (bit : Bool) : (packBit p bit).nbits ≤ 7 := by
  simp only [packBit]
  split
  · exact Nat.zero_le _
  · dsimp only
    omega

theorem packAll_nbits_le (bits : List Bool) : (packAll bits).nbits ≤ 7 := by
  suffices ∀ p : Packer, p.nbits ≤ 7 → (bits.foldl packBit p).nbits ≤ 7 from this _ (Nat.zero_le _)
  induction bits with
  | nil => exact fun p hp => hp
  | cons bit bits ih => exact fun p hp => ih _ (packBit_nbits_le hp bit)

theorem length_histogram (input : List Byte) : (histogram input).length = 256 := by
  suffices ∀ f : List U32, (input.foldl (fun f b => f.modify b.toNat (· + 1)) f).length = f.length from
    (this _).trans List.length_replicate
  induction input with
  | nil => exact fun f => rfl
  | cons b bs ih => exact fun f => (ih _).trans (List.length_modify ..)

theorem hufUnitOk_compress {u : HufUnit} (hu : HufUnitOk u) (input : List Byte) : HufUnitOk (hufCompress u input) := by
  have hfreq := length_histogram input
  have hbuilt : HufUnitOk (hufBuild { u with freq := histogram input, acc := 0, nbits := 0 }) :=
    ⟨hfreq, hu.freqTable, hufTreeOk_build _, hu.codes, Nat.zero_le _, hu.cur⟩
  have hputs : ∀ {v : HufUnit} (acc : Byte) (nbits : Nat) (bs : List Byte) (size : U64), HufUnitOk v → nbits ≤ 7 →
      HufUnitOk { v with acc := acc, nbits := nbits, obj := ⟨bs, size, histogram input⟩ } :=
    fun _ _ _ _ hv hn => ⟨hv.freq, hfreq, hv.tree, hv.codes, hn, hv.cur⟩
  unfold hufCompress
  dsimp only
  split
  · exact hputs 0 0 _ _ hbuilt (Nat.zero_le _)
  · split
    · exact hputs 0 0 _ _ hbuilt (Nat.zero_le _)
    · exact hputs _ _ _ _ (hufUnitOk_assign hbuilt) (packAll_nbits_le _)

/-! ### The walk -/

theorem hufBits_cur_lt {nodes : List (Nat × HufNode)} (hnode : ∀ x ∈ nodes, NodeOk x) {root size : Nat}
    (hroot : root < 511) {bits : List Bool} {d d' : Unpacker} (hd : d.cur < 511)
    (h : hufBits nodes root size bits d = .ok d') : d'.cur < 511 := by
  induction bits generalizing d with
  | nil => cases h; exact hd
  | cons bit bits ih =>
    unfold hufBits at h
    split at h
    next d₁ hbit =>
      refine ih ?_ h
      unfold hufBit at hbit
      split at hbit
      · cases hbit; exact hd
      · split at hbit
        · cases hbit
        next next hchild =>
          split at hbit <;> cases hbit
          · exact hroot
          · exact hufChild_lt hnode hchild
    next => cases h

theorem hufUnitOk_cur {u : HufUnit} (hu : HufUnitOk u) {cur : Nat} (hcur : cur < 511) :
    HufUnitOk { u with cur := cur } :=
  ⟨hu.freq, hu.freqTable, hu.tree, hu.codes, hu.nbits, hcur⟩

theorem hufUnitOk_decompress {u u' : HufUnit} {bitpos : Nat} {out : List Byte} (hu : HufUnitOk u)
    (h : hufDecompress u = .ok (u', bitpos, out)) : HufUnitOk u' := by
  have hbuilt : HufUnitOk (hufBuild { u with freq := u.obj.freqTable }) :=
    ⟨hu.freqTable, hu.freqTable, hufTreeOk_build _, hu.codes, hu.nbits, hu.cur⟩
  unfold hufDecompress at h
  dsimp only at h
  split at h
  · split at h <;> cases h
    exact hbuilt
  next root hroot =>
    have hlt := hbuilt.tree.root root hroot
    split at h
    · cases h
      exact hbuilt
    · split at h
      next d hrun =>
        split at h <;> cases h
        exact hufUnitOk_cur hbuilt (hufBits_cur_lt hbuilt.tree.node hlt (d := ⟨root, 0, []⟩) hlt hrun)
      next => cases h

theorem length_parseWords (bs : List Byte) : (parseWords bs).length = bs.length / 4 := by
  induction bs using parseWords.induct with
  | case1 b0 b1 b2 b3 rest ih => simp only [parseWords, List.length_cons, ih]; omega
  | case2 => simp [parseWords]
  | case3 => simp [parseWords]
  | case4 => simp [parseWords]
  | case5 => simp [parseWords]

/-- An image with its header has a whole table (30_encoding.md R100). -/
theorem length_parseFreq {input : List Byte} (h : 1040 ≤ input.length) : (parseFreq input).length = 256 := by
  have hsymbols : Config.hufSymbols = 256 := rfl
  rw [parseFreq, length_parseWords, field, List.length_take, List.length_drop]
  omega

/-! ### Every operation, and every step -/

section

variable {k : Codec} {s t : State}

theorem hufFits_of_sameUnits (hs : HufUnitOk s.huf) (h : SameUnits s t) : HufFits t := by
  rw [hufFits_iff, h.huf]
  exact hs

theorem hufFits_of_other (hs : HufFits s) (h : Operated k s t) (hk : k ≠ .huf) : HufFits t := by
  rw [hufFits_iff, h.huf hk]
  exact (hufFits_iff s).1 hs

theorem hufFits_compress (hs : HufFits s) (h : codecCompressOp k s = .ok t) : HufFits t := by
  by_cases hk : k = .huf
  · subst hk
    obtain rfl := hufCompressOp_eq_ok h
    exact (hufFits_iff _).2 (hufUnitOk_compress ((hufFits_iff s).1 hs) _)
  · exact hufFits_of_other hs (operated_compress h) hk

theorem hufFits_parse (hs : HufFits s) (h : codecParseOp k s = .ok t) : HufFits t := by
  by_cases hk : k = .huf
  · subst hk
    obtain ⟨-, obj, hobj, rfl⟩ := desHufOp_eq_ok h
    obtain ⟨hheader, -, htable⟩ := desHuf_eq_ok hobj
    obtain ⟨hfreq, -, htree, hcodes, hnbits, hcur⟩ := (hufFits_iff s).1 hs
    exact (hufFits_iff _).2 ⟨hfreq, by rw [htable]; exact length_parseFreq hheader,
      htree, hcodes, hnbits, hcur⟩
  · exact hufFits_of_other hs (operated_parse h) hk

theorem hufFits_decompress (hs : HufFits s) (h : codecDecompressOp k s = .ok t) : HufFits t := by
  by_cases hk : k = .huf
  · subst hk
    obtain ⟨u, bitpos, out, hrun, happend⟩ := hufDecompressOp_eq_ok h
    exact hufFits_of_sameUnits (hufUnitOk_decompress ((hufFits_iff s).1 hs) hrun) (.of_append happend)
  · exact hufFits_of_other hs (operated_decompress h) hk

theorem hufFits_sym {path : List Bool} (hs : HufFits s) (h : hufSymOp path s = .ok t) : HufFits t := by
  have hu := (hufFits_iff s).1 hs
  obtain ⟨root, d, new, hroot, hrun, happend⟩ := hufSymOp_eq_ok h
  have hcur : d.cur < 511 := hufBits_cur_lt hu.tree.node (hu.tree.root root hroot) hu.cur hrun
  exact hufFits_of_sameUnits (s := { s with huf.cur := d.cur, bitpos := d.bitpos }) (hufUnitOk_cur hu hcur)
    (.of_append happend)

theorem hufFits_startDecoder (k : Codec) (hs : HufFits s) : HufFits (startDecoder s k) := by
  cases k
  case huf =>
    obtain ⟨-, htable, htree, hcodes, hnbits, hcur⟩ := (hufFits_iff s).1 hs
    exact (hufFits_iff _).2 ⟨htable, htable, htree, hcodes, hnbits, hcur⟩
  all_goals exact hs

end

/-- Settles O51: each operation of the Huffman codec keeps its unit's registers within their widths, and no other
operation touches them. -/
theorem hufRegistersFit : Obligations.HufRegistersFit := by
  unfold Obligations.HufRegistersFit
  intro s t
  exact step_keeps_of_units (fun hs h => hufFits_of_sameUnits ((hufFits_iff _).1 hs) h) hufFits_compress hufFits_parse
    hufFits_decompress hufFits_startDecoder
    (fun hs => (hufFits_iff _).2 (hufUnitOk_startUnit ((hufFits_iff _).1 hs)))
    (fun hs h => hufFits_of_other hs (operated_rlePair h) (by decide))
    (fun hs h => hufFits_of_other hs (operated_lzwCode h) (by decide))
    (fun hs h => hufFits_of_other hs (operated_lz77Token h) (by decide)) hufFits_sym

end Sys2Proof.Machine

/-! PROOFS. The registers of the LZW unit within their widths and its dictionary legal (10_state.md R44, R45, 43_lzw.md
R213). The idea: either side inserts only a code that is in use, a decoder because the code it stands on is one. -/

namespace Sys2Proof.Machine

open Sys2Proof.Safety

/-! ### Codes in use -/

/-- A literal or a used entry: a code that has a sequence. -/
def InDict (dict : List (Nat × Byte)) (code : Nat) : Prop := code < lzwNext dict ∧ code ≠ Config.lzwReserved

theorem inDict_literal (dict : List (Nat × Byte)) (b : Nat) (h : b < 256) : InDict dict b := by
  refine ⟨?_, fun e => ?_⟩
  · rw [lzwNext_eq]
    omega
  · rw [e] at h
    exact absurd h (by decide)

theorem InDict.lt {dict : List (Nat × Byte)} {code : Nat} (h : InDict dict code) (hd : DictOk dict) : code < 4096 :=
  h.1.trans_le (lzwNext_le hd)

section

variable {dict : List (Nat × Byte)} {pre code : Nat}

theorem lzwInsert_cases (dict : List (Nat × Byte)) (entry : Nat × Byte) :
    lzwNext dict < 4096 ∧ lzwInsert dict entry = dict ++ [entry] ∨ lzwInsert dict entry = dict := by
  unfold lzwInsert
  split
  next h => exact .inl ⟨h, rfl⟩
  next => exact .inr rfl

theorem dictOk_nil : DictOk [] := ⟨Nat.zero_le _, fun n pre char h => by simp at h⟩

theorem dictOk_insert (hd : DictOk dict) (hp : InDict dict pre) (char : Byte) :
    DictOk (lzwInsert dict (pre, char)) := by
  rcases lzwInsert_cases dict (pre, char) with ⟨hn, e⟩ | e <;> rw [e]
  · refine ⟨?_, fun n p c h => ?_⟩
    · rw [lzwNext_eq] at hn
      rw [List.length_append, List.length_singleton]
      omega
    · rcases Nat.lt_trichotomy n dict.length with hlt | rfl | hgt
      · rw [List.getElem?_append_left hlt] at h
        exact hd.2 n p c h
      · rw [List.getElem?_concat_length] at h
        cases h
        exact hp
      · rw [List.getElem?_eq_none (by rw [List.length_append, List.length_singleton]; omega)] at h
        cases h
  · exact hd

theorem inDict_insert (h : InDict dict code) (entry : Nat × Byte) : InDict (lzwInsert dict entry) code := by
  rcases lzwInsert_cases dict entry with ⟨-, e⟩ | e <;> rw [e]
  · refine ⟨h.1.trans_le ?_, h.2⟩
    rw [lzwNext_eq, lzwNext_eq, List.length_append]
    omega
  · exact h

/-- The slot the insertion fills is in use after it. -/
theorem inDict_inserted (hn : lzwNext dict < 4096) (entry : Nat × Byte) :
    InDict (lzwInsert dict entry) (lzwNext dict) := by
  have hentry : lzwInsert dict entry = dict ++ [entry] := if_pos hn
  have hreserved : Config.lzwReserved = 256 := rfl
  rw [hentry, InDict, lzwNext_eq, lzwNext_eq, List.length_append, List.length_singleton]
  omega

end

/-! ### The registers of the unit -/

/-- The registers of the LZW unit fit their widths: Safety.LzwFits, but for the code a decoder stands on. -/
structure LzwUnitOk (u : LzwUnit) : Prop where
  dict : DictOk u.dict
  w : ∀ w, u.w = some w → w < 4096
  prev : u.prev < 4096
  stack : u.stack.length ≤ 3840

/-- A decoder past its first code stands on a code in use. -/
def LzwDecoderOk (s : State) : Prop :=
  s.busy = 1 → s.stage = .decoding → s.alg = 3 → s.ipos ≠ 0 → InDict s.lzw.dict s.lzw.prev

theorem lzwFits_iff (s : State) : LzwFits s ↔ LzwUnitOk s.lzw ∧ LzwDecoderOk s := by
  constructor
  · rintro ⟨hdict, hw, hprev, hstack, hdecoder⟩
    exact ⟨⟨hdict, hw, hprev, hstack⟩, hdecoder⟩
  · rintro ⟨⟨hdict, hw, hprev, hstack⟩, hdecoder⟩
    exact ⟨hdict, hw, hprev, hstack, hdecoder⟩

/-! ### The encoder -/

theorem lzwScan_bounds {e code : Nat} {dict : List (Nat × Byte)} {entry : Nat × Byte}
    (h : lzwScan e dict entry = some code) : e ≤ code ∧ code < e + dict.length := by
  induction dict generalizing e with
  | nil => cases h
  | cons x xs ih =>
    rw [List.length_cons]
    unfold lzwScan at h
    split at h
    · cases h
      omega
    · have := ih h
      omega

theorem inDict_of_find {dict : List (Nat × Byte)} {w code : Nat} {k : Byte} (h : lzwFind dict w k = some code) :
    InDict dict code := by
  have hslot : Config.lzwFirstSlot = 257 := rfl
  have hreserved : Config.lzwReserved = 256 := rfl
  obtain ⟨hge, hlt⟩ := lzwScan_bounds h
  rw [InDict, lzwNext_eq]
  omega

/-- The match the encoder has in hand is a code in use. -/
def EncoderOk (u : LzwUnit) : Prop := LzwUnitOk u ∧ ∀ w, u.w = some w → InDict u.dict w

theorem encoderOk_of_match {u : LzwUnit} {w : Nat} (hu : LzwUnitOk u) (hw : InDict u.dict w) (k : Byte) :
    EncoderOk { u with k := k, w := some w } := by
  refine ⟨⟨hu.dict, fun v hv => ?_, hu.prev, hu.stack⟩, fun v hv => ?_⟩ <;> cases hv
  · exact hw.lt hu.dict
  · exact hw

theorem encoderOk_turn {u : LzwUnit} (hu : EncoderOk u) (k : Byte) : EncoderOk (lzwTurn u k) := by
  obtain ⟨hunit, hmatch⟩ := hu
  have hbyte : k.toNat < 256 := k.isLt
  unfold lzwTurn
  split
  next => exact encoderOk_of_match hunit (inDict_literal _ _ hbyte) u.k
  next w hw =>
    split
    next e he => exact encoderOk_of_match hunit (inDict_of_find he) k
    next =>
      have hdict := dictOk_insert hunit.dict (hmatch w hw) k
      exact encoderOk_of_match
        (u := { u with dict := lzwInsert u.dict (w, k), obj.codes := u.obj.codes ++ [BitVec.ofNat 16 w] })
        ⟨hdict, hunit.w, hunit.prev, hunit.stack⟩ (inDict_literal _ _ hbyte) k

theorem encoderOk_foldl {u : LzwUnit} (hu : EncoderOk u) (input : List Byte) : EncoderOk (input.foldl lzwTurn u) := by
  induction input generalizing u with
  | nil => exact hu
  | cons k input ih => exact ih (encoderOk_turn hu k)

theorem lzwUnitOk_compress {u : LzwUnit} (hu : LzwUnitOk u) (input : List Byte) : LzwUnitOk (lzwCompress u input) := by
  have hfresh : EncoderOk { u with dict := [], w := none, obj := ⟨[], BitVec.ofNat 64 input.length⟩ } :=
    ⟨⟨dictOk_nil, nofun, hu.prev, hu.stack⟩, nofun⟩
  have hlast := (encoderOk_foldl hfresh input).1
  unfold lzwCompress
  dsimp only
  split
  · exact ⟨hlast.dict, hlast.w, hlast.prev, hlast.stack⟩
  · exact hlast

/-! ### The decoder -/

section

variable {dict : List (Nat × Byte)} {prev code : Nat} {entry : List Byte}

/-- A code that resolves is a literal, a used entry, or the slot the next insertion fills. -/
theorem inDict_of_resolved (hd : DictOk dict) (h : lzwResolve dict prev code = some entry) (new : Nat × Byte) :
    InDict (lzwInsert dict new) code := by
  have hgood : ¬ (code = 256 ∨ lzwNext dict < code ∨ 4096 ≤ code) := fun hbad => by
    rw [lzwResolve_none hd prev hbad] at h
    cases h
  have hreserved : Config.lzwReserved = 256 := rfl
  by_cases hlt : code < lzwNext dict
  · exact inDict_insert ⟨hlt, by omega⟩ new
  · obtain rfl : code = lzwNext dict := by omega
    exact inDict_inserted (by omega) new

/-- The slot ahead adds one byte, and only where the dictionary is not full. -/
theorem length_lzwResolve_le (hd : DictOk dict) (hp : InDict dict prev) (h : lzwResolve dict prev code = some entry) :
    entry.length ≤ 3840 := by
  have hfull := hd.1
  have hnext := lzwNext_eq dict
  have hgood : ¬ (code = 256 ∨ lzwNext dict < code ∨ 4096 ≤ code) := fun hbad => by
    rw [lzwResolve_none hd prev hbad] at h
    cases h
  by_cases hlt : code < lzwNext dict
  · rw [lzwResolve_known dict prev (by omega)] at h
    have := (length_lzwStr h).2
    omega
  · obtain rfl : code = lzwNext dict := by omega
    obtain ⟨p, hstr⟩ := lzwStr_of_used hd hp.1 hp.2
    rw [lzwResolve_ahead hstr (by omega)] at h
    cases h
    have := (length_lzwStr hstr).2
    rw [List.length_append, List.length_take]
    omega

end

theorem lzwElement_ok {u u' : LzwUnit} {size : Nat} {first : Bool} {out out' : List Byte} {code : U16}
    (hu : LzwUnitOk u) (hprev : first = false → InDict u.dict u.prev)
    (h : lzwElement size first u out code = .ok (u', out')) : LzwUnitOk u' ∧ InDict u'.dict u'.prev := by
  unfold lzwElement at h
  split at h
  next =>
    split at h
    · cases h
    next hlit =>
      split at h <;> cases h
      have hcode : code.toNat < 256 := Nat.not_le.1 hlit
      exact ⟨⟨hu.dict, hu.w, by dsimp only; omega, hu.stack⟩, inDict_literal _ _ hcode⟩
  next hfirst =>
    have hstands := hprev (by simpa using hfirst)
    split at h
    next b bs hresolve =>
      split at h <;> cases h
      have hdict := dictOk_insert hu.dict hstands b
      have hcode := inDict_of_resolved hu.dict hresolve (u.prev, b)
      exact ⟨⟨hdict, hu.w, hcode.lt hdict, length_lzwResolve_le hu.dict hstands hresolve⟩, hcode⟩
    next => cases h

theorem lzwReplay_ok {size : Nat} {first : Bool} {codes : List U16} {u u' : LzwUnit} {out out' : List Byte}
    (hu : LzwUnitOk u) (hprev : first = false → InDict u.dict u.prev)
    (h : lzwReplay size first codes u out = .ok (u', out')) : LzwUnitOk u' := by
  induction codes generalizing first u out with
  | nil =>
    unfold lzwReplay at h
    split at h <;> cases h
    exact hu
  | cons code codes ih =>
    unfold lzwReplay at h
    split at h
    next u₁ out₁ helement =>
      obtain ⟨hu₁, hprev₁⟩ := lzwElement_ok hu hprev helement
      exact ih hu₁ (fun _ => hprev₁) h
    next => cases h

theorem lzwUnitOk_decompress {u u' : LzwUnit} {out : List Byte} (hu : LzwUnitOk u)
    (h : lzwDecompress u = .ok (u', out)) : LzwUnitOk u' :=
  lzwReplay_ok (u := { u with dict := [] }) (first := true) ⟨dictOk_nil, hu.w, hu.prev, hu.stack⟩ nofun h

/-! ### Every operation, and every step -/

section

variable {k : Codec} {s t u : State}

theorem lzwUnitOk_compressOp (hs : LzwUnitOk s.lzw) (h : codecCompressOp k s = .ok t) : LzwUnitOk t.lzw := by
  by_cases hk : k = .lzw
  · subst hk
    obtain rfl := lzwCompressOp_eq_ok h
    exact lzwUnitOk_compress hs _
  · exact (operated_compress h).lzw hk ▸ hs

theorem lzwUnitOk_parseOp (hs : LzwUnitOk s.lzw) (h : codecParseOp k s = .ok t) : LzwUnitOk t.lzw := by
  by_cases hk : k = .lzw
  · subst hk
    obtain ⟨-, obj, -, rfl⟩ := desLzwOp_eq_ok h
    exact ⟨hs.dict, hs.w, hs.prev, hs.stack⟩
  · exact (operated_parse h).lzw hk ▸ hs

theorem lzwUnitOk_decompressOp (hs : LzwUnitOk s.lzw) (h : codecDecompressOp k s = .ok t) : LzwUnitOk t.lzw := by
  by_cases hk : k = .lzw
  · subst hk
    obtain ⟨u, out, hrun, happend⟩ := lzwDecompressOp_eq_ok h
    rw [(SameUnits.of_append happend).lzw]
    exact lzwUnitOk_decompress hs hrun
  · exact (operated_decompress h).lzw hk ▸ hs

theorem lzwFits_idle (hs : LzwUnitOk s.lzw) (hb : s.busy = 0) : LzwFits s :=
  (lzwFits_iff s).2 ⟨hs, fun h => absurd (hb.symm.trans h) (by decide)⟩

theorem lzwFits_of_stage (hs : LzwUnitOk s.lzw) (hst : s.stage ≠ .decoding) : LzwFits s :=
  (lzwFits_iff s).2 ⟨hs, fun _ h => absurd h hst⟩

theorem lzwFits_of_ipos (hs : LzwUnitOk s.lzw) (hi : s.ipos = 0) : LzwFits s :=
  (lzwFits_iff s).2 ⟨hs, fun _ _ _ h => absurd hi h⟩

theorem lzwFits_of_other_codec (hs : LzwUnitOk s.lzw) (hk : codecOf s.alg = some k) (hne : k ≠ .lzw) : LzwFits s :=
  (lzwFits_iff s).2 ⟨hs, fun _ _ h => absurd (Option.some.inj (hk.symm.trans (h ▸ rfl))) hne⟩

/-- An element of another codec. -/
theorem lzwFits_of_other (hs : LzwUnitOk s.lzw) (hk : codecOf s.alg = some k) (hne : k ≠ .lzw) (h : Operated k s t) :
    LzwFits t :=
  lzwFits_of_other_codec (h.lzw hne ▸ hs) (h.alg ▸ hk) hne

theorem lzwFits_code {code : U16} (hs : LzwFits s) (hb : s.busy = 1) (hst : s.stage = .decoding)
    (hk : codecOf s.alg = some .lzw) (h : lzwCodeOp code s = .ok t) : LzwFits t := by
  obtain ⟨hu, hdecoder⟩ := (lzwFits_iff s).1 hs
  obtain ⟨u, out, new, helement, happend⟩ := lzwCodeOp_eq_ok h
  have hprev : (s.ipos == 0) = false → InDict s.lzw.dict s.lzw.prev := fun hi =>
    hdecoder hb hst (codecOf_eq_some_iff.1 hk) (by simpa using hi)
  obtain ⟨hu', hprev'⟩ := lzwElement_ok hu hprev helement
  obtain ⟨-, rfl⟩ := append_eq_ok.1 happend
  exact (lzwFits_iff _).2 ⟨hu', fun _ _ _ _ => hprev'⟩

theorem lzwFits_engineMove (hs : LzwFits s) (hb : s.busy = 1) (h : EngineMove s t) : LzwFits t := by
  obtain ⟨hu, -⟩ := (lzwFits_iff s).1 hs
  cases h with
  | raises c => exact lzwFits_idle hu rfl
  | raisesStarted c => exact lzwFits_idle hu rfl
  | @compresses k v u _ _ _ compress serialize =>
    have hv : LzwUnitOk v.lzw := lzwUnitOk_compressOp (s := startOutput s) hu compress
    exact lzwFits_idle ((SameUnits.of_serialize serialize).lzw ▸ hv) rfl
  | @decompresses k v u _ _ _ parse decompress =>
    have hv : LzwUnitOk v.lzw := lzwUnitOk_parseOp (s := startOutput s) hu parse
    have hu' : LzwUnitOk u.lzw := lzwUnitOk_decompressOp hv decompress
    exact lzwFits_idle (s := complete u) hu' rfl
  | @codes k u _ _ _ compress =>
    have hv : LzwUnitOk u.lzw := lzwUnitOk_compressOp (s := startOutput s) hu compress
    exact lzwFits_of_stage hv nofun
  | @parses k u _ _ _ parse =>
    have hv : LzwUnitOk u.lzw := lzwUnitOk_parseOp (s := startOutput s) hu parse
    exact lzwFits_of_stage hv nofun
  | serializes _ _ serialize => exact lzwFits_idle ((SameUnits.of_serialize serialize).lzw ▸ hu) rfl
  | @startsDecoder k _ _ bytes =>
    cases k
    case huf => exact absurd rfl bytes
    case lz77 => exact lzwFits_of_ipos hu rfl
    case rle => exact lzwFits_of_ipos hu rfl
    case lzw => exact lzwFits_of_ipos ⟨dictOk_nil, hu.w, hu.prev, hu.stack⟩ rfl
  | startsWalk _ codec => exact lzwFits_of_other_codec hu codec (by decide)
  | finishes => exact lzwFits_idle hu rfl
  | repeats _ output => exact lzwFits_idle ((SameUnits.of_append output).lzw ▸ hu) rfl
  | pair _ codec _ element => exact lzwFits_of_other hu codec (by decide) (operated_rlePair element)
  | code stage codec _ element => exact lzwFits_code hs hb stage codec element
  | token _ codec _ element => exact lzwFits_of_other hu codec (by decide) (operated_lz77Token element)
  | symbol _ codec _ _ _ element => exact lzwFits_of_other hu codec (by decide) (operated_hufSym element)

theorem lzwFits_hostMove (hs : LzwFits s) (h : HostMove s t) : LzwFits t := by
  obtain ⟨hu, -⟩ := (lzwFits_iff s).1 hs
  cases h with
  | observes => exact hs
  | starts => exact lzwFits_of_stage hu nofun
  | writesRegister idle => exact lzwFits_idle hu idle
  | writesIbuf => exact hs
  | resets => exact lzwFits_idle hu rfl

end

/-- Settles O50: the encoder's match and the decoder's previous code are codes in use whenever one is inserted. -/
theorem lzwRegistersFit : Obligations.LzwRegistersFit := by
  unfold Obligations.LzwRegistersFit
  intro s t
  exact step_keeps (fun _ _ h => h) (fun _ _ => lzwFits_hostMove) fun _ _ h hb => lzwFits_engineMove h hb

end Sys2Proof.Machine

/-! PROOFS. Every command completes (10_state.md R26, 70_reset_and_hazards.md R366). The idea: a bound on the turns
left, which every turn of a busy engine lowers: an element moves the decoder's cursor, and no cursor passes the end of
the image. -/

namespace Sys2Proof.Machine

open Sys2Proof.Safety

variable {s t : State}

/-! ### The host's list -/

theorem EngineMove.host (h : EngineMove s t) : t.host = s.host := by
  rcases h.operated with ⟨c, rfl | rfl⟩ | ⟨k, v, u, hv, hu, ht⟩
  · rfl
  · rfl
  · have hvhost : v.host = s.host := by rcases hv with rfl | ⟨rfl, -⟩ <;> rfl
    rcases ht with rfl | ⟨stage, rfl⟩ <;> exact hu.host.trans hvhost

/-! ### The turns left -/

/-- The elements a decoder has read, or the bits. -/
def decoderCursor (s : State) : Nat := if s.alg = 1 then s.bitpos else s.ipos

/-- A bound on the turns a command takes from a stage on. -/
def stageTurns (s : State) : Stage → Nat
  | .accepted => 8 * s.ilen.toNat + 4
  | .coded => 1
  | .parsed => 8 * s.ilen.toNat + 2
  | .decoding => 8 * s.ilen.toNat - decoderCursor s + 1

/-- A bound on the turns until the engine is idle. -/
def turnsLeft (s : State) : Nat := if s.busy = 0 then 0 else stageTurns s s.stage

theorem turnsLeft_idle (h : s.busy = 0) : turnsLeft s = 0 := if_pos h

theorem turnsLeft_at {stage : Stage} (hb : s.busy = 1) (hst : s.stage = stage) : turnsLeft s = stageTurns s stage := by
  rw [turnsLeft, if_neg (by simp [hb]), hst]

theorem turnsLeft_pos (hb : s.busy = 1) : 0 < turnsLeft s := by
  rw [turnsLeft_at hb rfl]
  cases s.stage <;> simp only [stageTurns] <;> omega

/-- A code word moves the cursor while bytes are owed (42_huffman.md R178). -/
theorem hufSym_bitpos_lt {path : List Bool} (hne : path ≠ []) (howed : s.opos < s.huf.obj.originalSize.toNat)
    (h : hufSymOp path s = .ok t) : s.bitpos < t.bitpos := by
  obtain ⟨root, d, new, -, hrun, happend⟩ := hufSymOp_eq_ok h
  rw [(cursors_append happend).2]
  cases path with
  | nil => exact absurd rfl hne
  | cons bit bits =>
    unfold hufBits at hrun
    split at hrun
    next d₁ hbit =>
      have hrest := (hufBits_bitpos_le hrun).1
      rcases hufBit_bitpos hbit with ⟨hdone, -⟩ | ⟨-, hpos⟩
      · rw [length_outBytes] at hdone
        omega
      · dsimp only at hpos ⊢
        omega
    next => cases hrun

/-- An element that moves the cursor within the image. -/
theorem turnsLeft_element {k : Codec} (hb : s.busy = 1) (hst : s.stage = .decoding) (h : Operated k s t)
    (hcursor : decoderCursor s < decoderCursor t) (hinside : decoderCursor s < 8 * s.ilen.toNat) :
    turnsLeft t < turnsLeft s := by
  rw [turnsLeft_at hb hst, turnsLeft_at (h.busy.trans hb) (h.stage.trans hst), stageTurns, stageTurns, h.ilen]
  omega

theorem decoderCursor_of_bytes {k : Codec} (hk : codecOf s.alg = some k) (hne : k ≠ .huf) :
    decoderCursor s = s.ipos := by
  refine if_neg fun h => hne ?_
  rw [h] at hk
  exact (Option.some.inj hk).symm

theorem decoderCursor_of_huf (hk : codecOf s.alg = some .huf) : decoderCursor s = s.bitpos :=
  if_pos (codecOf_eq_some_iff.1 hk)

/-- An element of bytes that lies in the image. -/
theorem turnsLeft_byteElement {k : Codec} (hb : s.busy = 1) (hst : s.stage = .decoding) (hk : codecOf s.alg = some k)
    (hne : k ≠ .huf) (h : Operated k s t) (hi : t.ipos = s.ipos + 1) (hinside : s.ipos < s.ilen.toNat) :
    turnsLeft t < turnsLeft s := by
  have hcursor := decoderCursor_of_bytes hk hne
  have hcursor' : decoderCursor t = t.ipos := decoderCursor_of_bytes (h.alg.symm ▸ hk) hne
  exact turnsLeft_element hb hst h (by omega) (by omega)

/-- The start of a decoder, wherever its cursor stands. -/
theorem turnsLeft_start (hb : s.busy = 1) (hst : s.stage = .parsed) (hb' : t.busy = 1) (hst' : t.stage = .decoding)
    (hilen : t.ilen = s.ilen) : turnsLeft t < turnsLeft s := by
  rw [turnsLeft_at hb hst, turnsLeft_at hb' hst', stageTurns, stageTurns, hilen]
  omega

theorem turnsLeft_engineMove (hb : s.busy = 1) (h : EngineMove s t) : turnsLeft t < turnsLeft s := by
  have hends : ∀ {u : State}, u.busy = 0 → turnsLeft u < turnsLeft s := fun hu => by
    rw [turnsLeft_idle hu]
    exact turnsLeft_pos hb
  cases h with
  | raises => exact hends rfl
  | raisesStarted => exact hends rfl
  | compresses => exact hends rfl
  | decompresses => exact hends rfl
  | @codes k u stage _ _ compress =>
    have hu := operated_compress compress
    rw [turnsLeft_at hb stage, turnsLeft_at (s := { u with stage := .coded }) (hu.busy.trans hb) rfl, stageTurns,
      stageTurns]
    omega
  | @parses k u stage _ _ parse =>
    have hu := operated_parse parse
    have hilen : u.ilen = s.ilen := hu.ilen
    rw [turnsLeft_at hb stage, turnsLeft_at (s := { u with stage := .parsed }) (hu.busy.trans hb) rfl, stageTurns,
      stageTurns, hilen]
    omega
  | serializes => exact hends rfl
  | @startsDecoder k stage _ bytes =>
    rw [startDecoder_of_bytes s bytes]
    have hu := startDecoder_operated s k
    exact turnsLeft_start hb stage (hu.busy.trans hb) rfl hu.ilen
  | startsWalk stage => exact turnsLeft_start hb stage hb rfl rfl
  | finishes => exact hends rfl
  | repeats => exact hends rfl
  | pair stage codec inside element =>
    exact turnsLeft_byteElement hb stage codec (by decide) (operated_rlePair element) (cursors_rlePair element).1
      (by omega)
  | code stage codec inside element =>
    exact turnsLeft_byteElement hb stage codec (by decide) (operated_lzwCode element) (cursors_lzwCode element).1
      (by omega)
  | token stage codec inside element =>
    exact turnsLeft_byteElement hb stage codec (by decide) (operated_lz77Token element) (cursors_lz77Token element).1
      (by omega)
  | symbol stage codec owed nonempty inside element =>
    have hop := operated_hufSym element
    have hpath := List.length_pos_of_ne_nil nonempty
    have hcursor := decoderCursor_of_huf codec
    have hcursor' : decoderCursor t = t.bitpos := decoderCursor_of_huf (hop.alg.symm ▸ codec)
    have hlt := hufSym_bitpos_lt nonempty owed element
    exact turnsLeft_element hb stage hop (by omega) (by omega)

/-- With the host silent the engine is idle once the turns left are taken, and stays idle. -/
theorem reaches_idle (n : Nat) (hh : s.host = []) (hn : turnsLeft s ≤ n) : ∃ t, Reaches n s t ∧ t.busy = 0 := by
  induction n generalizing s with
  | zero =>
    refine ⟨s, rfl, (busy_cases s).resolve_right fun hb => ?_⟩
    have := turnsLeft_pos hb
    omega
  | succ n ih =>
    obtain ⟨u, hu⟩ := engineTurn_answers_next s
    have hstep : step s = .next u := (step_of_no_host hh).trans hu
    have hnext : u.host = [] ∧ turnsLeft u ≤ n := by
      rcases busy_cases s with hb | hb
      · obtain rfl : s = u := Host.Outcome.next.inj ((engineTurn_idle hb).symm.trans hu)
        rw [turnsLeft_idle hb]
        exact ⟨hh, Nat.zero_le n⟩
      · have hmove := engineMove_of_turn hb hu
        have := turnsLeft_engineMove hb hmove
        exact ⟨hmove.host.trans hh, by omega⟩
    obtain ⟨t, hreach, hidle⟩ := ih hnext.1 hnext.2
    exact ⟨t, ⟨u, hstep, hreach⟩, hidle⟩

/-- Settles O9: the bound on the turns left of an accepted command is 8 * ILEN + 4. -/
theorem everyCommandCompletes : Obligations.EveryCommandCompletes := by
  unfold Obligations.EveryCommandCompletes
  rintro s ⟨-, hh, hb, hst⟩
  exact reaches_idle _ hh (turnsLeft_at hb hst).le

end Sys2Proof.Machine

/-! PROOFS. The host's accesses that the model does not offer (20_memory.md R72, 70_reset_and_hazards.md R356,
93_implementation_defined.md U8, U9, U12). The idea: an access is one action of the host's port, whose guards are tried
in a fixed order, and each statement names the first guard that holds. -/

namespace Sys2Proof.Machine

section
variable {s : State} {rest : List HostAct} {r : Reg} {v : U64} {a n : Nat} {bs : List Byte}

/-! ### An access is the port's action, the host's list one shorter -/

theorem step_eq_hostWriteReg (h : s.host = .writeReg r v :: rest) :
    step s = hostWriteReg r v { s with host := rest } := by
  simp [step, whoMoves, h]

theorem step_eq_hostReadReg (h : s.host = .readReg r :: rest) : step s = hostReadReg r { s with host := rest } := by
  simp [step, whoMoves, h]

theorem step_eq_hostWriteIbuf (h : s.host = .writeIbuf a bs :: rest) :
    step s = hostWriteIbuf a bs { s with host := rest } := by
  simp [step, whoMoves, h]

theorem step_eq_hostReadObuf (h : s.host = .readObuf a :: rest) : step s = hostReadObuf a { s with host := rest } := by
  simp [step, whoMoves, h]

theorem step_eq_hostCopyBack (h : s.host = .copyBack n :: rest) : step s = hostCopyBack n { s with host := rest } := by
  simp [step, whoMoves, h]

/-! ### The first guard that holds -/

theorem hostWriteReg_readOnly (hw : hostWritable r = false) : hostWriteReg r v s = .refused .readOnlyRegister :=
  if_pos hw

theorem hostWriteReg_busy (hw : hostWritable r = true) (hb : s.busy = 1) (hr : r ≠ .start) :
    hostWriteReg r v s = .refused .hostAccessWhileBusy := by
  simp [hostWriteReg, hw, hb, hr]

theorem hostReadReg_busy (hb : s.busy = 1) (hr : r ≠ .busy) (hr' : r ≠ .start) :
    hostReadReg r s = .refused .hostAccessWhileBusy :=
  if_pos ⟨hb, hr, hr'⟩

theorem hostWriteIbuf_busy (hb : s.busy = 1) : hostWriteIbuf a bs s = .refused .hostAccessWhileBusy := if_pos hb

theorem hostWriteIbuf_beyond (hb : s.busy = 0) (ha : s.cfg.capIn < a + bs.length) :
    hostWriteIbuf a bs s = .fault .noSuchAddress := by
  simp [hostWriteIbuf, hb, ha]

theorem hostReadObuf_busy (hb : s.busy = 1) : hostReadObuf a s = .refused .hostAccessWhileBusy := if_pos hb

theorem hostReadObuf_beyond (hb : s.busy = 0) (ha : s.cfg.capOut ≤ a) : hostReadObuf a s = .fault .noSuchAddress := by
  simp [hostReadObuf, hb, ha]

theorem hostReadObuf_unspecified (hb : s.busy = 0) (ha : a < s.cfg.capOut) (ho : s.olen.toNat ≤ a) :
    hostReadObuf a s = .refused .unspecifiedOutput := by
  simp [hostReadObuf, hb, ha, ho]

theorem hostCopyBack_busy (hb : s.busy = 1) : hostCopyBack n s = .refused .hostAccessWhileBusy := if_pos hb

theorem hostCopyBack_beyond (hb : s.busy = 0) (hn : s.cfg.capIn < n) : hostCopyBack n s = .fault .noSuchAddress := by
  simp [hostCopyBack, hb, hn]

theorem hostCopyBack_unspecified (hb : s.busy = 0) (hn : n ≤ s.cfg.capIn) (ho : s.olen.toNat < n) :
    hostCopyBack n s = .refused .unspecifiedOutput := by
  simp [hostCopyBack, hb, hn, ho]

end

/-- Settles O12: one access after the other, the guard that stops it. -/
theorem hostMovesNotOffered : Obligations.HostMovesNotOffered := by
  unfold Obligations.HostMovesNotOffered
  intro s rest
  refine ⟨fun r v h hr => ?_, fun r v h hb hr => ?_,
    fun r h hb hr hr' => (step_eq_hostReadReg h).trans (hostReadReg_busy hb hr hr'),
    fun a bs h hb => (step_eq_hostWriteIbuf h).trans (hostWriteIbuf_busy hb),
    fun a bs h hb ha => (step_eq_hostWriteIbuf h).trans (hostWriteIbuf_beyond hb ha),
    fun a h hb => (step_eq_hostReadObuf h).trans (hostReadObuf_busy hb),
    fun a h hb ho ha => (step_eq_hostReadObuf h).trans (hostReadObuf_unspecified hb ha ho),
    fun a h hb ha => (step_eq_hostReadObuf h).trans (hostReadObuf_beyond hb ha),
    fun n h hb => (step_eq_hostCopyBack h).trans (hostCopyBack_busy hb),
    fun n h hb hn => (step_eq_hostCopyBack h).trans (hostCopyBack_beyond hb hn),
    fun n h hb hn ho => (step_eq_hostCopyBack h).trans (hostCopyBack_unspecified hb hn ho)⟩
  · rw [step_eq_hostWriteReg h]
    rcases hr with rfl | rfl | rfl <;> exact hostWriteReg_readOnly rfl
  · rw [step_eq_hostWriteReg h]
    rcases hr with rfl | rfl | rfl <;> exact hostWriteReg_busy rfl hb (by decide)

end Sys2Proof.Machine

/-! PROOFS. The counts of the runs that RLE.compress makes (20_memory.md R83, 41_rle.md R141). The idea: the inner loop
finds at most 254 more bytes of a run, so a count lies between 1 and 255 and its byte is that number. -/

namespace Sys2Proof.Machine

theorem runLength_le (v : Byte) (m : Nat) (bs : List Byte) : runLength v m bs ≤ m := by
  fun_induction runLength v m bs <;> omega

theorem runLength_replicate (v : Byte) (m n : Nat) : runLength v m (List.replicate n v) = min m n := by
  induction m generalizing n with
  | zero => simp [runLength]
  | succ m ih =>
    cases n with
    | zero => rfl
    | succ n => simp [List.replicate_succ, runLength, ih]

theorem rleRuns_cons (fuel : Nat) (v : Byte) (bs : List Byte) :
    rleRuns (fuel + 1) (v :: bs) =
      (BitVec.ofNat 8 (runLength v 254 bs + 1), v) :: rleRuns fuel (bs.drop (runLength v 254 bs)) := rfl

theorem rleRuns_nil (fuel : Nat) : rleRuns fuel [] = [] := by cases fuel <;> rfl

/-! ### No pair holds 0 -/

theorem rleRuns_count_ne_zero {fuel : Nat} {bs : List Byte} {r : Byte × Byte} (hr : r ∈ rleRuns fuel bs) :
    r.1 ≠ 0 := by
  induction fuel generalizing bs with
  | zero => cases hr
  | succ fuel ih =>
    cases bs with
    | nil => cases hr
    | cons v bs =>
      rw [rleRuns_cons] at hr
      rcases List.mem_cons.1 hr with rfl | hr
      · have hle := runLength_le v 254 bs
        have hpos : (runLength v 254 bs + 1) % 2 ^ 8 ≠ 0 := by omega
        exact fun h => hpos (by simpa using congrArg BitVec.toNat h)
      · exact ih hr

/-! ### The runs of equal bytes -/

/-- 255 equal bytes more are one full pair more, in front. -/
theorem rleRuns_replicate_full (fuel n : Nat) (v : Byte) :
    rleRuns (fuel + 1) (List.replicate (n + 255) v) = (255, v) :: rleRuns fuel (List.replicate n v) := by
  have hmore : runLength v 254 (List.replicate (n + 254) v) = 254 := by rw [runLength_replicate]; omega
  rw [List.replicate_succ, rleRuns_cons, hmore, List.drop_replicate, Nat.add_sub_cancel]
  rfl

theorem rleRuns_replicate_short (fuel n : Nat) (v : Byte) (h : n < 254) :
    rleRuns (fuel + 1) (List.replicate (n + 1) v) = [(BitVec.ofNat 8 (n + 1), v)] := by
  have hmore : runLength v 254 (List.replicate n v) = n := by rw [runLength_replicate]; omega
  rw [List.replicate_succ, rleRuns_cons, hmore, List.drop_replicate, Nat.sub_self, List.replicate_zero, rleRuns_nil]

/-- The pairs of `n` equal bytes: the full ones, then one of the rest. -/
def equalRuns (v : Byte) (n : Nat) : List (Byte × Byte) :=
  List.replicate (n / 255) (255, v) ++ (if n % 255 = 0 then [] else [(BitVec.ofNat 8 (n % 255), v)])

theorem equalRuns_add (v : Byte) (n : Nat) : equalRuns v (n + 255) = (255, v) :: equalRuns v n := by
  simp [equalRuns, List.replicate_succ]

theorem equalRuns_short (v : Byte) {n : Nat} (h : n < 254) : equalRuns v (n + 1) = [(BitVec.ofNat 8 (n + 1), v)] := by
  have hdiv : (n + 1) / 255 = 0 := by omega
  have hmod : (n + 1) % 255 = n + 1 := by omega
  simp [equalRuns, hdiv, hmod]

theorem rleRuns_replicate {fuel n : Nat} (v : Byte) (h : n ≤ fuel) :
    rleRuns fuel (List.replicate n v) = equalRuns v n := by
  induction fuel generalizing n with
  | zero =>
    obtain rfl : n = 0 := Nat.le_zero.1 h
    rfl
  | succ fuel ih =>
    rcases n with _ | n
    · rfl
    · by_cases hn : n < 254
      · rw [rleRuns_replicate_short fuel n v hn, equalRuns_short v hn]
      · obtain ⟨m, rfl⟩ : ∃ m, n = m + 254 := ⟨n - 254, by omega⟩
        rw [rleRuns_replicate_full fuel m v, ih (by omega), ← equalRuns_add]

/-- Settles O24: by induction on the turns of the encoder, each of which takes 255 bytes or all that are left. -/
theorem rleCounterStopsAt255 : Obligations.RleCounterStopsAt255 := by
  unfold Obligations.RleCounterStopsAt255
  refine ⟨fun v n => ?_, fun x r hr => rleRuns_count_ne_zero hr⟩
  exact rleRuns_replicate v (by simp)

end Sys2Proof.Machine

/-! PROOFS. A decoder's turn (20_memory.md R75, 30_encoding.md R97, R106, R109, R114). The idea: the sequencer hands the
element it has decoded to exec and lets nothing follow. -/

namespace Sys2Proof.Machine

open Sys2Proof.Safety

section
variable {s : State} {i : Instr}

theorem nextWork_decoding {k : Codec} (hb : s.busy = 1) (hst : s.stage = .decoding) (hk : codecOf s.alg = some k) :
    nextWork s = decodingWork s k := by
  simp [nextWork, hb, hst, hk]

theorem elementWork_of_decoded {f : Format} {at_ : Nat} {rest : List Byte} (size : U64) (short : Cause)
    (h : decode f ((inputBytes s).drop at_) = .ok (i, rest)) : elementWork s f at_ size short = .run i s .stay := by
  unfold elementWork
  cases hbytes : (inputBytes s).drop at_ with
  | nil => rw [hbytes] at h; cases f <;> cases h
  | cons b bs =>
    rw [hbytes] at h
    simp only [h]

theorem symWork_of_decoded {root : Nat} {rest : List Bool} (hroot : s.huf.root = some root)
    (hleaf : hufIsLeaf s.huf.nodes root = false) (howed : s.opos < s.huf.obj.originalSize.toNat)
    (h : decodeSym (hufChild s.huf.nodes) (hufIsLeaf s.huf.nodes) root (remainingBits s) = .ok (i, rest)) :
    symWork s = .run i s .stay := by
  have hmore : ¬ (hufSize s).toNat ≤ s.opos := not_le.2 howed
  simp [symWork, hroot, hleaf, hmore, h]

/-- A turn that runs an instruction on the state itself, with nothing to follow, is that instruction. -/
theorem step_of_run_stay (hh : s.host = []) (h : nextWork s = .run i s .stay) : step s = exec i s := by
  obtain ⟨t, ht⟩ := exec_answers_next i s
  rw [step_of_no_host hh, engineTurn_of_run h ht, ht, afterRun_stay]

theorem step_of_decodingWork {k : Codec} (hd : Decoding (selector k) s) (h : decodingWork s k = .run i s .stay) :
    step s = exec i s := by
  obtain ⟨hh, hb, hst, halg⟩ := hd
  exact step_of_run_stay hh ((nextWork_decoding hb hst (codecOf_eq_some_iff.2 halg)).trans h)

end

/-- Settles O7: the same turn for the four decoders, which differ in the element they fetch. -/
theorem stepRunsStreamElement : Obligations.StepRunsStreamElement := by
  unfold Obligations.StepRunsStreamElement
  refine ⟨fun s i rest hd h => ?_, fun s i rest hd h => ?_, fun s i rest hd h => ?_,
    fun s i root rest hd hroot hleaf howed h => ?_⟩
  · exact step_of_decodingWork (k := .rle) hd (elementWork_of_decoded _ _ h)
  · exact step_of_decodingWork (k := .lzw) hd (elementWork_of_decoded _ _ h)
  · exact step_of_decodingWork (k := .lz77) hd (elementWork_of_decoded _ _ h)
  · exact step_of_decodingWork (k := .huf) hd (symWork_of_decoded hroot hleaf howed h)

end Sys2Proof.Machine

/-! PROOFS. The encodings (30_encoding.md). The idea: for each byte format, the byte sequences its decoder accepts are
listed once, as an equivalence whose two directions are the two halves of the round trip; a Huffman code word is read
back along the very edges that HUF.assign walked down. -/

namespace Sys2Proof.Machine

open Sys2Proof.Safety

/-! ### The command word -/

@[simp] theorem commandAlg_append (dir : BitVec 1) (alg : Byte) : commandAlg (dir ++ alg) = alg :=
  BitVec.extractLsb'_append_eq_right

@[simp] theorem commandDir_append (dir : BitVec 1) (alg : Byte) : commandDir (dir ++ alg) = dir :=
  BitVec.extractLsb'_append_eq_left

theorem decodeCommand_eq_ok_iff {w : CmdWord} {i : Instr} :
    decodeCommand w = .ok i ↔ ∃ k, commandAlg w = selector k ∧ i = commandOf (commandDir w) k := by
  simp only [← codecOf_eq_some_iff, decodeCommand]
  cases codecOf (commandAlg w) with
  | none => simp
  | some k => simp [eq_comm]

/-- The byte ALG and then the byte DIR, least significant first, are the word `DIR:ALG` (R90). -/
theorem cmdWord_of_bytes (dir : BitVec 1) (alg : Byte) :
    BitVec.ofNat 9 (leNat [alg, dir.setWidth 8]) = dir ++ alg := by
  have hsum : dir.toNat <<< 8 ||| alg.toNat = dir.toNat * 2 ^ 8 + alg.toNat := by
    rw [Nat.shiftLeft_eq, Nat.mul_comm, Nat.two_pow_add_eq_or_of_lt alg.isLt]
  apply BitVec.eq_of_toNat_eq
  rw [BitVec.toNat_append, hsum]
  simp only [BitVec.toNat_ofNat, leNat_cons, leNat_nil, BitVec.toNat_setWidth]
  omega

theorem setWidth_toNat_le_one (dir : BitVec 1) : (dir.setWidth 8).toNat ≤ 1 := by
  rw [BitVec.toNat_setWidth]
  omega

/-- A byte that is 0 or 1 is a direction bit, widened. -/
theorem eq_setWidth_of_toNat_le_one {b : Byte} (h : b.toNat ≤ 1) : b = (b.setWidth 1).setWidth 8 := by
  apply BitVec.eq_of_toNat_eq
  simp only [BitVec.toNat_setWidth]
  omega

theorem decode_command_bytes (dir : BitVec 1) (alg : Byte) (rest : List Byte) :
    decode .command (alg :: dir.setWidth 8 :: rest) = (decodeCommand (dir ++ alg)).map (·, rest) := by
  rw [decode, if_neg (not_lt.2 (setWidth_toNat_le_one dir)), cmdWord_of_bytes]
  cases decodeCommand (dir ++ alg) <;> rfl

theorem encode_commandOf (dir : BitVec 1) (k : Codec) :
    encode (commandOf dir k) = some (.bytes .command [selector k, dir.setWidth 8]) := by
  rcases BitVec.eq_zero_or_eq_one dir with rfl | rfl <;> cases k <;> rfl

theorem wf_commandOf (dir : BitVec 1) (k : Codec) : (commandOf dir k).wf = true := by
  rcases BitVec.eq_zero_or_eq_one dir with rfl | rfl <;> cases k <;> rfl

/-! ### Tokens -/

theorem encode_tokenInstr (offset : U16) (length nextChar : Byte) :
    encode (tokenInstr offset length nextChar) = some (.bytes .lzToken (toBe16 offset ++ [length, nextChar])) := by
  by_cases h : offset = 0
  · subst h; rfl
  · rw [tokenInstr, if_neg h]; rfl

theorem wf_tokenInstr (offset : U16) (length nextChar : Byte) : (tokenInstr offset length nextChar).wf = true := by
  by_cases h : offset = 0
  · subst h; rfl
  · rw [tokenInstr, if_neg h]
    simpa [Instr.wf] using h

/-! ### What each byte format accepts -/

theorem toLe16_le16 (low high : Byte) : toLe16 (le16 [low, high]) = [low, high] := by
  have hlt : leNat [low, high] < 2 ^ 16 := (leNat_lt [low, high]).trans_eq (by norm_num)
  rw [toLe16, le16, BitVec.toNat_ofNat, Nat.mod_eq_of_lt hlt]
  exact toLE_leNat [low, high]

theorem toBe16_be16 (high low : Byte) : toBe16 (be16 [high, low]) = [high, low] :=
  congrArg List.reverse (toLe16_le16 low high)

section
variable {bs rest : List Byte} {i : Instr}

/-- R90: the selector's byte and a byte that holds the direction bit alone. -/
theorem decode_command_eq_ok_iff : decode .command bs = .ok (i, rest) ↔
    ∃ (dir : BitVec 1) (k : Codec), i = commandOf dir k ∧ bs = [selector k, dir.setWidth 8] ++ rest := by
  constructor
  · intro h
    match bs, h with
    | alg :: b :: tail, h =>
      have hb : b.toNat ≤ 1 := by
        rw [decode] at h
        split at h
        · cases h
        · omega
      rw [eq_setWidth_of_toNat_le_one hb, decode_command_bytes] at h
      cases hw : decodeCommand (b.setWidth 1 ++ alg) with
      | error e => rw [hw] at h; cases h
      | ok j =>
        rw [hw] at h
        cases h
        obtain ⟨k, halg, hi⟩ := decodeCommand_eq_ok_iff.1 hw
        rw [commandAlg_append] at halg
        rw [commandDir_append] at hi
        exact ⟨b.setWidth 1, k, hi, by rw [halg, ← eq_setWidth_of_toNat_le_one hb]; rfl⟩
  · rintro ⟨dir, k, rfl, rfl⟩
    have hw : decodeCommand (dir ++ selector k) = .ok (commandOf dir k) :=
      decodeCommand_eq_ok_iff.2 ⟨k, commandAlg_append .., by rw [commandDir_append]⟩
    exact (decode_command_bytes dir (selector k) rest).trans (by rw [hw]; rfl)

theorem decode_rlePair_eq_ok_iff : decode .rlePair bs = .ok (i, rest) ↔
    ∃ count value : Byte, i = .rlePair count value ∧ bs = [count, value] ++ rest := by
  constructor
  · intro h
    match bs, h with
    | count :: value :: tail, h => cases h; exact ⟨count, value, rfl, rfl⟩
  · rintro ⟨count, value, rfl, rfl⟩
    rfl

theorem decode_lzwCode_eq_ok_iff : decode .lzwCode bs = .ok (i, rest) ↔
    ∃ code : U16, i = .lzwCode code ∧ bs = toLe16 code ++ rest := by
  constructor
  · intro h
    match bs, h with
    | low :: high :: tail, h => cases h; exact ⟨le16 [low, high], rfl, by rw [toLe16_le16]; rfl⟩
  · rintro ⟨code, rfl, rfl⟩
    exact congrArg (fun c => Except.ok (Instr.lzwCode c, rest)) (le16_toLe16 code)

theorem decode_lzToken_eq_ok_iff : decode .lzToken bs = .ok (i, rest) ↔
    ∃ (offset : U16) (length nextChar : Byte), i = tokenInstr offset length nextChar ∧
      bs = toBe16 offset ++ [length, nextChar] ++ rest := by
  constructor
  · intro h
    match bs, h with
    | high :: low :: length :: nextChar :: tail, h =>
      cases h
      exact ⟨be16 [high, low], length, nextChar, rfl, by rw [toBe16_be16]; rfl⟩
  · rintro ⟨offset, length, nextChar, rfl, rfl⟩
    exact congrArg (fun o => Except.ok (tokenInstr o length nextChar, rest)) (be16_toBe16 offset)

end

/-- Settles O1: the bytes of each instruction are of the form its format accepts. -/
theorem decodeEncodeAgree : Obligations.DecodeEncodeAgree := by
  unfold Obligations.DecodeEncodeAgree
  intro i f bs rest hwf h
  have hcommand : ∀ dir k, encode (commandOf dir k) = some (.bytes f bs) →
      decode f (bs ++ rest) = .ok (commandOf dir k, rest) := by
    intro dir k h
    rw [encode_commandOf] at h
    cases h
    exact decode_command_eq_ok_iff.2 ⟨dir, k, rfl, rfl⟩
  cases i
  case cLz77 => exact hcommand 0 .lz77 h
  case cHuf => exact hcommand 0 .huf h
  case cRle => exact hcommand 0 .rle h
  case cLzw => exact hcommand 0 .lzw h
  case dLz77 => exact hcommand 1 .lz77 h
  case dHuf => exact hcommand 1 .huf h
  case dRle => exact hcommand 1 .rle h
  case dLzw => exact hcommand 1 .lzw h
  case rlePair count value => cases h; exact decode_rlePair_eq_ok_iff.2 ⟨count, value, rfl, rfl⟩
  case lzwCode code => cases h; exact decode_lzwCode_eq_ok_iff.2 ⟨code, rfl, rfl⟩
  case lz77Lit length nextChar => cases h; exact decode_lzToken_eq_ok_iff.2 ⟨0, length, nextChar, rfl, rfl⟩
  case lz77Ref offset length nextChar =>
    have hoffset : offset ≠ 0 := by simpa [Instr.wf] using hwf
    cases h
    exact decode_lzToken_eq_ok_iff.2 ⟨offset, length, nextChar, (if_neg hoffset).symm, rfl⟩
  all_goals cases h

/-- Settles O2: what each format accepts is the encoding of the instruction it answers. -/
theorem decodedBytesReencode : Obligations.DecodedBytesReencode := by
  unfold Obligations.DecodedBytesReencode
  intro f bs rest i h
  cases f
  case command =>
    obtain ⟨dir, k, rfl, rfl⟩ := decode_command_eq_ok_iff.1 h
    exact ⟨wf_commandOf dir k, _, encode_commandOf dir k, rfl⟩
  case rlePair =>
    obtain ⟨count, value, rfl, rfl⟩ := decode_rlePair_eq_ok_iff.1 h
    exact ⟨rfl, _, rfl, rfl⟩
  case lzwCode =>
    obtain ⟨code, rfl, rfl⟩ := decode_lzwCode_eq_ok_iff.1 h
    exact ⟨rfl, _, rfl, rfl⟩
  case lzToken =>
    obtain ⟨offset, length, nextChar, rfl, rfl⟩ := decode_lzToken_eq_ok_iff.1 h
    exact ⟨wf_tokenInstr offset length nextChar, _, encode_tokenInstr offset length nextChar, rfl⟩

/-! ### Code words -/

section
variable {child : Nat → Bool → Option Nat} {leaf : Nat → Bool} {cur next : Nat} {bit : Bool} {bits path rest : List Bool}

theorem takePath_to_leaf (hchild : child cur bit = some next) (hleaf : leaf next = true) :
    takePath child leaf cur (bit :: bits) = .ok ([bit], bits) := by
  simp [takePath, hchild, hleaf]

theorem takePath_to_inner (hchild : child cur bit = some next) (hleaf : leaf next = false)
    (h : takePath child leaf next bits = .ok (path, rest)) :
    takePath child leaf cur (bit :: bits) = .ok (bit :: path, rest) := by
  simp [takePath, hchild, hleaf, h]

end

section
variable {nodes : List (Nat × HufNode)} {fuel id : Nat} {pre : List Bool} {c : Nat × List Bool}

/-- A leaf is listed under the path that leads to it (R166). -/
theorem eq_of_mem_hufWalk_leaf (hleaf : hufIsLeaf nodes id = true) (hc : c ∈ hufWalk nodes fuel id pre) :
    c = (id, pre) := by
  cases fuel with
  | zero => cases hc
  | succ fuel =>
    cases hnode : nodes.lookup id with
    | none => simp [hufIsLeaf, hnode] at hleaf
    | some node =>
      have hkids : node.kids = none := by simpa [hufIsLeaf, hnode] using hleaf
      simpa [hufWalk, hnode, hkids] using hc

/-- What is listed below an inner node is listed below one of its children, one bit further (R166). -/
theorem exists_child_of_mem_hufWalk (hleaf : hufIsLeaf nodes id = false) (hc : c ∈ hufWalk nodes (fuel + 1) id pre) :
    ∃ bit next, hufChild nodes id bit = some next ∧ c ∈ hufWalk nodes fuel next (pre ++ [bit]) := by
  cases hnode : nodes.lookup id with
  | none => simp [hufWalk, hnode] at hc
  | some node =>
    cases hkids : node.kids with
    | none => simp [hufIsLeaf, hnode, hkids] at hleaf
    | some kids =>
      simp only [hufWalk, hnode, hkids, List.mem_append] at hc
      rcases hc with hc | hc
      · exact ⟨false, kids.1, by simp [hufChild, hnode, hkids], hc⟩
      · exact ⟨true, kids.2, by simp [hufChild, hnode, hkids], hc⟩

/-- A code listed below an inner node goes on from the path to that node by bits of its own, at least one, which are
read back from that node: the next bit leads to a leaf, where both end, or to an inner node, where both go on. -/
theorem takePath_of_mem_hufWalk (hleaf : hufIsLeaf nodes id = false) (hc : c ∈ hufWalk nodes fuel id pre) :
    ∃ bits, bits ≠ [] ∧ c.2 = pre ++ bits ∧
      ∀ rest, takePath (hufChild nodes) (hufIsLeaf nodes) id (bits ++ rest) = .ok (bits, rest) := by
  induction fuel generalizing id pre with
  | zero => cases hc
  | succ fuel ih =>
    obtain ⟨bit, next, hchild, hc⟩ := exists_child_of_mem_hufWalk hleaf hc
    cases hnext : hufIsLeaf nodes next with
    | true =>
      obtain rfl := eq_of_mem_hufWalk_leaf hnext hc
      exact ⟨[bit], by simp, rfl, fun rest => takePath_to_leaf hchild hnext⟩
    | false =>
      obtain ⟨bits, -, hpath, htake⟩ := ih hnext hc
      exact ⟨bit :: bits, by simp, by simp [hpath], fun rest => takePath_to_inner hchild hnext (htake rest)⟩

end

theorem hufAssign_codes {u : HufUnit} {root : Nat} (h : u.root = some root) :
    (hufAssign u).codes = hufWalk u.nodes 256 root [] := by
  rw [hufAssign, h]
  rfl

/-- Settles O3: a listed path is a walk from the root, of at most 255 bits since the walk has 256 units of fuel. -/
theorem huffmanCodeWordsDecode : Obligations.HuffmanCodeWordsDecode := by
  unfold Obligations.HuffmanCodeWordsDecode
  intro u root sym path rest hroot hleaf hmem
  rw [hufAssign_codes hroot] at hmem
  have htree := hufTreeOk_build u
  obtain ⟨-, hlen⟩ := hufWalk_ok htree.node (htree.root root hroot) le_rfl _ hmem
  obtain ⟨bits, hne, rfl, htake⟩ := takePath_of_mem_hufWalk hleaf hmem
  have hpos := List.length_pos_iff.2 hne
  exact ⟨by simpa [Instr.wf] using ⟨hpos, hlen⟩, rfl, by rw [decodeSym, htake rest]⟩

/-! ### Selectors that name no codec -/

theorem codecOf_eq_none_iff {alg : Byte} : codecOf alg = none ↔ 4 ≤ alg.toNat := by
  unfold codecOf
  split_ifs
  case neg => simp only [true_iff]; bv_omega
  all_goals simp_all

/-- A turn on an accepted command without a codec raises, whichever the grain. -/
theorem engineTurn_accepted_no_codec {s : State} (hb : s.busy = 1) (hst : s.stage = .accepted)
    (hk : codecOf s.alg = none) : engineTurn s = .next (raise .unknownAlgorithm s) :=
  engineTurn_of_trap ((nextWork_accepted hb hst).trans (acceptedWork_no_codec hk))

/-- Settles O5: a selector names a codec exactly below 4, and a turn on any other traps before it looks at the grain. -/
theorem illegalCommandWords : Obligations.IllegalCommandWords := by
  unfold Obligations.IllegalCommandWords
  refine ⟨fun w hw => ?_, fun w hw => ?_, fun s rest hb halg hhost => ?_⟩
  · obtain ⟨k, hk⟩ := Option.ne_none_iff_exists'.1 (mt codecOf_eq_none_iff.1 (not_le.2 hw))
    exact ⟨_, decodeCommand_eq_ok_iff.2 ⟨k, codecOf_eq_some_iff.1 hk, rfl⟩⟩
  · simp [decodeCommand, codecOf_eq_none_iff.2 hw]
  · have hstart : step s = .next { s with host := .engineTurn :: rest, busy := 1, stage := .accepted } := by
      rw [step_writeReg hhost rfl (.inr rfl)]
      simp [writeReg, acceptStart, hb]
    have hturn := engineTurn_accepted_no_codec (s := { s with host := rest, busy := 1, stage := .accepted }) rfl rfl
      (codecOf_eq_none_iff.2 halg)
    exact ⟨_, ⟨_, hstart, _, (step_engineTurn rfl).trans hturn, rfl⟩, rfl, rfl, rfl, rfl, rfl, rfl⟩

/-- Settles O4: each word is evaluated. -/
theorem sampleWordsDecode : Obligations.SampleWordsDecode := by
  unfold Obligations.SampleWordsDecode
  exact ⟨rfl, rfl, rfl, rfl, rfl, rfl, rfl, rfl, rfl, rfl, rfl, rfl⟩

end Sys2Proof.Machine

/-! PROOFS. RLE.decompress and RLE.PAIR (41_rle.md R145, R146, R148). The idea: a replay succeeds exactly where no count
is 0 and the counts add up to the bytes owed, whatever it fails on is Corrupt, and what it answers is laid into OBUF by
one append. -/

namespace Sys2Proof.Machine

open Sys2Proof.Safety

/-! ### The output built so far -/

section
variable {s : State} {out : List Byte}

/-- A buffer in which exactly `out` has been written is read back as `out`. -/
theorem outBytes_of_cells (hm : s.obuf = cells 0 out) (hl : s.opos = out.length) : outBytes s = out := by
  apply List.ext_getElem?
  intro a
  rw [outBytes_getElem?, hl]
  by_cases h : a < out.length
  · simp [h, obufByte, hm, memRead_cells]
  · simp [h]

/-- The one append of a decoder, onto an output of length 0. -/
theorem append_of_started (hopos : s.opos = 0) (hobuf : s.obuf = []) (hfit : out.length ≤ s.cfg.capOut) :
    append out s = .ok { s with obuf := cells 0 out, opos := out.length } := by
  rw [append_of_fits (by omega), hopos, hobuf, memWrite_nil, Nat.zero_add]

end

/-! ### What a sequence of pairs stands for -/

theorem expandRuns_cons (r : Byte × Byte) (runs : List (Byte × Byte)) :
    expandRuns (r :: runs) = List.replicate r.1.toNat r.2 ++ expandRuns runs := rfl

theorem length_expandRuns (runs : List (Byte × Byte)) :
    (expandRuns runs).length = (runs.map fun r => r.1.toNat).sum := by
  simp [expandRuns, List.length_flatMap]

section
variable {size : Nat} {out out' : List Byte} {r : Byte × Byte} {runs : List (Byte × Byte)} {c : Cause}

theorem rleElement_eq_ok_iff : rleElement size out r = .ok out' ↔
    r.1 ≠ 0 ∧ out.length + r.1.toNat ≤ size ∧ out ++ List.replicate r.1.toNat r.2 = out' := by
  unfold rleElement
  split
  next hzero => simp [hzero]
  next hne =>
    split
    next hbeyond => simp [Nat.not_le.2 hbeyond]
    next hwithin => simpa [Nat.not_lt.1 hwithin] using fun _ => hne

theorem rleElement_corrupt (h : rleElement size out r = .error c) : causeKind c = .corrupt := by
  unfold rleElement at h
  repeat' split at h
  all_goals cases h
  all_goals rfl

/-- R145, R148: the replay succeeds exactly on these pairs, with what they stand for. -/
theorem rleReplay_eq_ok_iff : rleReplay size runs out = .ok out' ↔
    (∀ r ∈ runs, r.1 ≠ 0) ∧ out.length + (runs.map fun r => r.1.toNat).sum = size ∧ out ++ expandRuns runs = out' := by
  induction runs generalizing out with
  | nil =>
    by_cases hlen : out.length = size
    · simp [rleReplay, expandRuns, hlen]
    · simp [rleReplay, hlen]
  | cons r runs ih =>
    rw [rleReplay]
    cases hr : rleElement size out r with
    | ok o =>
      obtain ⟨hne, -, rfl⟩ := rleElement_eq_ok_iff.1 hr
      simp only [ih, List.length_append, List.length_replicate, List.forall_mem_cons, hne, ne_eq, not_false_eq_true,
        true_and, List.map_cons, List.sum_cons, expandRuns_cons, Nat.add_assoc, List.append_assoc]
    | error c =>
      simp only [reduceCtorEq, false_iff]
      rintro ⟨hne, hsum, -⟩
      rw [List.map_cons, List.sum_cons] at hsum
      have hok : rleElement size out r = .ok _ :=
        rleElement_eq_ok_iff.2 ⟨hne r List.mem_cons_self, by omega, rfl⟩
      rw [hr] at hok
      cases hok

theorem rleReplay_corrupt (h : rleReplay size runs out = .error c) : causeKind c = .corrupt := by
  induction runs generalizing out with
  | nil =>
    rw [rleReplay] at h
    split at h <;> cases h
    rfl
  | cons r runs ih =>
    rw [rleReplay] at h
    split at h
    · exact ih h
    next hr => cases h; exact rleElement_corrupt hr

end

/-- R145, of an object: from no output at all. -/
theorem rleDecompress_eq_ok_iff {obj : RleObj} {out : List Byte} : rleDecompress obj = .ok out ↔
    (∀ r ∈ obj.runs, r.1 ≠ 0) ∧ (obj.runs.map fun r => r.1.toNat).sum = obj.originalSize.toNat ∧
      expandRuns obj.runs = out := by
  rw [rleDecompress, rleReplay_eq_ok_iff, List.length_nil, Nat.zero_add, List.nil_append]

/-! ### RLE.decompress -/

section
variable {s : State} {out : List Byte} {c : Cause}

theorem rleDecompressOp_of_ok (h : rleDecompress s.rle.obj = .ok out) (hfit : out.length ≤ s.cfg.capOut) :
    rleDecompressOp s =
      .ok { s with obuf := cells 0 out, opos := out.length, ipos := s.rle.obj.runs.length } := by
  rw [rleDecompressOp, h]
  exact append_of_started rfl rfl hfit

theorem rleDecompressOp_of_error (h : rleDecompress s.rle.obj = .error c) : rleDecompressOp s = .error c := by
  rw [rleDecompressOp, h]

theorem raises_rleDecompress (h : rleDecompress s.rle.obj = .error c) : Raises .rleDecompress s .corrupt :=
  raises_of_error rfl (rleDecompressOp_of_error h) (rleReplay_corrupt h)

end

/-- Settles O26: the replay of an object succeeds exactly where no count is 0 and the counts add up to its size. -/
theorem rleDecompressReplays : Obligations.RleDecompressReplays := by
  unfold Obligations.RleDecompressReplays
  refine fun s => ⟨fun hne hsum hcap => ?_, fun hbad => ?_⟩
  · have hlen := (length_expandRuns s.rle.obj.runs).trans hsum
    have hop := rleDecompressOp_of_ok (rleDecompress_eq_ok_iff.2 ⟨hne, hsum, rfl⟩) (hlen.trans_le hcap)
    exact ⟨_, congrArg (settle s) hop, holds_cells _, by rw [hlen]⟩
  · cases hrun : rleDecompress s.rle.obj with
    | ok out =>
      obtain ⟨hne, hsum, -⟩ := rleDecompress_eq_ok_iff.1 hrun
      exact absurd ⟨hne, hsum⟩ hbad
    | error c => exact raises_rleDecompress hrun

/-! ### RLE.PAIR -/

section
variable {s : State} {count value : Byte} {c : Cause}

/-- A pair within the declared size is one append (20_memory.md R65). -/
theorem rlePairOp_within (hne : count ≠ 0) (hsize : s.opos + count.toNat ≤ s.rle.obj.originalSize.toNat) :
    rlePairOp count value s = append (List.replicate count.toNat value) { s with ipos := s.ipos + 1 } := by
  have hok : rleElement s.rle.obj.originalSize.toNat (outBytes s) (count, value) = .ok _ :=
    rleElement_eq_ok_iff.2 ⟨hne, by rw [length_outBytes]; exact hsize, rfl⟩
  rw [rlePairOp, hok]
  exact extend_outBytes (t := { s with ipos := s.ipos + 1 }) _ rfl

theorem rlePairOp_of_error (h : rleElement s.rle.obj.originalSize.toNat (outBytes s) (count, value) = .error c) :
    rlePairOp count value s = .error c := by
  rw [rlePairOp, h]

/-- A pair that counts 0, or more than is owed. -/
theorem raises_rlePair (hbad : count = 0 ∨ s.rle.obj.originalSize.toNat < s.opos + count.toNat) :
    Raises (.rlePair count value) s .corrupt := by
  cases h : rleElement s.rle.obj.originalSize.toNat (outBytes s) (count, value) with
  | ok out =>
    obtain ⟨hne, hsize, -⟩ := rleElement_eq_ok_iff.1 h
    rw [length_outBytes] at hsize
    rcases hbad with hzero | hbeyond
    · exact absurd hzero hne
    · exact absurd hsize (Nat.not_le.2 hbeyond)
  | error c => exact raises_of_error rfl (rlePairOp_of_error h) (rleElement_corrupt h)

end

/-- Settles O27: within the declared size the element is one append, which fits OBUF or does not. -/
theorem rlePairAppends : Obligations.RlePairAppends := by
  unfold Obligations.RlePairAppends
  intro s count value
  refine ⟨fun hne hsize hcap => ?_, raises_rlePair, fun hne hsize hcap => ?_⟩
  · have hop := (rlePairOp_within (value := value) hne hsize).trans (append_of_fits (by simpa using hcap))
    exact ⟨_, congrArg (settle s) hop, by simp, writtenAt_memWrite _ _ _⟩
  · exact raises_of_error rfl
      ((rlePairOp_within hne hsize).trans (append_of_beyond (by simpa using hcap))) rfl

end Sys2Proof.Machine

/-! PROOFS. The two grains of a decompress command (10_state.md R21, R39, 45_dispatcher.md R276 to R279; log entry 6).
The idea: as in a compress command no operation looks at BUSY, the stage or the grain, so the two grains agree as soon
as the decoder's turns end as the decoder does when it is run whole. For RLE that is an induction over the pairs left in
the image, with the output built so far as the replay's accumulator. -/

namespace Sys2Proof.Machine

open Sys2Proof.Safety

/-! ### Operations free of the sequencer's fields -/

theorem imageInput_withControl (busy : BitVec 1) (stage : Stage) (grain : Grain) (s : State) :
    imageInput (s.withControl busy stage grain) = imageInput s := rfl

theorem controlFree_parseOp {α : Type} (parse : List Byte → Except Cause α) (put : State → α → State)
    (hput : ∀ busy stage grain s obj,
      put (s.withControl busy stage grain) obj = (put s obj).withControl busy stage grain) :
    ControlFree (parseOp parse put) := by
  intro busy stage grain s
  simp only [parseOp, imageInput_withControl, hput]
  cases imageInput s with
  | error c => rfl
  | ok input => simp only; cases parse input <;> rfl

theorem controlFree_codecParseOp (k : Codec) : ControlFree (codecParseOp k) := by
  cases k <;> exact controlFree_parseOp _ _ fun _ _ _ _ _ => rfl

/-- A decoder run whole up to its one append: the bytes it answers, and the state they are appended to (log entry
22). -/
def decoderRun (s : State) : Codec → Except Cause (List Byte × State)
  | .lz77 => (lz77Decompress s.lz77.obj).map fun out =>
      (out, { startOutput s with
        lz77 := s.lz77.obj.tokens.foldl lz77Count s.lz77, ipos := s.lz77.obj.tokens.length })
  | .huf => (hufDecompress s.huf).map fun r => (r.2.2, { startOutput s with huf := r.1, bitpos := r.2.1 })
  | .rle => (rleDecompress s.rle.obj).map fun out => (out, { startOutput s with ipos := s.rle.obj.runs.length })
  | .lzw => (lzwDecompress s.lzw).map fun r =>
      (r.2, { startOutput s with lzw := r.1, ipos := s.lzw.obj.codes.length })

theorem codecDecompressOp_eq (k : Codec) (s : State) :
    codecDecompressOp k s = (decoderRun s k).bind fun r => append r.1 r.2 := by
  cases k
  case lz77 => simp only [codecDecompressOp, lz77DecompressOp, decoderRun]; cases lz77Decompress s.lz77.obj <;> rfl
  case huf => simp only [codecDecompressOp, hufDecompressOp, decoderRun]; cases hufDecompress s.huf <;> rfl
  case rle => simp only [codecDecompressOp, rleDecompressOp, decoderRun]; cases rleDecompress s.rle.obj <;> rfl
  case lzw => simp only [codecDecompressOp, lzwDecompressOp, decoderRun]; cases lzwDecompress s.lzw <;> rfl

theorem decoderRun_withControl (busy : BitVec 1) (stage : Stage) (grain : Grain) (s : State) (k : Codec) :
    decoderRun (s.withControl busy stage grain) k =
      (decoderRun s k).map fun r => (r.1, r.2.withControl busy stage grain) := by
  cases k
  case lz77 => simp only [decoderRun, State.withControl]; cases lz77Decompress s.lz77.obj <;> rfl
  case huf => simp only [decoderRun, State.withControl]; cases hufDecompress s.huf <;> rfl
  case rle => simp only [decoderRun, State.withControl]; cases rleDecompress s.rle.obj <;> rfl
  case lzw => simp only [decoderRun, State.withControl]; cases lzwDecompress s.lzw <;> rfl

theorem controlFree_codecDecompressOp (k : Codec) : ControlFree (codecDecompressOp k) := by
  intro busy stage grain s
  rw [codecDecompressOp_eq, codecDecompressOp_eq, decoderRun_withControl]
  cases decoderRun s k with
  | ok r => exact controlFree_append r.1 busy stage grain r.2
  | error c => rfl

theorem controlFree_checkOutput (k : Codec) : ControlFree fun s => checkOutput (objectSize s k) s := by
  intro busy stage grain s
  have hsize : objectSize (s.withControl busy stage grain) k = objectSize s k := by cases k <;> rfl
  simp only [checkOutput, hsize]
  rw [apply_ite (Except.map _)]
  rfl

theorem controlFree_decompressOp (k : Codec) :
    ControlFree (decompressOp (codecParseOp k) (objectSize · k) (codecDecompressOp k)) :=
  controlFree_andThen
    (controlFree_andThen
      (controlFree_andThen controlFree_checkInput fun busy stage grain s =>
        controlFree_codecParseOp k busy stage grain (startOutput s))
      (controlFree_checkOutput k))
    (controlFree_codecDecompressOp k)

section
variable {s t u v : State} {k : Codec}

/-! ### A decompress command at the grain of commands -/

theorem step_decompress_command (ha : Accepted s) (hd : s.dir = 1) (hk : codecOf s.alg = some k) :
    step { s with grain := .command } = settleCommand (s.withControl 1 .accepted .command)
      ((decompressOp (codecParseOp k) (objectSize · k) (codecDecompressOp k) s).map
        (State.withControl 1 .accepted .command)) := by
  obtain ⟨-, hh, hb, hst⟩ := ha
  have hs : ({ s with grain := .command } : State) = s.withControl 1 .accepted .command := by
    rw [State.withControl, ← hb, ← hst]
  have hword : decodeCommand (commandWord (s.withControl 1 .accepted .command)) = .ok (commandOf 1 k) :=
    hd ▸ decodeCommand_of_codec (s := s.withControl 1 .accepted .command) hk
  rw [hs, ← controlFree_decompressOp k 1 .accepted .command s, ← exec_commandOf_decompress]
  exact stepRunsAcceptedCommand _ _ hh rfl rfl rfl hword

/-! ### A decompress command at the grain of operations -/

/-- The first turn where the input tests pass: the deserializer, on an output of length 0. -/
theorem step_accepted_parse (ha : Accepted s) (hd : s.dir = 1) (hg : s.grain = .operation)
    (hk : codecOf s.alg = some k) (hc : checkInput s = .ok s)
    (he : settle (startOutput s) (codecParseOp k (startOutput s)) = .next u) :
    step s = .next (afterRun .parsed u) := by
  obtain ⟨-, hh, hb, hst⟩ := ha
  have hw : nextWork s = .run (firstOperation 1 k) (startOutput s) .parsed := by
    rw [nextWork_accepted hb hst, acceptedWork_operation hk hg hc, hd]
    rfl
  rw [step_of_no_host hh, engineTurn_of_run hw ((exec_firstOperation_decompress k _).trans he)]

theorem nextWork_parsed (hb : s.busy = 1) (hst : s.stage = .parsed) (hk : codecOf s.alg = some k) :
    nextWork s = parsedWork s k := by
  simp [nextWork, hb, hst, hk]

theorem engineTurn_of_go (h : nextWork s = .go t) : engineTurn s = .next t := by
  simp [engineTurn, h]

/-- The state in which a decoder takes its first element (10_state.md R50, 42_huffman.md R175). -/
def decoderStarted (s : State) : Codec → State
  | .lz77 => startDecoder s .lz77
  | .huf => { s with bitpos := 0, stage := .decoding, huf := hufStartUnit s.huf }
  | .rle => startDecoder s .rle
  | .lzw => startDecoder s .lzw

theorem decoderStarted_stage (s : State) (stage : Stage) (k : Codec) :
    decoderStarted { s with stage := stage } k = decoderStarted s k := by
  cases k <;> rfl

/-- The turn of check_output where the declared size does not fit. -/
theorem step_parsed_beyond (hh : s.host = []) (hb : s.busy = 1) (hst : s.stage = .parsed)
    (hk : codecOf s.alg = some k) (hcap : s.cfg.capOut < (objectSize s k).toNat) :
    step s = .next (raise .declaredBeyondOutput s) := by
  have hw : nextWork s = .trap .declaredBeyondOutput := by
    rw [nextWork_parsed hb hst hk, parsedWork, checkOutput_of_beyond hcap]
  rw [step_of_no_host hh, engineTurn_of_trap hw]

/-- The turn of check_output where the declared size fits: the decoder is started. -/
theorem step_parsed_within (hh : s.host = []) (hb : s.busy = 1) (hst : s.stage = .parsed)
    (hk : codecOf s.alg = some k) (hcap : (objectSize s k).toNat ≤ s.cfg.capOut) :
    step s = .next (decoderStarted s k) := by
  have hw := (nextWork_parsed hb hst hk).trans (by rw [parsedWork, checkOutput_of_fits hcap])
  rw [step_of_no_host hh]
  cases k
  case lz77 => exact engineTurn_of_go hw
  case huf => rw [engineTurn_of_run hw rfl, afterRun_walk (by exact hb)]; rfl
  case rle => exact engineTurn_of_go hw
  case lzw => exact engineTurn_of_go hw

/-- Run in turns of its own on what the deserializer has made, `v`, the decoder ends as it does inside the whole command
on `s`. -/
def DecoderTurnsAgree (k : Codec) (s v : State) : Prop :=
  ∃ n u w, Reaches n (decoderStarted v k) u ∧ settleCommand s (codecDecompressOp k v) = .next w ∧ SameInterface w u

/-- The deserializer's turn has made `v`: check_output's turn and the decoder's end as the whole command does. -/
theorem parsed_turns_end_command (hh : s.host = []) (hb : s.busy = 1) (hk : codecOf s.alg = some k)
    (hv : codecParseOp k (startOutput s) = .ok v)
    (hdec : (objectSize v k).toNat ≤ v.cfg.capOut → DecoderTurnsAgree k s v) :
    ∃ n u w, Reaches n { v with stage := .parsed } u ∧
      settleCommand s (andThen (checkOutput (objectSize v k) v) (codecDecompressOp k)) = .next w ∧
      SameInterface w u := by
  have hop := (operated_startOutput k s).trans (operated_parse hv)
  have hsize : objectSize { v with stage := .parsed } k = objectSize v k := by cases k <;> rfl
  have hvk : codecOf v.alg = some k := hop.alg ▸ hk
  by_cases hcap : (objectSize v k).toNat ≤ v.cfg.capOut
  · obtain ⟨n, u, w, hreach, hend, hsame⟩ := hdec hcap
    have hstep := step_parsed_within (s := { v with stage := .parsed }) (hop.host.trans hh) (hop.busy.trans hb) rfl hvk
      (hsize ▸ hcap)
    rw [decoderStarted_stage] at hstep
    exact ⟨n + 1, u, w, ⟨_, hstep, hreach⟩, by rw [checkOutput_of_fits hcap]; exact hend, hsame⟩
  · have hbeyond := Nat.not_le.1 hcap
    have hstep := step_parsed_beyond (s := { v with stage := .parsed }) (hop.host.trans hh) (hop.busy.trans hb) rfl hvk
      (hsize ▸ hbeyond)
    exact ⟨1, _, raise .declaredBeyondOutput s, ⟨_, hstep, rfl⟩, by rw [checkOutput_of_beyond hbeyond]; rfl,
      (sameInterface_raise _ hop.toKeeps :)⟩

/-- Run operation by operation, an accepted decompress command ends as the whole command does, if its decoder does. -/
theorem decompress_operations_reach_end (ha : Accepted s) (hd : s.dir = 1) (hg : s.grain = .operation)
    (hk : codecOf s.alg = some k)
    (hdec : ∀ v, codecParseOp k (startOutput s) = .ok v → (objectSize v k).toNat ≤ v.cfg.capOut →
      DecoderTurnsAgree k s v) :
    ∃ n u w, Reaches n s u ∧
      settleCommand s (decompressOp (codecParseOp k) (objectSize · k) (codecDecompressOp k) s) = .next w ∧
      SameInterface w u := by
  have ⟨_, hh, hb, _⟩ := ha
  cases hc : checkInput s with
  | error c =>
    exact ⟨1, _, raise c s, ⟨_, step_accepted_badInput ha hg hk hc, rfl⟩, by simp [decompressOp, hc],
      sameInterface_refl _⟩
  | ok t =>
    obtain rfl : t = s := checkInput_eq_self hc
    cases hv : codecParseOp k (startOutput t) with
    | error c =>
      have hstep := step_accepted_parse ha hd hg hk hc (by rw [hv]; rfl)
      rw [afterRun_idle _ (raise_busy c _)] at hstep
      exact ⟨1, _, raise c t, ⟨_, hstep, rfl⟩, by simp [decompressOp, hc, hv],
        sameInterface_raise c (keeps_startOutput t)⟩
    | ok v =>
      have hparse : step t = .next { v with stage := .parsed } := by
        rw [step_accepted_parse ha hd hg hk hc (by rw [hv]; rfl), afterRun_parsed ((operated_parse hv).busy.trans hb)]
      obtain ⟨n, u, w, hreach, hend, hsame⟩ := parsed_turns_end_command hh hb hk hv (hdec v hv)
      exact ⟨n + 1, u, w, ⟨_, hparse, hreach⟩, by simpa [decompressOp, hc, hv] using hend, hsame⟩

/-- The two grains of a decompress command agree if the decoder's turns agree with the decoder run whole. -/
theorem decompress_grains_agree (ha : Accepted s) (hd : s.dir = 1) (hg : s.grain = .operation)
    (hk : codecOf s.alg = some k)
    (hdec : ∀ v, codecParseOp k (startOutput s) = .ok v → (objectSize v k).toNat ≤ v.cfg.capOut →
      DecoderTurnsAgree k s v)
    (ht : step { s with grain := .command } = .next t) : ∃ n u, Reaches n s u ∧ SameInterface t u := by
  obtain ⟨n, u, w, hreach, hend, hsame⟩ := decompress_operations_reach_end ha hd hg hk hdec
  rw [step_decompress_command ha hd hk] at ht
  exact ⟨n, u, hreach, sameInterface_trans (sameInterface_settleCommand_withControl hend ht) hsame⟩

/-! ### What a decoder's turns have to end in -/

/-- The end of a command on `s` that answers these bytes, or raises this cause (60_exceptions.md R330, R331). -/
def answered (s : State) : Except Cause (List Byte) → State
  | .ok out => complete { s with obuf := cells 0 out, opos := out.length }
  | .error c => raise c s

theorem sameInterface_answered (r : Except Cause (List Byte)) (hcfg : t.cfg = s.cfg) (halg : t.alg = s.alg)
    (hdir : t.dir = s.dir) (hilen : t.ilen = s.ilen) (hibuf : t.ibuf = s.ibuf) :
    SameInterface (answered s r) (answered t r) := by
  cases r <;> exact ⟨rfl, rfl, rfl, halg.symm, hdir.symm, hilen.symm, hibuf.symm, rfl, hcfg.symm⟩

theorem elementWork_at_end {f : Format} {at_ : Nat} (size : U64) (short : Cause) (h : (inputBytes s).drop at_ = []) :
    elementWork s f at_ size short = if s.opos = size.toNat then .go (complete s) else .trap short := by
  simp only [elementWork, h]

/-- The turn of a decoder of bytes at the end of its image: the final length test. -/
theorem step_at_end {size : U64} {short : Cause} (hd : Decoding (selector k) s)
    (h : decodingWork s k = if s.opos = size.toNat then .go (complete s) else .trap short) :
    step s = .next (if s.opos = size.toNat then complete s else raise short s) := by
  obtain ⟨hh, hb, hst, halg⟩ := hd
  have hw := (nextWork_decoding hb hst (codecOf_eq_some_iff.2 halg)).trans h
  rw [step_of_no_host hh]
  split at hw
  next hlen => rw [engineTurn_of_go hw, if_pos hlen]
  next hlen => rw [engineTurn_of_trap hw, if_neg hlen]

end

/-! ### The turns of the RLE decoder -/

theorem flatMap_parsePairs {bs : List Byte} (h : bs.length % 2 = 0) :
    ((parsePairs bs).flatMap fun r => [r.1, r.2]) = bs := by
  induction bs using parsePairs.induct with
  | case1 count value rest ih =>
    have hrest := ih (by simp only [List.length_cons] at h; omega)
    rw [parsePairs, List.flatMap_cons, hrest]
    rfl
  | case2 b => simp at h
  | case3 => rfl

/-- A sound image is its header and its object's pairs, count first (30_encoding.md R97). -/
theorem desRle_pair_area {input : List Byte} {obj : RleObj} (h : desRle input = .ok obj) :
    input.drop 16 = obj.runs.flatMap fun r => [r.1, r.2] := by
  have hheader : Config.rleHeader = 16 := rfl
  unfold desRle at h
  split at h
  · cases h
  split at h
  · cases h
  next hsize =>
    split at h
    · cases h
    next heven =>
      cases h
      exact (flatMap_parsePairs (by rw [List.length_drop]; omega)).symm

section
variable {s v : State} {runs : List (Byte × Byte)} {out : List Byte}

/-- The RLE decoder has the turn, the pairs `runs` are left in the image, and `out` has been built. -/
structure RleReplaying (s : State) (runs : List (Byte × Byte)) (out : List Byte) : Prop where
  decoding : Decoding (selector .rle) s
  left : (inputBytes s).drop (16 + 2 * s.ipos) = runs.flatMap fun r => [r.1, r.2]
  obuf : s.obuf = cells 0 out
  opos : s.opos = out.length
  fits : s.rle.obj.originalSize.toNat ≤ s.cfg.capOut

/-- The answer of the RLE decoder from here on (41_rle.md R145). -/
def rleAnswer (s : State) (runs : List (Byte × Byte)) (out : List Byte) : State :=
  answered s (rleReplay s.rle.obj.originalSize.toNat runs out)

/-- The turn with no pair left. -/
theorem rle_turn_at_end (h : RleReplaying s [] out) : ∃ u, step s = .next u ∧ SameInterface (rleAnswer s [] out) u := by
  have hstep := step_at_end h.decoding (elementWork_at_end (rleSize s) .rleShort h.left)
  rw [h.opos] at hstep
  refine ⟨_, hstep, ?_⟩
  rw [rleAnswer, rleReplay]
  change SameInterface _ (if out.length = s.rle.obj.originalSize.toNat then _ else _)
  split
  · rw [answered, ← h.obuf, ← h.opos]
    exact sameInterface_refl _
  · exact sameInterface_refl _

/-- `s` after a pair that raises nothing. -/
def pairReplayed (s : State) (count value : Byte) : State :=
  { s with
    obuf := memWrite s.obuf s.opos (List.replicate count.toNat value)
    opos := s.opos + (List.replicate count.toNat value).length
    ipos := s.ipos + 1 }

theorem rleReplaying_pairReplayed {count value : Byte} (h : RleReplaying s ((count, value) :: runs) out) :
    RleReplaying (pairReplayed s count value) runs (out ++ List.replicate count.toNat value) where
  decoding := h.decoding
  left := by
    have hleft := congrArg (List.drop 2) h.left
    rwa [List.drop_drop] at hleft
  obuf := by rw [pairReplayed, h.obuf, h.opos, memWrite_cells]
  opos := by rw [pairReplayed, h.opos, List.length_append]
  fits := h.fits

/-- The turn of a pair: it raises what the replay raises, or the replay goes on from the state it leaves. -/
theorem rle_turn_of_pair {count value : Byte} (h : RleReplaying s ((count, value) :: runs) out) :
    ∃ u, step s = .next u ∧ (SameInterface (rleAnswer s ((count, value) :: runs) out) u ∨
      u = pairReplayed s count value ∧ SameInterface (rleAnswer s ((count, value) :: runs) out)
        (rleAnswer u runs (out ++ List.replicate count.toNat value))) := by
  have hpair : decode .rlePair ((inputBytes s).drop (Config.rleHeader + 2 * s.ipos)) =
      .ok (.rlePair count value, runs.flatMap fun r => [r.1, r.2]) := congrArg (decode .rlePair) h.left
  have hstep : step s = settle s (rlePairOp count value s) :=
    step_of_decodingWork h.decoding (elementWork_of_decoded _ _ hpair)
  rw [rleAnswer, rleReplay]
  cases hr : rleElement s.rle.obj.originalSize.toNat out (count, value) with
  | error c =>
    rw [rlePairOp_of_error (by rw [outBytes_of_cells h.obuf h.opos]; exact hr)] at hstep
    exact ⟨_, hstep, .inl (sameInterface_refl _)⟩
  | ok out' =>
    obtain ⟨hne, hsize, rfl⟩ := rleElement_eq_ok_iff.1 hr
    replace hsize : s.opos + count.toNat ≤ s.rle.obj.originalSize.toNat := h.opos ▸ hsize
    have hcap := hsize.trans h.fits
    rw [rlePairOp_within hne hsize, append_of_fits (by simpa using hcap)] at hstep
    exact ⟨_, hstep, .inr ⟨rfl,
      sameInterface_answered (t := pairReplayed s count value) _ rfl rfl rfl rfl rfl⟩⟩

/-- Turn by turn the decoder ends as the replay of the pairs left answers (41_rle.md R145, R146). -/
theorem rle_turns_reach_answer (h : RleReplaying s runs out) :
    ∃ n u, Reaches n s u ∧ SameInterface (rleAnswer s runs out) u := by
  induction runs generalizing s out with
  | nil =>
    obtain ⟨u, hstep, hsame⟩ := rle_turn_at_end h
    exact ⟨1, u, ⟨u, hstep, rfl⟩, hsame⟩
  | cons r runs ih =>
    obtain ⟨count, value⟩ := r
    obtain ⟨v, hstep, hsame | ⟨rfl, hsame⟩⟩ := rle_turn_of_pair h
    · exact ⟨1, v, ⟨v, hstep, rfl⟩, hsame⟩
    · obtain ⟨n, u, hreach, hend⟩ := ih (rleReplaying_pairReplayed h)
      exact ⟨n + 1, u, ⟨_, hstep, hreach⟩, sameInterface_trans hsame hend⟩

/-! ### The RLE decoder run whole -/

/-- Run whole inside a command on `s`, the RLE decoder ends as its replay from no output at all answers. -/
theorem settleCommand_rleDecompressOp (h : Keeps s v) (hcap : v.rle.obj.originalSize.toNat ≤ v.cfg.capOut) :
    ∃ w, settleCommand s (rleDecompressOp v) = .next w ∧ SameInterface w (answered v (rleDecompress v.rle.obj)) := by
  cases hrun : rleDecompress v.rle.obj with
  | ok out =>
    obtain ⟨-, hsum, rfl⟩ := rleDecompress_eq_ok_iff.1 hrun
    have hfit : (expandRuns v.rle.obj.runs).length ≤ v.cfg.capOut := by rw [length_expandRuns, hsum]; exact hcap
    exact ⟨_, congrArg (settleCommand s) (rleDecompressOp_of_ok hrun hfit),
      ⟨rfl, rfl, rfl, rfl, rfl, rfl, rfl, rfl, rfl⟩⟩
  | error c =>
    exact ⟨_, congrArg (settleCommand s) (rleDecompressOp_of_error hrun), sameInterface_raise c h⟩

/-- Where the decoder starts, no output has been built, and the pairs left are those of the object. -/
theorem rleReplaying_started (hh : s.host = []) (hb : s.busy = 1) (halg : s.alg = 2)
    (hv : codecParseOp .rle (startOutput s) = .ok v) (hcap : (objectSize v .rle).toNat ≤ v.cfg.capOut) :
    RleReplaying (startDecoder v .rle) v.rle.obj.runs [] := by
  obtain ⟨-, obj, hobj, rfl⟩ := desRleOp_eq_ok hv
  exact ⟨⟨hh, hb, rfl, halg⟩, desRle_pair_area hobj, rfl, rfl, hcap⟩

theorem rle_decoderTurnsAgree (hh : s.host = []) (hb : s.busy = 1) (halg : s.alg = 2)
    (hv : codecParseOp .rle (startOutput s) = .ok v) (hcap : (objectSize v .rle).toNat ≤ v.cfg.capOut) :
    DecoderTurnsAgree .rle s v := by
  have hkeep := ((operated_startOutput .rle s).trans (operated_parse hv)).toKeeps
  obtain ⟨w, hend, hw⟩ := settleCommand_rleDecompressOp hkeep hcap
  obtain ⟨n, u, hreach, hu⟩ := rle_turns_reach_answer (rleReplaying_started hh hb halg hv hcap)
  have hstart : SameInterface (answered v (rleDecompress v.rle.obj))
      (rleAnswer (startDecoder v .rle) v.rle.obj.runs []) := sameInterface_answered _ rfl rfl rfl rfl rfl
  exact ⟨n, u, w, hreach, hend, sameInterface_trans hw (sameInterface_trans hstart hu)⟩

end

/-- Settles O55: the decoder's turns replay the pairs of the image, which are those of the object the deserializer
made. -/
theorem rleDecodeGrainsAgree : Obligations.RleDecodeGrainsAgree := by
  unfold Obligations.RleDecodeGrainsAgree
  intro s t ha hd halg hg ht
  have ⟨_, hh, hb, _⟩ := ha
  have hk : codecOf s.alg = some .rle := codecOf_eq_some_iff.2 halg
  exact decompress_grains_agree ha hd hg hk
    (fun v hv hcap => rle_decoderTurnsAgree hh hb halg hv hcap) ht

end Sys2Proof.Machine

/-! PROOFS. The length of a decoder's output (41_rle.md R145, 42_huffman.md R175, 43_lzw.md R210, 44_lz77.md R245). The
idea: each decoder ends on a test that its output has the declared length, everything it fails on is Corrupt, and one
append lays the output from address 0. -/

namespace Sys2Proof.Machine

open Sys2Proof.Safety

/-! ### The walk over the Huffman tree -/

section
variable {nodes : List (Nat × HufNode)} {root size : Nat} {bit : Bool} {bits : List Bool} {d d' : Unpacker}
  {u u' : HufUnit} {bitpos : Nat} {out : List Byte} {c : Cause}

/-- A bit adds a byte only while bytes are owed (42_huffman.md R178). -/
theorem hufBit_length_le (hd : d.out.length ≤ size) (h : hufBit nodes root size d bit = .ok d') :
    d'.out.length ≤ size := by
  unfold hufBit at h
  split at h
  · cases h
    exact hd
  next howed =>
    split at h
    · cases h
    · split at h <;> cases h
      · rw [List.length_append, List.length_singleton]
        omega
      · exact hd

theorem hufBit_corrupt (h : hufBit nodes root size d bit = .error c) : causeKind c = .corrupt := by
  unfold hufBit at h
  split at h
  · cases h
  · split at h
    · cases h
      rfl
    · split at h <;> cases h

theorem hufBits_length_le (hd : d.out.length ≤ size) (h : hufBits nodes root size bits d = .ok d') :
    d'.out.length ≤ size := by
  induction bits generalizing d with
  | nil => cases h; exact hd
  | cons bit bits ih =>
    unfold hufBits at h
    split at h
    next hbit => exact ih (hufBit_length_le hd hbit) h
    next => cases h

theorem hufBits_corrupt (h : hufBits nodes root size bits d = .error c) : causeKind c = .corrupt := by
  induction bits generalizing d with
  | nil => cases h
  | cons bit bits ih =>
    unfold hufBits at h
    split at h
    next => exact ih h
    next hbit => cases h; exact hufBit_corrupt hbit

theorem hufDecompress_eq_ok (h : hufDecompress u = .ok (u', bitpos, out)) :
    out.length = u.obj.originalSize.toNat ∧ u'.obj = u.obj := by
  unfold hufDecompress at h
  dsimp only at h
  split at h
  · split at h <;> cases h
    next hsize => exact ⟨hsize.symm, rfl⟩
  next root _ =>
    split at h
    · cases h
      exact ⟨List.length_replicate, rfl⟩
    · split at h
      next d hrun =>
        split at h <;> cases h
        next howed =>
          have hle := hufBits_length_le (d := ⟨root, 0, []⟩) (Nat.zero_le _) hrun
          exact ⟨Nat.le_antisymm hle howed, rfl⟩
      next => cases h

theorem hufDecompress_corrupt (h : hufDecompress u = .error c) : causeKind c = .corrupt := by
  unfold hufDecompress at h
  dsimp only at h
  split at h
  · split at h <;> cases h
    rfl
  · split at h
    · cases h
    · split at h
      next => split at h <;> cases h; rfl
      next hrun => cases h; exact hufBits_corrupt hrun

end

/-! ### The replay of LZW codes -/

section
variable {size : Nat} {first : Bool} {code : U16} {codes : List U16} {u u' : LzwUnit} {out out' : List Byte} {c : Cause}

theorem lzwElement_obj (h : lzwElement size first u out code = .ok (u', out')) : u'.obj = u.obj := by
  unfold lzwElement at h
  repeat' split at h
  all_goals cases h
  all_goals rfl

theorem lzwElement_corrupt (h : lzwElement size first u out code = .error c) : causeKind c = .corrupt := by
  unfold lzwElement at h
  repeat' split at h
  all_goals cases h
  all_goals rfl

theorem lzwReplay_eq_ok (h : lzwReplay size first codes u out = .ok (u', out')) :
    out'.length = size ∧ u'.obj = u.obj := by
  induction codes generalizing first u out with
  | nil =>
    unfold lzwReplay at h
    split at h <;> cases h
    next hlen => exact ⟨hlen, rfl⟩
  | cons code codes ih =>
    unfold lzwReplay at h
    split at h
    next hcode =>
      obtain ⟨hlen, hobj⟩ := ih h
      exact ⟨hlen, hobj.trans (lzwElement_obj hcode)⟩
    next => cases h

theorem lzwReplay_corrupt (h : lzwReplay size first codes u out = .error c) : causeKind c = .corrupt := by
  induction codes generalizing first u out with
  | nil =>
    unfold lzwReplay at h
    split at h <;> cases h
    rfl
  | cons code codes ih =>
    unfold lzwReplay at h
    split at h
    next => exact ih h
    next hcode => cases h; exact lzwElement_corrupt hcode

theorem lzwDecompress_eq_ok (h : lzwDecompress u = .ok (u', out)) :
    out.length = u.obj.originalSize.toNat ∧ u'.obj = u.obj :=
  lzwReplay_eq_ok (u := { u with dict := [] }) h

end

/-! ### The replay of LZ77 tokens -/

section
variable {size : Nat} {token : Token} {tokens : List Token} {out out' : List Byte} {c : Cause}

theorem lz77Element_corrupt (h : lz77Element size out token = .error c) : causeKind c = .corrupt := by
  unfold lz77Element at h
  repeat' split at h
  all_goals cases h
  all_goals rfl

theorem lz77Replay_length (h : lz77Replay size tokens out = .ok out') : out'.length = size := by
  induction tokens generalizing out with
  | nil =>
    unfold lz77Replay at h
    split at h <;> cases h
    assumption
  | cons token tokens ih =>
    unfold lz77Replay at h
    split at h
    · exact ih h
    · cases h

theorem lz77Replay_corrupt (h : lz77Replay size tokens out = .error c) : causeKind c = .corrupt := by
  induction tokens generalizing out with
  | nil =>
    unfold lz77Replay at h
    split at h <;> cases h
    rfl
  | cons token tokens ih =>
    unfold lz77Replay at h
    split at h
    next => exact ih h
    next htoken => cases h; exact lz77Element_corrupt htoken

theorem lz77Count_obj (u : Lz77Unit) (token : Token) : (lz77Count u token).obj = u.obj := by
  unfold lz77Count
  split <;> rfl

theorem foldl_lz77Count_obj (tokens : List Token) (u : Lz77Unit) : (tokens.foldl lz77Count u).obj = u.obj := by
  induction tokens generalizing u with
  | nil => rfl
  | cons token tokens ih => rw [List.foldl_cons, ih, lz77Count_obj]

end

/-! ### The four decoders run whole -/

/-- What a decoder changes before its append: its unit, but not the object, and its cursor. -/
def DecoderFrame (s u : State) : Codec → Prop
  | .lz77 => ∃ unit ipos, unit.obj = s.lz77.obj ∧ u = { startOutput s with lz77 := unit, ipos := ipos }
  | .huf => ∃ unit bitpos, unit.obj = s.huf.obj ∧ u = { startOutput s with huf := unit, bitpos := bitpos }
  | .rle => ∃ ipos, u = { startOutput s with ipos := ipos }
  | .lzw => ∃ unit ipos, unit.obj = s.lzw.obj ∧ u = { startOutput s with lzw := unit, ipos := ipos }

section
variable {s u : State} {k : Codec} {i : Instr} {out : List Byte} {c : Cause}

theorem DecoderFrame.started (h : DecoderFrame s u k) : u.opos = 0 ∧ u.obuf = [] ∧ u.cfg = s.cfg := by
  cases k
  case lz77 => obtain ⟨unit, ipos, -, rfl⟩ := h; exact ⟨rfl, rfl, rfl⟩
  case huf => obtain ⟨unit, bitpos, -, rfl⟩ := h; exact ⟨rfl, rfl, rfl⟩
  case rle => obtain ⟨ipos, rfl⟩ := h; exact ⟨rfl, rfl, rfl⟩
  case lzw => obtain ⟨unit, ipos, -, rfl⟩ := h; exact ⟨rfl, rfl, rfl⟩

theorem except_map_eq_ok {α β : Type} {r : Except Cause α} {f : α → β} {b : β} (h : r.map f = .ok b) :
    ∃ a, r = .ok a ∧ f a = b := by
  cases r with
  | ok a => exact ⟨a, rfl, Except.ok.inj h⟩
  | error c => cases h

theorem except_map_eq_error {α β : Type} {r : Except Cause α} {f : α → β} (h : r.map f = .error c) : r = .error c := by
  cases r with
  | ok a => cases h
  | error c' => exact congrArg _ (Except.error.inj h)

theorem listsExactly_of_holds {m : Memory} (h : Holds m out) : ListsExactly m out.length := fun a => by simp [h a]

theorem decoderRun_eq_ok (h : decoderRun s k = .ok (out, u)) :
    out.length = (objectSize s k).toNat ∧ DecoderFrame s u k := by
  cases k
  case lz77 =>
    obtain ⟨out, hrun, heq⟩ := except_map_eq_ok h
    cases heq
    exact ⟨lz77Replay_length hrun, _, _, foldl_lz77Count_obj _ _, rfl⟩
  case huf =>
    obtain ⟨⟨unit, bitpos, out⟩, hrun, heq⟩ := except_map_eq_ok h
    cases heq
    obtain ⟨hlen, hobj⟩ := hufDecompress_eq_ok hrun
    exact ⟨hlen, unit, bitpos, hobj, rfl⟩
  case rle =>
    obtain ⟨out, hrun, heq⟩ := except_map_eq_ok h
    cases heq
    obtain ⟨-, hsum, rfl⟩ := rleDecompress_eq_ok_iff.1 hrun
    exact ⟨(length_expandRuns _).trans hsum, _, rfl⟩
  case lzw =>
    obtain ⟨⟨unit, out⟩, hrun, heq⟩ := except_map_eq_ok h
    cases heq
    obtain ⟨hlen, hobj⟩ := lzwDecompress_eq_ok hrun
    exact ⟨hlen, unit, _, hobj, rfl⟩

theorem decoderRun_corrupt (h : decoderRun s k = .error c) : causeKind c = .corrupt := by
  cases k
  case lz77 => exact lz77Replay_corrupt (except_map_eq_error h)
  case huf => exact hufDecompress_corrupt (except_map_eq_error h)
  case rle => exact rleReplay_corrupt (except_map_eq_error h)
  case lzw => exact lzwReplay_corrupt (except_map_eq_error h)

/-- A decoder on an object whose declared size fits OBUF is Corrupt, or lays exactly that many bytes from address 0. -/
theorem exec_decoder_cases (hi : exec i s = settle s (codecDecompressOp k s))
    (hcap : (objectSize s k).toNat ≤ s.cfg.capOut) :
    Raises i s .corrupt ∨ ∃ out u, DecoderFrame s u k ∧ ListsExactly (cells 0 out) (objectSize s k).toNat ∧
      exec i s = .next { u with obuf := cells 0 out, opos := (objectSize s k).toNat } := by
  cases hrun : decoderRun s k with
  | error c =>
    have hop : codecDecompressOp k s = .error c := by rw [codecDecompressOp_eq, hrun]; rfl
    exact .inl (raises_of_error hi hop (decoderRun_corrupt hrun))
  | ok r =>
    obtain ⟨out, u⟩ := r
    obtain ⟨hlen, hframe⟩ := decoderRun_eq_ok hrun
    obtain ⟨hopos, hobuf, hcfg⟩ := hframe.started
    have happend := append_of_started (s := u) (out := out) hopos hobuf (by rw [hlen, hcfg]; exact hcap)
    have hop : codecDecompressOp k s = append out u := by rw [codecDecompressOp_eq, hrun]; rfl
    rw [hlen] at happend
    exact .inr ⟨out, u, hframe, hlen ▸ listsExactly_of_holds (holds_cells out), by rw [hi, hop, happend, settle_ok]⟩

end

/-- Settles O22: each of the four decoders answers exactly the declared size, or is Corrupt. -/
theorem decodersKeepDeclaredLength : Obligations.DecodersKeepDeclaredLength := by
  unfold Obligations.DecodersKeepDeclaredLength
  refine fun s => ⟨fun hcap => ?_, fun hcap => ?_, fun hcap => ?_, fun hcap => ?_⟩
  · refine (exec_decoder_cases (k := .rle) rfl hcap).imp_right ?_
    rintro ⟨out, _, ⟨ipos, rfl⟩, hlists, hexec⟩
    exact ⟨_, hexec, hlists, rfl⟩
  · refine (exec_decoder_cases (k := .huf) rfl hcap).imp_right ?_
    rintro ⟨out, _, ⟨unit, bitpos, hobj, rfl⟩, hlists, hexec⟩
    exact ⟨_, hexec, hlists, rfl, hobj⟩
  · refine (exec_decoder_cases (k := .lzw) rfl hcap).imp_right ?_
    rintro ⟨out, _, ⟨unit, ipos, hobj, rfl⟩, hlists, hexec⟩
    exact ⟨_, hexec, hlists, rfl, hobj⟩
  · refine (exec_decoder_cases (k := .lz77) rfl hcap).imp_right ?_
    rintro ⟨out, _, ⟨unit, ipos, hobj, rfl⟩, hlists, hexec⟩
    exact ⟨_, hexec, hlists, rfl, hobj⟩

end Sys2Proof.Machine

/-! PROOFS. The pairs RLE.compress makes of its input (41_rle.md R141, R142, R143). The idea: a turn of the outer loop
splits off the front of the input a run of its first byte, and stops short of 255 only where the run does. -/

namespace Sys2Proof.Machine

open Sys2Proof.Safety

/-! ### One run -/

section
variable {v : Byte} {m fuel : Nat} {bs : List Byte}

/-- The inner loop counts bytes that are `v`. -/
theorem replicate_runLength_append_drop (v : Byte) (m : Nat) (bs : List Byte) :
    List.replicate (runLength v m bs) v ++ bs.drop (runLength v m bs) = bs := by
  fun_induction runLength v m bs with
  | case1 => rfl
  | case2 => rfl
  | case3 m bs ih => rw [List.replicate_succ, List.cons_append, List.drop_succ_cons, ih]
  | case4 => rfl

/-- The inner loop stops at 255 or where the next byte differs. -/
theorem runLength_eq_of_next (h : (bs.drop (runLength v m bs)).head? = some v) : runLength v m bs = m := by
  fun_induction runLength v m bs with
  | case1 => rfl
  | case2 => cases h
  | case3 m bs ih => rw [ih h]
  | case4 m b bs hb => exact absurd (Option.some.inj h) hb

theorem runLength_of_next_ne (h : bs.head? ≠ some v) : runLength v m bs = 0 := by
  fun_cases runLength v m bs with
  | case1 => rfl
  | case2 => rfl
  | case3 m bs => exact absurd rfl h
  | case4 => rfl

theorem toNat_runCount (v : Byte) (bs : List Byte) :
    (BitVec.ofNat 8 (runLength v 254 bs + 1)).toNat = runLength v 254 bs + 1 := by
  have := runLength_le v 254 bs
  rw [BitVec.toNat_ofNat]
  omega

/-! ### All runs -/

/-- R143 (d): the pairs stand for the input. -/
theorem expandRuns_rleRuns (h : bs.length ≤ fuel) : expandRuns (rleRuns fuel bs) = bs := by
  induction fuel generalizing bs with
  | zero => rw [List.length_eq_zero_iff.1 (Nat.le_zero.1 h)]; rfl
  | succ fuel ih =>
    cases bs with
    | nil => rfl
    | cons v bs =>
      have hrest : (bs.drop (runLength v 254 bs)).length ≤ fuel := by
        rw [List.length_drop]
        rw [List.length_cons] at h
        omega
      rw [rleRuns_cons, expandRuns_cons, ih hrest, toNat_runCount, List.replicate_succ, List.cons_append,
        replicate_runLength_append_drop]

/-- The first pair is of the first byte. -/
theorem head?_of_rleRuns {c : Byte} (h : (rleRuns fuel bs)[0]? = some (c, v)) : bs.head? = some v := by
  cases fuel with
  | zero => cases h
  | succ fuel =>
    cases bs with
    | nil => cases h
    | cons b bs => cases h; rfl

/-- R143 (e): a run that goes on in the next pair is full. -/
theorem rleRuns_full_of_same_value {i : Nat} {c d : Byte} (hi : (rleRuns fuel bs)[i]? = some (c, v))
    (hnext : (rleRuns fuel bs)[i + 1]? = some (d, v)) : c = 255 := by
  induction fuel generalizing bs i with
  | zero => cases hi
  | succ fuel ih =>
    cases bs with
    | nil => cases hi
    | cons b bs =>
      rw [rleRuns_cons] at hi hnext
      cases i with
      | zero =>
        cases hi
        rw [runLength_eq_of_next (head?_of_rleRuns hnext)]
        rfl
      | succ i => exact ih hi hnext

/-- R142: each byte that differs from the next is a pair of its own. -/
theorem length_rleRuns_of_no_repeat (hchain : bs.IsChain (· ≠ ·)) (h : bs.length ≤ fuel) :
    (rleRuns fuel bs).length = bs.length := by
  induction fuel generalizing bs with
  | zero => rw [List.length_eq_zero_iff.1 (Nat.le_zero.1 h)]; rfl
  | succ fuel ih =>
    cases bs with
    | nil => rfl
    | cons v bs =>
      obtain ⟨hnext, htail⟩ := List.isChain_cons.1 hchain
      have hmore : runLength v 254 bs = 0 := runLength_of_next_ne fun hv => hnext v hv rfl
      rw [rleRuns_cons, hmore, List.drop_zero, List.length_cons, ih htail (Nat.le_of_succ_le_succ h), List.length_cons]

end

/-! ### The object -/

section
variable (x : List Byte)

theorem expandRuns_rleCompress : expandRuns (rleCompress x).runs = x := expandRuns_rleRuns le_rfl

/-- R143 (c). -/
theorem sum_counts_rleCompress : ((rleCompress x).runs.map fun r => r.1.toNat).sum = x.length := by
  rw [← length_expandRuns, expandRuns_rleCompress]

theorem rleCompress_count_pos {r : Byte × Byte} (hr : r ∈ (rleCompress x).runs) : 1 ≤ r.1.toNat := by
  have hne := rleRuns_count_ne_zero hr
  bv_omega

/-- R143 (a): each pair stands for at least one byte. -/
theorem length_runs_rleCompress_le : (rleCompress x).runs.length ≤ x.length := by
  rw [← sum_counts_rleCompress, ← List.length_map (f := fun r : Byte × Byte => r.1.toNat)]
  refine List.length_le_sum_of_one_le _ fun n hn => ?_
  obtain ⟨r, hr, rfl⟩ := List.mem_map.1 hn
  exact rleCompress_count_pos x hr

theorem rleCompress_runs_ne_nil (hx : x ≠ []) : (rleCompress x).runs ≠ [] := fun h =>
  hx (by rw [← expandRuns_rleCompress x, h]; rfl)

end

theorem rleLast_obj (u : RleUnit) (obj : RleObj) : (rleLast u obj).obj = obj := by
  unfold rleLast
  split <;> rfl

/-- Settles O23: the pairs are the runs split off the front, and the operation changes its unit and cursor alone. -/
theorem rleCompressMakesRuns : Obligations.RleCompressMakesRuns := by
  unfold Obligations.RleCompressMakesRuns
  intro s hin
  have hop : rleCompressOp s =
      .ok { s with rle := rleLast s.rle (rleCompress (inputBytes s)), ipos := (inputBytes s).length } := by
    rw [rleCompressOp, codecInput_of_inputOk hin]
  have hlen := length_inputBytes s
  rw [hlen] at hop
  refine ⟨_, congrArg (settle s) hop, rfl, ?_⟩
  rw [rleLast_obj, ← hlen]
  refine ⟨?_, rleCompress_runs_ne_nil _ ?_, length_runs_rleCompress_le _, fun r => rleCompress_count_pos _,
    sum_counts_rleCompress _, expandRuns_rleCompress _, fun i c d v => rleRuns_full_of_same_value⟩
  · rw [rleCompress, hlen, BitVec.ofNat_toNat, BitVec.setWidth_eq]
  · exact List.ne_nil_of_length_pos (by rw [hlen]; exact hin.2.1)

/-! ### The image -/

theorem length_serRle (c : RleObj) : (serRle c).length = 16 + 2 * c.runs.length := by
  have hpairs : (c.runs.flatMap fun r => [r.1, r.2]).length = 2 * c.runs.length := by
    simp [List.length_flatMap, Nat.mul_comm]
  rw [serRle, List.length_append, List.length_append, toLe64, length_toLE, toLe64, length_toLE, hpairs]

/-- The second header field is the size of the pair area (30_encoding.md R96). -/
theorem field_serRle_compressedSize (c : RleObj) :
    field (serRle c) 8 8 = toLe64 (BitVec.ofNat 64 (2 * c.runs.length)) := by
  rw [field, serRle, List.append_assoc, List.drop_left' (by exact length_toLE 8 _),
    List.take_left' (by exact length_toLE 8 _)]

theorem leNat_toLe64 (v : U64) : leNat (toLe64 v) = v.toNat := by
  rw [toLe64, leNat_toLE]
  exact Nat.mod_eq_of_lt v.isLt

theorem isChain_ne_of_getElem? {x : List Byte}
    (h : ∀ (i : Nat) (b c : Byte), x[i]? = some b → x[i + 1]? = some c → b ≠ c) : x.IsChain (· ≠ ·) :=
  List.isChain_iff_getElem.2 fun i hi =>
    h i _ _ (List.getElem?_eq_getElem (Nat.lt_of_succ_lt hi)) (List.getElem?_eq_getElem hi)

/-- Settles O25: every byte is a run of its own, and two bytes of the pair area. -/
theorem rleDoublesNonRepetitive : Obligations.RleDoublesNonRepetitive := by
  unfold Obligations.RleDoublesNonRepetitive
  intro p x hx hnext
  have hruns : (rleCompress x).runs.length = x.length :=
    length_rleRuns_of_no_repeat (isChain_ne_of_getElem? hnext) le_rfl
  refine ⟨hruns, ?_, ?_⟩
  · rw [imageBytes, length_serRle, hruns]
  · rw [imageBytes, field_serRle_compressedSize, leNat_toLe64, hruns, BitVec.toNat_ofNat]
    omega

end Sys2Proof.Machine

/-! PROOFS. The tree of HUF.build (42_huffman.md R162 to R165). The idea: a node waits exactly while it is no child of
an internal node, so the least two that wait are the least two of the nodes without a parent, and every merge leaves one
node fewer waiting and one more made. -/

namespace Sys2Proof.Machine

open Sys2Proof.Safety

/-! ### The extraction order -/

/-- A node of weight `w` leaves the queue before one of weight `w'` (R163). -/
def LeavesFirst (w id w' id' : Nat) : Prop := w < w' ∨ w = w' ∧ id < id'

section
variable {nodes : List (Nat × HufNode)} {a b x y : Nat × HufNode} {nnext i j : Nat} {node : HufNode}

theorem hufBefore_iff : hufBefore x y = true ↔ LeavesFirst x.2.weight x.1 y.2.weight y.1 := by
  simp [hufBefore, LeavesFirst]

theorem hufMin_eq_none (h : hufMin nodes = none) : ∀ x ∈ nodes, x.2.inQueue = false := by
  induction nodes with
  | nil => nofun
  | cons x xs ih =>
    unfold hufMin at h
    split at h
    next hxs =>
      split at h
      · cases h
      next hx => exact List.forall_mem_cons.2 ⟨Bool.eq_false_iff.2 hx, ih hxs⟩
    next => split at h <;> cases h

/-- No node that waits leaves before the one extracted. -/
theorem hufMin_least (h : hufMin nodes = some a) (hx : x ∈ nodes) (hq : x.2.inQueue = true) :
    ¬ LeavesFirst x.2.weight x.1 a.2.weight a.1 := by
  induction nodes generalizing a with
  | nil => cases hx
  | cons y ys ih =>
    unfold hufMin at h
    split at h
    next hys =>
      split at h
      · cases h
        rcases List.mem_cons.1 hx with rfl | hx
        · simp [LeavesFirst]
        · simp [hufMin_eq_none hys x hx] at hq
      · cases h
    next m hm =>
      split at h
      next hy =>
        cases h
        have hym := hufBefore_iff.1 (Bool.and_eq_true_iff.1 hy).2
        rcases List.mem_cons.1 hx with rfl | hx
        · simp [LeavesFirst]
        · have := ih hm hx
          unfold LeavesFirst at *
          omega
      next hy =>
        cases h
        rcases List.mem_cons.1 hx with rfl | hx
        · exact fun hlt => hy (by rw [hq, hufBefore_iff.2 hlt]; rfl)
        · exact ih hm hx

/-! ### Nodes under their ids -/

/-- Node `id` is present and waits to be extracted. -/
def Waits (nodes : List (Nat × HufNode)) (id : Nat) : Prop := ∃ node, (id, node) ∈ nodes ∧ node.inQueue = true

/-- What a merge leaves of a node: its weight and its kids. -/
def treeAt (nodes : List (Nat × HufNode)) (id : Nat) : Option (Nat × Option (Nat × Nat)) :=
  (nodes.lookup id).map fun node => (node.weight, node.kids)

theorem treeAt_eq_some {w : Nat} {kids : Option (Nat × Nat)} :
    treeAt nodes j = some (w, kids) ↔ ∃ node, nodes.lookup j = some node ∧ node.weight = w ∧ node.kids = kids := by
  simp [treeAt]

theorem treeAt_of_lookup (h : nodes.lookup j = some node) : treeAt nodes j = some (node.weight, node.kids) := by
  simp [treeAt, h]

theorem lookup_of_mem (hnodup : (nodes.map Prod.fst).Nodup) (h : (j, node) ∈ nodes) : nodes.lookup j = some node := by
  induction nodes with
  | nil => cases h
  | cons x xs ih =>
    rw [List.map_cons, List.nodup_cons] at hnodup
    rcases List.mem_cons.1 h with rfl | h
    · exact List.lookup_cons_self
    · have hne : j ≠ x.1 := by
        rintro rfl
        exact hnodup.1 (List.mem_map.2 ⟨_, h, rfl⟩)
      rw [List.lookup_cons, beq_eq_false_iff_ne.2 hne]
      exact ih hnodup.2 h

theorem treeAt_of_mem (hnodup : (nodes.map Prod.fst).Nodup) (h : x ∈ nodes) :
    treeAt nodes x.1 = some (x.2.weight, x.2.kids) :=
  treeAt_of_lookup (lookup_of_mem hnodup h)

theorem exists_mem_of_treeAt {shape : Nat × Option (Nat × Nat)} (h : treeAt nodes j = some shape) :
    ∃ node, (j, node) ∈ nodes := by
  obtain ⟨node, hnode, -⟩ := treeAt_eq_some.1 h
  exact ⟨node, mem_of_lookup hnode⟩

theorem waits_of_mem (h : a ∈ nodes ∧ a.2.inQueue = true) : Waits nodes a.1 := ⟨a.2, h⟩

/-! ### Leaving the queue -/

theorem map_fst_hufDequeue (nodes : List (Nat × HufNode)) (i : Nat) :
    (hufDequeue nodes i).map Prod.fst = nodes.map Prod.fst := by
  rw [hufDequeue, List.map_map]
  exact List.map_congr_left fun x _ => by dsimp only [Function.comp]; split <;> rfl

theorem hufDequeue_cons (x : Nat × HufNode) (nodes : List (Nat × HufNode)) (i : Nat) : hufDequeue (x :: nodes) i =
    (if x.1 = i then (x.1, { x.2 with inQueue := false }) else x) :: hufDequeue nodes i := rfl

theorem treeAt_cons (x : Nat × HufNode) (nodes : List (Nat × HufNode)) (j : Nat) :
    treeAt (x :: nodes) j = if j = x.1 then some (x.2.weight, x.2.kids) else treeAt nodes j := by
  unfold treeAt
  rw [List.lookup_cons]
  by_cases h : j = x.1
  · simp [h]
  · rw [beq_eq_false_iff_ne.2 h, if_neg h]

@[simp] theorem treeAt_hufDequeue (nodes : List (Nat × HufNode)) (i j : Nat) :
    treeAt (hufDequeue nodes i) j = treeAt nodes j := by
  induction nodes with
  | nil => rfl
  | cons x xs ih =>
    rw [hufDequeue_cons, treeAt_cons, treeAt_cons, ih]
    split <;> rfl

theorem mem_hufDequeue_waiting : x ∈ hufDequeue nodes i ∧ x.2.inQueue = true ↔
    x ∈ nodes ∧ x.2.inQueue = true ∧ x.1 ≠ i := by
  constructor
  · rintro ⟨hx, hq⟩
    obtain ⟨y, hy, rfl⟩ := List.mem_map.1 hx
    split at hq
    · cases hq
    next hne => rw [if_neg hne]; exact ⟨hy, hq, hne⟩
  · rintro ⟨hx, hq, hne⟩
    exact ⟨List.mem_map.2 ⟨x, hx, if_neg hne⟩, hq⟩

theorem waits_hufDequeue : Waits (hufDequeue nodes i) j ↔ Waits nodes j ∧ j ≠ i := by
  constructor
  · rintro ⟨node, h⟩
    obtain ⟨hmem, hq, hne⟩ := mem_hufDequeue_waiting.1 h
    exact ⟨⟨node, hmem, hq⟩, hne⟩
  · rintro ⟨⟨node, hmem, hq⟩, hne⟩
    exact ⟨node, mem_hufDequeue_waiting.2 ⟨hmem, hq, hne⟩⟩

theorem hufDequeue_of_absent (h : i ∉ nodes.map Prod.fst) : hufDequeue nodes i = nodes := by
  refine (List.map_congr_left fun x hx => if_neg ?_).trans (List.map_id nodes)
  rintro rfl
  exact h (List.mem_map_of_mem hx)

/-- How many nodes wait. -/
def waitingCount (nodes : List (Nat × HufNode)) : Nat := nodes.countP fun x => x.2.inQueue

theorem waitingCount_hufDequeue (hnodup : (nodes.map Prod.fst).Nodup) (ha : a ∈ nodes) (hq : a.2.inQueue = true) :
    waitingCount (hufDequeue nodes a.1) + 1 = waitingCount nodes := by
  induction nodes with
  | nil => cases ha
  | cons x xs ih =>
    rw [List.map_cons, List.nodup_cons] at hnodup
    rw [hufDequeue_cons]
    rcases List.mem_cons.1 ha with rfl | ha
    · rw [hufDequeue_of_absent hnodup.1]
      simp [waitingCount, hq]
    · have hne : x.1 ≠ a.1 := fun heq => hnodup.1 (heq ▸ List.mem_map_of_mem ha)
      have := ih hnodup.2 ha
      rw [if_neg hne]
      simp only [waitingCount, List.countP_cons] at *
      omega

theorem waitingCount_of_hufMin_none (h : hufMin nodes = none) : waitingCount nodes = 0 :=
  List.countP_eq_zero.2 fun x hx => by simp [hufMin_eq_none h x hx]

theorem waitingCount_pos (h : Waits nodes j) : 1 ≤ waitingCount nodes := by
  obtain ⟨node, hmem, hq⟩ := h
  exact List.countP_pos_iff.2 ⟨_, hmem, hq⟩

theorem waitingCount_hufDequeue_of_waits (hnodup : (nodes.map Prod.fst).Nodup) (h : Waits nodes i) :
    waitingCount (hufDequeue nodes i) + 1 = waitingCount nodes := by
  obtain ⟨node, hmem, hq⟩ := h
  exact waitingCount_hufDequeue hnodup hmem hq

/-- Where at most one node waits, it is the only one. -/
theorem waits_unique (hnodup : (nodes.map Prod.fst).Nodup) (hcount : waitingCount nodes ≤ 1) (hi : Waits nodes i)
    (hj : Waits nodes j) : i = j := by
  by_contra hne
  have hfirst := waitingCount_hufDequeue_of_waits hnodup hi
  have hsecond := waitingCount_pos (waits_hufDequeue.2 ⟨hj, Ne.symm hne⟩)
  omega

/-! ### One merge -/

/-- The node array after `a` and `b` are joined under the new node `nnext` (R164). -/
def hufJoin (nodes : List (Nat × HufNode)) (nnext : Nat) (a b : Nat × HufNode) : List (Nat × HufNode) :=
  hufDequeue (hufDequeue nodes a.1) b.1 ++ [(nnext, ⟨a.2.weight + b.2.weight, some (a.1, b.1), true⟩)]

/-- `a` and `b` are the least two that wait, `a` the least (R163). -/
structure LeastTwo (nodes : List (Nat × HufNode)) (a b : Nat × HufNode) : Prop where
  left : a ∈ nodes ∧ a.2.inQueue = true
  right : b ∈ nodes ∧ b.2.inQueue = true
  ordered : LeavesFirst a.2.weight a.1 b.2.weight b.1
  least : ∀ x ∈ nodes, x.2.inQueue = true → x.1 ≠ a.1 → x.1 ≠ b.1 → LeavesFirst b.2.weight b.1 x.2.weight x.1

theorem leavesFirst_of_not {w id w' id' : Nat} (h : ¬ LeavesFirst w id w' id') (hne : id ≠ id') :
    LeavesFirst w' id' w id := by
  unfold LeavesFirst at *
  omega

theorem leastTwo_of_hufMin (ha : hufMin nodes = some a) (hb : hufMin (hufDequeue nodes a.1) = some b) :
    LeastTwo nodes a b := by
  obtain ⟨hbmem, hbq, hba⟩ := mem_hufDequeue_waiting.1 (hufMin_mem hb)
  refine ⟨hufMin_mem ha, ⟨hbmem, hbq⟩, leavesFirst_of_not (hufMin_least ha hbmem hbq) hba, fun x hx hq hxa hxb => ?_⟩
  obtain ⟨hx', hq'⟩ := mem_hufDequeue_waiting.2 ⟨hx, hq, hxa⟩
  exact leavesFirst_of_not (hufMin_least hb hx' hq') hxb

/-- What one unit of fuel does: nothing where fewer than two nodes wait, else one merge. -/
theorem hufMerge_succ_cases (hnodup : (nodes.map Prod.fst).Nodup) (fuel nnext : Nat) :
    (hufMerge (fuel + 1) nodes nnext = (nodes, nnext) ∧ waitingCount nodes ≤ 1) ∨
    ∃ a b, LeastTwo nodes a b ∧
      hufMerge (fuel + 1) nodes nnext = hufMerge fuel (hufJoin nodes nnext a b) (nnext + 1) := by
  rw [hufMerge]
  cases ha : hufMin nodes with
  | none => exact .inl ⟨rfl, by simp [waitingCount_of_hufMin_none ha]⟩
  | some a =>
    dsimp only
    cases hb : hufMin (hufDequeue nodes a.1) with
    | none =>
      have hcount := waitingCount_hufDequeue_of_waits hnodup (waits_of_mem (hufMin_mem ha))
      rw [waitingCount_of_hufMin_none hb] at hcount
      exact .inl ⟨rfl, hcount.ge⟩
    | some b => exact .inr ⟨a, b, leastTwo_of_hufMin ha hb, rfl⟩

theorem treeAt_append (nodes tail : List (Nat × HufNode)) (j : Nat) :
    treeAt (nodes ++ tail) j = (treeAt nodes j).or (treeAt tail j) := by
  rw [treeAt, List.lookup_append, Option.map_or]
  rfl

theorem treeAt_hufJoin (nodes : List (Nat × HufNode)) (nnext : Nat) (a b : Nat × HufNode) (j : Nat) :
    treeAt (hufJoin nodes nnext a b) j =
      (treeAt nodes j).or (if j = nnext then some (a.2.weight + b.2.weight, some (a.1, b.1)) else none) := by
  rw [hufJoin, treeAt_append, treeAt_cons, treeAt_hufDequeue, treeAt_hufDequeue]
  rfl

theorem treeAt_hufJoin_of_ne (hne : j ≠ nnext) : treeAt (hufJoin nodes nnext a b) j = treeAt nodes j := by
  rw [treeAt_hufJoin, if_neg hne, Option.or_none]

theorem treeAt_hufJoin_self (hnew : treeAt nodes nnext = none) :
    treeAt (hufJoin nodes nnext a b) nnext = some (a.2.weight + b.2.weight, some (a.1, b.1)) := by
  rw [treeAt_hufJoin, hnew, if_pos rfl, Option.none_or]

theorem map_fst_hufJoin (nodes : List (Nat × HufNode)) (nnext : Nat) (a b : Nat × HufNode) :
    (hufJoin nodes nnext a b).map Prod.fst = nodes.map Prod.fst ++ [nnext] := by
  rw [hufJoin, List.map_append, map_fst_hufDequeue, map_fst_hufDequeue]
  rfl

theorem waits_hufJoin : Waits (hufJoin nodes nnext a b) j ↔ j = nnext ∨ Waits nodes j ∧ j ≠ a.1 ∧ j ≠ b.1 := by
  have happend : Waits (hufJoin nodes nnext a b) j ↔ Waits (hufDequeue (hufDequeue nodes a.1) b.1) j ∨ j = nnext := by
    simp [Waits, hufJoin, or_and_right, exists_or]
  rw [happend, waits_hufDequeue, waits_hufDequeue]
  tauto

theorem waitingCount_hufJoin (hnodup : (nodes.map Prod.fst).Nodup) (hab : LeastTwo nodes a b) (hne : b.1 ≠ a.1) :
    waitingCount (hufJoin nodes nnext a b) + 1 = waitingCount nodes := by
  have ha := waitingCount_hufDequeue_of_waits hnodup (waits_of_mem hab.left)
  have hb := waitingCount_hufDequeue_of_waits (i := b.1) (by rwa [map_fst_hufDequeue])
    (waits_hufDequeue.2 ⟨waits_of_mem hab.right, hne⟩)
  simp only [hufJoin, waitingCount, List.countP_append, List.countP_singleton, if_true] at *
  omega

end

/-! ### The nodes made so far -/

/-- Node `j` is a child of an internal node below `n`. -/
def IsKid (tree : Nat → Option (Nat × Option (Nat × Nat))) (n j : Nat) : Prop :=
  ∃ id w l r, id < n ∧ tree id = some (w, some (l, r)) ∧ (j = l ∨ j = r)

/-- Node `id` was made of two older nodes, the least two that were then without a parent (R163, R164). -/
structure MadeOf (tree : Nat → Option (Nat × Option (Nat × Nat))) (id w l r : Nat) : Prop where
  first : 256 ≤ id
  left : l < id
  right : r < id
  kids : ∃ wa ka wb kb, tree l = some (wa, ka) ∧ tree r = some (wb, kb) ∧ w = wa + wb ∧ LeavesFirst wa l wb r ∧
    ∀ j wc kc, tree j = some (wc, kc) → j < id → j ≠ l → j ≠ r → ¬ IsKid tree id j → LeavesFirst wb r wc j

/-- What holds before each merge, on the table `freq`. -/
structure HufForest (freq : List U32) (nodes : List (Nat × HufNode)) (nnext : Nat) : Prop where
  nodup : (nodes.map Prod.fst).Nodup
  below : ∀ id ∈ nodes.map Prod.fst, id < nnext
  first : 256 ≤ nnext
  leaf : ∀ id w, treeAt nodes id = some (w, none) ↔ ∃ f, freq[id]? = some f ∧ f ≠ 0 ∧ w = f.toNat
  madeOf : ∀ id w l r, treeAt nodes id = some (w, some (l, r)) → MadeOf (treeAt nodes) id w l r
  waits : ∀ id, Waits nodes id ↔ treeAt nodes id ≠ none ∧ ¬ IsKid (treeAt nodes) nnext id
  count : waitingCount nodes + nnext = symbolCount freq + 256
  newest : 256 < nnext → Waits nodes (nnext - 1)

section
variable {tree tree' : Nat → Option (Nat × Option (Nat × Nat))} {n m id w l r j : Nat}

theorem isKid_congr (h : ∀ i < n, tree' i = tree i) : IsKid tree' n j ↔ IsKid tree n j := by
  simp only [IsKid]
  exact exists_congr fun i => exists_congr fun _ => exists_congr fun _ => exists_congr fun _ =>
    and_congr_right fun hi => by rw [h i hi]

theorem isKid_succ (h : tree n = some (w, some (l, r))) : IsKid tree (n + 1) j ↔ IsKid tree n j ∨ j = l ∨ j = r := by
  constructor
  · rintro ⟨i, w', l', r', hi, htree, hj⟩
    rcases Nat.lt_succ_iff_lt_or_eq.1 hi with hi | rfl
    · exact .inl ⟨i, w', l', r', hi, htree, hj⟩
    · rw [h] at htree
      cases htree
      exact .inr hj
  · rintro (⟨i, w', l', r', hi, htree, hj⟩ | hj)
    · exact ⟨i, w', l', r', Nat.lt_succ_of_lt hi, htree, hj⟩
    · exact ⟨n, w, l, r, Nat.lt_succ_self n, h, hj⟩

theorem madeOf_congr (h : ∀ i < id, tree' i = tree i) (hmade : MadeOf tree id w l r) : MadeOf tree' id w l r := by
  obtain ⟨hfirst, hl, hr, wa, ka, wb, kb, hleft, hright, hw, hord, hleast⟩ := hmade
  refine ⟨hfirst, hl, hr, wa, ka, wb, kb, by rw [h l hl, hleft], by rw [h r hr, hright], hw, hord, ?_⟩
  intro j wc kc hj hlt hjl hjr hkid
  rw [h j hlt] at hj
  rw [isKid_congr h] at hkid
  exact hleast j wc kc hj hlt hjl hjr hkid

end

section
variable {freq : List U32} {nodes : List (Nat × HufNode)} {nnext j : Nat} {a b : Nat × HufNode}

theorem HufForest.lt_of_treeAt (h : HufForest freq nodes nnext) {shape : Nat × Option (Nat × Nat)}
    (hj : treeAt nodes j = some shape) : j < nnext := by
  obtain ⟨node, hmem⟩ := exists_mem_of_treeAt hj
  exact h.below j (List.mem_map.2 ⟨_, hmem, rfl⟩)

theorem HufForest.treeAt_nnext (h : HufForest freq nodes nnext) : treeAt nodes nnext = none :=
  Option.eq_none_iff_forall_ne_some.2 fun _ hshape => Nat.lt_irrefl _ (h.lt_of_treeAt hshape)

theorem HufForest.treeAt_mem (h : HufForest freq nodes nnext) (ha : a ∈ nodes) :
    treeAt nodes a.1 = some (a.2.weight, a.2.kids) :=
  treeAt_of_mem h.nodup ha

/-- A kid is older than its parent. -/
theorem HufForest.isKid_lt (h : HufForest freq nodes nnext) (hj : IsKid (treeAt nodes) nnext j) : j < nnext := by
  obtain ⟨i, w, l, r, hi, htree, rfl | rfl⟩ := hj
  · exact (h.madeOf _ _ _ _ htree).left.trans hi
  · exact (h.madeOf _ _ _ _ htree).right.trans hi

theorem HufForest.ne_of_leastTwo (h : HufForest freq nodes nnext) (hab : LeastTwo nodes a b) : b.1 ≠ a.1 := by
  intro heq
  have hb := h.treeAt_mem hab.right.1
  rw [heq, h.treeAt_mem hab.left.1] at hb
  have hord := hab.ordered
  rw [LeavesFirst, heq] at hord
  simp only [Option.some.injEq, Prod.mk.injEq] at hb
  omega

theorem HufForest.madeOf_join (h : HufForest freq nodes nnext) (hab : LeastTwo nodes a b) :
    MadeOf (treeAt nodes) nnext (a.2.weight + b.2.weight) a.1 b.1 := by
  have ha := h.treeAt_mem hab.left.1
  have hb := h.treeAt_mem hab.right.1
  refine ⟨h.first, h.lt_of_treeAt ha, h.lt_of_treeAt hb, _, _, _, _, ha, hb, rfl, hab.ordered, ?_⟩
  intro j wc kc hj _ hja hjb hkid
  obtain ⟨node, hmem, hq⟩ := (h.waits j).2 ⟨by simp [hj], hkid⟩
  have hleast := hab.least _ hmem hq hja hjb
  rw [h.treeAt_mem hmem] at hj
  cases hj
  exact hleast

theorem HufForest.join (h : HufForest freq nodes nnext) (hab : LeastTwo nodes a b) :
    HufForest freq (hufJoin nodes nnext a b) (nnext + 1) where
  nodup := by
    rw [map_fst_hufJoin]
    refine h.nodup.append (List.nodup_singleton _) (List.disjoint_singleton.2 fun hmem => ?_)
    exact Nat.lt_irrefl _ (h.below _ hmem)
  below := by
    simp only [map_fst_hufJoin, List.mem_append, List.mem_singleton]
    rintro id (hid | rfl)
    · exact Nat.lt_succ_of_lt (h.below id hid)
    · exact Nat.lt_succ_self _
  first := Nat.le_succ_of_le h.first
  leaf id w := by
    rw [← h.leaf]
    by_cases hid : id = nnext
    · rw [hid, treeAt_hufJoin_self h.treeAt_nnext, h.treeAt_nnext]
      simp
    · rw [treeAt_hufJoin_of_ne hid]
  madeOf id w l r hid := by
    by_cases heq : id = nnext
    · rw [heq, treeAt_hufJoin_self h.treeAt_nnext] at hid
      cases hid
      rw [heq]
      exact madeOf_congr (fun i hi => treeAt_hufJoin_of_ne hi.ne) (h.madeOf_join hab)
    · rw [treeAt_hufJoin_of_ne heq] at hid
      have hlt := h.lt_of_treeAt hid
      exact madeOf_congr (fun i hi => treeAt_hufJoin_of_ne (hi.trans hlt).ne) (h.madeOf id w l r hid)
  waits id := by
    rw [waits_hufJoin, isKid_succ (treeAt_hufJoin_self h.treeAt_nnext),
      isKid_congr fun i hi => treeAt_hufJoin_of_ne hi.ne, h.waits]
    by_cases hid : id = nnext
    · have hkid : ¬ IsKid (treeAt nodes) nnext nnext := fun hk => Nat.lt_irrefl _ (h.isKid_lt hk)
      have ha := (h.lt_of_treeAt (h.treeAt_mem hab.left.1)).ne'
      have hb := (h.lt_of_treeAt (h.treeAt_mem hab.right.1)).ne'
      simp [hid, treeAt_hufJoin_self h.treeAt_nnext, hkid, ha, hb]
    · rw [treeAt_hufJoin_of_ne hid]
      tauto
  count := by
    have := waitingCount_hufJoin (nnext := nnext) h.nodup hab (h.ne_of_leastTwo hab)
    have := h.count
    omega
  newest _ := waits_hufJoin.2 (.inl rfl)

/-- With one merge for each node but one that waits, at most one is left waiting. -/
theorem HufForest.merge {fuel : Nat} (h : HufForest freq nodes nnext) (hfuel : waitingCount nodes ≤ fuel + 1) :
    HufForest freq (hufMerge fuel nodes nnext).1 (hufMerge fuel nodes nnext).2 ∧
      waitingCount (hufMerge fuel nodes nnext).1 ≤ 1 := by
  induction fuel generalizing nodes nnext with
  | zero => exact ⟨h, hfuel⟩
  | succ fuel ih =>
    rcases hufMerge_succ_cases h.nodup fuel nnext with ⟨heq, hcount⟩ | ⟨a, b, hab, heq⟩
    · rw [heq]
      exact ⟨h, hcount⟩
    · have hcount := waitingCount_hufJoin (nnext := nnext) h.nodup hab (h.ne_of_leastTwo hab)
      rw [heq]
      exact ih (h.join hab) (by omega)

end

/-! ### The leaves -/

theorem mem_hufLeavesFrom {s : Nat} {freq : List U32} {x : Nat × HufNode} : x ∈ hufLeavesFrom s freq ↔
    ∃ f, s ≤ x.1 ∧ freq[x.1 - s]? = some f ∧ f ≠ 0 ∧ x.2 = ⟨f.toNat, none, true⟩ := by
  induction freq generalizing s with
  | nil => simp [hufLeavesFrom]
  | cons f fs ih =>
    have hhead : x ∈ hufLeavesFrom s (f :: fs) ↔
        (f ≠ 0 ∧ x = (s, ⟨f.toNat, none, true⟩)) ∨ x ∈ hufLeavesFrom (s + 1) fs := by
      rw [hufLeavesFrom]
      split
      next hf => exact ⟨.inr, fun h => h.resolve_left fun h => h.1 hf⟩
      next hf => rw [List.mem_cons, and_iff_right hf]
    rw [hhead, ih]
    constructor
    · rintro (⟨hf, rfl⟩ | ⟨g, hle, hg, hne, hx⟩)
      · exact ⟨f, le_rfl, by simp, hf, rfl⟩
      · have hidx : x.1 - s = x.1 - (s + 1) + 1 := by omega
        exact ⟨g, by omega, by rw [hidx]; exact hg, hne, hx⟩
    · rintro ⟨g, hle, hg, hne, hx⟩
      rcases hle.eq_or_lt with heq | hlt
      · rw [← heq, Nat.sub_self] at hg
        cases hg
        exact .inl ⟨hne, Prod.ext heq.symm hx⟩
      · have hidx : x.1 - s = x.1 - (s + 1) + 1 := by omega
        rw [hidx] at hg
        exact .inr ⟨g, hlt, hg, hne, hx⟩

theorem nodup_hufLeavesFrom (s : Nat) (freq : List U32) : ((hufLeavesFrom s freq).map Prod.fst).Nodup := by
  induction freq generalizing s with
  | nil => exact List.nodup_nil
  | cons f fs ih =>
    rw [hufLeavesFrom]
    split
    · exact ih (s + 1)
    · refine List.nodup_cons.2 ⟨fun hmem => ?_, ih (s + 1)⟩
      obtain ⟨x, hx, hxs⟩ := List.mem_map.1 hmem
      obtain ⟨_, hle, -⟩ := mem_hufLeavesFrom.1 hx
      dsimp only at hxs
      omega

theorem waitingCount_hufLeavesFrom (s : Nat) (freq : List U32) :
    waitingCount (hufLeavesFrom s freq) = symbolCount freq := by
  induction freq generalizing s with
  | nil => rfl
  | cons f fs ih =>
    rw [hufLeavesFrom, symbolCount]
    split
    next hf => rw [List.filter_cons_of_neg (by simpa using hf), ih, symbolCount]
    next hf =>
      rw [List.filter_cons_of_pos (by simpa using hf), List.length_cons, ← symbolCount, ← ih (s + 1)]
      simp [waitingCount]

section
variable {freq : List U32} {j w : Nat} {kids : Option (Nat × Nat)}

theorem treeAt_hufLeavesFrom : treeAt (hufLeavesFrom 0 freq) j = some (w, kids) ↔
    kids = none ∧ ∃ f, freq[j]? = some f ∧ f ≠ 0 ∧ w = f.toNat := by
  constructor
  · intro h
    obtain ⟨node, hnode, rfl, rfl⟩ := treeAt_eq_some.1 h
    obtain ⟨f, -, hf, hne, hnode⟩ := mem_hufLeavesFrom.1 (mem_of_lookup hnode)
    dsimp only at hnode
    subst hnode
    exact ⟨rfl, f, hf, hne, rfl⟩
  · rintro ⟨rfl, f, hf, hne, rfl⟩
    exact treeAt_of_mem (nodup_hufLeavesFrom 0 freq)
      (mem_hufLeavesFrom.2 ⟨f, Nat.zero_le _, hf, hne, rfl⟩ : (j, ⟨f.toNat, none, true⟩) ∈ _)

theorem hufForest_leaves (hlen : freq.length = 256) : HufForest freq (hufLeaves freq) 256 := by
  have hleaves : hufLeaves freq = hufLeavesFrom 0 freq := by
    rw [hufLeaves, List.take_of_length_le (by rw [hlen]; exact le_rfl)]
  have hnokid : ∀ j, ¬ IsKid (treeAt (hufLeavesFrom 0 freq)) 256 j := by
    rintro j ⟨i, w, l, r, -, hi, -⟩
    cases (treeAt_hufLeavesFrom.1 hi).1
  rw [hleaves]
  refine ⟨nodup_hufLeavesFrom 0 freq, fun id hid => ?_, le_rfl, fun id w => ?_, fun id w l r hid => ?_, fun id => ?_,
    by rw [waitingCount_hufLeavesFrom], fun h => absurd h (Nat.lt_irrefl _)⟩
  · obtain ⟨x, hx, rfl⟩ := List.mem_map.1 hid
    obtain ⟨f, -, hf, -⟩ := mem_hufLeavesFrom.1 hx
    exact hlen ▸ (List.getElem?_eq_some_iff.1 hf).1
  · rw [treeAt_hufLeavesFrom]
    simp
  · cases (treeAt_hufLeavesFrom.1 hid).1
  · constructor
    · rintro ⟨node, hmem, -⟩
      exact ⟨by rw [treeAt_of_mem (nodup_hufLeavesFrom 0 freq) hmem]; simp, hnokid id⟩
    · rintro ⟨hne, -⟩
      obtain ⟨⟨w, kids⟩, hshape⟩ := Option.ne_none_iff_exists'.1 hne
      obtain ⟨node, hnode, -⟩ := treeAt_eq_some.1 hshape
      obtain ⟨f, -, -, -, heq⟩ := mem_hufLeavesFrom.1 (mem_of_lookup hnode)
      exact ⟨node, mem_of_lookup hnode, by dsimp only at heq; rw [heq]⟩

end

theorem symbolCount_le (freq : List U32) : symbolCount freq ≤ freq.length := List.length_filter_le ..

/-! ### The tree built -/

section
variable {u : HufUnit} {id : Nat}

/-- HUF.build makes a forest in which at most one node waits: a tree. -/
theorem hufForest_build (hlen : u.freq.length = 256) :
    HufForest u.freq (hufBuild u).nodes (hufBuild u).nnext ∧ waitingCount (hufBuild u).nodes ≤ 1 := by
  have h := hufForest_leaves hlen
  have hcount := h.count
  have hsymbols := symbolCount_le u.freq
  exact h.merge (fuel := 255) (by omega)

theorem hufBuild_root (u : HufUnit) : (hufBuild u).root = (hufMin (hufBuild u).nodes).map (·.1) := rfl

/-- ROOT is the one node left waiting (R164). -/
theorem hufBuild_root_eq_some (hlen : u.freq.length = 256) (h : Waits (hufBuild u).nodes id) :
    (hufBuild u).root = some id := by
  obtain ⟨hforest, hcount⟩ := hufForest_build hlen
  rw [hufBuild_root]
  cases hmin : hufMin (hufBuild u).nodes with
  | none =>
    have := waitingCount_pos h
    rw [waitingCount_of_hufMin_none hmin] at this
    omega
  | some a =>
    rw [waits_unique hforest.nodup hcount h (waits_of_mem (hufMin_mem hmin))]
    rfl

/-- With at least two symbols ROOT is the node made last. -/
theorem hufBuild_of_two (hlen : u.freq.length = 256) (h : 2 ≤ symbolCount u.freq) :
    (hufBuild u).root = some (254 + symbolCount u.freq) ∧ (hufBuild u).nnext = 255 + symbolCount u.freq := by
  obtain ⟨hforest, hle⟩ := hufForest_build hlen
  have hcount := hforest.count
  have hnewest := hforest.newest (by omega)
  have hpos := waitingCount_pos hnewest
  have hnnext : (hufBuild u).nnext = 255 + symbolCount u.freq := by omega
  rw [hnnext, show 255 + symbolCount u.freq - 1 = 254 + symbolCount u.freq by omega] at hnewest
  exact ⟨hufBuild_root_eq_some hlen hnewest, hnnext⟩

/-- With at most one symbol nothing is merged. -/
theorem hufBuild_nnext_of_one (hlen : u.freq.length = 256) (h : symbolCount u.freq ≤ 1) :
    (hufBuild u).nnext = 256 := by
  obtain ⟨hforest, -⟩ := hufForest_build hlen
  have hcount := hforest.count
  have hfirst := hforest.first
  by_contra hne
  have hpos := waitingCount_pos (hforest.newest (by omega))
  omega

theorem hufIsLeaf_iff {nodes : List (Nat × HufNode)} :
    hufIsLeaf nodes id = true ↔ ∃ w, treeAt nodes id = some (w, none) := by
  unfold hufIsLeaf treeAt
  cases nodes.lookup id <;> simp

theorem HufForest.isLeaf_iff {freq : List U32} {nodes : List (Nat × HufNode)} {nnext : Nat}
    (h : HufForest freq nodes nnext) : hufIsLeaf nodes id = true ↔ ∃ f, freq[id]? = some f ∧ f ≠ 0 := by
  simp only [hufIsLeaf_iff, h.leaf]
  constructor
  · rintro ⟨w, f, hf, hne, -⟩
    exact ⟨f, hf, hne⟩
  · rintro ⟨f, hf, hne⟩
    exact ⟨_, f, hf, hne, rfl⟩

/-- With one symbol ROOT is its leaf. -/
theorem hufBuild_root_of_one (hlen : u.freq.length = 256) (hone : symbolCount u.freq = 1) {f : U32}
    (hf : u.freq[id]? = some f) (hne : f ≠ 0) :
    (hufBuild u).root = some id ∧ hufIsLeaf (hufBuild u).nodes id = true := by
  obtain ⟨hforest, -⟩ := hufForest_build hlen
  refine ⟨hufBuild_root_eq_some hlen ((hforest.waits id).2 ⟨?_, ?_⟩), hforest.isLeaf_iff.2 ⟨f, hf, hne⟩⟩
  · rw [(hforest.leaf id f.toNat).2 ⟨f, hf, hne, rfl⟩]
    simp
  · rintro ⟨i, w, l, r, hi, htree, -⟩
    have hfirst := (hforest.madeOf i w l r htree).first
    rw [hufBuild_nnext_of_one hlen hone.le] at hi
    omega

theorem exists_symbol {freq : List U32} (h : symbolCount freq ≠ 0) :
    ∃ (sym : Nat) (f : U32), freq[sym]? = some f ∧ f ≠ 0 := by
  obtain ⟨f, hf⟩ := List.exists_mem_of_length_pos (Nat.pos_of_ne_zero h)
  obtain ⟨hmem, hne⟩ := List.mem_filter.1 hf
  obtain ⟨sym, hsym⟩ := List.mem_iff_getElem?.1 hmem
  exact ⟨sym, f, hsym, by simpa using hne⟩

/-- Without a symbol there is no tree. -/
theorem hufBuild_root_of_none (hlen : u.freq.length = 256) (h : symbolCount u.freq = 0) : (hufBuild u).root = none := by
  obtain ⟨hforest, -⟩ := hufForest_build hlen
  have hcount := hforest.count
  have hfirst := hforest.first
  rw [hufBuild_root, Option.map_eq_none_iff]
  refine Option.eq_none_iff_forall_ne_some.2 fun a ha => ?_
  have := waitingCount_pos (waits_of_mem (hufMin_mem ha))
  omega

end

/-- Settles O28: what a merge keeps, read off where at most one node waits. -/
theorem hufBuildMakesFullTree : Obligations.HufBuildMakesFullTree := by
  unfold Obligations.HufBuildMakesFullTree
  intro s hlen
  obtain ⟨hforest, -⟩ := hufForest_build hlen
  refine ⟨_, rfl, rfl, fun id => hforest.isLeaf_iff, fun sym f hf hne => ?_,
    fun x hx => ((hufTreeOk_build s.huf).node x hx).2.1, fun id node l r hnode hkids => ?_,
    fun hnone => ⟨hufBuild_root_of_none hlen hnone, hufBuild_nnext_of_one hlen (by omega)⟩, fun hone => ?_,
    hufBuild_of_two hlen⟩
  · exact treeAt_eq_some.1 ((hforest.leaf sym _).2 ⟨f, hf, hne, rfl⟩)
  · have hid := treeAt_of_lookup hnode
    rw [hkids] at hid
    obtain ⟨hfirst, hl, hr, wa, ka, wb, kb, hleft, hright, hw, hord, hleast⟩ := hforest.madeOf _ _ _ _ hid
    obtain ⟨a, ha, rfl, -⟩ := treeAt_eq_some.1 hleft
    obtain ⟨b, hb, rfl, -⟩ := treeAt_eq_some.1 hright
    refine ⟨hfirst, hforest.lt_of_treeAt hid, hl, hr, a, b, ha, hb, hw, hord, ?_⟩
    intro other c hc hlt hol hor hkid
    refine hleast other _ _ (treeAt_of_lookup hc) hlt hol hor ?_
    rintro ⟨id', w', l', r', hid', htree, hother⟩
    obtain ⟨node', hnode', -, hkids'⟩ := treeAt_eq_some.1 htree
    have := hkid id' node' l' r' hnode' hkids' hid'
    tauto
  · obtain ⟨sym, f, hf, hne⟩ := exists_symbol (hone.trans_ne Nat.one_ne_zero)
    obtain ⟨hroot, hleaf⟩ := hufBuild_root_of_one hlen hone hf hne
    exact ⟨hufBuild_nnext_of_one hlen hone.le, sym, hroot, hleaf⟩

end Sys2Proof.Machine

/-! PROOFS. The codes of HUF.assign (42_huffman.md R166). The idea: the walk lists exactly the leaves that a path of
fewer bits than its fuel leads to; a node other than the root has an older parent, so a path from the root grows by one
bit only where the node's id falls by one, and 255 bits are enough for every leaf. -/

namespace Sys2Proof.Machine

open Sys2Proof.Safety

/-! ### Following bits -/

section
variable {nodes : List (Nat × HufNode)} {cur next id : Nat} {bit : Bool} {bits path tail : List Bool}

theorem hufFollow_cons_eq_some : hufFollow nodes cur (bit :: bits) = some id ↔
    ∃ next, hufChild nodes cur bit = some next ∧ hufFollow nodes next bits = some id := by
  rw [hufFollow]
  cases hufChild nodes cur bit <;> simp

theorem hufFollow_append (nodes : List (Nat × HufNode)) (cur : Nat) (path tail : List Bool) :
    hufFollow nodes cur (path ++ tail) = (hufFollow nodes cur path).bind (hufFollow nodes · tail) := by
  induction path generalizing cur with
  | nil => rfl
  | cons bit path ih =>
    rw [List.cons_append, hufFollow, hufFollow]
    cases hufChild nodes cur bit with
    | none => rfl
    | some next => exact ih next

theorem hufChild_of_leaf (h : hufIsLeaf nodes id = true) (bit : Bool) : hufChild nodes id bit = none := by
  unfold hufIsLeaf hufChild at *
  cases hnode : nodes.lookup id with
  | none => rfl
  | some node =>
    rw [hnode] at h
    simpa using h

/-- No bit leads on from a leaf. -/
theorem hufFollow_of_leaf (hleaf : hufIsLeaf nodes cur = true) (h : hufFollow nodes cur bits = some id) :
    bits = [] ∧ id = cur := by
  cases bits with
  | nil => exact ⟨rfl, (Option.some.inj h).symm⟩
  | cons bit bits =>
    obtain ⟨next, hchild, -⟩ := hufFollow_cons_eq_some.1 h
    rw [hufChild_of_leaf hleaf] at hchild
    cases hchild

theorem hufChild_of_treeAt {w l r : Nat} (h : treeAt nodes id = some (w, some (l, r))) (bit : Bool) :
    hufChild nodes id bit = some (if bit then r else l) := by
  obtain ⟨node, hnode, -, hkids⟩ := treeAt_eq_some.1 h
  simp [hufChild, hnode, hkids]

/-! ### What the walk lists -/

theorem mem_hufWalk_inner {fuel : Nat} {c : Nat × List Bool} (h : hufChild nodes cur bit = some next)
    (hc : c ∈ hufWalk nodes fuel next (path ++ [bit])) : c ∈ hufWalk nodes (fuel + 1) cur path := by
  unfold hufChild at h
  cases hnode : nodes.lookup cur with
  | none => simp [hnode] at h
  | some node =>
    cases hkids : node.kids with
    | none => simp [hnode, hkids] at h
    | some kids =>
      simp only [hnode, hkids, Option.map_some, Option.some.injEq] at h
      simp only [hufWalk, hnode, hkids, List.mem_append]
      subst h
      cases bit
      · exact .inl hc
      · exact .inr hc

theorem mem_hufWalk_of_leaf {fuel : Nat} (h : hufIsLeaf nodes cur = true) :
    (cur, path) ∈ hufWalk nodes (fuel + 1) cur path := by
  unfold hufIsLeaf at h
  cases hnode : nodes.lookup cur with
  | none => simp [hnode] at h
  | some node =>
    have hkids : node.kids = none := by simpa [hnode] using h
    simp [hufWalk, hnode, hkids]

/-- The walk lists a leaf under every path to it that its fuel allows. -/
theorem mem_hufWalk_of_follow {fuel : Nat} (hfollow : hufFollow nodes cur bits = some id)
    (hleaf : hufIsLeaf nodes id = true) (hlen : bits.length < fuel) :
    (id, path ++ bits) ∈ hufWalk nodes fuel cur path := by
  induction fuel generalizing cur path bits with
  | zero => cases hlen
  | succ fuel ih =>
    cases bits with
    | nil =>
      cases hfollow
      rw [List.append_nil]
      exact mem_hufWalk_of_leaf hleaf
    | cons bit bits =>
      obtain ⟨next, hchild, hrest⟩ := hufFollow_cons_eq_some.1 hfollow
      have hmem := ih (path := path ++ [bit]) hrest (Nat.lt_of_succ_lt_succ hlen)
      rw [List.append_assoc] at hmem
      exact mem_hufWalk_inner hchild hmem

/-- The walk lists leaves only, each under a path to it. -/
theorem follow_of_mem_hufWalk {fuel : Nat} {c : Nat × List Bool} (hc : c ∈ hufWalk nodes fuel cur path) :
    ∃ bits, c.2 = path ++ bits ∧ hufFollow nodes cur bits = some c.1 ∧ hufIsLeaf nodes c.1 = true := by
  induction fuel generalizing cur path with
  | zero => cases hc
  | succ fuel ih =>
    cases hleaf : hufIsLeaf nodes cur with
    | true =>
      obtain rfl := eq_of_mem_hufWalk_leaf hleaf hc
      exact ⟨[], by simp, rfl, hleaf⟩
    | false =>
      obtain ⟨bit, next, hchild, hc⟩ := exists_child_of_mem_hufWalk hleaf hc
      obtain ⟨bits, hpath, hfollow, hl⟩ := ih hc
      exact ⟨bit :: bits, by simp [hpath], hufFollow_cons_eq_some.2 ⟨next, hchild, hfollow⟩, hl⟩

end

/-! ### Paths in the tree built -/

section
variable {u : HufUnit} {id sym : Nat}

/-- A node that does not wait has a parent, which is an internal node made after it. -/
theorem exists_parent (hlen : u.freq.length = 256) (hpresent : treeAt (hufBuild u).nodes id ≠ none)
    (hroot : (hufBuild u).root ≠ some id) :
    ∃ parent bit, hufChild (hufBuild u).nodes parent bit = some id ∧ treeAt (hufBuild u).nodes parent ≠ none ∧
      256 ≤ parent ∧ id < parent := by
  obtain ⟨hforest, -⟩ := hufForest_build hlen
  have hkid : IsKid (treeAt (hufBuild u).nodes) (hufBuild u).nnext id := by
    by_contra hno
    exact hroot (hufBuild_root_eq_some hlen ((hforest.waits id).2 ⟨hpresent, hno⟩))
  obtain ⟨parent, w, l, r, -, htree, hid⟩ := hkid
  have hmade := hforest.madeOf _ _ _ _ htree
  have hhere : treeAt (hufBuild u).nodes parent ≠ none := by simp [htree]
  rcases hid with rfl | rfl
  · exact ⟨parent, false, hufChild_of_treeAt htree false, hhere, hmade.first, hmade.left⟩
  · exact ⟨parent, true, hufChild_of_treeAt htree true, hhere, hmade.first, hmade.right⟩

/-- A path leads from the root to every node present, and each of its bits is an id the nodes on it go down. -/
theorem exists_path (hlen : u.freq.length = 256) {root : Nat} (hroot : (hufBuild u).root = some root)
    (hinner : 255 ≤ root) (hpresent : treeAt (hufBuild u).nodes id ≠ none) :
    ∃ path, hufFollow (hufBuild u).nodes root path = some id ∧ path.length + max id 255 ≤ root := by
  obtain ⟨hforest, -⟩ := hufForest_build hlen
  induction hgap : (hufBuild u).nnext - id using Nat.strong_induction_on generalizing id with
  | _ gap ih =>
    by_cases hid : root = id
    · subst hid
      exact ⟨[], rfl, by simpa using hinner⟩
    · obtain ⟨parent, bit, hchild, hparent, hfirst, hlt⟩ :=
        exists_parent hlen hpresent (by rw [hroot]; simpa using hid)
      obtain ⟨_, hshape⟩ := Option.ne_none_iff_exists'.1 hparent
      have hbelow := hforest.lt_of_treeAt hshape
      obtain ⟨path, hpath, hle⟩ := ih _ (by omega) hparent rfl
      refine ⟨path ++ [bit], ?_, ?_⟩
      · rw [hufFollow_append, hpath]
        exact hufFollow_cons_eq_some.2 ⟨id, hchild, rfl⟩
      · rw [List.length_append, List.length_singleton]
        omega

end

/-! ### The codes -/

/-- `path` is a code of `sym` in the tree under `root`: at least one bit, and it leads from the root to the leaf
`sym`. -/
structure IsCode (nodes : List (Nat × HufNode)) (root sym : Nat) (path : List Bool) : Prop where
  follow : hufFollow nodes root path = some sym
  leaf : hufIsLeaf nodes sym = true
  ne_nil : path ≠ []

section
variable {u : HufUnit} {sym a b : Nat} {path tail : List Bool} {nodes : List (Nat × HufNode)} {root : Nat}

/-- A code that begins another is that other. -/
theorem IsCode.eq_of_append (ha : IsCode nodes root a path) (hb : IsCode nodes root b (path ++ tail)) : a = b := by
  have hfollow := hb.follow
  rw [hufFollow_append, ha.follow] at hfollow
  exact (hufFollow_of_leaf ha.leaf hfollow).2.symm

theorem hufIsLeaf_root_of_two (hlen : u.freq.length = 256) (htwo : 2 ≤ symbolCount u.freq) :
    hufIsLeaf (hufBuild u).nodes (254 + symbolCount u.freq) = false := by
  obtain ⟨hforest, -⟩ := hufForest_build hlen
  refine Bool.eq_false_iff.2 fun hleaf => ?_
  obtain ⟨f, hf, -⟩ := hforest.isLeaf_iff.1 hleaf
  have := (List.getElem?_eq_some_iff.1 hf).1
  omega

/-- The codes HUF.assign lists are codes in the tree. -/
theorem isCode_of_lookup (hlen : u.freq.length = 256) (htwo : 2 ≤ symbolCount u.freq)
    (h : (hufAssign (hufBuild u)).codes.lookup sym = some path) :
    IsCode (hufBuild u).nodes (254 + symbolCount u.freq) sym path := by
  rw [hufAssign_codes (hufBuild_of_two hlen htwo).1] at h
  obtain ⟨bits, hpath, hfollow, hleaf⟩ := follow_of_mem_hufWalk (mem_of_lookup h)
  rw [List.nil_append] at hpath
  subst hpath
  refine ⟨hfollow, hleaf, ?_⟩
  rintro rfl
  have hroot := hufIsLeaf_root_of_two hlen htwo
  rw [Option.some.inj hfollow] at hroot
  rw [hroot] at hleaf
  cases hleaf

theorem length_code_le (hroot : (hufBuild u).root = some root)
    (h : (hufAssign (hufBuild u)).codes.lookup sym = some path) : path.length ≤ 255 := by
  have htree := hufTreeOk_build u
  rw [hufAssign_codes hroot] at h
  exact (hufWalk_ok htree.node (htree.root root hroot) le_rfl _ (mem_of_lookup h)).2

theorem exists_lookup_of_mem {α : Type} {l : List (Nat × α)} {key : Nat} {v : α} (h : (key, v) ∈ l) :
    ∃ w, l.lookup key = some w :=
  Option.isSome_iff_exists.1 (List.lookup_isSome_iff.2 ⟨_, h, beq_self_eq_true key⟩)

/-- HUF.assign lists a code of every symbol present. -/
theorem exists_code (hlen : u.freq.length = 256) (htwo : 2 ≤ symbolCount u.freq) {f : U32} (hf : u.freq[sym]? = some f)
    (hne : f ≠ 0) : ∃ path, (hufAssign (hufBuild u)).codes.lookup sym = some path := by
  obtain ⟨hforest, -⟩ := hufForest_build hlen
  have hroot := (hufBuild_of_two hlen htwo).1
  have hleaf := hforest.isLeaf_iff.2 ⟨f, hf, hne⟩
  obtain ⟨w, htree⟩ := hufIsLeaf_iff.1 hleaf
  obtain ⟨path, hpath, hle⟩ := exists_path hlen hroot (by omega) (id := sym) (by simp [htree])
  have hsymbols := symbolCount_le u.freq
  rw [hufAssign_codes hroot]
  exact exists_lookup_of_mem (mem_hufWalk_of_follow hpath hleaf (by omega))

theorem hufAssign_eq_codes (u : HufUnit) : hufAssign u = { u with codes := (hufAssign u).codes } := by
  unfold hufAssign
  split <;> rfl

end

/-- Settles O29: the walk lists the leaves of the tree, each under a path from the root. -/
theorem hufAssignGivesPaths : Obligations.HufAssignGivesPaths := by
  unfold Obligations.HufAssignGivesPaths
  intro s hlen htwo
  obtain ⟨hforest, -⟩ := hufForest_build hlen
  have hroot := (hufBuild_of_two hlen htwo).1
  have hcode : ∀ {sym path}, (hufAssign (hufBuild s.huf)).codes.lookup sym = some path →
      IsCode (hufBuild s.huf).nodes (254 + symbolCount s.huf.freq) sym path := isCode_of_lookup hlen htwo
  refine ⟨_, 254 + symbolCount s.huf.freq, rfl, ?_, ?_, fun sym f hf hne => ?_, fun sym hf => ?_,
    fun a b path tail ha hb => (hcode ha).eq_of_append (hcode hb)⟩
  · exact congrArg (fun huf => { s with huf := huf }) (hufAssign_eq_codes _)
  · rw [hufAssign_eq_codes]
    exact hroot
  · obtain ⟨path, hpath⟩ := exists_code hlen htwo hf hne
    refine ⟨path, hpath, List.length_pos_of_ne_nil (hcode hpath).ne_nil, length_code_le hroot hpath, ?_⟩
    rw [hufAssign_eq_codes]
    exact (hcode hpath).follow
  · refine Option.eq_none_iff_forall_ne_some.2 fun path hpath => ?_
    obtain ⟨f, hf', hne⟩ := hforest.isLeaf_iff.1 (hcode hpath).leaf
    rw [hf] at hf'
    cases hf'
    exact hne rfl

end Sys2Proof.Machine

/-! PROOFS. Packed bits (42_huffman.md R168, 30_encoding.md R104, R105). The idea: the bytes emitted and the byte being
filled hold, at bit `7 - t` of byte `j`, stream bit `8j + t`, and 0 beyond the stream; each bit fills one place. -/

namespace Sys2Proof.Machine

/-! ### One bit -/

/-- A bit put into the byte being filled is its bit `7 - n` and no other. -/
theorem getLsbD_fillBit (acc : Byte) (bit : Bool) {n t : Nat} (hn : n < 8) (ht : t < 8) :
    (acc ||| ((if bit then 1#8 else 0#8) <<< (7 - n))).getLsbD (7 - t) =
      (acc.getLsbD (7 - t) || (bit && decide (t = n))) := by
  have hbit : ∀ k, (if bit then 1#8 else 0#8).getLsbD k = (bit && decide (k = 0)) := by
    intro k
    cases bit <;> simp
  rw [BitVec.getLsbD_or, BitVec.getLsbD_shiftLeft, hbit]
  congr 1
  by_cases h : t = n
  · simp [h, show 7 - n < 8 by omega]
  · have hother : (!decide (7 - t < 7 - n) && decide (7 - t - (7 - n) = 0)) = false := by
      simp only [Bool.and_eq_false_iff, Bool.not_eq_false', decide_eq_true_iff, decide_eq_false_iff_not]
      omega
    rw [Bool.and_left_comm, Bool.and_assoc, hother]
    simp [h]

theorem getD_append_singleton (bits : List Bool) (bit : Bool) (i : Nat) :
    ((bits ++ [bit])[i]?).getD false = ((bits[i]?).getD false || (bit && decide (i = bits.length))) := by
  rcases Nat.lt_trichotomy i bits.length with h | h | h
  · simp [List.getElem?_append_left h, h.ne]
  · simp [h]
  · simp [List.getElem?_append_right h.le, Nat.sub_ne_zero_of_lt h, List.getElem?_eq_none h.le, h.ne']

/-- Bit `7 - t` of byte `j`, 0 where there is no byte. -/
def packedBit (bs : List Byte) (j t : Nat) : Bool := ((bs[j]?).getD 0).getLsbD (7 - t)

section
variable {bs : List Byte} {b : Byte} {j : Nat}

theorem packedBit_of_ge (h : bs.length ≤ j) (t : Nat) : packedBit bs j t = false := by
  simp [packedBit, List.getElem?_eq_none h]

theorem packedBit_append_self (bs : List Byte) (b : Byte) (t : Nat) :
    packedBit (bs ++ [b]) bs.length t = b.getLsbD (7 - t) := by
  simp [packedBit]

theorem packedBit_append_of_ne (h : j ≠ bs.length) (t : Nat) : packedBit (bs ++ [b]) j t = packedBit bs j t := by
  rcases Nat.lt_or_gt_of_ne h with h | h
  · rw [packedBit, List.getElem?_append_left h, packedBit]
  · rw [packedBit_of_ge h.le, packedBit_of_ge (by simpa using h)]

theorem packedBit_append_zero (bs : List Byte) (j t : Nat) : packedBit (bs ++ [0]) j t = packedBit bs j t := by
  by_cases h : j = bs.length
  · rw [h, packedBit_append_self, packedBit_of_ge le_rfl]
    simp
  · exact packedBit_append_of_ne h t

end

/-! ### The packer -/

/-- The packer has taken `bits`. -/
structure Packed (bits : List Bool) (p : Packer) : Prop where
  nbits : p.nbits < 8
  length : bits.length = 8 * p.emitted.length + p.nbits
  bit : ∀ j t, t < 8 → packedBit (p.emitted ++ [p.acc]) j t = (bits[8 * j + t]?).getD false

section
variable {bits : List Bool} {p : Packer}

/-- The byte being filled, with the next bit in it. -/
theorem packed_fillBit (h : Packed bits p) (bit : Bool) {j t : Nat} (ht : t < 8) :
    packedBit (p.emitted ++ [p.acc ||| ((if bit then 1#8 else 0#8) <<< (7 - p.nbits))]) j t =
      ((bits ++ [bit])[8 * j + t]?).getD false := by
  have hlen := h.length
  have hn := h.nbits
  rw [getD_append_singleton, ← h.bit j t ht]
  by_cases hj : j = p.emitted.length
  · have hplace : t = p.nbits ↔ 8 * j + t = bits.length := by omega
    rw [← decide_eq_decide.2 hplace, hj, packedBit_append_self, packedBit_append_self, getLsbD_fillBit p.acc bit hn ht]
  · have hplace : ¬ 8 * j + t = bits.length := by omega
    rw [packedBit_append_of_ne hj, packedBit_append_of_ne hj, decide_eq_false hplace, Bool.and_false, Bool.or_false]

theorem packed_packBit (h : Packed bits p) (bit : Bool) : Packed (bits ++ [bit]) (packBit p bit) := by
  have hn := h.nbits
  have hlen := h.length
  unfold packBit
  dsimp only
  split
  next hfull =>
    refine ⟨by simp, ?_, fun j t ht => ?_⟩
    · simp only [List.length_append, List.length_singleton]
      omega
    · rw [packedBit_append_zero]
      exact packed_fillBit h bit ht
  next hmore =>
    refine ⟨by dsimp only; omega, ?_, fun j t ht => packed_fillBit h bit ht⟩
    simp only [List.length_append, List.length_singleton]
    omega

theorem packed_packAll (bits : List Bool) : Packed bits (packAll bits) := by
  induction bits using List.reverseRecOn with
  | nil =>
    refine ⟨by decide, rfl, fun j t _ => ?_⟩
    rw [show (packAll []).emitted ++ [(packAll []).acc] = [] ++ [0] from rfl, packedBit_append_zero]
    simp [packedBit]
  | append_singleton bits bit ih =>
    rw [packAll, List.foldl_append]
    exact packed_packBit ih bit

end

/-! ### The bytes -/

section
variable (bits : List Bool)

theorem length_pack : (pack bits).length = (bits.length + 7) / 8 := by
  have h := packed_packAll bits
  have hn := h.nbits
  rw [pack, packFlush, h.length]
  split
  · rw [List.length_append, List.length_singleton]
    omega
  · omega

theorem packedBit_pack (j : Nat) {t : Nat} (ht : t < 8) :
    packedBit (pack bits) j t = (bits[8 * j + t]?).getD false := by
  have h := packed_packAll bits
  rw [← h.bit j t ht, pack, packFlush]
  split
  · rfl
  next hzero =>
    by_cases hj : j = (packAll bits).emitted.length
    · have hend : bits.length ≤ 8 * j + t := by
        have := h.length
        omega
      rw [packedBit_of_ge hj.ge, h.bit j t ht, List.getElem?_eq_none hend, Option.getD_none]
    · exact (packedBit_append_of_ne hj t).symm

end

/-- Settles O33: each bit fills its place. -/
theorem hufPackLayout : Obligations.HufPackLayout := by
  unfold Obligations.HufPackLayout
  refine fun bits => ⟨length_pack bits, fun j t b hb ht => ?_⟩
  rw [← packedBit_pack bits j ht, packedBit, hb, Option.getD_some]

/-! ### Reading packed bits back -/

theorem unpackByte_getElem? (b : Byte) {t : Nat} (ht : t < 8) : (unpackByte b)[t]? = some (b.getLsbD (7 - t)) := by
  simp [unpackByte, ht]

theorem unpackBits_getElem? (bs : List Byte) (j : Nat) {t : Nat} (ht : t < 8) :
    (unpackBits bs)[8 * j + t]? = (bs[j]?).map fun b => b.getLsbD (7 - t) := by
  have hbyte : ∀ b, (unpackByte b).length = 8 := fun b => by simp [unpackByte]
  induction bs generalizing j with
  | nil => simp [unpackBits]
  | cons b bs ih =>
    rw [unpackBits, List.flatMap_cons, ← unpackBits]
    cases j with
    | zero =>
      rw [List.getElem?_append_left (by rw [hbyte]; omega), Nat.mul_zero, Nat.zero_add, unpackByte_getElem? b ht]
      rfl
    | succ j =>
      rw [List.getElem?_append_right (by rw [hbyte]; omega), hbyte, show 8 * (j + 1) + t - 8 = 8 * j + t by omega, ih]
      rfl

/-- The stream packed is read back, with some padding after it. -/
theorem unpackBits_pack (bits : List Bool) : ∃ padding, unpackBits (pack bits) = bits ++ padding := by
  suffices bits <+: unpackBits (pack bits) by
    obtain ⟨padding, h⟩ := this
    exact ⟨padding, h.symm⟩
  refine List.prefix_iff_getElem?.2 fun i hi => ?_
  have hj : i / 8 < (pack bits).length := by rw [length_pack]; omega
  have hbit := packedBit_pack bits (i / 8) (Nat.mod_lt i (by decide : 0 < 8))
  have hread := unpackBits_getElem? (pack bits) (i / 8) (Nat.mod_lt i (by decide : 0 < 8))
  rw [Nat.div_add_mod] at hbit hread
  rw [hread, List.getElem?_eq_getElem hj, Option.map_some]
  simpa [packedBit, hj, hi] using hbit

end Sys2Proof.Machine

/-! PROOFS. The walk over a Huffman bit stream (42_huffman.md R175, R177, R178). The idea: while bytes are owed, the
bits of one code word move the walk from its node to a leaf and back to the root with one more byte out, and where they
name no child the walk stops; once the owed bytes are out the rest of the stream changes nothing. -/

namespace Sys2Proof.Machine

open Sys2Proof.Safety

/-! ### Bits -/

section
variable {nodes : List (Nat × HufNode)} {root size next sym : Nat} {bit : Bool} {bits path rest : List Bool}
  {d : Unpacker}

theorem hufBit_to_leaf (howed : d.out.length < size) (hchild : hufChild nodes d.cur bit = some next)
    (hleaf : hufIsLeaf nodes next = true) :
    hufBit nodes root size d bit = .ok ⟨root, d.bitpos + 1, d.out ++ [leafSymbol next]⟩ := by
  simp [hufBit, Nat.not_le.2 howed, hchild, hleaf]

theorem hufBit_to_inner (howed : d.out.length < size) (hchild : hufChild nodes d.cur bit = some next)
    (hleaf : hufIsLeaf nodes next = false) : hufBit nodes root size d bit = .ok ⟨next, d.bitpos + 1, d.out⟩ := by
  simp [hufBit, Nat.not_le.2 howed, hchild, hleaf]

theorem hufBit_to_none (howed : d.out.length < size) (hchild : hufChild nodes d.cur bit = none) :
    hufBit nodes root size d bit = .error .hufOffTree := by
  simp [hufBit, Nat.not_le.2 howed, hchild]

/-- Once the owed bytes are out no bit is read (R178). -/
theorem hufBits_of_done (hdone : size ≤ d.out.length) (bits : List Bool) : hufBits nodes root size bits d = .ok d := by
  induction bits with
  | nil => rfl
  | cons bit bits ih => rw [hufBits, hufBit, if_pos hdone]; exact ih

/-- The bits of a code word put out its symbol and bring the walk back to the root (R177). -/
theorem hufBits_codeWord (howed : d.out.length < size) (hne : path ≠ [])
    (hfollow : hufFollow nodes d.cur path = some sym) (hleaf : hufIsLeaf nodes sym = true) (rest : List Bool) :
    hufBits nodes root size (path ++ rest) d =
      hufBits nodes root size rest ⟨root, d.bitpos + path.length, d.out ++ [leafSymbol sym]⟩ := by
  induction path generalizing d with
  | nil => exact absurd rfl hne
  | cons bit path ih =>
    obtain ⟨next, hchild, hrest⟩ := hufFollow_cons_eq_some.1 hfollow
    rw [List.cons_append, hufBits]
    cases hnext : hufIsLeaf nodes next with
    | true =>
      obtain ⟨rfl, rfl⟩ := hufFollow_of_leaf hnext hrest
      rw [hufBit_to_leaf howed hchild hnext]
      rfl
    | false =>
      have hpath : path ≠ [] := by
        rintro rfl
        rw [Option.some.inj hrest, hleaf] at hnext
        cases hnext
      rw [hufBit_to_inner howed hchild hnext]
      refine (ih (d := ⟨next, d.bitpos + 1, d.out⟩) howed hpath hrest).trans ?_
      rw [List.length_cons, Nat.add_assoc, Nat.add_comm 1]

/-- Bits that name an absent child before they reach a leaf stop the walk (R175). -/
theorem hufBits_of_follow_none (howed : d.out.length < size) (hfollow : hufFollow nodes d.cur path = none)
    (hinner : ∀ k n, 0 < k → k < path.length → hufFollow nodes d.cur (path.take k) = some n →
      hufIsLeaf nodes n = false) :
    hufBits nodes root size path d = .error .hufOffTree := by
  induction path generalizing d with
  | nil => cases hfollow
  | cons bit path ih =>
    rw [hufFollow] at hfollow
    rw [hufBits]
    cases hchild : hufChild nodes d.cur bit with
    | none => rw [hufBit_to_none howed hchild]
    | some next =>
      simp only [hchild] at hfollow
      have hstep : ∀ k n, hufFollow nodes next (path.take k) = some n →
          hufFollow nodes d.cur ((bit :: path).take (k + 1)) = some n := fun k n hn => by
        rw [List.take_succ_cons]
        exact hufFollow_cons_eq_some.2 ⟨next, hchild, hn⟩
      have hlen : 0 < path.length := List.length_pos_of_ne_nil (by rintro rfl; cases hfollow)
      have hnext := hinner 1 next Nat.one_pos (Nat.succ_lt_succ hlen) (hstep 0 next rfl)
      rw [hufBit_to_inner howed hchild hnext]
      exact ih (d := ⟨next, d.bitpos + 1, d.out⟩) howed hfollow fun k n _ hk hn =>
        hinner (k + 1) n (Nat.succ_pos k) (Nat.succ_lt_succ hk) (hstep k n hn)

end

/-! ### HUF.SYM -/

section
variable {s : State} {root sym : Nat} {path : List Bool}

/-- The element is the walk over its bits, from where the walk stands (R177). -/
theorem hufSymOp_eq (hroot : s.huf.root = some root) : hufSymOp path s =
    (hufBits s.huf.nodes root s.huf.obj.originalSize.toNat path ⟨s.huf.cur, s.bitpos, outBytes s⟩).bind fun d =>
      extend d.out { s with huf := { s.huf with cur := d.cur }, bitpos := d.bitpos } := by
  unfold hufSymOp
  split
  next hnone => cases hroot.symm.trans hnone
  next hsome =>
    cases hroot.symm.trans hsome
    cases hufBits s.huf.nodes root s.huf.obj.originalSize.toNat path ⟨s.huf.cur, s.bitpos, outBytes s⟩ <;> rfl

/-- A code word from the root is one append (20_memory.md R65). -/
theorem hufSymOp_codeWord (hroot : s.huf.root = some root) (hcur : s.huf.cur = root)
    (howed : s.opos < s.huf.obj.originalSize.toNat) (hne : path ≠ [])
    (hfollow : hufFollow s.huf.nodes root path = some sym) (hleaf : hufIsLeaf s.huf.nodes sym = true) :
    hufSymOp path s = append [leafSymbol sym] { s with bitpos := s.bitpos + path.length } := by
  subst hcur
  have hrun := hufBits_codeWord (root := s.huf.cur) (d := ⟨s.huf.cur, s.bitpos, outBytes s⟩)
    (size := s.huf.obj.originalSize.toNat) (by rw [length_outBytes]; exact howed) hne hfollow hleaf []
  rw [List.append_nil, hufBits] at hrun
  rw [hufSymOp_eq hroot, hrun]
  exact extend_outBytes (s := s) (t := { s with bitpos := s.bitpos + path.length }) _ rfl

theorem hufSymOp_of_error {c : Cause} (hroot : s.huf.root = some root)
    (h : hufBits s.huf.nodes root s.huf.obj.originalSize.toNat path ⟨s.huf.cur, s.bitpos, outBytes s⟩ = .error c) :
    hufSymOp path s = .error c := by
  rw [hufSymOp_eq hroot, h]
  rfl

end

/-- Settles O35: the bits reach a leaf, and one byte is appended or does not fit, or they name an absent child. -/
theorem hufSymAppends : Obligations.HufSymAppends := by
  unfold Obligations.HufSymAppends
  intro s root path hroot hcur hinner howed
  refine ⟨fun sym hne hfollow hleaf hcap => ?_, fun sym hne hfollow hleaf hcap => ?_, fun hfollow => ?_⟩
  · have hop := (hufSymOp_codeWord hroot hcur howed hne hfollow hleaf).trans (append_of_fits (by simpa using hcap))
    exact ⟨_, congrArg (settle s) hop, rfl, writtenAt_memWrite _ _ _⟩
  · exact raises_of_error rfl
      ((hufSymOp_codeWord hroot hcur howed hne hfollow hleaf).trans (append_of_beyond (by simpa using hcap))) rfl
  · subst hcur
    refine raises_of_error rfl (hufSymOp_of_error hroot (hufBits_of_follow_none ?_ hfollow hinner)) rfl
    rw [length_outBytes]
    exact howed

end Sys2Proof.Machine

/-! PROOFS. HUF.compress and HUF.decompress (42_huffman.md R161, R169, R170, R175, R176, R180). The idea: both build the
tree of the same table, in which every byte of the input has a code; the packed codes are read back one after another,
and the walk stops on the last owed byte, before the padding. -/

namespace Sys2Proof.Machine

open Sys2Proof.Safety

/-! ### The histogram -/

section
variable {x : List Byte} {b : Byte} {f : U32}

/-- Each entry counts its byte (R161), in the 32 bits it has (log entry 24). -/
theorem histogram_getElem? (x : List Byte) (b : Byte) :
    (histogram x)[b.toNat]? = some (BitVec.ofNat 32 (x.count b)) := by
  suffices ∀ (freq : List U32) (v : U32), freq[b.toNat]? = some v →
      (x.foldl (fun f b => f.modify b.toNat (· + 1)) freq)[b.toNat]? = some (v + BitVec.ofNat 32 (x.count b)) by
    have hzero : (List.replicate Config.hufSymbols (0 : U32))[b.toNat]? = some 0 :=
      List.getElem?_replicate_of_lt b.isLt
    rw [histogram, this _ 0 hzero]
    exact congrArg some (BitVec.zero_add _)
  induction x with
  | nil => intro freq v hv; simpa using hv
  | cons c x ih =>
    intro freq v hv
    rw [List.foldl_cons, List.count_cons]
    by_cases hc : c = b
    · rw [ih _ (v + 1) (by rw [List.getElem?_modify, hv, hc]; simp)]
      rw [if_pos (beq_iff_eq.2 hc), BitVec.ofNat_add, BitVec.add_assoc, BitVec.add_comm 1]
      rfl
    · have hne : c.toNat ≠ b.toNat := fun h => hc (BitVec.eq_of_toNat_eq h)
      rw [ih _ v (by rw [List.getElem?_modify, hv]; simp [hne])]
      simp [hc]

theorem toNat_count (hx : x.length < 2 ^ 32) (b : Byte) : (BitVec.ofNat 32 (x.count b)).toNat = x.count b := by
  rw [BitVec.toNat_ofNat]
  exact Nat.mod_eq_of_lt (List.count_le_length.trans_lt hx)

theorem toNat_histogram_getD (hx : x.length < 2 ^ 32) (b : Byte) :
    ((histogram x).getD b.toNat 0).toNat = x.count b := by
  rw [List.getD_eq_getElem?_getD, histogram_getElem?, Option.getD_some, toNat_count hx]

/-- A byte of the input is a symbol of its table. -/
theorem exists_histogram_of_mem (hx : x.length < 2 ^ 32) (hb : b ∈ x) :
    ∃ f, (histogram x)[b.toNat]? = some f ∧ f ≠ 0 := by
  refine ⟨_, histogram_getElem? x b, fun hzero => ?_⟩
  have hcount : 0 = x.count b := (congrArg BitVec.toNat hzero).symm.trans (toNat_count hx b)
  exact (List.count_pos_iff.2 hb).ne hcount

theorem toNat_ofNat_byte {i : Nat} (hi : i < 256) : (BitVec.ofNat 8 i).toNat = i := by
  rw [BitVec.toNat_ofNat]
  exact Nat.mod_eq_of_lt hi

theorem histogram_eq_map (x : List Byte) :
    histogram x = (List.range 256).map fun i => BitVec.ofNat 32 (x.count (BitVec.ofNat 8 i)) := by
  refine List.ext_getElem? fun i => ?_
  by_cases hi : i < 256
  · have h := histogram_getElem? x (BitVec.ofNat 8 i)
    rw [toNat_ofNat_byte hi] at h
    rw [h, List.getElem?_map, List.getElem?_range hi, Option.map_some]
  · rw [List.getElem?_eq_none (by rw [length_histogram]; omega), List.getElem?_eq_none (by simp; omega)]

theorem symbolCount_pos {freq : List U32} {i : Nat} (hf : freq[i]? = some f) (hne : f ≠ 0) : 1 ≤ symbolCount freq :=
  List.length_pos_of_mem (List.mem_filter.2 ⟨List.mem_of_getElem? hf, by simpa using hne⟩)

/-- The table of copies of one byte has one symbol (R170). -/
theorem symbolCount_histogram_replicate {n : Nat} (hn : 1 ≤ n) (hlt : n < 2 ^ 32) (b : Byte) :
    symbolCount (histogram (List.replicate n b)) = 1 := by
  have hentry : ∀ i ∈ List.range 256,
      (BitVec.ofNat 32 ((List.replicate n b).count (BitVec.ofNat 8 i)) != 0) = true ↔ (i == b.toNat) = true := by
    intro i hi
    have hi := List.mem_range.1 hi
    rw [List.count_replicate]
    by_cases h : i = b.toNat
    · have hn0 : BitVec.ofNat 32 n ≠ 0 := fun hzero => by
        have hzero := congrArg BitVec.toNat hzero
        rw [BitVec.toNat_ofNat, Nat.mod_eq_of_lt hlt] at hzero
        exact Nat.ne_of_gt hn hzero
      simpa [h] using hn0
    · have hne : b ≠ BitVec.ofNat 8 i := fun hb => h (by rw [hb, toNat_ofNat_byte hi])
      simp [h, hne]
  rw [symbolCount, histogram_eq_map, List.filter_map, List.length_map, ← List.countP_eq_length_filter]
  exact (List.countP_congr hentry).trans (List.count_eq_one_of_mem List.nodup_range (List.mem_range.2 b.isLt))

end

/-! ### The tree depends on the table alone -/

section
variable {u v : HufUnit} {root : Nat} {x : List Byte} {b : Byte}

theorem hufBuild_of_freq (h : v.freq = u.freq) : (hufBuild v).nodes = (hufBuild u).nodes ∧
    (hufBuild v).root = (hufBuild u).root := by
  unfold hufBuild
  rw [h]
  exact ⟨rfl, rfl⟩

theorem hufAssign_codes_of_freq (h : v.freq = u.freq) :
    (hufAssign (hufBuild v)).codes = (hufAssign (hufBuild u)).codes := by
  obtain ⟨hnodes, hroot⟩ := hufBuild_of_freq h
  unfold hufAssign
  rw [hnodes, hroot]
  split <;> rfl

/-! ### HUF.compress -/

theorem hufCompress_obj_fields (u : HufUnit) (x : List Byte) :
    (hufCompress u x).obj.originalSize = BitVec.ofNat 64 x.length ∧ (hufCompress u x).obj.freqTable = histogram x := by
  unfold hufCompress
  dsimp only
  split
  · exact ⟨rfl, rfl⟩
  · split <;> exact ⟨rfl, rfl⟩

/-- The one-symbol case (R170). -/
theorem hufCompress_of_leaf (hfreq : v.freq = histogram x) (hroot : (hufBuild v).root = some root)
    (hleaf : hufIsLeaf (hufBuild v).nodes root = true) : (hufCompress u x).obj.packedBits = [leafSymbol root] := by
  obtain ⟨hnodes, hroots⟩ := hufBuild_of_freq (u := v) (v := { u with freq := histogram x, acc := 0, nbits := 0 })
    hfreq.symm
  rw [← hnodes] at hleaf
  unfold hufCompress
  dsimp only
  rw [hroots, hroot]
  dsimp only
  rw [if_pos hleaf]

/-- The case of at least two symbols (R169). -/
theorem hufCompress_of_inner (hfreq : v.freq = histogram x) (hroot : (hufBuild v).root = some root)
    (hleaf : hufIsLeaf (hufBuild v).nodes root = false) :
    (hufCompress u x).codes = (hufAssign (hufBuild v)).codes ∧
    (hufCompress u x).obj.packedBits = pack (x.flatMap (codeOf (hufAssign (hufBuild v)).codes)) := by
  obtain ⟨hnodes, hroots⟩ := hufBuild_of_freq (u := v) (v := { u with freq := histogram x, acc := 0, nbits := 0 })
    hfreq.symm
  rw [← hnodes] at hleaf
  rw [← hufAssign_codes_of_freq (u := v) (v := { u with freq := histogram x, acc := 0, nbits := 0 }) hfreq.symm]
  unfold hufCompress
  dsimp only
  rw [hroots, hroot]
  dsimp only
  rw [if_neg (Bool.eq_false_iff.1 hleaf)]
  exact ⟨rfl, rfl⟩

/-! ### HUF.decompress -/

/-- The one-symbol case (R176). -/
theorem hufDecompress_of_leaf (hfreq : v.freq = u.obj.freqTable) (hroot : (hufBuild v).root = some root)
    (hleaf : hufIsLeaf (hufBuild v).nodes root = true) :
    ∃ unit bitpos, hufDecompress u = .ok (unit, bitpos, List.replicate u.obj.originalSize.toNat (leafSymbol root)) := by
  obtain ⟨hnodes, hroots⟩ := hufBuild_of_freq (u := v) (v := { u with freq := u.obj.freqTable }) hfreq.symm
  rw [← hnodes] at hleaf
  unfold hufDecompress
  dsimp only
  rw [hroots, hroot]
  dsimp only
  rw [if_pos hleaf]
  exact ⟨_, _, rfl⟩

/-- The walk that puts out the owed bytes (R175). -/
theorem hufDecompress_of_inner (hfreq : v.freq = u.obj.freqTable) (hroot : (hufBuild v).root = some root)
    (hleaf : hufIsLeaf (hufBuild v).nodes root = false) {d : Unpacker}
    (hrun : hufBits (hufBuild v).nodes root u.obj.originalSize.toNat (unpackBits u.obj.packedBits) ⟨root, 0, []⟩ =
      .ok d)
    (hdone : u.obj.originalSize.toNat ≤ d.out.length) :
    ∃ unit bitpos, hufDecompress u = .ok (unit, bitpos, d.out) := by
  obtain ⟨hnodes, hroots⟩ := hufBuild_of_freq (u := v) (v := { u with freq := u.obj.freqTable }) hfreq.symm
  rw [← hnodes] at hleaf hrun
  unfold hufDecompress
  dsimp only
  rw [hroots, hroot]
  dsimp only
  rw [if_neg (Bool.eq_false_iff.1 hleaf), hrun]
  dsimp only
  rw [if_pos hdone]
  exact ⟨_, _, rfl⟩

theorem leafSymbol_toNat (b : Byte) : leafSymbol b.toNat = b := by
  rw [leafSymbol, BitVec.ofNat_toNat, BitVec.setWidth_eq]

end

/-! ### Codes of the input -/

section
variable {v : HufUnit} {nodes : List (Nat × HufNode)} {codes : List (Nat × List Bool)} {root size bitpos : Nat}
  {x out : List Byte} {b : Byte} {f : U32}

theorem isCode_codeOf (hlen : v.freq.length = 256) (htwo : 2 ≤ symbolCount v.freq) (hf : v.freq[b.toNat]? = some f)
    (hne : f ≠ 0) : IsCode (hufBuild v).nodes (254 + symbolCount v.freq) b.toNat
      (codeOf (hufAssign (hufBuild v)).codes b) := by
  obtain ⟨path, hpath⟩ := exists_code hlen htwo hf hne
  rw [codeOf, hpath]
  exact isCode_of_lookup hlen htwo hpath

/-- The walk over the codes of some bytes puts out those bytes. -/
theorem hufBits_codeWords (hcodes : ∀ b ∈ x, IsCode nodes root b.toNat (codeOf codes b)) (rest : List Bool)
    (hsize : out.length + x.length ≤ size) : ∃ bitpos',
      hufBits nodes root size (x.flatMap (codeOf codes) ++ rest) ⟨root, bitpos, out⟩ =
        hufBits nodes root size rest ⟨root, bitpos', out ++ x⟩ := by
  induction x generalizing bitpos out with
  | nil => exact ⟨bitpos, by simp⟩
  | cons b x ih =>
    obtain ⟨hb, hx⟩ := List.forall_mem_cons.1 hcodes
    rw [List.length_cons] at hsize
    have howed : out.length < size := by omega
    obtain ⟨bitpos', hrest⟩ := ih hx (out := out ++ [b]) (bitpos := bitpos + (codeOf codes b).length)
      (by rw [List.length_append, List.length_singleton]; omega)
    refine ⟨bitpos', ?_⟩
    rw [List.flatMap_cons, List.append_assoc,
      hufBits_codeWord (d := ⟨root, bitpos, out⟩) howed hb.ne_nil hb.follow hb.leaf, leafSymbol_toNat, hrest,
      List.append_assoc]
    rfl

end

/-! ### The round trip -/

section
variable {u v w : HufUnit} {x : List Byte} {b : Byte}

/-- A table with one symbol counts copies of one byte. -/
theorem eq_replicate_of_root {root : Nat} (hx : x.length < 2 ^ 32) (hw : w.freq = histogram x)
    (hone : symbolCount w.freq = 1) (hroot : (hufBuild w).root = some root) :
    x = List.replicate x.length (leafSymbol root) := by
  refine List.eq_replicate_iff.2 ⟨rfl, fun b hb => ?_⟩
  obtain ⟨f, hf, hne⟩ := exists_histogram_of_mem hx hb
  rw [← hw] at hf
  obtain ⟨hb, -⟩ := hufBuild_root_of_one (by rw [hw, length_histogram]) hone hf hne
  rw [hroot, Option.some.injEq] at hb
  rw [hb, leafSymbol_toNat]

/-- In the tree of its table every byte of the input has a code. -/
theorem isCode_of_mem (hx : x.length < 2 ^ 32) (hw : w.freq = histogram x) (htwo : 2 ≤ symbolCount w.freq)
    (hb : b ∈ x) : IsCode (hufBuild w).nodes (254 + symbolCount w.freq) b.toNat
      (codeOf (hufAssign (hufBuild w)).codes b) := by
  obtain ⟨f, hf, hne⟩ := exists_histogram_of_mem hx hb
  exact isCode_codeOf (by rw [hw, length_histogram]) htwo (by rw [hw]; exact hf) hne

/-- The packed codes of the input are read back as the input, and the padding is not read. -/
theorem hufBits_packed (hx : x.length < 2 ^ 32) (hw : w.freq = histogram x) (htwo : 2 ≤ symbolCount w.freq) :
    ∃ bitpos, hufBits (hufBuild w).nodes (254 + symbolCount w.freq) x.length
      (unpackBits (pack (x.flatMap (codeOf (hufAssign (hufBuild w)).codes)))) ⟨254 + symbolCount w.freq, 0, []⟩ =
        .ok ⟨254 + symbolCount w.freq, bitpos, x⟩ := by
  obtain ⟨padding, hbits⟩ := unpackBits_pack (x.flatMap (codeOf (hufAssign (hufBuild w)).codes))
  obtain ⟨bitpos, hrun⟩ := hufBits_codeWords (size := x.length) (out := []) (bitpos := 0)
    (fun b hb => isCode_of_mem hx hw htwo hb) padding (by simp)
  rw [List.nil_append] at hrun
  exact ⟨bitpos, by rw [hbits, hrun]; exact hufBits_of_done (d := ⟨_, bitpos, x⟩) le_rfl padding⟩

theorem toNat_size_hufCompress (hx : x.length < 2 ^ 32) :
    (hufCompress u x).obj.originalSize.toNat = x.length := by
  rw [(hufCompress_obj_fields u x).1, BitVec.toNat_ofNat]
  exact Nat.mod_eq_of_lt (by omega)

/-- R180. -/
theorem hufDecompress_hufCompress (hpos : 1 ≤ x.length) (hx : x.length < 2 ^ 32)
    (hobj : v.obj = (hufCompress u x).obj) :
    ∃ unit bitpos, hufDecompress v = .ok (unit, bitpos, x) := by
  obtain ⟨w, hw⟩ : ∃ w : HufUnit, w.freq = histogram x := ⟨{ v with freq := histogram x }, rfl⟩
  have hlen : w.freq.length = 256 := by rw [hw, length_histogram]
  have hsize : v.obj.originalSize.toNat = x.length := by rw [hobj, toNat_size_hufCompress hx]
  have htable : w.freq = v.obj.freqTable := by rw [hobj, hw, (hufCompress_obj_fields u x).2]
  obtain ⟨b, hb⟩ := List.exists_mem_of_length_pos hpos
  obtain ⟨f, hf, hne⟩ := exists_histogram_of_mem hx hb
  rw [← hw] at hf
  rcases (symbolCount_pos hf hne).eq_or_lt with hone | htwo
  · obtain ⟨hroot, hleaf⟩ := hufBuild_root_of_one hlen hone.symm hf hne
    rw [eq_replicate_of_root hx hw hone.symm hroot, ← hsize]
    exact hufDecompress_of_leaf htable hroot hleaf
  · have hroot := (hufBuild_of_two hlen htwo).1
    have hinner := hufIsLeaf_root_of_two hlen htwo
    obtain ⟨bitpos, hrun⟩ := hufBits_packed hx hw htwo
    rw [← (hufCompress_of_inner (u := u) hw hroot hinner).2, ← hobj, ← hsize] at hrun
    exact hufDecompress_of_inner htable hroot hinner hrun hsize.le

end

section
variable {s : State} {unit : HufUnit} {bitpos : Nat} {out : List Byte} {c : Cause}

/-- An output that fits OBUF is laid from address 0 by one append. -/
theorem hufDecompressOp_of_ok (h : hufDecompress s.huf = .ok (unit, bitpos, out)) (hfit : out.length ≤ s.cfg.capOut) :
    hufDecompressOp s = .ok { s with obuf := cells 0 out, opos := out.length, bitpos := bitpos, huf := unit } := by
  rw [hufDecompressOp, h]
  exact append_of_started rfl rfl hfit

theorem hufDecompressOp_of_error (h : hufDecompress s.huf = .error c) : hufDecompressOp s = .error c := by
  rw [hufDecompressOp, h]

end

/-- Settles O34: what is decoded is the input, and its one append fits. -/
theorem hufRoundTrip : Obligations.HufRoundTrip := by
  unfold Obligations.HufRoundTrip
  intro s u x _ hpos hx hcap hobj
  obtain ⟨unit, bitpos, hrun⟩ := hufDecompress_hufCompress hpos hx hobj
  exact ⟨_, congrArg (settle s) (hufDecompressOp_of_ok hrun hcap), holds_cells x, rfl, rfl,
    (hufDecompress_eq_ok hrun).2⟩

/-- Settles O30: the operation changes its unit and cursor alone, and in the tree of the input's table every byte of the
input has a code. -/
theorem hufCompressMakesObject : Obligations.HufCompressMakesObject := by
  unfold Obligations.HufCompressMakesObject
  intro s hin
  have hlen := length_inputBytes s
  have hx : (inputBytes s).length < 2 ^ 32 := by
    obtain ⟨⟨-, hcap, -⟩, -, hfits⟩ := hin
    omega
  have hop : hufCompressOp s = .ok { s with huf := hufCompress s.huf (inputBytes s), ipos := s.ilen.toNat } := by
    rw [hufCompressOp, codecInput_of_inputOk hin, ← hlen]
  obtain ⟨hsize, htable⟩ := hufCompress_obj_fields s.huf (inputBytes s)
  refine ⟨_, congrArg (settle s) hop, rfl, ?_⟩
  simp only [hsize, htable, hlen]
  refine ⟨by rw [BitVec.ofNat_toNat, BitVec.setWidth_eq], length_histogram _, toNat_histogram_getD hx, fun htwo => ?_⟩
  have hfreq := length_histogram (inputBytes s)
  obtain ⟨hcodes, hpacked⟩ := hufCompress_of_inner (u := s.huf)
    (v := { s.huf with freq := histogram (inputBytes s) }) rfl
    (hufBuild_of_two hfreq htwo).1 (hufIsLeaf_root_of_two hfreq htwo)
  rw [hcodes]
  exact ⟨rfl, hpacked, fun b hb => (isCode_of_mem hx rfl htwo hb).ne_nil⟩

/-! ### The one-symbol case -/

/-- Settles O31: the table of copies of one byte has one symbol. -/
theorem hufOneSymbolInput : Obligations.HufOneSymbolInput := by
  unfold Obligations.HufOneSymbolInput
  intro u b n hn hlt
  have hlen : (List.replicate n b).length = n := List.length_replicate
  have hx : (List.replicate n b).length < 2 ^ 32 := by rwa [hlen]
  obtain ⟨f, hf, hne⟩ := exists_histogram_of_mem hx (List.mem_replicate.2 ⟨Nat.ne_of_gt hn, rfl⟩)
  obtain ⟨hroot, hleaf⟩ := hufBuild_root_of_one (u := { u with freq := histogram (List.replicate n b) })
    (length_histogram _) (symbolCount_histogram_replicate hn hlt b) hf hne
  obtain ⟨unit, bitpos, hrun⟩ := hufDecompress_hufCompress (u := u) (by rwa [hlen]) hx rfl
  refine ⟨?_, ?_, fun c => ?_, _, hrun, rfl⟩
  · rw [hufCompress_of_leaf rfl hroot hleaf, leafSymbol_toNat]
  · rw [toNat_size_hufCompress hx, hlen]
  · rw [(hufCompress_obj_fields u _).2, toNat_histogram_getD hx, List.count_replicate]
    exact if_congr (beq_iff_eq.trans eq_comm) rfl rfl

/-- Settles O32: ROOT is the leaf of the one symbol, whose copies are the output. -/
theorem hufOneSymbolDecode : Obligations.HufOneSymbolDecode := by
  unfold Obligations.HufOneSymbolDecode
  intro u sym f hlen hf hne hone
  obtain ⟨hroot, hleaf⟩ := hufBuild_root_of_one (u := { u with freq := u.obj.freqTable }) hlen hone hf hne
  obtain ⟨unit, bitpos, hrun⟩ := hufDecompress_of_leaf rfl hroot hleaf
  exact ⟨_, hrun, by rw [leafSymbol_toNat]⟩

end Sys2Proof.Machine

/-! PROOFS. The two grains of D.HUF (10_state.md R21, 42_huffman.md R175 to R179, 45_dispatcher.md R277; log entry 6).
The idea: a turn reads one code word off the bits left in the image and does with it what the walk over all of them
does, so an induction over the bits left shows that the turns end as the walk; without a tree and in the one-symbol case
there is one turn. -/

namespace Sys2Proof.Machine

open Sys2Proof.Safety

/-! ### One code word off the stream -/

section
variable {nodes : List (Nat × HufNode)} {root size cur : Nat} {bits path rest : List Bool} {d : Unpacker}
  {i : Instr} {e : DecodeError}

/-- What is read as a code word leads to a leaf. -/
theorem follow_of_takePath (h : takePath (hufChild nodes) (hufIsLeaf nodes) cur bits = .ok (path, rest)) :
    ∃ sym, hufFollow nodes cur path = some sym ∧ hufIsLeaf nodes sym = true := by
  induction bits generalizing cur path with
  | nil => cases h
  | cons bit bits ih =>
    rw [takePath] at h
    cases hchild : hufChild nodes cur bit with
    | none => simp [hchild] at h
    | some next =>
      simp only [hchild] at h
      split at h
      next hleaf =>
        cases h
        exact ⟨next, hufFollow_cons_eq_some.2 ⟨next, hchild, rfl⟩, hleaf⟩
      next =>
        split at h <;> cases h
        next hsub =>
          obtain ⟨sym, hfollow, hleaf⟩ := ih hsub
          exact ⟨sym, hufFollow_cons_eq_some.2 ⟨next, hchild, hfollow⟩, hleaf⟩

theorem decodeSym_follow (h : decodeSym (hufChild nodes) (hufIsLeaf nodes) root bits = .ok (i, rest)) :
    ∃ path sym, i = .hufSym path ∧ path ≠ [] ∧ bits = path ++ rest ∧
      hufFollow nodes root path = some sym ∧ hufIsLeaf nodes sym = true := by
  unfold decodeSym at h
  split at h <;> cases h
  next path hpath =>
    obtain ⟨hne, hbits⟩ := takePath_eq_ok hpath
    obtain ⟨sym, hfollow, hleaf⟩ := follow_of_takePath hpath
    exact ⟨path, sym, rfl, hne, hbits, hfollow, hleaf⟩

theorem decodeSym_eq_error (h : decodeSym (hufChild nodes) (hufIsLeaf nodes) root bits = .error e) :
    takePath (hufChild nodes) (hufIsLeaf nodes) root bits = .error e := by
  unfold decodeSym at h
  split at h
  · cases h
  next hpath => cases h; exact hpath

/-- Where no code word is read off the bits, the walk over them stops for the same reason: at an absent child, or at
their end with no byte more out. -/
theorem hufBits_of_takePath_error (howed : d.out.length < size)
    (h : takePath (hufChild nodes) (hufIsLeaf nodes) d.cur bits = .error e) :
    (e = .offTheTree ∧ hufBits nodes root size bits d = .error .hufOffTree) ∨
    (e ≠ .offTheTree ∧ ∃ d', hufBits nodes root size bits d = .ok d' ∧ d'.out = d.out) := by
  induction bits generalizing d with
  | nil =>
    cases h
    exact .inr ⟨by simp, d, rfl, rfl⟩
  | cons bit bits ih =>
    rw [takePath] at h
    rw [hufBits]
    cases hchild : hufChild nodes d.cur bit with
    | none =>
      rw [hufBit_to_none howed hchild]
      simp only [hchild] at h
      cases h
      exact .inl ⟨rfl, rfl⟩
    | some next =>
      simp only [hchild] at h
      split at h
      · cases h
      next hinner =>
        rw [hufBit_to_inner howed hchild (Bool.eq_false_iff.2 hinner)]
        split at h <;> cases h
        next hsub => exact ih (d := ⟨next, d.bitpos + 1, d.out⟩) howed hsub

end

/-! ### The turns of the walk -/

/-- The answer of the decoder that has put out `out`, stands on the root and has these bits left (R175). -/
def hufRest (nodes : List (Nat × HufNode)) (root size bitpos : Nat) (bits : List Bool) (out : List Byte) :
    Except Cause (List Byte) :=
  (hufBits nodes root size bits ⟨root, bitpos, out⟩).bind fun d =>
    if size ≤ d.out.length then .ok d.out else .error .hufBitsExhausted

section
variable {s t v : State} {root : Nat} {bits : List Bool} {out : List Byte} {c : Cause}

theorem step_of_symWork_go (hd : Decoding (selector .huf) s) (h : symWork s = .go t) : step s = .next t := by
  obtain ⟨hh, hb, hst, halg⟩ := hd
  rw [step_of_no_host hh, engineTurn_of_go ((nextWork_decoding hb hst (codecOf_eq_some_iff.2 halg)).trans h)]

theorem step_of_symWork_trap (hd : Decoding (selector .huf) s) (h : symWork s = .trap c) :
    step s = .next (raise c s) := by
  obtain ⟨hh, hb, hst, halg⟩ := hd
  rw [step_of_no_host hh, engineTurn_of_trap ((nextWork_decoding hb hst (codecOf_eq_some_iff.2 halg)).trans h)]

/-- The Huffman decoder has the turn and stands on the root, an internal node, `bits` are left in the image, and `out`
has been built. -/
structure HufWalking (s : State) (root : Nat) (bits : List Bool) (out : List Byte) : Prop where
  decoding : Decoding (selector .huf) s
  rooted : s.huf.root = some root
  inner : hufIsLeaf s.huf.nodes root = false
  cur : s.huf.cur = root
  left : remainingBits s = bits
  obuf : s.obuf = cells 0 out
  opos : s.opos = out.length
  fits : s.huf.obj.originalSize.toNat ≤ s.cfg.capOut

/-- How the decoder ends from here on. -/
def hufAnswer (s : State) (root : Nat) (bits : List Bool) (out : List Byte) : State :=
  answered s (hufRest s.huf.nodes root s.huf.obj.originalSize.toNat s.bitpos bits out)

/-- `s` after a code word of `sym`. -/
def symWalked (s : State) (path : List Bool) (sym : Nat) : State :=
  { s with
    obuf := memWrite s.obuf s.opos [leafSymbol sym], opos := s.opos + 1, bitpos := s.bitpos + path.length }

theorem HufWalking.complete_eq (h : HufWalking s root bits out) : answered s (.ok out) = complete s := by
  rw [answered, ← h.obuf, ← h.opos]

/-- Once the owed bytes are out the command completes (R178). -/
theorem huf_turn_done (h : HufWalking s root bits out) (hdone : s.huf.obj.originalSize.toNat ≤ s.opos) :
    step s = .next (hufAnswer s root bits out) := by
  have hwork : symWork s = .go (complete s) := by
    unfold symWork
    rw [h.rooted]
    dsimp only
    rw [h.inner, if_neg Bool.false_ne_true]
    exact if_pos hdone
  have hout : s.huf.obj.originalSize.toNat ≤ out.length := h.opos ▸ hdone
  have hrest : hufRest s.huf.nodes root s.huf.obj.originalSize.toNat s.bitpos bits out = .ok out := by
    rw [hufRest, hufBits_of_done hout]
    exact if_pos hout
  rw [hufAnswer, hrest, h.complete_eq]
  exact step_of_symWork_go h.decoding hwork

/-- A turn that reads no code word raises what the walk raises. -/
theorem huf_turn_fails (h : HufWalking s root bits out) (howed : s.opos < s.huf.obj.originalSize.toNat)
    {e : DecodeError} (he : decodeSym (hufChild s.huf.nodes) (hufIsLeaf s.huf.nodes) root bits = .error e) :
    step s = .next (hufAnswer s root bits out) := by
  have howed' : out.length < s.huf.obj.originalSize.toNat := h.opos ▸ howed
  have hstop := hufBits_of_takePath_error (root := root) (d := ⟨root, s.bitpos, out⟩) howed' (decodeSym_eq_error he)
  have hwork : symWork s = .trap (if e = .offTheTree then .hufOffTree else .hufBitsExhausted) := by
    unfold symWork
    rw [h.rooted]
    dsimp only
    rw [h.inner, if_neg Bool.false_ne_true, if_neg (by exact Nat.not_le.2 howed), h.left, he]
    cases e <;> rfl
  rw [hufAnswer, hufRest, step_of_symWork_trap h.decoding hwork]
  rcases hstop with ⟨rfl, hrun⟩ | ⟨hne, d', hrun, hout⟩
  · rw [hrun]
    rfl
  · rw [hrun, if_neg hne]
    change _ = Host.Outcome.next (answered s (if _ then _ else _))
    rw [hout, if_neg (Nat.not_le.2 howed')]
    rfl

theorem hufWalking_symWalked {path rest : List Bool} (sym : Nat) (h : HufWalking s root (path ++ rest) out) :
    HufWalking (symWalked s path sym) root rest (out ++ [leafSymbol sym]) where
  decoding := h.decoding
  rooted := h.rooted
  inner := h.inner
  cur := h.cur
  left := by
    have hleft := congrArg (List.drop path.length) h.left
    rwa [remainingBits, List.drop_drop, List.drop_left] at hleft
  obuf := by rw [symWalked, h.obuf, h.opos, memWrite_cells]
  opos := by rw [symWalked, h.opos, List.length_append]; rfl
  fits := h.fits

/-- A turn that reads a code word puts out its symbol, and the walk goes on from there. -/
theorem huf_turn_walks (h : HufWalking s root bits out) (howed : s.opos < s.huf.obj.originalSize.toNat) {i : Instr}
    {rest : List Bool} (hi : decodeSym (hufChild s.huf.nodes) (hufIsLeaf s.huf.nodes) root bits = .ok (i, rest)) :
    ∃ u out', step s = .next u ∧ rest.length < bits.length ∧ HufWalking u root rest out' ∧
      SameInterface (hufAnswer s root bits out) (hufAnswer u root rest out') := by
  obtain ⟨path, sym, rfl, hne, rfl, hfollow, hleaf⟩ := decodeSym_follow hi
  have howed' : out.length < s.huf.obj.originalSize.toNat := h.opos ▸ howed
  have hfits : s.opos + [leafSymbol sym].length ≤ s.cfg.capOut := howed.trans_le h.fits
  have hstep : step s = .next (symWalked s path sym) := by
    rw [step_of_decodingWork (k := .huf) h.decoding
      (symWork_of_decoded h.rooted h.inner howed (by rw [h.left]; exact hi))]
    exact congrArg (settle s)
      ((hufSymOp_codeWord h.rooted h.cur howed hne hfollow hleaf).trans (append_of_fits (by exact hfits)))
  have hword := hufBits_codeWord (root := root) (d := ⟨root, s.bitpos, out⟩) howed' hne hfollow hleaf rest
  have hshorter : rest.length < (path ++ rest).length := by
    rw [List.length_append]
    exact Nat.lt_add_of_pos_left (List.length_pos_of_ne_nil hne)
  refine ⟨_, _, hstep, hshorter, hufWalking_symWalked sym h, ?_⟩
  rw [hufAnswer, hufRest, hword]
  exact sameInterface_answered (t := symWalked s path sym) _ rfl rfl rfl rfl rfl

/-- Turn by turn the decoder ends as the walk over the bits left answers (R175, R177). -/
theorem huf_turns_reach_answer (h : HufWalking s root bits out) :
    ∃ n u, Reaches n s u ∧ SameInterface (hufAnswer s root bits out) u := by
  induction hlen : bits.length using Nat.strong_induction_on generalizing s bits out with
  | _ len ih =>
    subst hlen
    by_cases hdone : s.huf.obj.originalSize.toNat ≤ s.opos
    · exact ⟨1, _, ⟨_, huf_turn_done h hdone, rfl⟩, sameInterface_refl _⟩
    · have howed := Nat.not_le.1 hdone
      cases hi : decodeSym (hufChild s.huf.nodes) (hufIsLeaf s.huf.nodes) root bits with
      | error e => exact ⟨1, _, ⟨_, huf_turn_fails h howed hi, rfl⟩, sameInterface_refl _⟩
      | ok r =>
        obtain ⟨u, out', hstep, hlt, hwalk, hsame⟩ := huf_turn_walks h howed hi
        obtain ⟨n, w, hreach, hend⟩ := ih _ hlt hwalk rfl
        exact ⟨n + 1, w, ⟨u, hstep, hreach⟩, sameInterface_trans hsame hend⟩

/-! ### The decoder run whole -/

/-- The bytes HUF.decompress answers (R175). -/
def hufOutput (u : HufUnit) : Except Cause (List Byte) := (hufDecompress u).map fun r => r.2.2

section
variable {u : HufUnit}

theorem hufOutput_of_none (hroot : (hufStartUnit u).root = none) :
    hufOutput u = if u.obj.originalSize.toNat = 0 then .ok [] else .error .hufNoSymbol := by
  replace hroot : (hufBuild { u with freq := u.obj.freqTable }).root = none := hroot
  unfold hufOutput hufDecompress
  dsimp only
  rw [hroot]
  dsimp only
  split <;> rfl

theorem hufOutput_of_leaf (hroot : (hufStartUnit u).root = some root)
    (hleaf : hufIsLeaf (hufStartUnit u).nodes root = true) :
    hufOutput u = .ok (List.replicate u.obj.originalSize.toNat (leafSymbol root)) := by
  obtain ⟨unit, bitpos, hrun⟩ := hufDecompress_of_leaf (v := { u with freq := u.obj.freqTable }) rfl hroot hleaf
  rw [hufOutput, hrun]
  rfl

theorem hufOutput_of_inner (hroot : (hufStartUnit u).root = some root)
    (hinner : hufIsLeaf (hufStartUnit u).nodes root = false) :
    hufOutput u =
      hufRest (hufStartUnit u).nodes root u.obj.originalSize.toNat 0 (unpackBits u.obj.packedBits) [] := by
  have hnodes : (hufStartUnit u).nodes = (hufBuild { u with freq := u.obj.freqTable }).nodes := rfl
  replace hroot : (hufBuild { u with freq := u.obj.freqTable }).root = some root := hroot
  rw [hnodes] at hinner ⊢
  unfold hufOutput hufDecompress hufRest
  dsimp only
  rw [hroot]
  dsimp only
  rw [hinner, if_neg Bool.false_ne_true]
  cases hufBits _ root u.obj.originalSize.toNat (unpackBits u.obj.packedBits) ⟨root, 0, []⟩ with
  | error c => rfl
  | ok d =>
    change Except.map _ (if _ then _ else _) = if _ then _ else _
    split <;> rfl

end

/-- Run whole inside a command on `s`, the decoder ends as HUF.decompress answers. -/
theorem settleCommand_hufDecompressOp (h : Keeps s v) (hcap : v.huf.obj.originalSize.toNat ≤ v.cfg.capOut) :
    ∃ w, settleCommand s (hufDecompressOp v) = .next w ∧ SameInterface w (answered v (hufOutput v.huf)) := by
  unfold hufOutput
  cases hrun : hufDecompress v.huf with
  | ok r =>
    obtain ⟨unit, bitpos, out⟩ := r
    have hfit : out.length ≤ v.cfg.capOut := (hufDecompress_eq_ok hrun).1.trans_le hcap
    exact ⟨_, congrArg (settleCommand s) (hufDecompressOp_of_ok hrun hfit),
      ⟨rfl, rfl, rfl, rfl, rfl, rfl, rfl, rfl, rfl⟩⟩
  | error c => exact ⟨_, congrArg (settleCommand s) (hufDecompressOp_of_error hrun), sameInterface_raise c h⟩

/-! ### The decoder from its start -/

theorem desHuf_packedBits {input : List Byte} {obj : HufObj} (h : desHuf input = .ok obj) :
    obj.packedBits = input.drop Config.hufHeader := by
  unfold desHuf at h
  repeat' split at h
  all_goals cases h
  rfl

section
variable {u : HufUnit}

/-- The decoder has the turn, its tree is built from the object of `u`, and no output has been built (R175). -/
structure HufStarted (s : State) (u : HufUnit) : Prop where
  decoding : Decoding (selector .huf) s
  unit : s.huf = hufStartUnit u
  obuf : s.obuf = []
  opos : s.opos = 0
  bitpos : s.bitpos = 0
  left : remainingBits s = unpackBits u.obj.packedBits
  fits : u.obj.originalSize.toNat ≤ s.cfg.capOut

theorem hufStarted_of_parse (hh : s.host = []) (hb : s.busy = 1) (halg : s.alg = 1)
    (hv : codecParseOp .huf (startOutput s) = .ok v) (hcap : (objectSize v .huf).toNat ≤ v.cfg.capOut) :
    HufStarted (decoderStarted v .huf) v.huf := by
  obtain ⟨-, obj, hobj, rfl⟩ := desHufOp_eq_ok hv
  exact ⟨⟨hh, hb, rfl, halg⟩, rfl, rfl, rfl, rfl, by rw [desHuf_packedBits hobj]; rfl, hcap⟩

/-- Without a tree the one turn is the test that no byte is owed (R179). -/
theorem huf_turn_without_tree (h : HufStarted s u) (hroot : (hufStartUnit u).root = none) :
    step s = .next (answered s (hufOutput u)) := by
  have hcomplete : answered s (.ok []) = complete s := by
    rw [answered, List.length_nil, ← h.opos]
    exact congrArg (fun m => complete { s with obuf := m }) h.obuf.symm
  have hsize : hufSize s = u.obj.originalSize := by rw [hufSize, h.unit]; rfl
  have hwork : symWork s = if u.obj.originalSize.toNat = 0 then .go (complete s) else .trap .hufNoSymbol := by
    rw [symWork, h.unit, hroot, hsize]
  rw [hufOutput_of_none hroot]
  split at hwork
  next hzero => rw [step_of_symWork_go h.decoding hwork, if_pos hzero, hcomplete]
  next hzero => rw [step_of_symWork_trap h.decoding hwork, if_neg hzero]; rfl

/-- In the one-symbol case the one turn repeats the symbol (R176). -/
theorem huf_turn_one_symbol (h : HufStarted s u) (hroot : (hufStartUnit u).root = some root)
    (hleaf : hufIsLeaf (hufStartUnit u).nodes root = true) : step s = .next (answered s (hufOutput u)) := by
  have hsize : hufSize s = u.obj.originalSize := by rw [hufSize, h.unit]; rfl
  have happend := append_of_started (s := s) (out := List.replicate u.obj.originalSize.toNat (leafSymbol root)) h.opos
    h.obuf (by rw [List.length_replicate]; exact h.fits)
  rw [hufOutput_of_leaf hroot hleaf]
  refine step_of_symWork_go h.decoding ?_
  unfold symWork
  rw [h.unit, hroot]
  dsimp only
  rw [if_pos hleaf, hsize, happend]
  rfl

theorem hufWalking_of_started (h : HufStarted s u) (hroot : (hufStartUnit u).root = some root)
    (hinner : hufIsLeaf (hufStartUnit u).nodes root = false) :
    HufWalking s root (unpackBits u.obj.packedBits) [] where
  decoding := h.decoding
  rooted := by rw [h.unit, hroot]
  inner := by rw [h.unit, hinner]
  cur := by
    have hcur : (hufStartUnit u).cur = (hufStartUnit u).root.getD u.cur := rfl
    rw [h.unit, hcur, hroot]
    rfl
  left := h.left
  obuf := h.obuf
  opos := h.opos
  fits := by rw [h.unit]; exact h.fits

/-- From its start the decoder ends as HUF.decompress answers. -/
theorem huf_turns_from_start (h : HufStarted s u) :
    ∃ n t, Reaches n s t ∧ SameInterface (answered s (hufOutput u)) t := by
  cases hroot : (hufStartUnit u).root with
  | none => exact ⟨1, _, ⟨_, huf_turn_without_tree h hroot, rfl⟩, sameInterface_refl _⟩
  | some root =>
    cases hleaf : hufIsLeaf (hufStartUnit u).nodes root with
    | true => exact ⟨1, _, ⟨_, huf_turn_one_symbol h hroot hleaf, rfl⟩, sameInterface_refl _⟩
    | false =>
      have hrest : hufAnswer s root (unpackBits u.obj.packedBits) [] = answered s (hufOutput u) := by
        rw [hufOutput_of_inner hroot hleaf, hufAnswer, h.unit, h.bitpos]
        rfl
      rw [← hrest]
      exact huf_turns_reach_answer (hufWalking_of_started h hroot hleaf)

end

theorem huf_decoderTurnsAgree (hh : s.host = []) (hb : s.busy = 1) (halg : s.alg = 1)
    (hv : codecParseOp .huf (startOutput s) = .ok v) (hcap : (objectSize v .huf).toNat ≤ v.cfg.capOut) :
    DecoderTurnsAgree .huf s v := by
  have hkeep := ((operated_startOutput .huf s).trans (operated_parse hv)).toKeeps
  obtain ⟨w, hend, hw⟩ := settleCommand_hufDecompressOp hkeep hcap
  obtain ⟨n, u, hreach, hu⟩ := huf_turns_from_start (hufStarted_of_parse hh hb halg hv hcap)
  have hstart : SameInterface (answered v (hufOutput v.huf)) (answered (decoderStarted v .huf) (hufOutput v.huf)) :=
    sameInterface_answered _ rfl rfl rfl rfl rfl
  exact ⟨n, u, w, hreach, hend, sameInterface_trans hw (sameInterface_trans hstart hu)⟩

end

/-- Settles O56: the decoder's turns read off the image the code words that the walk over its bits reads. -/
theorem hufDecodeGrainsAgree : Obligations.HufDecodeGrainsAgree := by
  unfold Obligations.HufDecodeGrainsAgree
  intro s t ha hd halg hg ht
  have ⟨_, hh, hb, _⟩ := ha
  have hk : codecOf s.alg = some .huf := codecOf_eq_some_iff.2 halg
  exact decompress_grains_agree ha hd hg hk
    (fun v hv hcap => huf_decoderTurnsAgree hh hb halg hv hcap) ht

end Sys2Proof.Machine

/-! PROOFS. The codes LZW.compress makes (43_lzw.md R202, R203, R204, R206). The idea: an insertion changes the sequence
of no older code, so what the codes emitted so far spell is settled once and for all; with the match in hand they spell
the bytes read so far, and the byte that ends a match is the one its missed pair was inserted for. -/

namespace Sys2Proof.Machine

open Sys2Proof.Safety

/-! ### Sequences in a dictionary that grows -/

section
variable {dict : List (Nat × Byte)} {fuel code w : Nat} {stack bs : List Byte} {k : Byte} {codes : List U16}

theorem lzwExpand_append (h : lzwExpand dict fuel code stack = some bs) (more : List (Nat × Byte)) :
    lzwExpand (dict ++ more) fuel code stack = some bs := by
  induction fuel generalizing code stack with
  | zero => cases h
  | succ fuel ih =>
    unfold lzwExpand at h ⊢
    split at h
    next hlit => rw [if_pos hlit]; exact h
    next hlit =>
      rw [if_neg hlit]
      split at h
      next => cases h
      next hres =>
        rw [if_neg hres]
        split at h
        next pre char hentry =>
          rw [List.getElem?_append_left (List.getElem?_eq_some_iff.1 hentry).1, hentry]
          exact ih h
        next => cases h

theorem lzwStr_append (h : lzwStr dict code = some bs) (more : List (Nat × Byte)) :
    lzwStr (dict ++ more) code = some bs :=
  lzwExpand_fuel_le (lzwExpand_append h more) (by rw [List.length_append]; omega)

theorem prefix_lzwInsert (dict : List (Nat × Byte)) (entry : Nat × Byte) : dict <+: lzwInsert dict entry := by
  rcases lzwInsert_cases dict entry with ⟨-, e⟩ | e <;> rw [e]
  exact List.prefix_append dict [entry]

theorem lzwStr_insert (h : lzwStr dict code = some bs) (entry : Nat × Byte) :
    lzwStr (lzwInsert dict entry) code = some bs := by
  obtain ⟨more, e⟩ := prefix_lzwInsert dict entry
  rw [← e]
  exact lzwStr_append h more

theorem length_lzwInsert (hd : DictOk dict) (entry : Nat × Byte) :
    (lzwInsert dict entry).length = min (dict.length + 1) 3839 := by
  have hle := hd.1
  have hcap : lzwNext dict < Config.lzwDictCap ↔ dict.length < 3839 := by
    rw [lzwNext_eq, Config.lzwDictCap]
    omega
  rw [lzwInsert, apply_ite List.length, List.length_append, List.length_singleton]
  split <;> omega

theorem lzwStr_reserved (dict : List (Nat × Byte)) : lzwStr dict 256 = none := rfl

/-- The sequence of a code, no byte where it has none (10_state.md R44). -/
def lzwSeq (dict : List (Nat × Byte)) (code : Nat) : List Byte := (lzwStr dict code).getD []

/-- The sequences of some codes, one after another (43_lzw.md R206 (e)). -/
def lzwSpelled (dict : List (Nat × Byte)) (codes : List U16) : List Byte := codes.flatMap fun c => lzwSeq dict c.toNat

theorem lzwStr_eq_lzwSeq (hd : DictOk dict) (hc : InDict dict code) : lzwStr dict code = some (lzwSeq dict code) := by
  obtain ⟨bs, hbs⟩ := lzwStr_of_used hd hc.1 hc.2
  rw [lzwSeq, hbs]
  rfl

theorem lzwSeq_ne_nil (hd : DictOk dict) (hc : InDict dict code) : lzwSeq dict code ≠ [] :=
  List.ne_nil_of_length_pos (length_lzwStr (lzwStr_eq_lzwSeq hd hc)).1

theorem lzwSeq_insert (hd : DictOk dict) (hc : InDict dict code) (entry : Nat × Byte) :
    lzwSeq (lzwInsert dict entry) code = lzwSeq dict code := by
  rw [lzwSeq, lzwStr_insert (lzwStr_eq_lzwSeq hd hc) entry]
  rfl

theorem lzwSeq_literal (dict : List (Nat × Byte)) (k : Byte) : lzwSeq dict k.toNat = [k] := by
  rw [lzwSeq, lzwStr_literal dict k.isLt, BitVec.ofNat_toNat, BitVec.setWidth_eq]
  rfl

theorem lzwSeq_entry (hd : DictOk dict) {n : Nat} (h : dict[n]? = some (w, k)) :
    lzwSeq dict (257 + n) = lzwSeq dict w ++ [k] := by
  obtain ⟨p, hp, hstr⟩ := lzwStr_entry hd h
  rw [lzwSeq, lzwSeq, hp, hstr]
  rfl

theorem lzwSpelled_insert (hd : DictOk dict) (hc : ∀ c ∈ codes, InDict dict c.toNat) (entry : Nat × Byte) :
    lzwSpelled (lzwInsert dict entry) codes = lzwSpelled dict codes :=
  List.flatMap_congr fun c h => lzwSeq_insert hd (hc c h) entry

theorem lzwSpelled_concat (dict : List (Nat × Byte)) (codes : List U16) (c : U16) :
    lzwSpelled dict (codes ++ [c]) = lzwSpelled dict codes ++ lzwSeq dict c.toNat := by
  rw [lzwSpelled, List.flatMap_append, List.flatMap_singleton, lzwSpelled]

theorem length_lzwSpelled_take_le (dict : List (Nat × Byte)) (codes : List U16) (j : Nat) :
    (lzwSpelled dict (codes.take j)).length ≤ (lzwSpelled dict codes).length := by
  conv_rhs => rw [← List.take_append_drop j codes, lzwSpelled, List.flatMap_append, List.length_append]
  exact Nat.le_add_right _ _

/-- The code of a match fits the 16 bits it is emitted in (30_encoding.md R109). -/
theorem toNat_ofNat_of_inDict (hd : DictOk dict) (hw : InDict dict w) : (BitVec.ofNat 16 w).toNat = w := by
  rw [BitVec.toNat_ofNat]
  exact Nat.mod_eq_of_lt (by have := hw.lt hd; omega)

/-! ### The lookup -/

theorem lzwScan_eq_some {e : Nat} {entry : Nat × Byte} (h : lzwScan e dict entry = some code) :
    ∃ n, code = e + n ∧ dict[n]? = some entry := by
  induction dict generalizing e with
  | nil => cases h
  | cons x xs ih =>
    unfold lzwScan at h
    split at h
    next hx => cases h; exact ⟨0, rfl, congrArg some hx⟩
    next =>
      obtain ⟨n, rfl, hn⟩ := ih h
      exact ⟨n + 1, by omega, hn⟩

theorem lzwScan_eq_none {e : Nat} {entry : Nat × Byte} (h : lzwScan e dict entry = none) : entry ∉ dict := by
  induction dict generalizing e with
  | nil => exact List.not_mem_nil
  | cons x xs ih =>
    unfold lzwScan at h
    split at h
    next => cases h
    next hx => exact List.not_mem_cons_of_ne_of_not_mem (Ne.symm hx) (ih h)

theorem lzwFind_eq_some (h : lzwFind dict w k = some code) : ∃ n, code = 257 + n ∧ dict[n]? = some (w, k) :=
  lzwScan_eq_some h

theorem lzwFind_eq_none (h : lzwFind dict w k = none) : (w, k) ∉ dict := lzwScan_eq_none h

/-- The encoder's turn with a match in hand: the match grows, or it ends, is emitted and inserted (R204). -/
theorem lzwTurn_cases {u : LzwUnit} (hw : u.w = some w) (k : Byte) :
    (∃ e, lzwFind u.dict w k = some e ∧ lzwTurn u k = { u with k := k, w := some e }) ∨
    lzwFind u.dict w k = none ∧
      lzwTurn u k = { lzwEmit u w with k := k, dict := lzwInsert u.dict (w, k), w := some k.toNat } := by
  cases hfind : lzwFind u.dict w k with
  | some e => exact .inl ⟨e, rfl, by simp only [lzwTurn, hw, hfind]⟩
  | none => exact .inr ⟨rfl, by simp only [lzwTurn, hw, hfind]⟩

end

/-! ### The codes emitted so far -/

section
variable {dict : List (Nat × Byte)} {codes : List U16} {x : List Byte} {w code : Nat} {k : Byte}

/-- Every code is in use and no newer than its place allows, and where the byte `k` follows a code in the input, no
entry before its place is (code, `k`) and the one in its place is (43_lzw.md R204, R206). -/
structure LzwEmitted (dict : List (Nat × Byte)) (codes : List U16) (x : List Byte) : Prop where
  dictOk : DictOk dict
  inUse : ∀ c ∈ codes, InDict dict c.toNat
  bound : ∀ (j : Nat) (c : U16), codes[j]? = some c → c.toNat < 257 + j
  missed : ∀ (j : Nat) (c : U16) (k : Byte), codes[j]? = some c →
    x[(lzwSpelled dict (codes.take (j + 1))).length]? = some k →
    (∀ n, n < j → dict[n]? ≠ some (c.toNat, k)) ∧ (j < 3839 → dict[j]? = some (c.toNat, k))

/-- The codes emitted before the match `w`, which is still in hand, spell `x` with it. -/
structure LzwMatching (dict : List (Nat × Byte)) (codes : List U16) (x : List Byte) (w : Nat) : Prop
    extends LzwEmitted dict codes x where
  inHand : InDict dict w
  spelled : lzwSpelled dict codes ++ lzwSeq dict w = x
  count : codes.length < x.length
  size : dict.length = min codes.length 3839

/-- The codes spell `x`, and nothing has been inserted for the last of them. -/
structure LzwParsed (dict : List (Nat × Byte)) (codes : List U16) (x : List Byte) : Prop
    extends LzwEmitted dict codes x where
  spelled : lzwSpelled dict codes = x
  nonempty : 1 ≤ codes.length
  count : codes.length ≤ x.length
  size : dict.length = min (codes.length - 1) 3839

/-- Past the last byte read nothing can follow a code. -/
theorem LzwMatching.missed_of_append (h : LzwMatching dict codes x w) (more : List Byte) {j : Nat} {c : U16}
    (hc : codes[j]? = some c)
    (hk : (x ++ more)[(lzwSpelled dict (codes.take (j + 1))).length]? = some k) :
    (∀ n, n < j → dict[n]? ≠ some (c.toNat, k)) ∧ (j < 3839 → dict[j]? = some (c.toNat, k)) := by
  refine h.missed j c k hc ?_
  rwa [List.getElem?_append_left] at hk
  have hspelled := congrArg List.length h.spelled
  have hhand := List.length_pos_of_ne_nil (lzwSeq_ne_nil h.dictOk h.inHand)
  have := length_lzwSpelled_take_le dict codes (j + 1)
  rw [List.length_append] at hspelled
  omega

/-- The first byte is the first match. -/
theorem lzwMatching_first (b : Byte) : LzwMatching [] [] [b] b.toNat where
  dictOk := dictOk_nil
  inUse := nofun
  bound := nofun
  missed := nofun
  inHand := inDict_literal _ _ b.isLt
  spelled := lzwSeq_literal [] b
  count := Nat.one_pos
  size := rfl

/-- A match that is found with one more byte grows. -/
theorem LzwMatching.extend (h : LzwMatching dict codes x w) (hfind : lzwFind dict w k = some code) :
    LzwMatching dict codes (x ++ [k]) code where
  dictOk := h.dictOk
  inUse := h.inUse
  bound := h.bound
  missed _ _ _ := h.missed_of_append [k]
  inHand := inDict_of_find hfind
  spelled := by
    obtain ⟨n, rfl, hn⟩ := lzwFind_eq_some hfind
    rw [lzwSeq_entry h.dictOk hn, ← List.append_assoc, h.spelled]
  count := by have := h.count; rw [List.length_append]; omega
  size := h.size

theorem LzwMatching.spelled_concat (h : LzwMatching dict codes x w) :
    lzwSpelled dict (codes ++ [BitVec.ofNat 16 w]) = x := by
  rw [lzwSpelled_concat, toNat_ofNat_of_inDict h.dictOk h.inHand, h.spelled]

/-- The match is in use as the codes before it are, and no byte follows it yet. -/
theorem LzwMatching.emitted_concat (h : LzwMatching dict codes x w) :
    LzwEmitted dict (codes ++ [BitVec.ofNat 16 w]) x := by
  have hw := toNat_ofNat_of_inDict h.dictOk h.inHand
  refine ⟨h.dictOk, fun c hc => ?_, fun j c hc => ?_, fun j c k hc hk => ?_⟩
  · rcases List.mem_append.1 hc with hc | hc
    · exact h.inUse c hc
    · rw [List.mem_singleton.1 hc, hw]
      exact h.inHand
  · rcases Nat.lt_or_ge j codes.length with hj | hj
    · exact h.bound j c (by rwa [List.getElem?_append_left hj] at hc)
    · obtain rfl : c = BitVec.ofNat 16 w := List.mem_singleton.1
        (List.mem_of_getElem? (by rwa [List.getElem?_append_right hj] at hc))
      have hhand := h.inHand.1
      have hsize := h.size
      rw [lzwNext_eq] at hhand
      omega
  · rcases Nat.lt_or_ge j codes.length with hj | hj
    · rw [List.getElem?_append_left hj] at hc
      rw [List.take_append_of_le_length hj] at hk
      exact h.missed j c k hc hk
    · rw [List.take_of_length_le (by simpa using hj), h.spelled_concat, List.getElem?_eq_none le_rfl] at hk
      cases hk

/-- The match in hand is emitted. -/
theorem LzwMatching.emit (h : LzwMatching dict codes x w) : LzwParsed dict (codes ++ [BitVec.ofNat 16 w]) x where
  toLzwEmitted := h.emitted_concat
  spelled := h.spelled_concat
  nonempty := by simp
  count := by rw [List.length_append]; exact h.count
  size := by rw [List.length_append]; exact h.size

/-- Before the place of the match in hand an insertion changes no slot: it fills the next one, or the dictionary is
full. -/
theorem LzwMatching.getElem?_insert (h : LzwMatching dict codes x w) (entry : Nat × Byte) {n : Nat}
    (hn : n < codes.length) : (lzwInsert dict entry)[n]? = dict[n]? := by
  have hsize := h.size
  rcases lzwInsert_cases dict entry with ⟨hnext, e⟩ | e <;> rw [e]
  rw [lzwNext_eq] at hnext
  exact List.getElem?_append_left (by omega)

/-- The place of the match in hand is the next slot, where there is one. -/
theorem LzwMatching.getElem?_inserted (h : LzwMatching dict codes x w) (entry : Nat × Byte)
    (hfull : codes.length < 3839) : (lzwInsert dict entry)[codes.length]? = some entry := by
  have hsize : dict.length = codes.length := by have := h.size; omega
  have hnext : lzwNext dict < 4096 := by rw [lzwNext_eq]; omega
  have hentry : lzwInsert dict entry = dict ++ [entry] := if_pos hnext
  rw [hentry, ← hsize, List.getElem?_concat_length]

/-- An insertion leaves what the codes spell, the match among them. -/
theorem LzwMatching.spelled_insert (h : LzwMatching dict codes x w) (entry : Nat × Byte) :
    lzwSpelled (lzwInsert dict entry) (codes ++ [BitVec.ofNat 16 w]) = x :=
  (lzwSpelled_insert h.dictOk h.emit.inUse entry).trans h.emit.spelled

/-- The pair that is not found is in no slot in use, and its place is the slot it is inserted in. -/
theorem LzwMatching.emitted_of_missed (h : LzwMatching dict codes x w) (hfind : lzwFind dict w k = none) :
    LzwEmitted (lzwInsert dict (w, k)) (codes ++ [BitVec.ofNat 16 w]) (x ++ [k]) := by
  have hw := toNat_ofNat_of_inDict h.dictOk h.inHand
  have hnew : ∀ n, n < codes.length → (lzwInsert dict (w, k))[n]? ≠ some (w, k) := fun n hn => by
    rw [h.getElem?_insert _ hn]
    exact fun e => lzwFind_eq_none hfind (List.mem_of_getElem? e)
  refine ⟨dictOk_insert h.dictOk h.inHand k, fun c hc => inDict_insert (h.emit.inUse c hc) _, h.emit.bound,
    fun j c k' hc hk => ?_⟩
  rcases Nat.lt_trichotomy j codes.length with hj | rfl | hj
  · rw [List.getElem?_append_left hj] at hc
    rw [List.take_append_of_le_length hj,
      lzwSpelled_insert h.dictOk fun c hc => h.inUse c (List.mem_of_mem_take hc)] at hk
    obtain ⟨hold, hentry⟩ := h.missed_of_append [k] hc hk
    exact ⟨fun n hn => by rw [h.getElem?_insert _ (hn.trans hj)]; exact hold n hn,
      fun hfull => by rw [h.getElem?_insert _ hj]; exact hentry hfull⟩
  · rw [List.getElem?_concat_length] at hc
    cases hc
    rw [List.take_of_length_le (by simp), h.spelled_insert, List.getElem?_concat_length] at hk
    cases hk
    rw [hw]
    exact ⟨hnew, h.getElem?_inserted _⟩
  · rw [List.getElem?_eq_none (by simpa using hj)] at hc
    cases hc

/-- A match that is not found with one more byte is emitted and inserted with it; the byte begins the next match. -/
theorem LzwMatching.restart (h : LzwMatching dict codes x w) (hfind : lzwFind dict w k = none) :
    LzwMatching (lzwInsert dict (w, k)) (codes ++ [BitVec.ofNat 16 w]) (x ++ [k]) k.toNat where
  toLzwEmitted := h.emitted_of_missed hfind
  inHand := inDict_literal _ _ k.isLt
  spelled := by rw [h.spelled_insert, lzwSeq_literal]
  count := by
    have := h.count
    simp only [List.length_append, List.length_singleton]
    omega
  size := by
    have := h.size
    rw [length_lzwInsert h.dictOk, List.length_append, List.length_singleton]
    omega

end

/-! ### Lock-step -/

section
variable {dict old : List (Nat × Byte)} {codes : List U16} {x out : List Byte} {w prev code : Nat} {k : Byte}

/-- What a decoder one insertion behind resolves a code to is its sequence in the encoder's dictionary (43_lzw.md
R212). -/
theorem lzwResolve_behind (hold : DictOk old) (hprev : InDict old prev) (hw : InDict (lzwInsert old (prev, k)) w)
    (hk : (lzwSeq (lzwInsert old (prev, k)) w).head? = some k) :
    lzwResolve old prev w = some (lzwSeq (lzwInsert old (prev, k)) w) := by
  have hreserved : w ≠ 256 := hw.2
  have hnext := lzwNext_eq old
  by_cases hlt : w < lzwNext old
  · have huse : InDict old w := ⟨hlt, hreserved⟩
    rw [lzwResolve_known old prev (by omega), lzwSeq_insert hold huse, lzwStr_eq_lzwSeq hold huse]
  · have hdict := dictOk_insert hold hprev k
    have hprevStr := lzwStr_eq_lzwSeq hold hprev
    rcases lzwInsert_cases old (prev, k) with ⟨hcap, e⟩ | e
    · have hslot : (lzwInsert old (prev, k))[old.length]? = some (prev, k) := by rw [e, List.getElem?_concat_length]
      have hlen : lzwNext (lzwInsert old (prev, k)) = lzwNext old + 1 := by
        rw [e, lzwNext_eq, lzwNext_eq, List.length_append, List.length_singleton, Nat.add_assoc]
      obtain rfl : w = lzwNext old := by have := hw.1; omega
      have hseq : lzwSeq (lzwInsert old (prev, k)) (lzwNext old) = lzwSeq old prev ++ [k] :=
        (lzwSeq_entry hdict hslot).trans (by rw [lzwSeq_insert hold hprev])
      rw [hseq] at hk ⊢
      rw [lzwResolve_ahead hprevStr hcap]
      cases hp : lzwSeq old prev with
      | nil => exact absurd hp (lzwSeq_ne_nil hold hprev)
      | cons b bs =>
        rw [hp] at hk
        cases hk
        rfl
    · rw [e] at hw
      exact absurd hw.1 hlt

/-- Once it has read these codes, a decoder that may put out `out` has put it out, holds `dict` and stands on `prev`. -/
def LzwReplays (codes : List U16) (dict : List (Nat × Byte)) (prev : Nat) (out : List Byte) : Prop :=
  ∀ (v : LzwUnit) (size : Nat) (more : List U16), out.length ≤ size →
    ∃ v' : LzwUnit, v'.dict = dict ∧ v'.prev = prev ∧
      lzwReplay size true (codes ++ more) { v with dict := [] } [] = lzwReplay size false more v' out

theorem lzwElement_first (size : Nat) (u : LzwUnit) (out : List Byte) (code : U16) :
    lzwElement size true u out code =
      if 256 ≤ code.toNat then .error .lzwFirstNotLiteral
      else if size < out.length + 1 then .error .lzwWouldExceed
      else .ok ({ u with prev := code.toNat }, out ++ [BitVec.ofNat 8 code.toNat]) := rfl

/-- A first code that is a literal (R209, R210). -/
theorem lzwReplays_first (hcode : code < 256) : LzwReplays [BitVec.ofNat 16 code] [] code [BitVec.ofNat 8 code] := by
  intro v size more hsize
  have hnat : (BitVec.ofNat 16 code).toNat = code := by
    rw [BitVec.toNat_ofNat]
    exact Nat.mod_eq_of_lt (by omega)
  refine ⟨{ v with dict := [], prev := code }, rfl, rfl, ?_⟩
  rw [List.singleton_append, lzwReplay, lzwElement_first, hnat, if_neg (Nat.not_le.2 hcode),
    if_neg (by exact Nat.not_lt.2 hsize)]
  rfl

/-- One code more, which resolves. -/
theorem LzwReplays.concat (h : LzwReplays codes old prev out) {c : U16} {entry : List Byte}
    (hentry : lzwResolve old prev c.toNat = some entry) (hk : entry.head? = some k) :
    LzwReplays (codes ++ [c]) (lzwInsert old (prev, k)) c.toNat (out ++ entry) := by
  intro v size more hsize
  rw [List.length_append] at hsize
  obtain ⟨v', rfl, rfl, hrun⟩ := h v size (c :: more) (by omega)
  refine ⟨lzwAfterCode v' c k entry, rfl, rfl, ?_⟩
  rw [List.append_assoc, List.singleton_append, hrun, lzwReplay, lzwElement_of_resolved size out hentry hk,
    if_neg (by omega)]

/-- The decoder that has read the codes emitted before the match `w` is one insertion behind the encoder: it has yet to
insert the byte `w` begins with. Before the first code is emitted it has not begun. -/
def LzwBehind (dict : List (Nat × Byte)) (codes : List U16) (w : Nat) : Prop :=
  codes = [] ∨ ∃ old prev k, DictOk old ∧ InDict old prev ∧ dict = lzwInsert old (prev, k) ∧
    (lzwSeq dict w).head? = some k ∧ LzwReplays codes old prev (lzwSpelled dict codes)

theorem LzwBehind.extend (h : LzwBehind dict codes w) (hm : LzwMatching dict codes x w)
    (hfind : lzwFind dict w k = some code) : LzwBehind dict codes code := by
  refine h.imp_right ?_
  rintro ⟨old, prev, b, hold, hprev, hdict, hhead, hreplays⟩
  obtain ⟨n, rfl, hn⟩ := lzwFind_eq_some hfind
  refine ⟨old, prev, b, hold, hprev, hdict, ?_, hreplays⟩
  rw [lzwSeq_entry hm.dictOk hn, List.head?_append_of_ne_nil _ (lzwSeq_ne_nil hm.dictOk hm.inHand), hhead]

/-- The code emitted for `w` brings the decoder to the encoder's dictionary. -/
theorem LzwBehind.emit (h : LzwBehind dict codes w) (hm : LzwMatching dict codes x w) :
    LzwReplays (codes ++ [BitVec.ofNat 16 w]) dict w x := by
  rcases h with rfl | ⟨old, prev, k, hold, hprev, rfl, hhead, hreplays⟩
  · obtain rfl : dict = [] := List.eq_nil_of_length_eq_zero hm.size
    have hin := hm.inHand
    have hlit : w < 256 := by have : w < 257 ∧ w ≠ 256 := hin; omega
    have hx : [BitVec.ofNat 8 w] = x := by
      rw [← hm.spelled, lzwSeq, lzwStr_literal [] hlit]
      rfl
    exact hx ▸ lzwReplays_first hlit
  · have hw := toNat_ofNat_of_inDict hm.dictOk hm.inHand
    have hresolve := lzwResolve_behind hold hprev hm.inHand hhead
    have hnext := hreplays.concat (c := BitVec.ofNat 16 w) (hw.symm ▸ hresolve) hhead
    rwa [hw, hm.spelled] at hnext

theorem LzwBehind.restart (h : LzwBehind dict codes w) (hm : LzwMatching dict codes x w) (k : Byte) :
    LzwBehind (lzwInsert dict (w, k)) (codes ++ [BitVec.ofNat 16 w]) k.toNat := by
  refine .inr ⟨dict, w, k, hm.dictOk, hm.inHand, rfl, ?_, (hm.spelled_insert _).symm ▸ h.emit hm⟩
  rw [lzwSeq_literal]
  rfl

end

/-! ### The operation -/

section
variable {u : LzwUnit} {x : List Byte} {w : Nat}

/-- The encoder with the match `w` in hand has read `x`. -/
structure LzwReading (u : LzwUnit) (x : List Byte) (w : Nat) : Prop where
  held : u.w = some w
  codes : LzwMatching u.dict u.obj.codes x w
  decoder : LzwBehind u.dict u.obj.codes w

theorem lzwReading_turn (h : LzwReading u x w) (k : Byte) : ∃ w', LzwReading (lzwTurn u k) (x ++ [k]) w' := by
  obtain ⟨held, codes, decoder⟩ := h
  rcases lzwTurn_cases held k with ⟨e, hfind, hturn⟩ | ⟨hfind, hturn⟩ <;> rw [hturn]
  · exact ⟨e, rfl, codes.extend hfind, decoder.extend codes hfind⟩
  · exact ⟨k.toNat, rfl, codes.restart hfind, decoder.restart codes k⟩

theorem lzwReading_foldl (h : LzwReading u x w) (more : List Byte) :
    ∃ w', LzwReading (more.foldl lzwTurn u) (x ++ more) w' := by
  induction more generalizing u x w with
  | nil => exact ⟨w, by rwa [List.append_nil]⟩
  | cons k more ih =>
    obtain ⟨w₁, h₁⟩ := lzwReading_turn h k
    obtain ⟨w', h'⟩ := ih h₁
    exact ⟨w', by rwa [List.append_assoc] at h'⟩

theorem lzwTurn_originalSize (u : LzwUnit) (k : Byte) : (lzwTurn u k).obj.originalSize = u.obj.originalSize := by
  unfold lzwTurn
  split
  · rfl
  · split <;> rfl

theorem foldl_lzwTurn_originalSize (u : LzwUnit) (x : List Byte) :
    (x.foldl lzwTurn u).obj.originalSize = u.obj.originalSize := by
  induction x generalizing u with
  | nil => rfl
  | cons k x ih => rw [List.foldl_cons, ih, lzwTurn_originalSize]

theorem lzwCompress_originalSize (u : LzwUnit) (x : List Byte) :
    (lzwCompress u x).obj.originalSize = BitVec.ofNat 64 x.length := by
  unfold lzwCompress
  dsimp only
  split <;> exact foldl_lzwTurn_originalSize _ x

/-- The encoder that has read the first byte of `b :: x` (R204). -/
def lzwStarted (u : LzwUnit) (b : Byte) (x : List Byte) : LzwUnit :=
  { u with dict := [], w := some b.toNat, obj := ⟨[], BitVec.ofNat 64 (b :: x).length⟩ }

theorem lzwCompress_cons {b : Byte} (h : (x.foldl lzwTurn (lzwStarted u b x)).w = some w) :
    lzwCompress u (b :: x) = lzwEmit (x.foldl lzwTurn (lzwStarted u b x)) w := by
  have hfirst : lzwTurn { u with dict := [], w := none, obj := ⟨[], BitVec.ofNat 64 (b :: x).length⟩ } b =
      lzwStarted u b x := rfl
  unfold lzwCompress
  dsimp only
  rw [List.foldl_cons, hfirst, h]

/-- What LZW.compress makes of an input that is not empty, and how a decoder replays it. -/
theorem lzwCompress_parsed (u : LzwUnit) (hx : 1 ≤ x.length) :
    LzwParsed (lzwCompress u x).dict (lzwCompress u x).obj.codes x ∧
      ∃ w, LzwReplays (lzwCompress u x).obj.codes (lzwCompress u x).dict w x := by
  cases x with
  | nil => exact absurd hx (by decide)
  | cons b x =>
    have hfirst : LzwReading (lzwStarted u b x) [b] b.toNat := ⟨rfl, lzwMatching_first b, .inl rfl⟩
    obtain ⟨w, held, codes, decoder⟩ := lzwReading_foldl hfirst x
    rw [lzwCompress_cons held]
    exact ⟨codes.emit, w, decoder.emit codes⟩

end

/-! ### What the codes are -/

section
variable {dict : List (Nat × Byte)} {codes : List U16} {x : List Byte}

theorem LzwParsed.first_literal (h : LzwParsed dict codes x) {c : U16} (hc : codes[0]? = some c) : c.toNat < 256 := by
  have hbound := h.bound 0 c hc
  have hreserved : c.toNat ≠ 256 := (h.inUse c (List.mem_of_getElem? hc)).2
  omega

theorem LzwParsed.code_range (h : LzwParsed dict codes x) {c : U16} (hc : c ∈ codes) :
    c.toNat < 256 ∨ 257 ≤ c.toNat ∧ c.toNat ≤ 4095 := by
  have hlt := (h.inUse c hc).lt h.dictOk
  have hreserved : c.toNat ≠ 256 := (h.inUse c hc).2
  omega

end

/-- Settles O36: turn by turn the codes emitted and the match in hand spell what has been read. -/
theorem lzwCompressMakesCodes : Obligations.LzwCompressMakesCodes := by
  unfold Obligations.LzwCompressMakesCodes
  intro s hin
  have ⟨_, hpos, _⟩ := hin
  have hlen := length_inputBytes s
  have hop : lzwCompressOp s = .ok { s with lzw := lzwCompress s.lzw (inputBytes s), ipos := s.ilen.toNat } := by
    rw [lzwCompressOp, codecInput_of_inputOk hin, ← hlen]
  obtain ⟨hparsed, -⟩ := lzwCompress_parsed s.lzw (hlen.symm ▸ hpos)
  refine ⟨_, congrArg (settle s) hop, rfl, ?_, hparsed.dictOk, hparsed.nonempty, hlen ▸ hparsed.count,
    fun c => hparsed.first_literal, fun c => hparsed.code_range, fun j c hc _ => ?_, hparsed.spelled, hparsed.size,
    hparsed.missed⟩
  · exact (lzwCompress_originalSize _ _).trans (by rw [hlen, BitVec.ofNat_toNat, BitVec.setWidth_eq])
  · have := hparsed.bound j c hc
    omega

/-! ### The round trip -/

section
variable {s : State} {u v : LzwUnit} {x out : List Byte} {c : Cause}

theorem lzwDecompress_lzwCompress (hpos : 1 ≤ x.length) (hx : x.length < 2 ^ 64)
    (hobj : v.obj = (lzwCompress u x).obj) :
    ∃ v', lzwDecompress v = .ok (v', x) ∧ v'.dict = (lzwCompress u x).dict := by
  obtain ⟨-, w, hreplays⟩ := lzwCompress_parsed u hpos
  have hsize : v.obj.originalSize.toNat = x.length := by
    rw [hobj, lzwCompress_originalSize, BitVec.toNat_ofNat]
    exact Nat.mod_eq_of_lt hx
  obtain ⟨v', hdict, -, hrun⟩ := hreplays v x.length [] le_rfl
  rw [List.append_nil, ← hobj] at hrun
  exact ⟨v', by rw [lzwDecompress, hsize, hrun, lzwReplay, if_pos rfl], hdict⟩

/-- An output that fits OBUF is laid from address 0 by one append. -/
theorem lzwDecompressOp_of_ok (h : lzwDecompress s.lzw = .ok (v, out)) (hfit : out.length ≤ s.cfg.capOut) :
    lzwDecompressOp s =
      .ok { s with obuf := cells 0 out, opos := out.length, ipos := s.lzw.obj.codes.length, lzw := v } := by
  rw [lzwDecompressOp, h]
  exact append_of_started rfl rfl hfit

theorem lzwDecompressOp_of_error (h : lzwDecompress s.lzw = .error c) : lzwDecompressOp s = .error c := by
  rw [lzwDecompressOp, h]

end

/-- Settles O40: the decoder follows the encoder one insertion behind, and ends with its dictionary. -/
theorem lzwRoundTrip : Obligations.LzwRoundTrip := by
  unfold Obligations.LzwRoundTrip
  intro s u x _ hpos hx hcap hobj
  obtain ⟨v, hrun, hdict⟩ := lzwDecompress_lzwCompress hpos hx hobj
  have hle := lzwNext_le (lzwCompress_parsed u hpos).1.dictOk
  exact ⟨_, congrArg (settle s) (lzwDecompressOp_of_ok hrun hcap), holds_cells x, rfl, (lzwDecompress_eq_ok hrun).2,
    hdict.symm ▸ hle, hle⟩

end Sys2Proof.Machine

/-! PROOFS. The reserved code and the first code (43_lzw.md R203, R209, R211). The idea: every code emitted is in use,
which 256 never is, and the element takes nothing out of the dictionary. -/

namespace Sys2Proof.Machine

open Sys2Proof.Safety

section
variable {s : State} {u : LzwUnit} {out new : List Byte} {code : U16} {c : Cause}

/-! ### The element in the machine -/

theorem lzwCodeOp_of_error
    (h : lzwElement s.lzw.obj.originalSize.toNat (s.ipos == 0) s.lzw (outBytes s) code = .error c) :
    lzwCodeOp code s = .error c := by
  rw [lzwCodeOp, h]

/-- A code whose element adds `new` is one append (20_memory.md R65). -/
theorem lzwCodeOp_of_element
    (h : lzwElement s.lzw.obj.originalSize.toNat (s.ipos == 0) s.lzw (outBytes s) code = .ok (u, outBytes s ++ new)) :
    lzwCodeOp code s = append new { s with lzw := u, ipos := s.ipos + 1 } := by
  rw [lzwCodeOp, h]
  exact extend_outBytes (t := { s with lzw := u, ipos := s.ipos + 1 }) new rfl

/-- A code on which the element is Corrupt ends the command. -/
theorem raises_lzwCode
    (h : lzwElement s.lzw.obj.originalSize.toNat (s.ipos == 0) s.lzw (outBytes s) code = .error c) :
    Raises (.lzwCode code) s .corrupt :=
  raises_of_error rfl (lzwCodeOp_of_error h) (lzwElement_corrupt h)

end

/-! ### The reserved code -/

section
variable {s t : State} {u u' : LzwUnit} {x out out' : List Byte} {size : Nat} {first : Bool} {code : U16}

theorem reserved_not_mem_lzwCompress (u : LzwUnit) (x : List Byte) : (256 : U16) ∉ (lzwCompress u x).obj.codes := by
  rcases Nat.eq_zero_or_pos x.length with hx | hx
  · obtain rfl := List.eq_nil_of_length_eq_zero hx
    exact List.not_mem_nil
  · exact fun h => ((lzwCompress_parsed u hx).1.inUse _ h).2 rfl

/-- In any dictionary, legal or not, the reserved code is no literal, no entry and no slot ahead. -/
theorem lzwResolve_reserved (dict : List (Nat × Byte)) (prev : Nat) : lzwResolve dict prev 256 = none := by
  have hnext := lzwNext_eq dict
  have hknown : ¬ (256 < 256 ∨ 257 ≤ 256 ∧ 256 < lzwNext dict) := by omega
  rw [lzwResolve, if_neg ((lzwKnown_iff dict 256).not.2 hknown), if_neg (by omega)]

theorem lzwElement_reserved (size : Nat) (first : Bool) (u : LzwUnit) (out : List Byte) :
    ∃ c, lzwElement size first u out 256 = .error c := by
  cases first with
  | true => exact ⟨_, rfl⟩
  | false => exact ⟨_, lzwElement_of_unresolved size out (lzwResolve_reserved u.dict u.prev)⟩

theorem raises_lzwCode_reserved (s : State) : Raises (.lzwCode 256) s .corrupt := by
  obtain ⟨c, hc⟩ := lzwElement_reserved s.lzw.obj.originalSize.toNat (s.ipos == 0) s.lzw (outBytes s)
  exact raises_lzwCode hc

theorem prefix_lzwTurn (u : LzwUnit) (k : Byte) : u.dict <+: (lzwTurn u k).dict := by
  cases hw : u.w with
  | none =>
    have hturn : lzwTurn u k = { u with w := some k.toNat } := by simp only [lzwTurn, hw]
    rw [hturn]
  | some w =>
    rcases lzwTurn_cases hw k with ⟨e, -, hturn⟩ | ⟨-, hturn⟩ <;> rw [hturn]
    exact prefix_lzwInsert u.dict (w, k)

/-- What an element adds: bytes to the output, within the declared size, and at most an entry to the dictionary. -/
theorem lzwElement_grows (h : lzwElement size first u out code = .ok (u', out')) :
    u.dict <+: u'.dict ∧ ∃ new, out' = out ++ new ∧ out.length + new.length ≤ size := by
  unfold lzwElement at h
  split at h
  next =>
    split at h
    · cases h
    · split at h <;> cases h
      next hsize => exact ⟨List.prefix_rfl, _, rfl, Nat.not_lt.1 hsize⟩
  next =>
    split at h
    · split at h <;> cases h
      next hsize => exact ⟨prefix_lzwInsert _ _, _, rfl, Nat.not_lt.1 hsize⟩
    · cases h

theorem prefix_execLzwCode (h : exec (.lzwCode code) s = .next t) : s.lzw.dict <+: t.lzw.dict := by
  rcases settle_cases (r := lzwCodeOp code s) h with hok | ⟨c, -, rfl⟩
  · obtain ⟨u, out, new, helement, happend⟩ := lzwCodeOp_eq_ok hok
    obtain ⟨-, rfl⟩ := append_eq_ok.1 happend
    exact (lzwElement_grows helement).1
  · exact List.prefix_rfl

end

/-- Settles O37: code 256 is in use in no dictionary, and no turn or element does more to a dictionary than insert. -/
theorem lzwReservedCode : Obligations.LzwReservedCode := by
  unfold Obligations.LzwReservedCode
  exact ⟨lzwStr_reserved, reserved_not_mem_lzwCompress, raises_lzwCode_reserved, prefix_lzwTurn,
    fun _ _ _ => prefix_execLzwCode⟩

/-! ### The first code -/

section
variable {s : State} {code : U16}

/-- The element met as the first code. -/
theorem lzwElement_of_first (hi : s.ipos = 0) :
    lzwElement s.lzw.obj.originalSize.toNat (s.ipos == 0) s.lzw (outBytes s) code =
      if 256 ≤ code.toNat then .error .lzwFirstNotLiteral
      else if s.lzw.obj.originalSize.toNat < s.opos + 1 then .error .lzwWouldExceed
      else .ok ({ s.lzw with prev := code.toNat }, outBytes s ++ [BitVec.ofNat 8 code.toNat]) := by
  have hfirst : (s.ipos == 0) = true := by simpa using hi
  rw [hfirst, lzwElement_first, length_outBytes]

/-- A literal within the declared size is one append. -/
theorem lzwCodeOp_first_literal (hi : s.ipos = 0) (hlit : code.toNat < 256)
    (hsize : s.opos + 1 ≤ s.lzw.obj.originalSize.toNat) : lzwCodeOp code s =
      append [BitVec.ofNat 8 code.toNat] { s with ipos := 1, lzw := { s.lzw with prev := code.toNat } } := by
  have helement := lzwElement_of_first (code := code) hi
  rw [if_neg (Nat.not_le.2 hlit), if_neg (Nat.not_lt.2 hsize)] at helement
  rw [lzwCodeOp_of_element helement, hi]

end

/-- Settles O38: a literal within the declared size is one append, which fits OBUF or does not. -/
theorem lzwFirstCode : Obligations.LzwFirstCode := by
  unfold Obligations.LzwFirstCode
  intro s code hi
  refine ⟨fun hbad => ?_, fun hlit hsize hcap => ?_, fun hlit hsize hcap => ?_⟩
  · by_cases hlit : 256 ≤ code.toNat
    · exact raises_lzwCode ((lzwElement_of_first hi).trans (if_pos hlit))
    · have hsize := hbad.resolve_left hlit
      exact raises_lzwCode ((lzwElement_of_first hi).trans ((if_neg hlit).trans (if_pos hsize)))
  · have hop := (lzwCodeOp_first_literal hi hlit hsize).trans (append_of_fits (by exact hcap))
    exact ⟨_, congrArg (settle s) hop, rfl, writtenAt_memWrite _ _ _⟩
  · exact raises_of_error rfl ((lzwCodeOp_first_literal hi hlit hsize).trans (append_of_beyond (by exact hcap))) rfl

end Sys2Proof.Machine

/-! PROOFS. The two grains of D.LZW (10_state.md R21, 43_lzw.md R210, R211, 45_dispatcher.md R279; log entry 6). The
idea: a turn does with its code what the replay does, whatever the dictionary holds, so an induction over the codes left
in the image shows that the turns end as the replay. -/

namespace Sys2Proof.Machine

open Sys2Proof.Safety

/-! ### The turns of the LZW decoder -/

theorem flatMap_parseCodes {bs : List Byte} (h : bs.length % 2 = 0) : (parseCodes bs).flatMap toLe16 = bs := by
  induction bs using parseCodes.induct with
  | case1 low high rest ih =>
    have hrest := ih (by simp only [List.length_cons] at h; omega)
    rw [parseCodes, List.flatMap_cons, hrest, toLe16_le16]
    rfl
  | case2 b => simp at h
  | case3 => rfl

/-- A sound image is its header and its object's codes (30_encoding.md R109). -/
theorem desLzw_code_area {input : List Byte} {obj : LzwObj} (h : desLzw input = .ok obj) :
    input.drop 16 = obj.codes.flatMap toLe16 := by
  have hheader : Config.lzwHeader = 16 := rfl
  unfold desLzw at h
  split at h
  · cases h
  · split at h
    · cases h
    next hsound =>
      cases h
      exact (flatMap_parseCodes (by rw [List.length_drop]; omega)).symm

section
variable {s v : State} {code : U16} {codes : List U16} {out : List Byte}

/-- The LZW decoder has the turn, `codes` are left in the image, and `out` has been built. -/
structure LzwReplaying (s : State) (codes : List U16) (out : List Byte) : Prop where
  decoding : Decoding (selector .lzw) s
  left : (inputBytes s).drop (16 + 2 * s.ipos) = codes.flatMap toLe16
  obuf : s.obuf = cells 0 out
  opos : s.opos = out.length
  fits : s.lzw.obj.originalSize.toNat ≤ s.cfg.capOut

/-- The bytes a replay answers (R210). -/
def lzwOutput (size : Nat) (first : Bool) (codes : List U16) (u : LzwUnit) (out : List Byte) :
    Except Cause (List Byte) := (lzwReplay size first codes u out).map fun r => r.2

theorem lzwOutput_of_error {size : Nat} {first : Bool} {u : LzwUnit} {c : Cause}
    (h : lzwElement size first u out code = .error c) : lzwOutput size first (code :: codes) u out = .error c := by
  rw [lzwOutput, lzwReplay, h]
  rfl

theorem lzwOutput_of_element {size : Nat} {first : Bool} {u u' : LzwUnit} {out' : List Byte}
    (h : lzwElement size first u out code = .ok (u', out')) :
    lzwOutput size first (code :: codes) u out = lzwOutput size false codes u' out' := by
  rw [lzwOutput, lzwReplay, h]
  rfl

/-- The answer of the LZW decoder from here on. -/
def lzwAnswer (s : State) (codes : List U16) (out : List Byte) : State :=
  answered s (lzwOutput s.lzw.obj.originalSize.toNat (s.ipos == 0) codes s.lzw out)

/-- The turn with no code left. -/
theorem lzw_turn_at_end (h : LzwReplaying s [] out) : step s = .next (lzwAnswer s [] out) := by
  have hcomplete : answered s (.ok out) = complete s := by rw [answered, ← h.obuf, ← h.opos]
  have hstep := step_at_end h.decoding (elementWork_at_end (lzwSize s) .lzwShort h.left)
  have hsize : s.opos = (lzwSize s).toNat ↔ out.length = s.lzw.obj.originalSize.toNat := by rw [h.opos]; rfl
  rw [hstep, lzwAnswer, lzwOutput, lzwReplay]
  by_cases hlen : out.length = s.lzw.obj.originalSize.toNat
  · rw [if_pos (hsize.2 hlen), if_pos hlen, ← hcomplete]
    rfl
  · rw [if_neg (hsize.not.2 hlen), if_neg hlen]
    rfl

/-- `s` after a code that leaves `u` in the unit and appends `new`. -/
def codeReplayed (s : State) (u : LzwUnit) (new : List Byte) : State :=
  { s with
    obuf := memWrite s.obuf s.opos new, opos := s.opos + new.length, ipos := s.ipos + 1, lzw := u }

theorem lzwReplaying_codeReplayed {u : LzwUnit} (new : List Byte) (h : LzwReplaying s (code :: codes) out)
    (hobj : u.obj = s.lzw.obj) : LzwReplaying (codeReplayed s u new) codes (out ++ new) where
  decoding := h.decoding
  left := by
    have hleft := congrArg (List.drop 2) h.left
    rwa [List.drop_drop] at hleft
  obuf := by rw [codeReplayed, h.obuf, h.opos, memWrite_cells]
  opos := by rw [codeReplayed, h.opos, List.length_append]
  fits := by rw [codeReplayed, hobj]; exact h.fits

/-- Past a code the replay goes on with codes that are not the first. -/
theorem lzwAnswer_codeReplayed {u : LzwUnit} (hobj : u.obj = s.lzw.obj) (new : List Byte) (codes : List U16)
    (out : List Byte) : lzwAnswer (codeReplayed s u new) codes out =
      answered (codeReplayed s u new) (lzwOutput s.lzw.obj.originalSize.toNat false codes u out) := by
  rw [← hobj]
  rfl

/-- The turn of a code: it raises what the replay raises, or the replay goes on from the state it leaves. -/
theorem lzw_turn_of_code (h : LzwReplaying s (code :: codes) out) :
    step s = .next (lzwAnswer s (code :: codes) out) ∨
      ∃ u new, step s = .next u ∧ LzwReplaying u codes (out ++ new) ∧
        SameInterface (lzwAnswer s (code :: codes) out) (lzwAnswer u codes (out ++ new)) := by
  have hcode : decode .lzwCode ((inputBytes s).drop (Config.lzwHeader + 2 * s.ipos)) =
      .ok (.lzwCode code, codes.flatMap toLe16) := decode_lzwCode_eq_ok_iff.2 ⟨code, rfl, h.left⟩
  have hstep : step s = settle s (lzwCodeOp code s) :=
    step_of_decodingWork h.decoding (elementWork_of_decoded _ _ hcode)
  have hout : outBytes s = out := outBytes_of_cells h.obuf h.opos
  rw [lzwAnswer]
  cases helement : lzwElement s.lzw.obj.originalSize.toNat (s.ipos == 0) s.lzw out code with
  | error c =>
    rw [lzwCodeOp_of_error (hout.symm ▸ helement)] at hstep
    rw [lzwOutput_of_error helement]
    exact .inl hstep
  | ok r =>
    obtain ⟨u, out'⟩ := r
    obtain ⟨-, new, rfl, hsize⟩ := lzwElement_grows helement
    have hobj := lzwElement_obj helement
    have hcap : s.opos + new.length ≤ s.cfg.capOut := by rw [h.opos]; exact hsize.trans h.fits
    rw [lzwCodeOp_of_element (hout.symm ▸ helement), append_of_fits (by exact hcap)] at hstep
    refine .inr ⟨codeReplayed s u new, new, hstep, lzwReplaying_codeReplayed new h hobj, ?_⟩
    rw [lzwOutput_of_element helement, lzwAnswer_codeReplayed hobj]
    exact sameInterface_answered (t := codeReplayed s u new) _ rfl rfl rfl rfl rfl

/-- Turn by turn the decoder ends as the replay of the codes left answers (R210, R211). -/
theorem lzw_turns_reach_answer (h : LzwReplaying s codes out) :
    ∃ n u, Reaches n s u ∧ SameInterface (lzwAnswer s codes out) u := by
  induction codes generalizing s out with
  | nil => exact ⟨1, _, ⟨_, lzw_turn_at_end h, rfl⟩, sameInterface_refl _⟩
  | cons code codes ih =>
    rcases lzw_turn_of_code h with hstep | ⟨u, new, hstep, hnext, hsame⟩
    · exact ⟨1, _, ⟨_, hstep, rfl⟩, sameInterface_refl _⟩
    · obtain ⟨n, w, hreach, hend⟩ := ih hnext
      exact ⟨n + 1, w, ⟨u, hstep, hreach⟩, sameInterface_trans hsame hend⟩

/-! ### The decoder run whole -/

/-- Run whole inside a command on `s`, the decoder ends as its replay from no output at all answers. -/
theorem settleCommand_lzwDecompressOp (h : Keeps s v) (hcap : v.lzw.obj.originalSize.toNat ≤ v.cfg.capOut) :
    ∃ w, settleCommand s (lzwDecompressOp v) = .next w ∧
      SameInterface w (answered v ((lzwDecompress v.lzw).map fun r => r.2)) := by
  cases hrun : lzwDecompress v.lzw with
  | ok r =>
    obtain ⟨u, out⟩ := r
    have hfit : out.length ≤ v.cfg.capOut := (lzwDecompress_eq_ok hrun).1.trans_le hcap
    exact ⟨_, congrArg (settleCommand s) (lzwDecompressOp_of_ok hrun hfit),
      ⟨rfl, rfl, rfl, rfl, rfl, rfl, rfl, rfl, rfl⟩⟩
  | error c =>
    exact ⟨_, congrArg (settleCommand s) (lzwDecompressOp_of_error hrun), sameInterface_raise c h⟩

/-- Where the decoder starts, no output has been built, and the codes left are those of the object. -/
theorem lzwReplaying_started (hh : s.host = []) (hb : s.busy = 1) (halg : s.alg = 3)
    (hv : codecParseOp .lzw (startOutput s) = .ok v) (hcap : (objectSize v .lzw).toNat ≤ v.cfg.capOut) :
    LzwReplaying (startDecoder v .lzw) v.lzw.obj.codes [] := by
  obtain ⟨-, obj, hobj, rfl⟩ := desLzwOp_eq_ok hv
  exact ⟨⟨hh, hb, rfl, halg⟩, desLzw_code_area hobj, rfl, rfl, hcap⟩

theorem lzw_decoderTurnsAgree (hh : s.host = []) (hb : s.busy = 1) (halg : s.alg = 3)
    (hv : codecParseOp .lzw (startOutput s) = .ok v) (hcap : (objectSize v .lzw).toNat ≤ v.cfg.capOut) :
    DecoderTurnsAgree .lzw s v := by
  have hkeep := ((operated_startOutput .lzw s).trans (operated_parse hv)).toKeeps
  obtain ⟨w, hend, hw⟩ := settleCommand_lzwDecompressOp hkeep hcap
  obtain ⟨n, u, hreach, hu⟩ := lzw_turns_reach_answer (lzwReplaying_started hh hb halg hv hcap)
  have hstart : SameInterface (answered v ((lzwDecompress v.lzw).map fun r => r.2))
      (lzwAnswer (startDecoder v .lzw) v.lzw.obj.codes []) := sameInterface_answered _ rfl rfl rfl rfl rfl
  exact ⟨n, u, w, hreach, hend, sameInterface_trans hw (sameInterface_trans hstart hu)⟩

end

/-- Settles O57: the decoder's turns replay the codes of the image, which are those of the object the deserializer
made. -/
theorem lzwDecodeGrainsAgree : Obligations.LzwDecodeGrainsAgree := by
  unfold Obligations.LzwDecodeGrainsAgree
  intro s t ha hd halg hg ht
  have ⟨_, hh, hb, _⟩ := ha
  have hk : codecOf s.alg = some .lzw := codecOf_eq_some_iff.2 halg
  exact decompress_grains_agree ha hd hg hk
    (fun v hv hcap => lzw_decoderTurnsAgree hh hb halg hv hcap) ht

end Sys2Proof.Machine

/-! PROOFS. LZ77.LIT and LZ77.REF (44_lz77.md R246, R247, 20_memory.md R65, R73). The idea: the copy of a back-reference
grows the output by bytes each of which stands `offset` before it in the grown output, so the whole element is one
append, and OBUF read after that append is the grown output. -/

namespace Sys2Proof.Machine

open Sys2Proof.Safety

/-! ### The copy and the element -/

section
variable {size offset n : Nat} {token : Token} {out out' : List Byte}

/-- R247: each byte copied is read `offset` before it, in the output that already holds the bytes copied before. -/
theorem lz77Copy_grows (hpos : 1 ≤ offset) (hle : offset ≤ out.length) : ∃ new, lz77Copy offset n out = out ++ new ∧
    new.length = n ∧ ∀ i, i < n → new[i]? = (out ++ new)[out.length + i - offset]? := by
  induction n generalizing out with
  | zero => exact ⟨[], (List.append_nil _).symm, rfl, fun i hi => absurd hi (Nat.not_lt_zero i)⟩
  | succ n ih =>
    have hread : out.length - offset < out.length := by omega
    obtain ⟨b, hb⟩ : ∃ b, out[out.length - offset]? = some b := ⟨_, List.getElem?_eq_getElem hread⟩
    obtain ⟨new, hcopy, hlen, hnew⟩ := ih (out := out ++ [b]) (by rw [List.length_append]; omega)
    rw [List.append_assoc, List.singleton_append] at hcopy hnew
    refine ⟨b :: new, by rw [lz77Copy, hb]; exact hcopy, by rw [List.length_cons, hlen], fun i hi => ?_⟩
    cases i with
    | zero => rw [Nat.add_zero, List.getElem?_append_left hread, hb]; rfl
    | succ i =>
      have hsrc : (out ++ [b]).length + i = out.length + (i + 1) := by rw [List.length_append]; simp; omega
      rw [List.getElem?_cons_succ, hnew i (Nat.lt_of_succ_lt_succ hi), hsrc]

theorem lz77Element_literal (size : Nat) (out : List Byte) (h : token.offset = 0) : lz77Element size out token =
    if size < out.length + 1 then .error .lz77WouldExceed else .ok (out ++ [token.nextChar]) :=
  if_neg (not_not_intro h)

theorem lz77Element_reference (size : Nat) (out : List Byte) (h : token.offset ≠ 0) : lz77Element size out token =
    if out.length < token.offset.toNat then .error .lz77OffsetBeyond
    else if size < out.length + token.length.toNat + 1 then .error .lz77WouldExceed
    else .ok (lz77Copy token.offset.toNat token.length.toNat out ++ [token.nextChar]) :=
  if_pos h

theorem one_le_toNat_of_ne_zero {offset : U16} (h : offset ≠ 0) : 1 ≤ offset.toNat := by bv_omega

/-- An element that raises nothing grows the output, within the declared size. -/
theorem lz77Element_grows (h : lz77Element size out token = .ok out') :
    ∃ new, out' = out ++ new ∧ out.length + new.length ≤ size := by
  by_cases hoff : token.offset = 0
  · rw [lz77Element_literal size out hoff] at h
    split at h <;> cases h
    next hsize => exact ⟨_, rfl, Nat.not_lt.1 hsize⟩
  · rw [lz77Element_reference size out hoff] at h
    split at h
    · cases h
    next hback =>
      split at h <;> cases h
      next hsize =>
        obtain ⟨new, hcopy, hlen, -⟩ := lz77Copy_grows (n := token.length.toNat) (one_le_toNat_of_ne_zero hoff)
          (Nat.not_lt.1 hback)
        refine ⟨new ++ [token.nextChar], by rw [hcopy, List.append_assoc], ?_⟩
        rw [List.length_append, List.length_singleton, hlen]
        omega

end

/-! ### The element in the machine -/

section
variable {s t : State} {i : Instr} {token : Token} {new : List Byte} {c : Cause}

theorem lz77TokenOp_of_error (h : lz77Element s.lz77.obj.originalSize.toNat (outBytes s) token = .error c) :
    lz77TokenOp token s = .error c := by
  rw [lz77TokenOp, h]

/-- A token whose element adds `new` is one append (20_memory.md R65). -/
theorem lz77TokenOp_of_element
    (h : lz77Element s.lz77.obj.originalSize.toNat (outBytes s) token = .ok (outBytes s ++ new)) :
    lz77TokenOp token s = append new { s with lz77 := lz77Count s.lz77 token, ipos := s.ipos + 1 } := by
  rw [lz77TokenOp, h]
  exact extend_outBytes (t := { s with lz77 := lz77Count s.lz77 token, ipos := s.ipos + 1 }) new rfl

/-- A token on which the element is Corrupt ends the command. -/
theorem raises_lz77Token (hi : exec i s = settle s (lz77TokenOp token s))
    (h : lz77Element s.lz77.obj.originalSize.toNat (outBytes s) token = .error c) : Raises i s .corrupt :=
  raises_of_error hi (lz77TokenOp_of_error h) (lz77Element_corrupt h)

theorem lz77Count_literal (u : Lz77Unit) (h : token.offset = 0) : lz77Count u token = u :=
  if_neg (not_not_intro h)

theorem lz77Count_reference (u : Lz77Unit) (h : token.offset ≠ 0) :
    lz77Count u token = { u with i := token.length.toNat } :=
  if_pos h

theorem memRead_of_writtenAt {before after : Memory} {a i : Nat} {bs : List Byte} (h : WrittenAt before after a bs)
    (hi : i < bs.length) : memRead after (a + i) = bs[i]? := by
  rw [h, if_pos (by omega), Nat.add_sub_cancel_left]

/-- A byte of OBUF read after bytes have been laid at the output's end is a byte of the output grown (20_memory.md
R73). -/
theorem getElem?_outBytes_append {a : Nat} (h : WrittenAt s.obuf t.obuf s.opos new) (hepoch : t.epoch = s.epoch)
    (ha : a < s.opos + new.length) : (outBytes s ++ new)[a]? = some (obufByte t a) := by
  by_cases hold : a < s.opos
  · rw [List.getElem?_append_left (by rwa [length_outBytes]), outBytes_getElem?, if_pos hold, obufByte, obufByte, h,
      if_neg (by omega), hepoch]
  · rw [List.getElem?_append_right (by rw [length_outBytes]; omega), length_outBytes, obufByte, h,
      if_pos ⟨by omega, ha⟩, List.getElem?_eq_getElem (by omega)]
    rfl

end

/-! ### LZ77.LIT -/

section
variable {s : State} {length nextChar : Byte}

theorem lz77TokenOp_literal_within (hsize : s.opos + 1 ≤ s.lz77.obj.originalSize.toNat) :
    lz77TokenOp ⟨0, length, nextChar⟩ s = append [nextChar] { s with ipos := s.ipos + 1 } := by
  have helement := lz77Element_literal s.lz77.obj.originalSize.toNat (outBytes s) (token := ⟨0, length, nextChar⟩) rfl
  rw [length_outBytes, if_neg (Nat.not_lt.2 hsize)] at helement
  rw [lz77TokenOp_of_element helement, lz77Count_literal s.lz77 rfl]

end

/-- Settles O43: within the declared size the literal is one append, which fits OBUF or does not. -/
theorem lz77LitAppends : Obligations.Lz77LitAppends := by
  unfold Obligations.Lz77LitAppends
  intro s length nextChar
  refine ⟨fun hsize hcap => ?_, fun hsize => ?_, fun hsize hcap => ?_⟩
  · have hop := (lz77TokenOp_literal_within (length := length) (nextChar := nextChar) hsize).trans
      (append_of_fits (by exact hcap))
    exact ⟨_, congrArg (settle s) hop, rfl, writtenAt_memWrite _ _ _⟩
  · refine raises_lz77Token rfl ((lz77Element_literal _ _ rfl).trans (if_pos ?_))
    rwa [length_outBytes]
  · exact raises_of_error rfl ((lz77TokenOp_literal_within hsize).trans (append_of_beyond (by exact hcap))) rfl

/-! ### LZ77.REF -/

section
variable {s : State} {offset : U16} {length nextChar : Byte}

/-- The tests of the element on the output so far, the offset's first (R247). -/
theorem lz77Element_reference_outBytes (hoff : offset ≠ 0) :
    lz77Element s.lz77.obj.originalSize.toNat (outBytes s) ⟨offset, length, nextChar⟩ =
      if s.opos < offset.toNat then .error .lz77OffsetBeyond
      else if s.lz77.obj.originalSize.toNat < s.opos + length.toNat + 1 then .error .lz77WouldExceed
      else .ok (lz77Copy offset.toNat length.toNat (outBytes s) ++ [nextChar]) := by
  rw [lz77Element_reference _ _ hoff, length_outBytes]

/-- A back-reference within the output so far and the declared size is one append. -/
theorem lz77TokenOp_reference_within (hoff : offset ≠ 0) (hback : offset.toNat ≤ s.opos)
    (hsize : s.opos + length.toNat + 1 ≤ s.lz77.obj.originalSize.toNat) :
    ∃ new, new.length = length.toNat ∧
      (∀ i, i < length.toNat → new[i]? = (outBytes s ++ new)[s.opos + i - offset.toNat]?) ∧
      lz77TokenOp ⟨offset, length, nextChar⟩ s = append (new ++ [nextChar])
        { s with lz77 := { s.lz77 with i := length.toNat }, ipos := s.ipos + 1 } := by
  have hlen := length_outBytes s
  obtain ⟨new, hcopy, hnew, hread⟩ := lz77Copy_grows (n := length.toNat) (out := outBytes s)
    (one_le_toNat_of_ne_zero hoff) (hlen.symm ▸ hback)
  have helement := lz77Element_reference_outBytes (s := s) (length := length) (nextChar := nextChar) hoff
  rw [if_neg (Nat.not_lt.2 hback), if_neg (Nat.not_lt.2 hsize), hcopy, List.append_assoc] at helement
  refine ⟨new, hnew, fun i hi => by rw [hread i hi, hlen], ?_⟩
  rw [lz77TokenOp_of_element helement, lz77Count_reference s.lz77 hoff]

end

/-- Settles O44: the bytes of the element are one append, and OBUF read after it is the output the copy has grown. -/
theorem lz77RefCopies : Obligations.Lz77RefCopies := by
  unfold Obligations.Lz77RefCopies
  intro s offset length nextChar hoff
  have helement := lz77Element_reference_outBytes (s := s) (length := length) (nextChar := nextChar) hoff
  refine ⟨fun hback hsize hcap => ?_, fun hback => ?_, fun hback hsize => ?_, fun hback hsize hcap => ?_⟩
  · obtain ⟨new, hlen, hread, hop⟩ := lz77TokenOp_reference_within (nextChar := nextChar) hoff hback hsize
    have hfull : (new ++ [nextChar]).length = length.toNat + 1 := by rw [List.length_append, hlen]; rfl
    have happend := append_of_fits (s := { s with lz77 := { s.lz77 with i := length.toNat }, ipos := s.ipos + 1 })
      (bs := new ++ [nextChar]) (by rw [hfull]; exact hcap)
    have hwritten := writtenAt_memWrite s.obuf s.opos (new ++ [nextChar])
    refine ⟨_, congrArg (settle s) (hop.trans happend), by rw [hfull]; rfl, fun i hi => ?_, ?_, fun a ha => ?_⟩
    · have hsrc : s.opos + i - offset.toNat < (outBytes s ++ new).length := by
        rw [List.length_append, length_outBytes, hlen]
        omega
      rw [memRead_of_writtenAt hwritten (by omega), List.getElem?_append_left (hlen ▸ hi), hread i hi,
        ← List.getElem?_append_left hsrc, List.append_assoc]
      exact getElem?_outBytes_append hwritten rfl (by rw [hfull]; omega)
    · rw [← hlen, memRead_of_writtenAt hwritten (by omega), List.getElem?_concat_length]
    · rw [hwritten, if_neg (by omega)]
  · exact raises_lz77Token rfl (helement.trans (if_pos hback))
  · exact raises_lz77Token rfl (helement.trans ((if_neg (Nat.not_lt.2 hback)).trans (if_pos hsize)))
  · obtain ⟨new, hlen, -, hop⟩ := lz77TokenOp_reference_within (nextChar := nextChar) hoff hback hsize
    refine raises_of_error rfl (hop.trans (append_of_beyond ?_)) rfl
    rw [List.length_append, hlen]
    exact hcap

end Sys2Proof.Machine

/-! PROOFS. The two grains of D.LZ77 (10_state.md R21, 44_lz77.md R245 to R247, 45_dispatcher.md R276; log entry 6). The
idea: a turn does with its token what the replay does, so an induction over the tokens left in the image shows that the
turns end as the replay. -/

namespace Sys2Proof.Machine

open Sys2Proof.Safety

/-! ### The turns of the LZ77 decoder -/

theorem flatMap_parseTokens {bs : List Byte} (h : bs.length % 4 = 0) : (parseTokens bs).flatMap tokenBytes = bs := by
  induction bs using parseTokens.induct with
  | case1 o1 o0 length nextChar rest ih =>
    have hrest := ih (by simp only [List.length_cons] at h; omega)
    rw [parseTokens, List.flatMap_cons, hrest, tokenBytes, toBe16_be16]
    rfl
  | case2 | case3 | case4 => simp at h
  | case5 => rfl

/-- A sound image is its header and its object's tokens (30_encoding.md R114). -/
theorem desLz77_token_area {input : List Byte} {obj : Lz77Obj} (h : desLz77 input = .ok obj) :
    input.drop 8 = obj.tokens.flatMap tokenBytes := by
  have hheader : Config.lz77Header = 8 := rfl
  unfold desLz77 at h
  split at h
  · cases h
  · split at h <;> cases h
    next hwhole => exact (flatMap_parseTokens (by rw [List.length_drop]; omega)).symm

section
variable {s v : State} {token : Token} {tokens : List Token} {out : List Byte} {c : Cause}

theorem exec_tokenInstr (offset : U16) (length nextChar : Byte) (s : State) :
    exec (tokenInstr offset length nextChar) s = settle s (lz77TokenOp ⟨offset, length, nextChar⟩ s) := by
  by_cases h : offset = 0
  · subst h; rfl
  · rw [tokenInstr, if_neg h]; rfl

/-- The LZ77 decoder has the turn, `tokens` are left in the image, and `out` has been built. -/
structure Lz77Replaying (s : State) (tokens : List Token) (out : List Byte) : Prop where
  decoding : Decoding (selector .lz77) s
  left : (inputBytes s).drop (8 + 4 * s.ipos) = tokens.flatMap tokenBytes
  obuf : s.obuf = cells 0 out
  opos : s.opos = out.length
  fits : s.lz77.obj.originalSize.toNat ≤ s.cfg.capOut

/-- The answer of the LZ77 decoder from here on (R245). -/
def lz77Answer (s : State) (tokens : List Token) (out : List Byte) : State :=
  answered s (lz77Replay s.lz77.obj.originalSize.toNat tokens out)

/-- The turn with no token left. -/
theorem lz77_turn_at_end (h : Lz77Replaying s [] out) : step s = .next (lz77Answer s [] out) := by
  have hcomplete : answered s (.ok out) = complete s := by rw [answered, ← h.obuf, ← h.opos]
  have hstep := step_at_end h.decoding (elementWork_at_end (lz77Size s) .lz77LengthDiffers h.left)
  rw [h.opos] at hstep
  rw [hstep, lz77Answer, lz77Replay, apply_ite (answered s), hcomplete]
  rfl

/-- `s` after a token that appends `new`. -/
def tokenReplayed (s : State) (token : Token) (new : List Byte) : State :=
  { s with
    obuf := memWrite s.obuf s.opos new, opos := s.opos + new.length, ipos := s.ipos + 1
    lz77 := lz77Count s.lz77 token }

theorem lz77Replaying_tokenReplayed (new : List Byte) (h : Lz77Replaying s (token :: tokens) out) :
    Lz77Replaying (tokenReplayed s token new) tokens (out ++ new) where
  decoding := h.decoding
  left := by
    have hleft := congrArg (List.drop 4) h.left
    rwa [List.drop_drop] at hleft
  obuf := by rw [tokenReplayed, h.obuf, h.opos, memWrite_cells]
  opos := by rw [tokenReplayed, h.opos, List.length_append]
  fits := by rw [tokenReplayed, lz77Count_obj]; exact h.fits

/-- The turn of a token runs its element (30_encoding.md R114, R115). -/
theorem lz77_turn_of_token (h : Lz77Replaying s (token :: tokens) out) : step s = settle s (lz77TokenOp token s) := by
  have htoken : decode .lzToken ((inputBytes s).drop (Config.lz77Header + 4 * s.ipos)) =
      .ok (tokenInstr token.offset token.length token.nextChar, tokens.flatMap tokenBytes) :=
    decode_lzToken_eq_ok_iff.2 ⟨_, _, _, rfl, h.left⟩
  exact (step_of_decodingWork h.decoding (elementWork_of_decoded _ _ htoken)).trans (exec_tokenInstr ..)

/-- A token that raises nothing leaves the decoder on the tokens after it. -/
theorem lz77_turn_of_element {new : List Byte} (h : Lz77Replaying s (token :: tokens) out)
    (helement : lz77Element s.lz77.obj.originalSize.toNat out token = .ok (out ++ new))
    (hsize : out.length + new.length ≤ s.lz77.obj.originalSize.toNat) :
    step s = .next (tokenReplayed s token new) := by
  have hcap : s.opos + new.length ≤ s.cfg.capOut := by rw [h.opos]; exact hsize.trans h.fits
  rw [← outBytes_of_cells h.obuf h.opos] at helement
  rw [lz77_turn_of_token h, lz77TokenOp_of_element helement, append_of_fits (by exact hcap)]
  rfl

/-- What the replay answers from the token on it answers from the tokens after it. -/
theorem sameInterface_tokenReplayed {new : List Byte}
    (helement : lz77Element s.lz77.obj.originalSize.toNat out token = .ok (out ++ new)) :
    SameInterface (lz77Answer s (token :: tokens) out)
      (lz77Answer (tokenReplayed s token new) tokens (out ++ new)) := by
  rw [lz77Answer, lz77Answer, lz77Replay, helement, tokenReplayed, lz77Count_obj]
  exact sameInterface_answered _ rfl rfl rfl rfl rfl

/-- Turn by turn the decoder ends as the replay of the tokens left answers (R245 to R247). -/
theorem lz77_turns_reach_answer (h : Lz77Replaying s tokens out) :
    ∃ n u, Reaches n s u ∧ SameInterface (lz77Answer s tokens out) u := by
  induction tokens generalizing s out with
  | nil => exact ⟨1, _, ⟨_, lz77_turn_at_end h, rfl⟩, sameInterface_refl _⟩
  | cons token tokens ih =>
    cases helement : lz77Element s.lz77.obj.originalSize.toNat out token with
    | error c =>
      have hstep := lz77_turn_of_token h
      rw [lz77TokenOp_of_error (by rwa [outBytes_of_cells h.obuf h.opos])] at hstep
      rw [lz77Answer, lz77Replay, helement]
      exact ⟨1, _, ⟨_, hstep, rfl⟩, sameInterface_refl _⟩
    | ok out' =>
      obtain ⟨new, rfl, hsize⟩ := lz77Element_grows helement
      obtain ⟨n, u, hreach, hend⟩ := ih (lz77Replaying_tokenReplayed new h)
      exact ⟨n + 1, u, ⟨_, lz77_turn_of_element h helement hsize, hreach⟩,
        sameInterface_trans (sameInterface_tokenReplayed helement) hend⟩

/-! ### The LZ77 decoder run whole -/

/-- An output that fits OBUF is laid from address 0 by one append. -/
theorem lz77DecompressOp_of_ok (h : lz77Decompress s.lz77.obj = .ok out) (hfit : out.length ≤ s.cfg.capOut) :
    lz77DecompressOp s = .ok { s with
      obuf := cells 0 out, opos := out.length, ipos := s.lz77.obj.tokens.length,
      lz77 := s.lz77.obj.tokens.foldl lz77Count s.lz77 } := by
  rw [lz77DecompressOp, h]
  exact append_of_started rfl rfl hfit

theorem lz77DecompressOp_of_error (h : lz77Decompress s.lz77.obj = .error c) : lz77DecompressOp s = .error c := by
  rw [lz77DecompressOp, h]

/-- Run whole inside a command on `s`, the decoder ends as its replay from no output at all answers. -/
theorem settleCommand_lz77DecompressOp (h : Keeps s v) (hcap : v.lz77.obj.originalSize.toNat ≤ v.cfg.capOut) :
    ∃ w, settleCommand s (lz77DecompressOp v) = .next w ∧ SameInterface w (answered v (lz77Decompress v.lz77.obj)) := by
  cases hrun : lz77Decompress v.lz77.obj with
  | ok out =>
    have hfit : out.length ≤ v.cfg.capOut := (lz77Replay_length hrun).trans_le hcap
    exact ⟨_, congrArg (settleCommand s) (lz77DecompressOp_of_ok hrun hfit),
      ⟨rfl, rfl, rfl, rfl, rfl, rfl, rfl, rfl, rfl⟩⟩
  | error c =>
    exact ⟨_, congrArg (settleCommand s) (lz77DecompressOp_of_error hrun), sameInterface_raise c h⟩

/-- Where the decoder starts, no output has been built, and the tokens left are those of the object. -/
theorem lz77Replaying_started (hh : s.host = []) (hb : s.busy = 1) (halg : s.alg = 0)
    (hv : codecParseOp .lz77 (startOutput s) = .ok v) (hcap : (objectSize v .lz77).toNat ≤ v.cfg.capOut) :
    Lz77Replaying (startDecoder v .lz77) v.lz77.obj.tokens [] := by
  obtain ⟨-, obj, hobj, rfl⟩ := desLz77Op_eq_ok hv
  exact ⟨⟨hh, hb, rfl, halg⟩, desLz77_token_area hobj, rfl, rfl, hcap⟩

theorem lz77_decoderTurnsAgree (hh : s.host = []) (hb : s.busy = 1) (halg : s.alg = 0)
    (hv : codecParseOp .lz77 (startOutput s) = .ok v) (hcap : (objectSize v .lz77).toNat ≤ v.cfg.capOut) :
    DecoderTurnsAgree .lz77 s v := by
  have hkeep := ((operated_startOutput .lz77 s).trans (operated_parse hv)).toKeeps
  obtain ⟨w, hend, hw⟩ := settleCommand_lz77DecompressOp hkeep hcap
  obtain ⟨n, u, hreach, hu⟩ := lz77_turns_reach_answer (lz77Replaying_started hh hb halg hv hcap)
  have hstart : SameInterface (answered v (lz77Decompress v.lz77.obj))
      (lz77Answer (startDecoder v .lz77) v.lz77.obj.tokens []) := sameInterface_answered _ rfl rfl rfl rfl rfl
  exact ⟨n, u, w, hreach, hend, sameInterface_trans hw (sameInterface_trans hstart hu)⟩

end

/-- Settles O58: the decoder's turns replay the tokens of the image, which are those of the object the deserializer
made. -/
theorem lz77DecodeGrainsAgree : Obligations.Lz77DecodeGrainsAgree := by
  unfold Obligations.Lz77DecodeGrainsAgree
  intro s t ha hd halg hg ht
  have ⟨_, hh, hb, _⟩ := ha
  have hk : codecOf s.alg = some .lz77 := codecOf_eq_some_iff.2 halg
  exact decompress_grains_agree ha hd hg hk
    (fun v hv hcap => lz77_decoderTurnsAgree hh hb halg hv hcap) ht

end Sys2Proof.Machine

/-! PROOFS. The tokens LZ77.compress makes (44_lz77.md R234 to R239). The idea: after any number of turns each slot of
the hash index holds the last token start whose three bytes fall into it, so the candidate a turn tries is a function of
the tokens so far, and each token, true to the input at its start, is the one that candidate gives. -/

namespace Sys2Proof.Machine

open Sys2Proof.Safety

/-! ### The hash index -/

theorem lookup_filter_keys (keep : Nat → Bool) (l : List (Nat × Nat)) (key : Nat) :
    (l.filter fun x => keep x.1).lookup key = if keep key then l.lookup key else none := by
  induction l with
  | nil => simp
  | cons x l ih =>
    obtain ⟨k, v⟩ := x
    by_cases hkey : key = k
    · subst hkey
      cases hk : keep key <;> simp [hk, ih]
    · have hne : (key == k) = false := by simpa using hkey
      cases hk : keep k <;> simp [hk, ih, List.lookup_cons, hne]

/-- A write changes what one slot holds (R231). -/
theorem lookup_slotSet (hash : List (Nat × Nat)) (slot pos key : Nat) :
    (slotSet hash slot pos).lookup key = if slot = key then some pos else hash.lookup key := by
  rw [slotSet, List.lookup_append, lookup_filter_keys (fun k => decide (k < slot)), List.lookup_cons,
    lookup_filter_keys (fun k => decide (slot < k))]
  rcases Nat.lt_trichotomy key slot with hlt | rfl | hgt
  · have hne : (key == slot) = false := by simpa using hlt.ne
    simp [hlt, hlt.ne', hne, Nat.not_lt.2 hlt.le]
  · simp
  · have hne : (key == slot) = false := by simpa using hgt.ne'
    simp [hgt, hgt.ne, hne, Nat.not_lt.2 hgt.le]

/-! ### The match -/

section
variable {input : List Byte} {limit cand pos : Nat}

theorem matchLength_agrees {i : Nat} (h : i < matchLength input limit cand pos) :
    input[cand + i]? = input[pos + i]? := by
  induction limit generalizing cand pos i with
  | zero => exact absurd h (Nat.not_lt_zero i)
  | succ limit ih =>
    unfold matchLength at h
    split at h
    next heq =>
      cases i with
      | zero => exact heq
      | succ i => simpa only [Nat.add_assoc, Nat.add_comm 1] using ih (Nat.lt_of_succ_lt_succ h)
    next => exact absurd h (Nat.not_lt_zero i)

/-- The match is the longest up to the limit (R239 (f)). -/
theorem matchLength_maximal (h : matchLength input limit cand pos ≠ limit) :
    input[cand + matchLength input limit cand pos]? ≠ input[pos + matchLength input limit cand pos]? := by
  induction limit generalizing cand pos with
  | zero => exact absurd rfl h
  | succ limit ih =>
    unfold matchLength at h ⊢
    split at h
    next heq =>
      rw [if_pos heq]
      simpa only [Nat.add_assoc, Nat.add_comm 1] using ih fun hlimit => h (congrArg (· + 1) hlimit)
    next hne => rwa [if_neg hne]

end

/-! ### What a token is at its place -/

/-- A token that stands for the input bytes from `pos` on, within the encoder's bounds (R239 (a), (b)). -/
def TokenAt (input : List Byte) (pos : Nat) (k : Token) : Prop :=
  (k.offset = 0 ∧ k.length = 0 ∧ input[pos]? = some k.nextChar) ∨
  (1 ≤ k.offset.toNat ∧ k.offset.toNat ≤ 4096 ∧ 3 ≤ k.length.toNat ∧ k.length.toNat ≤ 18 ∧
    k.offset.toNat ≤ pos ∧ input[pos + k.length.toNat]? = some k.nextChar ∧
    ∀ i, i < k.length.toNat → input[pos - k.offset.toNat + i]? = input[pos + i]?)

/-- A token that is the one the slot's content gives at `pos` (R235, R236, R239 (f)). -/
def TokenOf (input : List Byte) (pos : Nat) (cand : Option Nat) (k : Token) : Prop :=
  (k.offset = 0 → ∀ q, cand = some q → pos - q ≤ 4096 → pos + 3 < input.length →
    ∃ m, m < 3 ∧ input[q + m]? ≠ input[pos + m]?) ∧
  (k.offset ≠ 0 → ∃ q, cand = some q ∧ k.offset.toNat = pos - q ∧
    (k.length.toNat = 18 ∨ pos + k.length.toNat + 1 = input.length ∨
      input[pos - k.offset.toNat + k.length.toNat]? ≠ input[pos + k.length.toNat]?))

/-- The match registers after the probe at `pos` of a slot that holds `cand`: no match of three bytes, or the longest
one. -/
def MatchOf (input : List Byte) (pos : Nat) (cand : Option Nat) (mlen d : Nat) : Prop :=
  (mlen = 0 ∧ ∀ q, cand = some q → pos - q ≤ 4096 → pos + 3 < input.length →
    ∃ m, m < 3 ∧ input[q + m]? ≠ input[pos + m]?) ∨
  (∃ q, cand = some q ∧ d = pos - q ∧ d ≤ 4096 ∧ 3 ≤ mlen ∧ mlen ≤ 18 ∧ pos + mlen + 1 ≤ input.length ∧
    (∀ i, i < mlen → input[q + i]? = input[pos + i]?) ∧
    (mlen = 18 ∨ pos + mlen + 1 = input.length ∨ input[q + mlen]? ≠ input[pos + mlen]?))

section
variable {p : Params} {input : List Byte} {pos cand : Nat} {u : Lz77Unit} {h : U16}

theorem matchOf_try (hmlen : u.mlen = 0) :
    MatchOf input pos (some cand) (lz77Try input pos cand u).mlen (lz77Try input pos cand u).d := by
  fun_cases lz77Try input pos cand u with
  | case1 hwindow limit l hlong =>
    have hlimit : limit = min 18 (input.length - pos - 1) := rfl
    have hle : l ≤ limit := matchLength_le input limit cand pos
    have hl : 3 ≤ l := hlong
    have hleft : l ≤ 18 ∧ pos + l + 1 ≤ input.length := by omega
    refine .inr ⟨cand, rfl, rfl, hwindow, hlong, hleft.1, hleft.2, fun i => matchLength_agrees, ?_⟩
    by_cases hfull : l = limit
    · have hstop : l = 18 ∨ pos + l + 1 = input.length := by omega
      exact hstop.imp_right .inl
    · exact .inr (.inr (matchLength_maximal hfull))
  | case2 hwindow limit l hshort =>
    have hlimit : limit = min 18 (input.length - pos - 1) := rfl
    have hl : l < 3 := Nat.not_le.1 hshort
    refine .inl ⟨hmlen, fun q hq _ hleft => ?_⟩
    cases hq
    exact ⟨l, hl, matchLength_maximal (show l ≠ limit by omega)⟩
  | case3 hfar =>
    refine .inl ⟨hmlen, fun q hq hnear _ => ?_⟩
    cases hq
    exact absurd hnear hfar

theorem matchOf_none (hmlen : u.mlen = 0) : MatchOf input pos none u.mlen u.d :=
  .inl ⟨hmlen, fun _ hq => nomatch hq⟩

theorem matchOf_tried (hmlen : u.mlen = 0) : MatchOf input pos (u.hash.lookup h.toNat)
    (lz77Tried input pos h u).mlen (lz77Tried input pos h u).d := by
  unfold lz77Tried
  cases u.hash.lookup h.toNat with
  | some cand => exact matchOf_try (u := { u with h := h }) hmlen
  | none => exact matchOf_none (u := { u with h := h }) hmlen

theorem lz77Try_obj (input : List Byte) (pos cand : Nat) (u : Lz77Unit) : (lz77Try input pos cand u).obj = u.obj := by
  unfold lz77Try
  split
  · dsimp only
    split <;> rfl
  · rfl

theorem lz77Tried_keeps (input : List Byte) (pos : Nat) (h : U16) (u : Lz77Unit) :
    (lz77Tried input pos h u).hash = u.hash ∧ (lz77Tried input pos h u).obj = u.obj := by
  unfold lz77Tried
  split
  next cand _ => exact ⟨(lz77Try_cases input pos cand { u with h := h }).1, lz77Try_obj input pos cand _⟩
  next => exact ⟨rfl, rfl⟩

/-! ### The probe -/

theorem slotAt_of_bytes {b0 b1 b2 : Byte} (h0 : input[pos]? = some b0) (h1 : input[pos + 1]? = some b1)
    (h2 : input[pos + 2]? = some b2) : slotAt p input pos = some (lz77Hash p b0 b1 b2) := by
  rw [slotAt, h0, h1, h2]

theorem slotAt_of_end (hend : input.length ≤ pos + 2) : slotAt p input pos = none := by
  unfold slotAt
  split
  next h2 => exact absurd (List.getElem?_eq_some_iff.1 h2).1 (Nat.not_lt.2 hend)
  next => rfl

theorem lz77Probe_of_bytes {b0 b1 b2 : Byte} (h0 : input[pos]? = some b0) (h1 : input[pos + 1]? = some b1)
    (h2 : input[pos + 2]? = some b2) : lz77Probe p input pos u =
      { lz77Tried input pos (lz77Hash p b0 b1 b2) u with
        hash := slotSet u.hash (lz77Hash p b0 b1 b2).toNat pos } := by
  have hprobe : lz77Probe p input pos u =
      { lz77Tried input pos (lz77Hash p b0 b1 b2) u with
        hash := slotSet (lz77Tried input pos (lz77Hash p b0 b1 b2) u).hash (lz77Hash p b0 b1 b2).toNat pos } := by
    rw [lz77Probe, h0, h1, h2]
    rfl
  rw [hprobe, (lz77Tried_keeps input pos (lz77Hash p b0 b1 b2) u).1]

theorem lz77Probe_of_end (hend : input.length ≤ pos + 2) : lz77Probe p input pos u = u := by
  unfold lz77Probe
  split
  next h2 => exact absurd (List.getElem?_eq_some_iff.1 h2).1 (Nat.not_lt.2 hend)
  next => rfl

/-- Three bytes are there to hash, or the input ends before (R234). -/
theorem three_bytes_cases (input : List Byte) (pos : Nat) : input.length ≤ pos + 2 ∨
    ∃ b0 b1 b2, input[pos]? = some b0 ∧ input[pos + 1]? = some b1 ∧ input[pos + 2]? = some b2 := by
  rcases Nat.lt_or_ge (pos + 2) input.length with hlt | hend
  · exact .inr ⟨_, _, _, List.getElem?_eq_getElem (by omega), List.getElem?_eq_getElem (by omega),
      List.getElem?_eq_getElem hlt⟩
  · exact .inl hend

/-- What the index gives at `pos`: the content of the slot of the three bytes there, where there are three. -/
def lz77Probed (p : Params) (input : List Byte) (hash : List (Nat × Nat)) (pos : Nat) : Option Nat :=
  (slotAt p input pos).bind fun h => hash.lookup h.toNat

/-- Probe before update (R234, R237): the match is that of the slot's content, and then the slot holds `pos`. -/
theorem lz77Probe_spec (p : Params) (input : List Byte) (pos : Nat) (hmlen : u.mlen = 0) :
    (lz77Probe p input pos u).obj = u.obj ∧
    MatchOf input pos (lz77Probed p input u.hash pos) (lz77Probe p input pos u).mlen (lz77Probe p input pos u).d ∧
    ∀ h : U16, (lz77Probe p input pos u).hash.lookup h.toNat =
      if slotAt p input pos = some h then some pos else u.hash.lookup h.toNat := by
  rcases three_bytes_cases input pos with hend | ⟨b0, b1, b2, h0, h1, h2⟩
  · rw [lz77Probe_of_end hend, lz77Probed, slotAt_of_end hend]
    exact ⟨rfl, matchOf_none hmlen, fun h => (if_neg nofun).symm⟩
  · rw [lz77Probe_of_bytes h0 h1 h2, lz77Probed, slotAt_of_bytes h0 h1 h2]
    refine ⟨(lz77Tried_keeps input pos _ u).2, matchOf_tried hmlen, fun h => ?_⟩
    simp only [lookup_slotSet, Option.some.injEq, BitVec.toNat_inj]

/-! ### One turn -/

theorem lz77Emit_of_byte {b : Byte} (offset length : Nat) (u : Lz77Unit) (hb : input[pos]? = some b) :
    lz77Emit input offset length pos u =
      { u with obj.tokens := u.obj.tokens ++ [⟨BitVec.ofNat 16 offset, BitVec.ofNat 8 length, b⟩] } := by
  rw [lz77Emit, hb]

/-- A turn emits the token of its candidate and goes on behind the bytes it stands for (R234). -/
theorem lz77Turn_spec (p : Params) (hpos : pos < input.length)
    (hback : ∀ q, lz77Probed p input u.hash pos = some q → q < pos) :
    ∃ k, TokenAt input pos k ∧ TokenOf input pos (lz77Probed p input u.hash pos) k ∧
      (lz77Turn p input pos u).1 = pos + tokenSpan k ∧
      (lz77Turn p input pos u).2.obj = { u.obj with tokens := u.obj.tokens ++ [k] } ∧
      ∀ h : U16, (lz77Turn p input pos u).2.hash.lookup h.toNat =
        if slotAt p input pos = some h then some pos else u.hash.lookup h.toNat := by
  obtain ⟨hobj, hmatch, hhash⟩ := lz77Probe_spec (u := { u with mlen := 0, d := 0 }) p input pos rfl
  unfold lz77Turn
  simp only [Config.lzMinMatch]
  generalize lz77Probe p input pos { u with mlen := 0, d := 0 } = v at hobj hmatch hhash ⊢
  obtain ⟨hmlen, hnone⟩ | ⟨q, hq, hd, hwindow, hmin, hmax, hleft, hagree, hstop⟩ := hmatch
  · have hshort : ¬ 3 ≤ v.mlen := by omega
    simp only [if_neg hshort, lz77Emit_of_byte 0 0 v (List.getElem?_eq_getElem hpos)]
    exact ⟨⟨0, 0, input[pos]⟩, .inl ⟨rfl, rfl, List.getElem?_eq_getElem hpos⟩, ⟨fun _ => hnone, fun h => absurd rfl h⟩,
      rfl, by rw [← hobj]; rfl, hhash⟩
  · have hlt := hback q hq
    have hoff : (BitVec.ofNat 16 v.d).toNat = v.d := by rw [BitVec.toNat_ofNat]; omega
    have hlen : (BitVec.ofNat 8 v.mlen).toNat = v.mlen := by rw [BitVec.toNat_ofNat]; omega
    have hd0 : v.d ≠ 0 := by omega
    have hne : BitVec.ofNat 16 v.d ≠ 0 := fun h => hd0 (hoff.symm.trans (congrArg BitVec.toNat h))
    have hsrc : pos - v.d = q := by omega
    have hnext := List.getElem?_eq_getElem (l := input) (i := pos + v.mlen) (by omega)
    simp only [if_pos hmin, lz77Emit_of_byte v.d v.mlen v hnext]
    refine ⟨⟨BitVec.ofNat 16 v.d, BitVec.ofNat 8 v.mlen, input[pos + v.mlen]⟩, .inr ?_,
      ⟨fun h => absurd h hne, fun _ => ⟨q, hq, hoff.trans hd, ?_⟩⟩, ?_, by rw [← hobj], hhash⟩
    · simp only [hoff, hlen, hsrc]
      exact ⟨by omega, hwindow, hmin, hmax, by omega, hnext, hagree⟩
    · simp only [hoff, hlen, hsrc]
      exact hstop
    · simp only [tokenSpan, if_neg hne, hlen]
      omega

end

/-! ### Token starts -/

theorem getElem?_concat_cases {α : Type} {l : List α} {a b : α} {j : Nat} (h : (l ++ [a])[j]? = some b) :
    j < l.length ∧ l[j]? = some b ∨ j = l.length ∧ b = a := by
  rcases Nat.lt_trichotomy j l.length with hlt | rfl | hgt
  · exact .inl ⟨hlt, by rwa [List.getElem?_append_left hlt] at h⟩
  · rw [List.getElem?_concat_length] at h
    exact .inr ⟨rfl, (Option.some.inj h).symm⟩
  · rw [List.getElem?_eq_none (by rw [List.length_append, List.length_singleton]; omega)] at h
    cases h

section
variable {p : Params} {input : List Byte} {tokens : List Token} {k : Token} {h : U16} {i j n q : Nat}

theorem one_le_tokenSpan (k : Token) : 1 ≤ tokenSpan k := by
  unfold tokenSpan
  split <;> omega

theorem length_le_sum_tokenSpan (tokens : List Token) : tokens.length ≤ (tokens.map tokenSpan).sum := by
  rw [← List.length_map (f := tokenSpan)]
  refine List.length_le_sum_of_one_le _ fun n hn => ?_
  obtain ⟨k, -, rfl⟩ := List.mem_map.1 hn
  exact one_le_tokenSpan k

theorem tokenStart_append (more : List Token) (hj : j ≤ tokens.length) :
    tokenStart (tokens ++ more) j = tokenStart tokens j := by
  rw [tokenStart, tokenStart, List.take_append_of_le_length hj]

theorem tokenStart_succ (hk : tokens[j]? = some k) : tokenStart tokens (j + 1) = tokenStart tokens j + tokenSpan k := by
  simp [tokenStart, List.take_add_one, hk]

theorem tokenStart_length (tokens : List Token) : tokenStart tokens tokens.length = (tokens.map tokenSpan).sum := by
  rw [tokenStart, List.take_length]

theorem tokenStart_concat (tokens : List Token) (k : Token) : tokenStart (tokens ++ [k]) (tokens ++ [k]).length =
    tokenStart tokens tokens.length + tokenSpan k := by
  rw [tokenStart_length, tokenStart_length, List.map_append, List.sum_append, List.map_singleton, List.sum_singleton]

theorem tokenStart_lt (hij : i < j) (hj : j ≤ tokens.length) : tokenStart tokens i < tokenStart tokens j := by
  induction j, hij using Nat.le_induction with
  | base =>
    have hspan := one_le_tokenSpan tokens[i]
    rw [tokenStart_succ (List.getElem?_eq_getElem hj)]
    omega
  | succ j _ ih =>
    have hlt := ih (Nat.le_of_succ_le hj)
    rw [tokenStart_succ (List.getElem?_eq_getElem hj)]
    omega

/-! ### The candidate -/

/-- What slot `h` holds when token `n` starts: the last token start before it whose three bytes fall into the slot
(R237). -/
def slotOccupant (p : Params) (input : List Byte) (tokens : List Token) (h : U16) : Nat → Option Nat
  | 0 => none
  | n + 1 =>
    if slotAt p input (tokenStart tokens n) = some h then some (tokenStart tokens n)
    else slotOccupant p input tokens h n

theorem slotOccupant_eq_some_iff : slotOccupant p input tokens h n = some q ↔
    ∃ i, i < n ∧ slotAt p input (tokenStart tokens i) = some h ∧
      (∀ m, i < m → m < n → slotAt p input (tokenStart tokens m) ≠ some h) ∧ q = tokenStart tokens i := by
  induction n with
  | zero => simp [slotOccupant]
  | succ n ih =>
    rw [slotOccupant]
    by_cases hslot : slotAt p input (tokenStart tokens n) = some h
    · rw [if_pos hslot]
      constructor
      · intro hq
        exact ⟨n, Nat.lt_succ_self n, hslot, fun m hm hmn => absurd hm (by omega), (Option.some.inj hq).symm⟩
      · rintro ⟨i, hi, -, hlast, rfl⟩
        obtain rfl : i = n := by
          by_contra hne
          exact hlast n (by omega) (Nat.lt_succ_self n) hslot
        rfl
    · rw [if_neg hslot, ih]
      constructor
      · rintro ⟨i, hi, hs, hlast, rfl⟩
        refine ⟨i, by omega, hs, fun m hm hmn => ?_, rfl⟩
        rcases Nat.lt_succ_iff_lt_or_eq.1 hmn with hlt | rfl
        · exact hlast m hm hlt
        · exact hslot
      · rintro ⟨i, hi, hs, hlast, rfl⟩
        have hne : i ≠ n := fun e => hslot (e ▸ hs)
        exact ⟨i, by omega, hs, fun m hm hmn => hlast m hm (by omega), rfl⟩

theorem slotOccupant_append (more : List Token) (hn : n ≤ tokens.length) :
    slotOccupant p input (tokens ++ more) h n = slotOccupant p input tokens h n := by
  induction n with
  | zero => rfl
  | succ n ih =>
    have hle := Nat.le_of_succ_le hn
    rw [slotOccupant, slotOccupant, tokenStart_append more hle, ih hle]

/-- The start of the candidate of token `j`, where it has one. -/
def candidateStart (p : Params) (input : List Byte) (tokens : List Token) (j : Nat) : Option Nat :=
  (slotAt p input (tokenStart tokens j)).bind fun h => slotOccupant p input tokens h j

theorem candidateStart_eq_some_iff : candidateStart p input tokens j = some q ↔
    ∃ i, Candidate p input tokens i j ∧ q = tokenStart tokens i := by
  unfold candidateStart Candidate
  cases slotAt p input (tokenStart tokens j) with
  | none => simp
  | some h => simp [slotOccupant_eq_some_iff, and_assoc]

theorem candidateStart_append (more : List Token) (hj : j ≤ tokens.length) :
    candidateStart p input (tokens ++ more) j = candidateStart p input tokens j := by
  simp only [candidateStart, tokenStart_append more hj, slotOccupant_append more hj]

theorem candidateStart_lt (hj : j ≤ tokens.length) (hq : candidateStart p input tokens j = some q) :
    q < tokenStart tokens j := by
  obtain ⟨i, hcand, rfl⟩ := candidateStart_eq_some_iff.1 hq
  exact tokenStart_lt hcand.1 hj

end

/-! ### All turns -/

section
variable {p : Params} {input : List Byte} {pos fuel : Nat} {u : Lz77Unit}

/-- The encoder stands at `pos`: its tokens stand for the input up to there, each the one its candidate gives, and each
slot of its index holds its last occupant. -/
structure Lz77Scanned (p : Params) (input : List Byte) (pos : Nat) (u : Lz77Unit) : Prop where
  size : u.obj.originalSize = BitVec.ofNat 64 input.length
  start : pos = tokenStart u.obj.tokens u.obj.tokens.length
  within : pos ≤ input.length
  index : ∀ h : U16, u.hash.lookup h.toNat = slotOccupant p input u.obj.tokens h u.obj.tokens.length
  tokens : ∀ j k, u.obj.tokens[j]? = some k → TokenAt input (tokenStart u.obj.tokens j) k ∧
    TokenOf input (tokenStart u.obj.tokens j) (candidateStart p input u.obj.tokens j) k

theorem lz77Scanned_started (p : Params) (input : List Byte) (u : Lz77Unit) :
    Lz77Scanned p input 0 { u with hash := [], obj := ⟨[], BitVec.ofNat 64 input.length⟩ } where
  size := rfl
  start := rfl
  within := Nat.zero_le _
  index _ := rfl
  tokens _ _ hk := nomatch hk

/-- The index gives the candidate. -/
theorem Lz77Scanned.probed (h : Lz77Scanned p input pos u) :
    lz77Probed p input u.hash pos = candidateStart p input u.obj.tokens u.obj.tokens.length := by
  simp only [lz77Probed, candidateStart, h.index, ← h.start]

theorem Lz77Scanned.turn (h : Lz77Scanned p input pos u) (hpos : pos < input.length) :
    Lz77Scanned p input (lz77Turn p input pos u).1 (lz77Turn p input pos u).2 := by
  have hback : ∀ q, lz77Probed p input u.hash pos = some q → q < pos := fun q hq => by
    rw [h.start]
    exact candidateStart_lt le_rfl (h.probed ▸ hq)
  obtain ⟨k, hat, hof, hnext, hobj, hhash⟩ := lz77Turn_spec p hpos hback
  have hstart := h.start
  rw [h.probed] at hof
  refine ⟨?_, ?_, lz77Turn_pos_le p hpos, fun slot => ?_, fun j k' hk => ?_⟩ <;> rw [hobj]
  · exact h.size
  · rw [hnext, tokenStart_concat, ← hstart]
  · rw [hhash, h.index, List.length_append, List.length_singleton, slotOccupant, tokenStart_append _ le_rfl,
      slotOccupant_append _ le_rfl, ← hstart]
  · rw [hobj] at hk
    dsimp only
    rcases getElem?_concat_cases hk with ⟨hj, hk⟩ | ⟨rfl, rfl⟩
    · rw [tokenStart_append _ hj.le, candidateStart_append _ hj.le]
      exact h.tokens j k' hk
    · rw [tokenStart_append _ le_rfl, candidateStart_append _ le_rfl, ← hstart]
      exact ⟨hat, hof⟩

theorem lz77Turn_pos_lt (p : Params) (input : List Byte) (pos : Nat) (u : Lz77Unit) :
    pos < (lz77Turn p input pos u).1 := by
  unfold lz77Turn
  dsimp only
  split <;> dsimp only <;> omega

theorem Lz77Scanned.scan (h : Lz77Scanned p input pos u) (hfuel : input.length ≤ pos + fuel) :
    Lz77Scanned p input input.length (lz77Scan p input fuel pos u).2 ∧
      (lz77Scan p input fuel pos u).1 = input.length := by
  induction fuel generalizing pos u with
  | zero =>
    obtain rfl : pos = input.length := Nat.le_antisymm h.within hfuel
    exact ⟨h, rfl⟩
  | succ fuel ih =>
    unfold lz77Scan
    split
    next hpos =>
      have hlt := lz77Turn_pos_lt p input pos u
      exact ih (h.turn hpos) (by omega)
    next hend =>
      obtain rfl : pos = input.length := Nat.le_antisymm h.within (Nat.not_lt.1 hend)
      exact ⟨h, rfl⟩

/-- What LZ77.compress leaves: its tokens stand for the whole input. -/
theorem lz77Compress_scanned (p : Params) (u : Lz77Unit) (input : List Byte) :
    Lz77Scanned p input input.length (lz77Compress p u input).2 ∧ (lz77Compress p u input).1 = input.length :=
  (lz77Scanned_started p input u).scan (by omega)

end

/-- Settles O41: turn by turn the tokens stand for the input read, each the one its candidate gives. -/
theorem lz77CompressMakesTokens : Obligations.Lz77CompressMakesTokens := by
  unfold Obligations.Lz77CompressMakesTokens
  intro s hin
  have ⟨_, hnonempty, _⟩ := hin
  obtain ⟨hscan, hpos⟩ := lz77Compress_scanned s.cfg s.lz77 (inputBytes s)
  have hlen := length_inputBytes s
  have hop : lz77CompressOp s =
      .ok { s with lz77 := (lz77Compress s.cfg s.lz77 (inputBytes s)).2, ipos := s.ilen.toNat } := by
    rw [lz77CompressOp, codecInput_of_inputOk hin]
    dsimp only
    rw [hpos, hlen]
  refine ⟨_, congrArg (settle s) hop, rfl, ?_⟩
  dsimp only
  generalize (lz77Compress s.cfg s.lz77 (inputBytes s)).2 = u at hscan
  obtain ⟨hsize, hstart, -, -, htokens⟩ := hscan
  rw [hlen] at hstart
  have hsum := hstart.trans (tokenStart_length _)
  refine ⟨?_, ?_, ?_, fun k hk => ?_, hsum.symm, ?_, ?_⟩
  · rw [hsize, hlen, BitVec.ofNat_toNat, BitVec.setWidth_eq]
  · refine List.length_pos_iff.2 fun hnil => ?_
    rw [hsum, hnil] at hnonempty
    exact absurd hnonempty (by decide)
  · exact hsum ▸ length_le_sum_tokenSpan _
  · obtain ⟨-, -, hreference⟩ := htokens 0 k hk
    by_contra hoff
    obtain ⟨q, hq, -⟩ := hreference hoff
    obtain ⟨i, hcand, -⟩ := candidateStart_eq_some_iff.1 hq
    exact absurd hcand.1 (Nat.not_lt_zero i)
  · rintro j p k hk rfl
    exact (htokens j k hk).1
  · rintro j p k hk rfl
    obtain ⟨-, hliteral, hreference⟩ := htokens j k hk
    rw [hlen] at hliteral hreference
    refine ⟨fun hoff i q hcand hq => hliteral hoff q (candidateStart_eq_some_iff.2 ⟨i, hcand, hq⟩), fun hoff => ?_⟩
    obtain ⟨q, hq, hdist, hstop⟩ := hreference hoff
    obtain ⟨i, hcand, rfl⟩ := candidateStart_eq_some_iff.1 hq
    exact ⟨i, hcand, hdist, hstop⟩

end Sys2Proof.Machine

/-! PROOFS. The round trip of LZ77 (44_lz77.md R249). The idea: a token that stands for the input at its start takes the
decoder, which has built the input up to there, to the next token's start. -/

namespace Sys2Proof.Machine

open Sys2Proof.Safety

section
variable {input : List Byte} {offset n pos : Nat} {tokens : List Token} {k : Token}

/-- R238: where the input repeats itself at this distance, the copy goes on as the input does. -/
theorem lz77Copy_take (hoff : 1 ≤ offset) (hback : offset ≤ pos) (hend : pos + n ≤ input.length)
    (hagree : ∀ i, i < n → input[pos - offset + i]? = input[pos + i]?) :
    lz77Copy offset n (input.take pos) = input.take (pos + n) := by
  induction n generalizing pos with
  | zero => rfl
  | succ n ih =>
    have hlen : (input.take pos).length = pos := List.length_take_of_le (by omega)
    have hread : (input.take pos)[(input.take pos).length - offset]? = input[pos]? := by
      rw [hlen, List.getElem?_take_of_lt (by omega)]
      exact hagree 0 (Nat.succ_pos n)
    have hnext : ∀ i, i < n → input[pos + 1 - offset + i]? = input[pos + 1 + i]? := fun i hi => by
      have h := hagree (i + 1) (Nat.succ_lt_succ hi)
      rwa [show pos - offset + (i + 1) = pos + 1 - offset + i by omega, show pos + (i + 1) = pos + 1 + i by omega] at h
    rw [lz77Copy, hread, ← List.take_add_one, ih (by omega) (by omega) hnext, Nat.add_right_comm, Nat.add_assoc]

/-- The decoder replays a token at its place (R249). -/
theorem lz77Element_of_tokenAt (h : TokenAt input pos k) :
    lz77Element input.length (input.take pos) k = .ok (input.take (pos + tokenSpan k)) := by
  rcases h with ⟨hoff, -, hnext⟩ | ⟨hoff, -, -, -, hback, hnext, hagree⟩
  · have hpos := (List.getElem?_eq_some_iff.1 hnext).1
    have hlen : (input.take pos).length = pos := List.length_take_of_le hpos.le
    rw [lz77Element_literal _ _ hoff, hlen, if_neg (by omega), tokenSpan, if_pos hoff, List.take_add_one, hnext]
    rfl
  · have hpos := (List.getElem?_eq_some_iff.1 hnext).1
    have hlen : (input.take pos).length = pos := List.length_take_of_le (by omega)
    have hne : k.offset ≠ 0 := fun e => by rw [e] at hoff; exact absurd hoff (by decide)
    rw [lz77Element_reference _ _ hne, hlen, if_neg (by omega), if_neg (by omega),
      lz77Copy_take hoff hback hpos.le hagree, tokenSpan, if_neg hne, ← Nat.add_assoc, List.take_add_one, hnext]
    rfl

/-- R249: tokens that stand for the input from `pos` on bring the decoder from `pos` to its end. -/
theorem lz77Replay_of_tokenAt (hsum : pos + (tokens.map tokenSpan).sum = input.length)
    (htokens : ∀ j k, tokens[j]? = some k → TokenAt input (pos + tokenStart tokens j) k) :
    lz77Replay input.length tokens (input.take pos) = .ok input := by
  induction tokens generalizing pos with
  | nil =>
    obtain rfl : pos = input.length := hsum
    rw [lz77Replay, List.take_length, if_pos rfl]
  | cons k tokens ih =>
    have hk : TokenAt input pos k := htokens 0 k rfl
    rw [List.map_cons, List.sum_cons, ← Nat.add_assoc] at hsum
    rw [lz77Replay, lz77Element_of_tokenAt hk]
    refine ih hsum fun j k' hj => ?_
    have h := htokens (j + 1) k' hj
    rwa [tokenStart, List.take_succ_cons, List.map_cons, List.sum_cons, ← Nat.add_assoc] at h

theorem lz77Decompress_lz77Compress (p : Params) (u : Lz77Unit) (hlt : input.length < 2 ^ 64) :
    lz77Decompress (lz77Compress p u input).2.obj = .ok input := by
  obtain ⟨⟨hsize, hstart, -, -, htokens⟩, -⟩ := lz77Compress_scanned p u input
  have hsum := (hstart.trans (tokenStart_length _)).symm
  rw [lz77Decompress, hsize, BitVec.toNat_ofNat, Nat.mod_eq_of_lt hlt]
  refine lz77Replay_of_tokenAt (pos := 0) (by rw [Nat.zero_add, hsum]) fun j k hk => ?_
  rw [Nat.zero_add]
  exact (htokens j k hk).1

end

/-- Settles O42: the decoder stands at each token's start when it takes the token, and ends at the end of the input. -/
theorem lz77RoundTrip : Obligations.Lz77RoundTrip := by
  unfold Obligations.Lz77RoundTrip
  intro s p u x _ _ hx hcap hobj
  have hrun : lz77Decompress s.lz77.obj = .ok x := hobj ▸ lz77Decompress_lz77Compress p u hx
  exact ⟨_, congrArg (settle s) (lz77DecompressOp_of_ok hrun hcap), holds_cells x, rfl, foldl_lz77Count_obj _ _⟩

end Sys2Proof.Machine

/-! PROOFS. The wire images (30_encoding.md R95 to R116, 45_dispatcher.md R280 to R291). The idea: an image is its
header fields and its elements laid end to end, so what stands at an offset is found by leaving off what precedes it,
and a deserializer, which cuts the input at the same offsets, finds the pieces the serializer laid. -/

namespace Sys2Proof.Machine

open Sys2Proof.Safety

/-! ### The byte orders -/

section
variable (k v : Nat)

/-- Disassembling looks at the low `k` bytes alone. -/
theorem toLE_mod : toLE k (v % 256 ^ k) = toLE k v := by
  have h := toLE_leNat (toLE k v)
  rwa [length_toLE, leNat_toLE] at h

theorem toLE_getElem? {i : Nat} (hi : i < k) : (toLE k v)[i]? = some (BitVec.ofNat 8 (v / 256 ^ i)) := by
  induction k generalizing v i with
  | zero => omega
  | succ k ih =>
    cases i with
    | zero => simp [toLE]
    | succ i => rw [toLE, List.getElem?_cons_succ, ih _ (by omega), Nat.div_div_eq_div_mul, Nat.pow_succ']

theorem toBE_getElem? {i : Nat} (hi : i < k) : (toBE k v)[i]? = some (BitVec.ofNat 8 (v / 256 ^ (k - 1 - i))) := by
  rw [toBE, List.getElem?_reverse (by rwa [length_toLE]), length_toLE, toLE_getElem? k v (by omega)]

/-- A header field of 8 bytes shows a number, not the word it was cut to. -/
theorem toLe64_ofNat : toLe64 (BitVec.ofNat 64 v) = toLE 8 v := by
  rw [toLe64, BitVec.toNat_ofNat]
  exact toLE_mod 8 v

end

@[simp] theorem length_toLe16 (v : U16) : (toLe16 v).length = 2 := length_toLE 2 _
@[simp] theorem length_toLe32 (v : U32) : (toLe32 v).length = 4 := length_toLE 4 _
@[simp] theorem length_toLe64 (v : U64) : (toLe64 v).length = 8 := length_toLE 8 _
@[simp] theorem length_toBe16 (v : U16) : (toBe16 v).length = 2 := length_toBE 2 _
@[simp] theorem length_toBe64 (v : U64) : (toBe64 v).length = 8 := length_toBE 8 _
@[simp] theorem length_tokenBytes (t : Token) : (tokenBytes t).length = 4 := by simp [tokenBytes]

/-! ### What stands at an offset -/

section
variable {α : Type} {image more bs : List Byte} {a k n v i w : Nat} {x : α} {l : List α} {f : α → List Byte}

/-- The bytes `bs` stand in the image from address `a` up. -/
def StandsAt (image : List Byte) (a : Nat) (bs : List Byte) : Prop := bs <+: image.drop a

theorem StandsAt.getElem? (h : StandsAt image a bs) (hk : k < bs.length) : image[a + k]? = bs[k]? := by
  obtain ⟨rest, hrest⟩ := h
  rw [← List.getElem?_drop, ← hrest, List.getElem?_append_left hk]

theorem StandsAt.append_right (h : StandsAt image a bs) (more : List Byte) : StandsAt (image ++ more) a bs := by
  rw [StandsAt, List.drop_append]
  exact h.trans (List.prefix_append _ _)

theorem standsAt_append (image : List Byte) (h : StandsAt more a bs) (hn : image.length = n) :
    StandsAt (image ++ more) (n + a) bs := by
  subst hn
  rwa [StandsAt, List.drop_length_add_append]

theorem standsAt_zero (bs more : List Byte) : StandsAt (bs ++ more) 0 bs := List.prefix_append _ _

theorem standsAt_flatMap (hw : ∀ y, (f y).length = w) (hx : l[i]? = some x) : StandsAt (l.flatMap f) (w * i) (f x) := by
  induction l generalizing i with
  | nil => simp at hx
  | cons y l ih =>
    cases i with
    | zero => cases hx; exact standsAt_zero _ _
    | succ i =>
      rw [List.flatMap_cons, Nat.mul_succ, Nat.add_comm]
      exact standsAt_append (f y) (ih hx) (hw y)

theorem StandsAt.littleAt (h : StandsAt image a (toLE n v)) : LittleAt image a n v := fun k hk => by
  rw [h.getElem? (by rwa [length_toLE]), toLE_getElem? n v hk]

theorem StandsAt.bigAt (h : StandsAt image a (toBE n v)) : BigAt image a n v := fun k hk => by
  rw [h.getElem? (by rwa [length_toBE]), toBE_getElem? n v hk]

theorem length_flatMap_of_width (hw : ∀ y, (f y).length = w) : (l.flatMap f).length = w * l.length := by
  simp [List.length_flatMap, hw, Nat.mul_comm]

end

/-! ### The four images, field by field -/

section
variable {image bs first second rest : List Byte} {a n : Nat}

theorem StandsAt.field_eq (h : StandsAt image a bs) (hn : bs.length = n) : field image a n = bs := by
  obtain ⟨rest, hrest⟩ := h
  rw [field, ← hrest, List.take_left' hn]

/-- The header of two fields that three of the formats share. -/
theorem standsAt_header (hfirst : first.length = 8) (hsecond : second.length = 8) :
    StandsAt (first ++ second ++ rest) 0 first ∧ StandsAt (first ++ second ++ rest) 8 second ∧
      (first ++ second ++ rest).drop 16 = rest := by
  refine ⟨((standsAt_zero first second).append_right rest), ?_, List.drop_left' (by simp [hfirst, hsecond])⟩
  rw [List.append_assoc]
  exact standsAt_append first (standsAt_zero second rest) hfirst

end

section
variable (c : RleObj)

theorem serRle_header : StandsAt (serRle c) 0 (toLe64 c.originalSize) ∧
    StandsAt (serRle c) 8 (toLE 8 (2 * c.runs.length)) ∧
    (serRle c).drop 16 = c.runs.flatMap fun r => [r.1, r.2] := by
  rw [serRle, toLe64_ofNat]
  exact standsAt_header (length_toLe64 _) (length_toLE 8 _)

/-- R95 to R97. -/
theorem rleLayout_serRle : RleLayout c (serRle c) := by
  obtain ⟨hsize, hcompressed, hpairs⟩ := serRle_header c
  refine ⟨length_serRle c, hsize.littleAt, hcompressed.littleAt, fun i count value hr => ?_⟩
  have hpair : StandsAt ((serRle c).drop 16) (2 * i) [count, value] :=
    hpairs ▸ standsAt_flatMap (f := fun r : Byte × Byte => [r.1, r.2]) (fun _ => rfl) hr
  have hcount := hpair.getElem? (k := 0) (Nat.zero_lt_two)
  have hvalue := hpair.getElem? (k := 1) (Nat.one_lt_two)
  rw [List.getElem?_drop] at hcount hvalue
  exact ⟨hcount, by rwa [show 17 + 2 * i = 16 + (2 * i + 1) by omega]⟩

end

section
variable (c : HufObj)

theorem serHuf_header : StandsAt (serHuf c) 0 (toLe64 c.originalSize) ∧
    StandsAt (serHuf c) 8 (toLE 8 c.packedBits.length) ∧
    (serHuf c).drop 16 = c.freqTable.flatMap toLe32 ++ c.packedBits := by
  rw [serHuf, toLe64_ofNat, List.append_assoc (_ ++ _)]
  exact standsAt_header (length_toLe64 _) (length_toLE 8 _)

variable {c}

theorem length_flatMap_toLe32 (htable : c.freqTable.length = 256) : (c.freqTable.flatMap toLe32).length = 1024 := by
  rw [length_flatMap_of_width length_toLe32, htable]

theorem length_serHuf (htable : c.freqTable.length = 256) : (serHuf c).length = 1040 + c.packedBits.length := by
  simp only [serHuf, List.length_append, length_toLe64, length_flatMap_toLe32 htable]

theorem serHuf_packedBits (htable : c.freqTable.length = 256) : (serHuf c).drop 1040 = c.packedBits := by
  have hrest := congrArg (List.drop 1024) (serHuf_header c).2.2
  rwa [List.drop_drop, List.drop_left' (length_flatMap_toLe32 htable)] at hrest

/-- R100, R101. -/
theorem hufLayout_serHuf (htable : c.freqTable.length = 256) : HufLayout c (serHuf c) := by
  obtain ⟨hsize, hcompressed, hrest⟩ := serHuf_header c
  refine ⟨length_serHuf htable, hsize.littleAt, hcompressed.littleAt, fun sym f hf => ?_, fun i b hb => ?_⟩
  · have hword : StandsAt ((serHuf c).drop 16) (4 * sym) (toLe32 f) :=
      hrest ▸ (standsAt_flatMap length_toLe32 hf).append_right _
    rw [StandsAt, List.drop_drop] at hword
    exact StandsAt.littleAt hword
  · rw [← List.getElem?_drop, serHuf_packedBits htable, hb]

end

section
variable (c : LzwObj)

theorem serLzw_header : StandsAt (serLzw c) 0 (toLe64 c.originalSize) ∧
    StandsAt (serLzw c) 8 (toLE 8 c.codes.length) ∧ (serLzw c).drop 16 = c.codes.flatMap toLe16 := by
  rw [serLzw, toLe64_ofNat]
  exact standsAt_header (length_toLe64 _) (length_toLE 8 _)

theorem length_serLzw : (serLzw c).length = 16 + 2 * c.codes.length := by
  simp only [serLzw, List.length_append, length_toLe64, length_flatMap_of_width length_toLe16]

/-- R107, R109. -/
theorem lzwLayout_serLzw : LzwLayout c (serLzw c) := by
  obtain ⟨hsize, hcount, hcodes⟩ := serLzw_header c
  refine ⟨length_serLzw c, hsize.littleAt, hcount.littleAt, fun i code hcode => ?_⟩
  have hword : StandsAt ((serLzw c).drop 16) (2 * i) (toLe16 code) := hcodes ▸ standsAt_flatMap length_toLe16 hcode
  rw [StandsAt, List.drop_drop] at hword
  exact StandsAt.littleAt hword

end

section
variable (c : Lz77Obj)

theorem serLz77_header : StandsAt (serLz77 c) 0 (toBe64 c.originalSize) ∧
    (serLz77 c).drop 8 = c.tokens.flatMap tokenBytes :=
  ⟨standsAt_zero _ _, List.drop_left' (length_toBe64 _)⟩

theorem length_serLz77 : (serLz77 c).length = 8 + 4 * c.tokens.length := by
  simp only [serLz77, List.length_append, length_toBe64, length_flatMap_of_width length_tokenBytes]

/-- R113, R114, R116. -/
theorem lz77Layout_serLz77 : Lz77Layout c (serLz77 c) := by
  obtain ⟨hsize, htokens⟩ := serLz77_header c
  refine ⟨length_serLz77 c, hsize.bigAt, fun j k hk => ?_⟩
  have htoken : StandsAt ((serLz77 c).drop 8) (4 * j) (tokenBytes k) :=
    htokens ▸ standsAt_flatMap length_tokenBytes hk
  rw [StandsAt, List.drop_drop] at htoken
  have hoffset : StandsAt (serLz77 c) (8 + 4 * j) (toBe16 k.offset) := (List.prefix_append _ _).trans htoken
  have hlength := StandsAt.getElem? htoken (k := 2) (by simp)
  have hnext := StandsAt.getElem? htoken (k := 3) (by simp)
  rw [tokenBytes, List.getElem?_append_right (by simp), length_toBe16] at hlength hnext
  exact ⟨hoffset.bigAt, by rwa [show 10 + 4 * j = 8 + 4 * j + 2 by omega],
    by rwa [show 11 + 4 * j = 8 + 4 * j + 3 by omega]⟩

end

/-! ### Which images are sound -/

section
variable {input : List Byte} {c : Cause}

theorem desRle_eq_ok_iff {obj : RleObj} : desRle input = .ok obj ↔
    (16 ≤ input.length ∧ leNat (field input 8 8) = input.length - 16 ∧ leNat (field input 8 8) % 2 = 0) ∧
      obj = ⟨parsePairs (input.drop 16), le64 (field input 0 8)⟩ := by
  unfold desRle Config.rleHeader
  constructor
  · intro h
    split at h
    · cases h
    next hheader =>
      split at h
      · cases h
      next hsize =>
        split at h <;> cases h
        next heven => exact ⟨⟨Nat.not_lt.1 hheader, not_not.1 hsize, not_not.1 heven⟩, rfl⟩
  · rintro ⟨⟨hheader, hsize, heven⟩, rfl⟩
    rw [if_neg (Nat.not_lt.2 hheader), if_neg (not_not.2 hsize), if_neg (not_not.2 heven)]

theorem desHuf_eq_ok_iff {obj : HufObj} : desHuf input = .ok obj ↔
    (1040 ≤ input.length ∧ leNat (field input 8 8) = input.length - 1040) ∧
      obj = ⟨input.drop 1040, le64 (field input 0 8), parseFreq input⟩ := by
  unfold desHuf Config.hufHeader
  constructor
  · intro h
    split at h
    · cases h
    next hheader =>
      split at h <;> cases h
      next hsize => exact ⟨⟨Nat.not_lt.1 hheader, not_not.1 hsize⟩, rfl⟩
  · rintro ⟨⟨hheader, hsize⟩, rfl⟩
    rw [if_neg (Nat.not_lt.2 hheader), if_neg (not_not.2 hsize)]

theorem desLzw_eq_ok_iff {obj : LzwObj} : desLzw input = .ok obj ↔
    (16 ≤ input.length ∧ (input.length - 16) % 2 = 0 ∧ leNat (field input 8 8) = (input.length - 16) / 2) ∧
      obj = ⟨parseCodes (input.drop 16), le64 (field input 0 8)⟩ := by
  unfold desLzw Config.lzwHeader
  constructor
  · intro h
    split at h
    · cases h
    next hheader =>
      split at h <;> cases h
      next hsound =>
        obtain ⟨heven, hcount⟩ := not_or.1 hsound
        exact ⟨⟨Nat.not_lt.1 hheader, not_not.1 heven, not_not.1 hcount⟩, rfl⟩
  · rintro ⟨⟨hheader, heven, hcount⟩, rfl⟩
    rw [if_neg (Nat.not_lt.2 hheader), if_neg (not_or.2 ⟨not_not.2 heven, not_not.2 hcount⟩)]

theorem desLz77_eq_ok_iff {obj : Lz77Obj} : desLz77 input = .ok obj ↔
    (8 ≤ input.length ∧ (input.length - 8) % 4 = 0) ∧
      obj = ⟨parseTokens (input.drop 8), be64 (field input 0 8)⟩ := by
  unfold desLz77 Config.lz77Header
  constructor
  · intro h
    split at h
    · cases h
    next hheader =>
      split at h <;> cases h
      next hwhole => exact ⟨⟨Nat.not_lt.1 hheader, not_not.1 hwhole⟩, rfl⟩
  · rintro ⟨⟨hheader, hwhole⟩, rfl⟩
    rw [if_neg (Nat.not_lt.2 hheader), if_neg (not_not.2 hwhole)]

theorem desRle_corrupt (h : desRle input = .error c) : causeKind c = .corrupt := by
  unfold desRle at h
  repeat' split at h
  all_goals cases h
  all_goals rfl

theorem desHuf_corrupt (h : desHuf input = .error c) : causeKind c = .corrupt := by
  unfold desHuf at h
  repeat' split at h
  all_goals cases h
  all_goals rfl

theorem desLzw_corrupt (h : desLzw input = .error c) : causeKind c = .corrupt := by
  unfold desLzw at h
  repeat' split at h
  all_goals cases h
  all_goals rfl

theorem desLz77_corrupt (h : desLz77 input = .error c) : causeKind c = .corrupt := by
  unfold desLz77 at h
  repeat' split at h
  all_goals cases h
  all_goals rfl

end

/-! ### A deserializer finds what its serializer laid -/

theorem parsePairs_flatMap (runs : List (Byte × Byte)) : parsePairs (runs.flatMap fun r => [r.1, r.2]) = runs := by
  induction runs with
  | nil => rfl
  | cons r runs ih => exact congrArg (r :: ·) ih

theorem parseCodes_flatMap (codes : List U16) : parseCodes (codes.flatMap toLe16) = codes := by
  induction codes with
  | nil => rfl
  | cons code codes ih => exact congrArg₂ List.cons (le16_toLe16 code) ih

theorem parseWords_flatMap (words : List U32) : parseWords (words.flatMap toLe32) = words := by
  induction words with
  | nil => rfl
  | cons word words ih => exact congrArg₂ List.cons (le32_toLe32 word) ih

theorem parseTokens_flatMap (tokens : List Token) : parseTokens (tokens.flatMap tokenBytes) = tokens := by
  induction tokens with
  | nil => rfl
  | cons t tokens ih =>
    exact congrArg₂ (fun offset rest => Token.mk offset t.length t.nextChar :: rest) (be16_toBe16 t.offset) ih

/-- A number a header field has room for is read back. -/
theorem leNat_toLE_of_lt {k v : Nat} (h : v < 256 ^ k) : leNat (toLE k v) = v := by
  rw [leNat_toLE, Nat.mod_eq_of_lt h]

/-- R291, for RLE. -/
theorem desRle_serRle (c : RleObj) (hlen : (serRle c).length < 2 ^ 64) : desRle (serRle c) = .ok c := by
  obtain ⟨hsize, hcompressed, hpairs⟩ := serRle_header c
  rw [length_serRle] at hlen
  have hdeclared : leNat (field (serRle c) 8 8) = 2 * c.runs.length := by
    rw [hcompressed.field_eq (length_toLE 8 _), leNat_toLE_of_lt (by omega)]
  rw [desRle_eq_ok_iff, hdeclared, length_serRle, hpairs, parsePairs_flatMap, hsize.field_eq (length_toLe64 _),
    le64_toLe64]
  exact ⟨⟨by omega, by omega, by omega⟩, rfl⟩

/-- R291, for Huffman. -/
theorem desHuf_serHuf {c : HufObj} (htable : c.freqTable.length = 256) (hlen : (serHuf c).length < 2 ^ 64) :
    desHuf (serHuf c) = .ok c := by
  obtain ⟨hsize, hcompressed, hrest⟩ := serHuf_header c
  rw [length_serHuf htable] at hlen
  have hdeclared : leNat (field (serHuf c) 8 8) = c.packedBits.length := by
    rw [hcompressed.field_eq (length_toLE 8 _), leNat_toLE_of_lt (by omega)]
  have hfreq : parseFreq (serHuf c) = c.freqTable := by
    rw [parseFreq, field, hrest, List.take_left' (by exact length_flatMap_toLe32 htable), parseWords_flatMap]
  rw [desHuf_eq_ok_iff, hdeclared, length_serHuf htable, serHuf_packedBits htable, hfreq,
    hsize.field_eq (length_toLe64 _), le64_toLe64]
  exact ⟨⟨by omega, by omega⟩, rfl⟩

/-- R291, for LZW. -/
theorem desLzw_serLzw (c : LzwObj) (hlen : (serLzw c).length < 2 ^ 64) : desLzw (serLzw c) = .ok c := by
  obtain ⟨hsize, hcount, hcodes⟩ := serLzw_header c
  rw [length_serLzw] at hlen
  have hdeclared : leNat (field (serLzw c) 8 8) = c.codes.length := by
    rw [hcount.field_eq (length_toLE 8 _), leNat_toLE_of_lt (by omega)]
  rw [desLzw_eq_ok_iff, hdeclared, length_serLzw, hcodes, parseCodes_flatMap, hsize.field_eq (length_toLe64 _),
    le64_toLe64]
  exact ⟨⟨by omega, by omega, by omega⟩, rfl⟩

/-- R291, for LZ77, whose image declares no count. -/
theorem desLz77_serLz77 (c : Lz77Obj) : desLz77 (serLz77 c) = .ok c := by
  obtain ⟨hsize, htokens⟩ := serLz77_header c
  rw [desLz77_eq_ok_iff, length_serLz77, htokens, parseTokens_flatMap, hsize.field_eq (length_toBe64 _), be64_toBe64]
  exact ⟨⟨by omega, by omega⟩, rfl⟩

/-! ### The deserializers in the machine -/

section
variable {α : Type} {parse : List Byte → Except Cause α} {put : State → α → State} {s : State} {obj : α} {c : Cause}
  {i : Instr}

theorem parseOp_of_ok (hcap : s.ilen.toNat ≤ s.cfg.capIn) (h : parse (inputBytes s) = .ok obj) :
    parseOp parse put s = .ok (put s obj) := by
  rw [parseOp, imageInput_of_fits hcap]
  dsimp only
  rw [h]

theorem parseOp_of_error (hcap : s.ilen.toNat ≤ s.cfg.capIn) (h : parse (inputBytes s) = .error c) :
    parseOp parse put s = .error c := by
  rw [parseOp, imageInput_of_fits hcap]
  dsimp only
  rw [h]

/-- A deserializer whose errors are all Corrupt is Corrupt where it answers no object. -/
theorem raises_parse (hi : exec i s = settle s (parseOp parse put s)) (hcap : s.ilen.toNat ≤ s.cfg.capIn)
    (hcorrupt : ∀ c, parse (inputBytes s) = .error c → causeKind c = .corrupt)
    (h : ∀ obj, parse (inputBytes s) ≠ .ok obj) : Raises i s .corrupt := by
  cases hparse : parse (inputBytes s) with
  | ok obj => exact absurd hparse (h obj)
  | error c => exact raises_of_error hi (parseOp_of_error hcap hparse) (hcorrupt c hparse)

end

/-- Settles O46: each deserializer finds the fields where its serializer laid them. -/
theorem deserializersInvert : Obligations.DeserializersInvert := by
  unfold Obligations.DeserializersInvert
  intro s ⟨_, hcapIn, _⟩ hcap
  have hlen : (inputBytes s).length < 2 ^ 64 := by rw [length_inputBytes]; omega
  refine ⟨fun c himage => ?_, fun c htable himage => ?_, fun c himage => ?_, fun c himage => ?_⟩
  all_goals
    rw [himage] at hlen
    refine congrArg (settle s) (parseOp_of_ok hcap ?_)
    rw [himage]
  · exact desRle_serRle c hlen
  · exact desHuf_serHuf htable hlen
  · exact desLzw_serLzw c hlen
  · exact desLz77_serLz77 c

/-- Settles O47: the two tests of each deserializer are the stated condition, and failing either is Corrupt. -/
theorem deserializersCheckStructure : Obligations.DeserializersCheckStructure := by
  unfold Obligations.DeserializersCheckStructure
  rintro s n declared rfl hcap rfl
  rw [← length_inputBytes s]
  refine ⟨⟨fun h => ?_, fun h => ?_⟩, ⟨fun h => ?_, fun h => ?_⟩, ⟨fun h => ?_, fun h => ?_⟩,
    fun h => ?_, fun h => ?_⟩
  · exact ⟨_, congrArg (settle s) (parseOp_of_ok hcap (desRle_eq_ok_iff.2 ⟨h, rfl⟩)), rfl⟩
  · exact raises_parse rfl hcap (fun _ => desRle_corrupt) fun _ hok => h (desRle_eq_ok_iff.1 hok).1
  · exact ⟨_, congrArg (settle s) (parseOp_of_ok hcap (desHuf_eq_ok_iff.2 ⟨h, rfl⟩)), rfl⟩
  · exact raises_parse rfl hcap (fun _ => desHuf_corrupt) fun _ hok => h (desHuf_eq_ok_iff.1 hok).1
  · exact ⟨_, congrArg (settle s) (parseOp_of_ok hcap (desLzw_eq_ok_iff.2 ⟨h, rfl⟩)), rfl⟩
  · exact raises_parse rfl hcap (fun _ => desLzw_corrupt) fun _ hok => h (desLzw_eq_ok_iff.1 hok).1
  · exact ⟨_, congrArg (settle s) (parseOp_of_ok hcap (desLz77_eq_ok_iff.2 ⟨h, rfl⟩)), rfl⟩
  · exact raises_parse rfl hcap (fun _ => desLz77_corrupt) fun _ hok => h (desLz77_eq_ok_iff.1 hok).1

/-! ### The serializers in the machine -/

section
variable {s : State} {c : Cause} {image : List Byte} {i : Instr}

theorem serializeOp_of_fits (h : s.opos + image.length ≤ s.cfg.capOut) :
    serializeOp c image s =
      .ok { s with obuf := memWrite s.obuf s.opos image, opos := s.opos + image.length } := by
  rw [serializeOp, imageFits, if_neg (by omega)]
  exact append_of_fits h

/-- Where the image does not fit behind the output built so far, either its own test or the append's fails (20_memory.md
R65). -/
theorem serializeOp_of_beyond (h : s.cfg.capOut < s.opos + image.length) (hc : causeKind c = .outOfMemory) :
    ∃ c', serializeOp c image s = .error c' ∧ causeKind c' = .outOfMemory := by
  by_cases himage : s.cfg.capOut < image.length
  · exact ⟨c, by rw [serializeOp, imageFits, if_pos himage], hc⟩
  · exact ⟨.outputCapacity, by rw [serializeOp, imageFits, if_neg himage]; exact append_of_beyond h, rfl⟩

theorem exec_serializer (hi : exec i s = settle s (serializeOp c image s)) (hc : causeKind c = .outOfMemory) :
    (s.opos + image.length ≤ s.cfg.capOut →
      ∃ t, exec i s = .next t ∧ t = { s with obuf := t.obuf, opos := s.opos + image.length } ∧
        WrittenAt s.obuf t.obuf s.opos image) ∧
    (s.cfg.capOut < s.opos + image.length → Raises i s .outOfMemory) := by
  refine ⟨fun hfits => ⟨_, by rw [hi, serializeOp_of_fits hfits, settle_ok], rfl, writtenAt_memWrite _ _ _⟩,
    fun hbeyond => ?_⟩
  obtain ⟨c', herror, hkind⟩ := serializeOp_of_beyond hbeyond hc
  exact raises_of_error hi herror hkind

end

/-- Settles O45: a serializer is one append of its image, and the image is its fields laid end to end. -/
theorem serializersAppendImage : Obligations.SerializersAppendImage := by
  unfold Obligations.SerializersAppendImage
  refine fun s => ⟨fun i image h => ?_, rleLayout_serRle _, hufLayout_serHuf, lzwLayout_serLzw _, lz77Layout_serLz77 _⟩
  rcases h with ⟨rfl, rfl⟩ | ⟨rfl, rfl⟩ | ⟨rfl, rfl⟩ | ⟨rfl, rfl⟩
  · exact exec_serializer (c := .rleImageBeyondOutput) rfl rfl
  · exact exec_serializer (c := .hufImageBeyondOutput) rfl rfl
  · exact exec_serializer (c := .lzwImageBeyondOutput) rfl rfl
  · exact exec_serializer (c := .lz77ImageBeyondOutput) rfl rfl

end Sys2Proof.Machine

/-! PROOFS. No codec's result depends on what its unit held before (10_state.md R48, R50, 45_dispatcher.md R293). The
idea: two runs whose units agree in the registers the codec reads before it writes them agree in those registers, and so
in the result, after every element. -/

namespace Sys2Proof.Machine

open Sys2Proof.Safety

/-! ### LZ77.compress -/

section
variable {p : Params} {input : List Byte} {pos : Nat} {u v : Lz77Unit}

/-- The units agree in what a turn of the encoder starts from. -/
structure Lz77Agree (u v : Lz77Unit) : Prop where
  hash : u.hash = v.hash
  obj : u.obj = v.obj

/-- The units agree in what a probe leaves for the token. -/
structure Lz77ProbedAgree (u v : Lz77Unit) : Prop extends Lz77Agree u v where
  mlen : u.mlen = v.mlen
  d : u.d = v.d

theorem Lz77Agree.probing (h : Lz77Agree u v) :
    Lz77ProbedAgree { u with mlen := 0, d := 0 } { v with mlen := 0, d := 0 } := ⟨⟨h.hash, h.obj⟩, rfl, rfl⟩

theorem Lz77ProbedAgree.tryCandidate (h : Lz77ProbedAgree u v) (cand : Nat) :
    Lz77ProbedAgree (lz77Try input pos cand u) (lz77Try input pos cand v) := by
  obtain ⟨⟨hhash, hobj⟩, hmlen, hd⟩ := h
  unfold lz77Try
  split
  · dsimp only
    split
    · exact ⟨⟨hhash, hobj⟩, rfl, rfl⟩
    · exact ⟨⟨hhash, hobj⟩, hmlen, hd⟩
  · exact ⟨⟨hhash, hobj⟩, hmlen, hd⟩

theorem Lz77ProbedAgree.tried (h : Lz77ProbedAgree u v) (slot : U16) :
    Lz77ProbedAgree (lz77Tried input pos slot u) (lz77Tried input pos slot v) := by
  have hslot : Lz77ProbedAgree { u with h := slot } { v with h := slot } := ⟨⟨h.hash, h.obj⟩, h.mlen, h.d⟩
  have hlookup : u.hash.lookup slot.toNat = v.hash.lookup slot.toNat := by rw [h.hash]
  unfold lz77Tried
  rw [hlookup]
  split
  · exact hslot.tryCandidate _
  · exact hslot

theorem Lz77ProbedAgree.probe (h : Lz77ProbedAgree u v) :
    Lz77ProbedAgree (lz77Probe p input pos u) (lz77Probe p input pos v) := by
  rcases three_bytes_cases input pos with hend | ⟨b0, b1, b2, h0, h1, h2⟩
  · rwa [lz77Probe_of_end hend, lz77Probe_of_end hend]
  · rw [lz77Probe_of_bytes h0 h1 h2, lz77Probe_of_bytes h0 h1 h2, h.hash]
    have htried := h.tried (input := input) (pos := pos) (lz77Hash p b0 b1 b2)
    exact ⟨⟨rfl, htried.obj⟩, htried.mlen, htried.d⟩

theorem Lz77Agree.emit (h : Lz77Agree u v) (offset length : Nat) :
    Lz77Agree (lz77Emit input offset length pos u) (lz77Emit input offset length pos v) := by
  unfold lz77Emit
  split
  · exact ⟨h.hash, by rw [h.obj]⟩
  · exact h

theorem Lz77Agree.turn (h : Lz77Agree u v) : (lz77Turn p input pos u).1 = (lz77Turn p input pos v).1 ∧
    Lz77Agree (lz77Turn p input pos u).2 (lz77Turn p input pos v).2 := by
  have hprobe := h.probing.probe (p := p) (input := input) (pos := pos)
  unfold lz77Turn
  dsimp only
  rw [hprobe.mlen, hprobe.d]
  split
  · exact ⟨rfl, hprobe.toLz77Agree.emit _ _⟩
  · exact ⟨rfl, hprobe.toLz77Agree.emit _ _⟩

theorem Lz77Agree.scan (h : Lz77Agree u v) (fuel : Nat) :
    Lz77Agree (lz77Scan p input fuel pos u).2 (lz77Scan p input fuel pos v).2 := by
  induction fuel generalizing pos u v with
  | zero => exact h
  | succ fuel ih =>
    obtain ⟨hpos, hturn⟩ := h.turn (p := p) (input := input) (pos := pos)
    unfold lz77Scan
    split
    · dsimp only
      rw [hpos]
      exact ih hturn
    · exact h

theorem lz77Compress_obj_eq (p : Params) (u v : Lz77Unit) (input : List Byte) :
    (lz77Compress p u input).2.obj = (lz77Compress p v input).2.obj := by
  have hstart : Lz77Agree { u with hash := [], obj := ⟨[], BitVec.ofNat 64 input.length⟩ }
      { v with hash := [], obj := ⟨[], BitVec.ofNat 64 input.length⟩ } := ⟨rfl, rfl⟩
  exact (hstart.scan _).obj

end

/-! ### LZW.compress -/

section
variable {u v : LzwUnit} {x : List Byte}

/-- The units agree in the dictionary, the match in hand and the codes emitted. -/
structure LzwAgree (u v : LzwUnit) : Prop where
  dict : u.dict = v.dict
  w : u.w = v.w
  obj : u.obj = v.obj

theorem LzwAgree.turn (h : LzwAgree u v) (k : Byte) : LzwAgree (lzwTurn u k) (lzwTurn v k) := by
  obtain ⟨hdict, hw, hobj⟩ := h
  unfold lzwTurn
  rw [hw]
  split
  · exact ⟨hdict, rfl, hobj⟩
  · rw [hdict]
    split
    · exact ⟨rfl, rfl, hobj⟩
    · exact ⟨rfl, rfl, by rw [lzwEmit, lzwEmit, hobj]⟩

theorem LzwAgree.foldl (h : LzwAgree u v) (x : List Byte) : LzwAgree (x.foldl lzwTurn u) (x.foldl lzwTurn v) := by
  induction x generalizing u v with
  | nil => exact h
  | cons k x ih => exact ih (h.turn k)

theorem lzwCompress_obj_eq (u v : LzwUnit) (x : List Byte) : (lzwCompress u x).obj = (lzwCompress v x).obj := by
  have hfresh : LzwAgree { u with dict := [], w := none, obj := ⟨[], BitVec.ofNat 64 x.length⟩ }
      { v with dict := [], w := none, obj := ⟨[], BitVec.ofNat 64 x.length⟩ } := ⟨rfl, rfl, rfl⟩
  have hlast := hfresh.foldl x
  unfold lzwCompress
  dsimp only
  rw [hlast.w]
  split
  · rw [lzwEmit, lzwEmit, hlast.obj]
  · exact hlast.obj

end

/-! ### HUF.compress -/

theorem hufCompress_obj_eq (u v : HufUnit) (x : List Byte) : (hufCompress u x).obj = (hufCompress v x).obj := by
  have hfreq : ({ u with freq := histogram x, acc := 0, nbits := 0 } : HufUnit).freq =
    ({ v with freq := histogram x, acc := 0, nbits := 0 } : HufUnit).freq := rfl
  obtain ⟨hnodes, hroot⟩ := hufBuild_of_freq hfreq
  have hcodes := hufAssign_codes_of_freq hfreq
  unfold hufCompress
  dsimp only
  rw [hroot]
  split
  · rfl
  · rw [hnodes, hcodes]
    split <;> rfl

/-! ### HUF.decompress -/

theorem hufOutput_of_obj {u v : HufUnit} (h : u.obj = v.obj) : hufOutput u = hufOutput v := by
  obtain ⟨hnodes, hroot⟩ := hufBuild_of_freq (v := { u with freq := u.obj.freqTable })
    (u := { v with freq := v.obj.freqTable }) (congrArg HufObj.freqTable h)
  replace hnodes : (hufStartUnit u).nodes = (hufStartUnit v).nodes := hnodes
  replace hroot : (hufStartUnit u).root = (hufStartUnit v).root := hroot
  cases hv : (hufStartUnit v).root with
  | none => rw [hufOutput_of_none hv, hufOutput_of_none (hroot.trans hv), h]
  | some root =>
    cases hleaf : hufIsLeaf (hufStartUnit v).nodes root with
    | true => rw [hufOutput_of_leaf hv hleaf, hufOutput_of_leaf (hroot.trans hv) (hnodes.symm ▸ hleaf), h]
    | false => rw [hufOutput_of_inner hv hleaf, hufOutput_of_inner (hroot.trans hv) (hnodes.symm ▸ hleaf), hnodes, h]

/-! ### LZW.decompress -/

section
variable {u v : LzwUnit} {size : Nat} {first : Bool} {code : U16} {codes : List U16} {out : List Byte}

/-- The first code reads no PREV (43_lzw.md R209). -/
theorem lzwElement_of_agree (hdict : u.dict = v.dict) (hprev : first = false → u.prev = v.prev) :
    (lzwElement size first u out code).map (fun r => (r.1.dict, r.1.prev, r.2)) =
      (lzwElement size first v out code).map fun r => (r.1.dict, r.1.prev, r.2) := by
  unfold lzwElement
  rw [hdict]
  cases first with
  | true =>
    rw [if_pos rfl, if_pos rfl]
    split
    · rfl
    · split <;> rfl
  | false =>
    rw [if_neg Bool.false_ne_true, if_neg Bool.false_ne_true, hprev rfl]
    split
    · split <;> rfl
    · rfl

theorem lzwOutput_of_agree (hdict : u.dict = v.dict) (hprev : first = false → u.prev = v.prev) :
    lzwOutput size first codes u out = lzwOutput size first codes v out := by
  induction codes generalizing first u v out with
  | nil => rw [lzwOutput, lzwOutput, lzwReplay, lzwReplay]; split <;> rfl
  | cons code codes ih =>
    have helement := lzwElement_of_agree (size := size) (code := code) (out := out) hdict hprev
    cases hu : lzwElement size first u out code with
    | error c =>
      rw [hu] at helement
      rw [lzwOutput_of_error hu, lzwOutput_of_error (except_map_eq_error helement.symm)]
    | ok r =>
      rw [hu] at helement
      obtain ⟨r', hv, heq⟩ := except_map_eq_ok helement.symm
      simp only [Prod.mk.injEq] at heq
      obtain ⟨hd, hp, ho⟩ := heq
      rw [lzwOutput_of_element hu, lzwOutput_of_element hv, ho]
      exact ih hd.symm fun _ => hp.symm

theorem lzwDecompress_of_obj (h : u.obj = v.obj) :
    (lzwDecompress u).map (fun r => r.2) = (lzwDecompress v).map fun r => r.2 := by
  unfold lzwDecompress
  rw [h]
  exact lzwOutput_of_agree rfl nofun

end

end Sys2Proof.Machine

/-! PROOFS. The eight commands (45_dispatcher.md R270 to R293, 60_exceptions.md R330, R331). The idea: a command in the
machine ends exactly as the pure function `run` of 00_scope.md R15 answers on its input bytes, whatever the state holds
beside them, so what is true of `run` is true of the commands. -/

namespace Sys2Proof.Machine

open Sys2Proof.Safety

/-! ### The pure function -/

section
variable {p : Params} {dir : BitVec 1} {k : Codec} {input x y : List Byte} {s : State} {c : Cause}

theorem runCommand_selector (p : Params) (dir : BitVec 1) (k : Codec) (input : List Byte) :
    runCommand p dir (selector k) input =
      if input.length = 0 then .error .emptyInput
      else if p.capIn < input.length then .error .inputBeyondBuffer
      else if dir = 0 then compressBytes p input k else decompressBytes p input k := by
  rw [runCommand, codecOf_eq_some_iff.2 rfl]

theorem runCommand_of_input (hpos : 1 ≤ input.length) (hcap : input.length ≤ p.capIn) :
    runCommand p dir (selector k) input = if dir = 0 then compressBytes p input k else decompressBytes p input k := by
  rw [runCommand_selector, if_neg (by omega), if_neg (by omega)]

/-- The input tests of the machine are those of the pure function (R271). -/
theorem runCommand_of_checkInput_error (h : checkInput s = .error c) (dir : BitVec 1) (k : Codec) :
    runCommand s.cfg dir (selector k) (inputBytes s) = .error c := by
  rw [runCommand_selector, length_inputBytes]
  rcases checkInput_eq s with ⟨hzero, e⟩ | ⟨hne, hcap, e⟩ | ⟨-, -, e⟩ <;> rw [e] at h <;> cases h
  · rw [if_pos hzero]
  · rw [if_neg hne, if_pos hcap]

theorem input_of_checkInput_ok (h : checkInput s = .ok s) : 1 ≤ s.ilen.toNat ∧ s.ilen.toNat ≤ s.cfg.capIn := by
  rcases checkInput_eq s with ⟨-, e⟩ | ⟨-, -, e⟩ | ⟨hne, hcap, -⟩
  · rw [e] at h; cases h
  · rw [e] at h; cases h
  · exact ⟨Nat.one_le_iff_ne_zero.2 hne, hcap⟩

theorem runCommand_of_checkInput_ok (h : checkInput s = .ok s) (dir : BitVec 1) (k : Codec) :
    runCommand s.cfg dir (selector k) (inputBytes s) =
      if dir = 0 then compressBytes s.cfg (inputBytes s) k else decompressBytes s.cfg (inputBytes s) k := by
  obtain ⟨hpos, hcap⟩ := input_of_checkInput_ok h
  rw [← length_inputBytes] at hpos hcap
  exact runCommand_of_input hpos hcap

theorem checkInput_startOutput (h : checkInput s = .ok s) : checkInput (startOutput s) = .ok (startOutput s) := by
  have hmap : checkInput (startOutput s) = (checkInput s).map startOutput := by
    rw [checkInput, checkInput, apply_ite (Except.map _), apply_ite (Except.map _)]
    rfl
  rw [hmap, h]
  rfl

theorem imageFits_eq_ok_iff {capOut : Nat} {image bs : List Byte} :
    imageFits c capOut image = .ok bs ↔ image.length ≤ capOut ∧ bs = image := by
  unfold imageFits
  split
  next hbeyond => simp [Nat.not_le.2 hbeyond]
  next hfits => simp [Nat.not_lt.1 hfits, eq_comm]

/-- What an image's deserializer makes of it, codec by codec: the declared size, and what the decoder answers on the
object (R276 to R279). -/
def imageDecoded (input : List Byte) : Codec → Except Cause (U64 × Except Cause (List Byte))
  | .lz77 => (desLz77 input).map fun c => (c.originalSize, lz77Decompress c)
  | .huf => (desHuf input).map fun c => (c.originalSize, hufOutput { HufUnit.initial with obj := c })
  | .rle => (desRle input).map fun c => (c.originalSize, rleDecompress c)
  | .lzw => (desLzw input).map fun c =>
      (c.originalSize, (lzwDecompress { LzwUnit.initial with obj := c }).map fun r => r.2)

theorem decompressBytes_eq (p : Params) (input : List Byte) (k : Codec) :
    decompressBytes p input k = (imageDecoded input k).bind fun r => decodeWithin p r.1 r.2 := by
  cases k
  case lz77 => rw [decompressBytes, imageDecoded]; cases desLz77 input <;> rfl
  case huf =>
    rw [decompressBytes, imageDecoded]
    cases desHuf input with
    | error e => rfl
    | ok c =>
      unfold hufOutput
      dsimp only [Except.map, Except.bind]
      generalize hufDecompress _ = r
      cases r <;> rfl
  case rle => rw [decompressBytes, imageDecoded]; cases desRle input <;> rfl
  case lzw =>
    rw [decompressBytes, imageDecoded]
    cases desLzw input with
    | error e => rfl
    | ok c =>
      dsimp only [Except.map, Except.bind]
      generalize lzwDecompress _ = r
      cases r <;> rfl

theorem declaredSize_eq (input : List Byte) (k : Codec) :
    declaredSize input k = (imageDecoded input k).map fun r => r.1 := by
  cases k
  case lz77 => rw [declaredSize, imageDecoded]; cases desLz77 input <;> rfl
  case huf => rw [declaredSize, imageDecoded]; cases desHuf input <;> rfl
  case rle => rw [declaredSize, imageDecoded]; cases desRle input <;> rfl
  case lzw => rw [declaredSize, imageDecoded]; cases desLzw input <;> rfl

theorem imageDecoded_corrupt (h : imageDecoded input k = .error c) : causeKind c = .corrupt := by
  cases k
  case lz77 => exact desLz77_corrupt (except_map_eq_error h)
  case huf => exact desHuf_corrupt (except_map_eq_error h)
  case rle => exact desRle_corrupt (except_map_eq_error h)
  case lzw => exact desLzw_corrupt (except_map_eq_error h)

/-! ### The round trip of the pure function -/

theorem rleCompress_originalSize (x : List Byte) : (rleCompress x).originalSize = BitVec.ofNat 64 x.length := rfl

theorem rleDecompress_rleCompress (hx : x.length < 2 ^ 64) : rleDecompress (rleCompress x) = .ok x := by
  have hsize : (rleCompress x).originalSize.toNat = x.length := by
    rw [rleCompress_originalSize, BitVec.toNat_ofNat, Nat.mod_eq_of_lt hx]
  exact rleDecompress_eq_ok_iff.2
    ⟨fun r => rleRuns_count_ne_zero, by rw [sum_counts_rleCompress, hsize], expandRuns_rleCompress x⟩

/-- Each codec's decoder inverts its encoder through the wire image (R291, R292). -/
theorem imageDecoded_imageBytes (hpos : 1 ≤ x.length) (hx : x.length < 2 ^ 32)
    (himage : (imageBytes p x k).length < 2 ^ 64) :
    imageDecoded (imageBytes p x k) k = .ok (BitVec.ofNat 64 x.length, .ok x) := by
  have hx' : x.length < 2 ^ 64 := by omega
  cases k
  case lz77 =>
    rw [imageBytes, imageDecoded, desLz77_serLz77]
    simp only [Except.map, (lz77Compress_scanned p _ x).1.size, lz77Decompress_lz77Compress p _ hx']
  case huf =>
    obtain ⟨hsize, htable⟩ := hufCompress_obj_fields HufUnit.initial x
    obtain ⟨unit, bitpos, hrun⟩ := hufDecompress_hufCompress
      (v := { HufUnit.initial with obj := (hufCompress HufUnit.initial x).obj }) hpos hx rfl
    rw [imageBytes, imageDecoded, desHuf_serHuf (by rw [htable, length_histogram]) himage]
    simp only [Except.map, hufOutput, hrun, hsize]
  case rle =>
    rw [imageBytes, imageDecoded, desRle_serRle _ himage]
    simp only [Except.map, rleCompress_originalSize, rleDecompress_rleCompress hx']
  case lzw =>
    obtain ⟨unit, hrun, -⟩ := lzwDecompress_lzwCompress
      (v := { LzwUnit.initial with obj := (lzwCompress LzwUnit.initial x).obj }) hpos hx' rfl
    rw [imageBytes, imageDecoded, desLzw_serLzw _ himage]
    simp only [Except.map, hrun, lzwCompress_originalSize]

/-- A decompress command on the image of `x`, where both fit (R292). -/
theorem decompressBytes_imageBytes (hpos : 1 ≤ x.length) (hx : x.length < 2 ^ 32) (hfit : x.length ≤ p.capOut)
    (himage : (imageBytes p x k).length < 2 ^ 64) : decompressBytes p (imageBytes p x k) k = .ok x := by
  have hsize : ¬ p.capOut < (BitVec.ofNat 64 x.length).toNat := by rw [BitVec.toNat_ofNat]; omega
  rw [decompressBytes_eq, imageDecoded_imageBytes hpos hx himage]
  exact if_neg hsize

/-- A round trip through two commands needs room for the image as input (R292). -/
theorem runCommand_imageBytes (hwf : p.wf) (hpos : 1 ≤ x.length) (hx : x.length ≤ p.capIn) (hfit : x.length ≤ p.capOut)
    (himage : 1 ≤ (imageBytes p x k).length) (hcap : (imageBytes p x k).length ≤ p.capIn) :
    runCommand p 1 (selector k) (imageBytes p x k) = .ok x := by
  obtain ⟨-, hcapIn, -⟩ := hwf
  rw [runCommand_of_input himage hcap, if_neg (by decide)]
  exact decompressBytes_imageBytes hpos (by omega) hfit (by omega)

/-- An image is never empty: it has its header. -/
theorem one_le_length_imageBytes (p : Params) (x : List Byte) (k : Codec) : 1 ≤ (imageBytes p x k).length := by
  cases k
  case lz77 => rw [imageBytes, length_serLz77]; omega
  case huf => rw [imageBytes, length_serHuf (by rw [(hufCompress_obj_fields _ x).2, length_histogram])]; omega
  case rle => rw [imageBytes, length_serRle]; omega
  case lzw => rw [imageBytes, length_serLzw]; omega

end

/-- Settles O21: what `run` compressed is the wire image, and on it the decoder inverts the encoder. -/
theorem commandRoundTrip : Obligations.CommandRoundTrip := by
  unfold Obligations.CommandRoundTrip
  intro p k x y hwf hpos hx hfit hy hcap
  rw [runCommand_of_input hpos hx, if_pos rfl, compressBytes, imageFits_eq_ok_iff] at hy
  obtain ⟨-, rfl⟩ := hy
  exact runCommand_imageBytes hwf hpos hx hfit (one_le_length_imageBytes p x k) hcap

/-! ### How a command ends -/

section
variable {s t u v : State} {k : Codec} {out : List Byte} {c : Cause}

/-- The command of codec `k` on `s` ends as the pure function answers (60_exceptions.md R330, R331). -/
def EndsAs (k : Codec) (s : State) : Except Cause (List Byte) → Host.Outcome State Fault Refusal → Prop
  | .ok out, o => ∃ t, o = .next t ∧ t.obuf = cells 0 out ∧ t.olen.toNat = out.length ∧ t.status = 0 ∧ t.busy = 0 ∧
      OnlyUnit k s t
  | .error c, o => o = .next (raise c s)

/-- Completion adds to the operations of a codec the result alone. -/
theorem onlyUnit_complete (h : Operated k s t) : OnlyUnit k s (complete t) := by
  obtain ⟨⟨hcfg, halg, hdir, hilen, hibuf, hstage, hgrain, hhost, hobserved, hepoch⟩, -, -, -, hrle, hhuf, hlzw, hlz77,
    -, -, -⟩ := h
  cases s
  cases t
  cases k <;> simp_all [OnlyUnit, complete]

theorem endsAs_complete (h : Operated k s t) (hobuf : t.obuf = cells 0 out) (hopos : t.opos = out.length)
    (hlt : out.length < 2 ^ 64) : EndsAs k s (.ok out) (settleCommand s (.ok t)) := by
  have holen : (complete t).olen.toNat = out.length := by
    rw [complete_olen, hopos, BitVec.toNat_ofNat, Nat.mod_eq_of_lt hlt]
  exact ⟨complete t, rfl, hobuf, holen, rfl, rfl, onlyUnit_complete h⟩

theorem UpdatesUnit.output (h : UpdatesUnit k s t) : t.opos = s.opos ∧ t.obuf = s.obuf := by
  cases k <;> rw [UpdatesUnit] at h <;> rw [h] <;> exact ⟨rfl, rfl⟩

/-! ### The compress commands -/

/-- The image a serializer makes of the object in its codec's unit. -/
def unitImage (s : State) : Codec → List Byte
  | .lz77 => serLz77 s.lz77.obj
  | .huf => serHuf s.huf.obj
  | .rle => serRle s.rle.obj
  | .lzw => serLzw s.lzw.obj

theorem codecSerializeOp_eq (k : Codec) (s : State) :
    codecSerializeOp k s = serializeOp (imageCause k) (unitImage s k) s := by
  cases k <;> rfl

theorem exec_compressInstr (k : Codec) (s : State) :
    exec (compressInstr k) s = settleCommand s (compressOp (codecCompressOp k) (codecSerializeOp k) s) := by
  cases k <;> rfl

/-- A codec that passes the input tests makes the object whose image is that of the input, whatever its unit held. -/
theorem codecCompressOp_of_input (h : checkInput s = .ok s) (k : Codec) :
    ∃ t, codecCompressOp k s = .ok t ∧ UpdatesUnit k s t ∧ unitImage t k = imageBytes s.cfg (inputBytes s) k := by
  have hinput : codecInput s = .ok (inputBytes s) := by rw [codecInput, h]
  obtain ⟨t, ht⟩ : ∃ t, codecCompressOp k s = .ok t := by
    cases k <;> simp [codecCompressOp, lz77CompressOp, hufCompressOp, rleCompressOp, lzwCompressOp, hinput]
  refine ⟨t, ht, ?_⟩
  cases k
  case lz77 => obtain rfl := lz77CompressOp_eq_ok ht; exact ⟨rfl, congrArg serLz77 (lz77Compress_obj_eq _ _ _ _)⟩
  case huf => obtain rfl := hufCompressOp_eq_ok ht; exact ⟨rfl, congrArg serHuf (hufCompress_obj_eq _ _ _)⟩
  case rle => obtain rfl := rleCompressOp_eq_ok ht; exact ⟨rfl, congrArg serRle (rleLast_obj _ _)⟩
  case lzw => obtain rfl := lzwCompressOp_eq_ok ht; exact ⟨rfl, congrArg serLzw (lzwCompress_obj_eq _ _ _)⟩

/-- A serializer onto an output of length 0 has one test, that the image fits (R280 to R283). -/
theorem codecSerializeOp_of_started (hopos : s.opos = 0) (hobuf : s.obuf = []) (k : Codec) :
    codecSerializeOp k s = (imageFits (imageCause k) s.cfg.capOut (unitImage s k)).map fun bs =>
      { s with obuf := cells 0 bs, opos := bs.length } := by
  rw [codecSerializeOp_eq, serializeOp]
  cases hfits : imageFits (imageCause k) s.cfg.capOut (unitImage s k) with
  | error c => rfl
  | ok bs =>
    obtain ⟨hcap, rfl⟩ := imageFits_eq_ok_iff.1 hfits
    exact append_of_started hopos hobuf hcap

/-- C.LZ77, C.HUF, C.RLE and C.LZW end as `run` answers (R272 to R275). -/
theorem compress_endsAs (hwf : s.cfg.wf) (k : Codec) :
    EndsAs k s (runCommand s.cfg 0 (selector k) (inputBytes s)) (exec (compressInstr k) s) := by
  rw [exec_compressInstr]
  cases hc : checkInput s with
  | error c =>
    rw [runCommand_of_checkInput_error hc, compressOp, hc]
    rfl
  | ok t =>
    obtain rfl := checkInput_eq_self hc
    obtain ⟨v, hv, hunit, himage⟩ := codecCompressOp_of_input (checkInput_startOutput hc) k
    obtain ⟨hopos, hobuf⟩ := hunit.output
    have hop := (operated_startOutput k t).trans hunit.operated
    have hser := codecSerializeOp_of_started hopos hobuf k
    replace himage : unitImage v k = imageBytes t.cfg (inputBytes t) k := himage
    rw [himage, hop.cfg] at hser
    rw [runCommand_of_checkInput_ok hc, if_pos rfl, compressBytes, compressOp, hc, andThen_ok, hv, andThen_ok]
    cases hfits : imageFits (imageCause k) t.cfg.capOut (imageBytes t.cfg (inputBytes t) k) with
    | error c =>
      rw [hser, hfits]
      rfl
    | ok bs =>
      obtain ⟨-, -, -, hcapOut⟩ := hwf
      obtain ⟨hcap, rfl⟩ := imageFits_eq_ok_iff.1 hfits
      rw [hfits] at hser
      rw [hser]
      exact endsAs_complete (hop.trans (operated_serialize hser)) rfl rfl (by omega)

/-! ### The decompress commands -/

theorem exec_decompressInstr (k : Codec) (s : State) : exec (decompressInstr k) s =
    settleCommand s (decompressOp (codecParseOp k) (objectSize · k) (codecDecompressOp k) s) := by
  cases k <;> rfl

/-- The bytes a decoder answers on the object in its unit. -/
def decoderOutput (s : State) : Codec → Except Cause (List Byte)
  | .lz77 => lz77Decompress s.lz77.obj
  | .huf => hufOutput s.huf
  | .rle => rleDecompress s.rle.obj
  | .lzw => (lzwDecompress s.lzw).map fun r => r.2

theorem decoderRun_output (s : State) (k : Codec) : (decoderRun s k).map (fun r => r.1) = decoderOutput s k := by
  cases k
  case lz77 => rw [decoderRun, decoderOutput]; cases lz77Decompress s.lz77.obj <;> rfl
  case huf => rw [decoderRun, decoderOutput, hufOutput]; cases hufDecompress s.huf <;> rfl
  case rle => rw [decoderRun, decoderOutput]; cases rleDecompress s.rle.obj <;> rfl
  case lzw => rw [decoderRun, decoderOutput]; cases lzwDecompress s.lzw <;> rfl

/-- The object a deserializer puts in its unit declares and decodes to what the image does, whatever the unit held. -/
theorem imageDecoded_of_parse (h : codecParseOp k s = .ok v) :
    imageDecoded (inputBytes s) k = .ok (objectSize v k, decoderOutput v k) := by
  cases k
  case lz77 => obtain ⟨-, obj, hobj, rfl⟩ := desLz77Op_eq_ok h; rw [imageDecoded, hobj]; rfl
  case huf =>
    obtain ⟨-, obj, hobj, rfl⟩ := desHufOp_eq_ok h
    rw [imageDecoded, hobj]
    exact congrArg (fun out => Except.ok (obj.originalSize, out)) (hufOutput_of_obj rfl)
  case rle => obtain ⟨-, obj, hobj, rfl⟩ := desRleOp_eq_ok h; rw [imageDecoded, hobj]; rfl
  case lzw =>
    obtain ⟨-, obj, hobj, rfl⟩ := desLzwOp_eq_ok h
    rw [imageDecoded, hobj]
    exact congrArg (fun out => Except.ok (obj.originalSize, out)) (lzwDecompress_of_obj rfl)

theorem parseOp_eq_error {α : Type} {parse : List Byte → Except Cause α} {put : State → α → State}
    (hcap : s.ilen.toNat ≤ s.cfg.capIn) (h : parseOp parse put s = .error c) : parse (inputBytes s) = .error c := by
  cases hparse : parse (inputBytes s) with
  | ok obj => rw [parseOp_of_ok hcap hparse] at h; cases h
  | error c' => rw [parseOp_of_error hcap hparse] at h; cases h; rfl

theorem imageDecoded_of_parse_error (hcap : s.ilen.toNat ≤ s.cfg.capIn) (h : codecParseOp k s = .error c) :
    imageDecoded (inputBytes s) k = .error c := by
  cases k
  case lz77 => exact congrArg (Except.map _) (parseOp_eq_error hcap (show desLz77Op s = _ from h))
  case huf => exact congrArg (Except.map _) (parseOp_eq_error hcap (show desHufOp s = _ from h))
  case rle => exact congrArg (Except.map _) (parseOp_eq_error hcap (show desRleOp s = _ from h))
  case lzw => exact congrArg (Except.map _) (parseOp_eq_error hcap (show desLzwOp s = _ from h))

/-- check_output and the decoder, on the object in the codec's unit, end the command as its output within CAP_OUT
(R290). -/
theorem decode_endsAs (hop : Operated k s v) :
    EndsAs k s (decodeWithin s.cfg (objectSize v k) (decoderOutput v k))
      (settleCommand s (andThen (checkOutput (objectSize v k) v) (codecDecompressOp k))) := by
  rw [decodeWithin, ← hop.cfg, ← decoderRun_output]
  by_cases hcap : v.cfg.capOut < (objectSize v k).toNat
  · rw [if_pos hcap, checkOutput_of_beyond hcap]
    rfl
  · rw [if_neg hcap, checkOutput_of_fits (Nat.not_lt.1 hcap), andThen_ok]
    cases hrun : decoderRun v k with
    | error c =>
      rw [codecDecompressOp_eq, hrun]
      rfl
    | ok r =>
      obtain ⟨out, u⟩ := r
      obtain ⟨hlen, hframe⟩ := decoderRun_eq_ok hrun
      obtain ⟨hopos, hobuf, hcfg⟩ := hframe.started
      have hfits : out.length ≤ u.cfg.capOut := by rw [hlen, hcfg]; exact Nat.not_lt.1 hcap
      have hdecoder : codecDecompressOp k v = .ok { u with obuf := cells 0 out, opos := out.length } := by
        rw [codecDecompressOp_eq, hrun]
        exact append_of_started hopos hobuf hfits
      have hlt : out.length < 2 ^ 64 := by rw [hlen]; exact (objectSize v k).isLt
      rw [hdecoder]
      exact endsAs_complete (hop.trans (operated_decompress hdecoder)) rfl rfl hlt

/-- D.LZ77, D.HUF, D.RLE and D.LZW end as `run` answers (R276 to R279). -/
theorem decompress_endsAs (s : State) (k : Codec) :
    EndsAs k s (runCommand s.cfg 1 (selector k) (inputBytes s)) (exec (decompressInstr k) s) := by
  rw [exec_decompressInstr]
  cases hc : checkInput s with
  | error c =>
    rw [runCommand_of_checkInput_error hc, decompressOp, hc]
    rfl
  | ok t =>
    obtain rfl := checkInput_eq_self hc
    rw [runCommand_of_checkInput_ok hc, if_neg (by decide), decompressBytes_eq, decompressOp, hc, andThen_ok]
    cases hparse : codecParseOp k (startOutput t) with
    | error c =>
      have hdecoded := imageDecoded_of_parse_error (s := startOutput t) (input_of_checkInput_ok hc).2 hparse
      change imageDecoded (inputBytes t) k = _ at hdecoded
      rw [hdecoded]
      rfl
    | ok v =>
      have hdecoded := imageDecoded_of_parse hparse
      change imageDecoded (inputBytes t) k = _ at hdecoded
      rw [hdecoded]
      exact decode_endsAs ((operated_startOutput k t).trans (operated_parse hparse))

end

/-! ### The obligations -/

section
variable {s : State} {k : Codec} {i : Instr} {out : List Byte} {c : Cause}

theorem completes_of_endsAs (h : EndsAs k s (.ok out) (exec i s)) : ∃ t, exec i s = .next t ∧ t.status = 0 ∧
    t.busy = 0 ∧ t.olen.toNat = out.length ∧ Holds t.obuf out ∧ OnlyUnit k s t := by
  obtain ⟨t, hexec, hobuf, holen, hstatus, hbusy, hunit⟩ := h
  exact ⟨t, hexec, hstatus, hbusy, holen, hobuf ▸ holds_cells out, hunit⟩

theorem raises_of_endsAs (h : EndsAs k s (.error c) (exec i s)) {kind : ErrKind} (hc : causeKind c = kind) :
    Raises i s kind := by
  rw [Raises, show exec i s = _ from h]
  exact failsWith_raise s hc

theorem runCommand_compress (hin : InputOk s) (k : Codec) :
    runCommand s.cfg 0 (selector k) (inputBytes s) = compressBytes s.cfg (inputBytes s) k :=
  runCommand_of_checkInput_ok (checkInput_of_inputOk hin) 0 k

theorem runCommand_decompress (hin : InputOk s) (k : Codec) : runCommand s.cfg 1 (selector k) (inputBytes s) =
    (imageDecoded (inputBytes s) k).bind fun r => decodeWithin s.cfg r.1 r.2 :=
  (runCommand_of_checkInput_ok (checkInput_of_inputOk hin) 1 k).trans (decompressBytes_eq _ _ _)

end

/-- Settles O18: the image is decoded to the input, and the command ends as `run` answers. -/
theorem decompressCommandsInvert : Obligations.DecompressCommandsInvert := by
  unfold Obligations.DecompressCommandsInvert
  intro s k x ⟨hwf, hpos, hcap⟩ hne hx hfit himage
  have hends := decompress_endsAs s k
  rw [← length_inputBytes, himage] at hpos hcap
  rw [himage, runCommand_imageBytes hwf (List.length_pos_of_ne_nil hne) hx hfit hpos hcap] at hends
  exact completes_of_endsAs hends

/-- What the host can tell of a command's end is told by the answer of `run`. -/
theorem endsAs_result {s₁ s₂ t₁ t₂ : State} {k : Codec} {r : Except Cause (List Byte)}
    (h₁ : EndsAs k s₁ r (.next t₁)) (h₂ : EndsAs k s₂ r (.next t₂)) :
    t₁.status = t₂.status ∧ t₁.olen = t₂.olen ∧ t₁.busy = t₂.busy ∧ t₁.obuf = t₂.obuf := by
  cases r with
  | error c => cases h₁; cases h₂; exact ⟨rfl, rfl, rfl, rfl⟩
  | ok out =>
    obtain ⟨_, ⟨⟩, hobuf₁, holen₁, hstatus₁, hbusy₁, -⟩ := h₁
    obtain ⟨_, ⟨⟩, hobuf₂, holen₂, hstatus₂, hbusy₂, -⟩ := h₂
    exact ⟨hstatus₁.trans hstatus₂.symm, BitVec.eq_of_toNat_eq (holen₁.trans holen₂.symm), hbusy₁.trans hbusy₂.symm,
      hobuf₁.trans hobuf₂.symm⟩

/-- Settles O20: both commands end as `run` answers, which is given the parameters and the input bytes alone. -/
theorem commandsArePure : Obligations.CommandsArePure := by
  unfold Obligations.CommandsArePure
  intro s₁ s₂ t₁ t₂ k i hwf hcfg hinput hi h₁ h₂
  have hends : ∃ r, EndsAs k s₁ r (exec i s₁) ∧ EndsAs k s₂ r (exec i s₂) := by
    rcases hi with rfl | rfl
    · exact ⟨_, compress_endsAs hwf k, by rw [hcfg, hinput]; exact compress_endsAs (hcfg ▸ hwf) k⟩
    · exact ⟨_, decompress_endsAs s₁ k, by rw [hcfg, hinput]; exact decompress_endsAs s₂ k⟩
  obtain ⟨r, hends₁, hends₂⟩ := hends
  obtain ⟨hstatus, holen, hbusy, hobuf⟩ := endsAs_result (h₁ ▸ hends₁) (h₂ ▸ hends₂)
  exact ⟨hstatus, holen, hbusy, fun a => by rw [hobuf]⟩

theorem causeKind_imageCause (k : Codec) : causeKind (imageCause k) = .outOfMemory := by
  cases k <;> rfl

theorem forall_next_of_exec {i : Instr} {s u : State} {P : State → Prop} (hu : exec i s = .next u) (hP : P u) :
    ∀ t, exec i s = .next t → P t := by
  intro t ht
  cases hu.symm.trans ht
  exact hP

/-- Settles O17: `run` answers the image where it fits and OutOfMemory where it does not. -/
theorem compressCommandsComplete : Obligations.CompressCommandsComplete := by
  unfold Obligations.CompressCommandsComplete
  intro s k hin
  have hends := compress_endsAs hin.1 k
  rw [runCommand_compress hin, compressBytes, imageFits] at hends
  by_cases hbeyond : s.cfg.capOut < (imageBytes s.cfg (inputBytes s) k).length
  · rw [if_pos hbeyond] at hends
    have hraises := raises_of_endsAs hends (causeKind_imageCause k)
    have ⟨t, hexec, hstatus, _⟩ := hraises
    exact ⟨fun hfits => absurd hbeyond (Nat.not_lt.2 hfits), fun _ => hraises,
      forall_next_of_exec hexec (by rw [hstatus]; decide)⟩
  · rw [if_neg hbeyond] at hends
    have hdone := completes_of_endsAs hends
    have ⟨t, hexec, hstatus, _⟩ := hdone
    exact ⟨fun _ => hdone, fun h => absurd h hbeyond, forall_next_of_exec hexec (by rw [hstatus]; decide)⟩

/-- On the object of a sound image a decoder is Corrupt or answers the declared size. -/
theorem imageDecoded_output {input : List Byte} {k : Codec} {size : U64} {decoded : Except Cause (List Byte)}
    (h : imageDecoded input k = .ok (size, decoded)) :
    (∀ c, decoded = .error c → causeKind c = .corrupt) ∧ ∀ out, decoded = .ok out → out.length = size.toNat := by
  cases k
  case lz77 =>
    obtain ⟨obj, -, ⟨⟩⟩ := except_map_eq_ok h
    exact ⟨fun c => lz77Replay_corrupt, fun out => lz77Replay_length⟩
  case huf =>
    obtain ⟨obj, -, ⟨⟩⟩ := except_map_eq_ok h
    refine ⟨fun c hc => hufDecompress_corrupt (except_map_eq_error hc), fun out hout => ?_⟩
    obtain ⟨r, hrun, rfl⟩ := except_map_eq_ok hout
    exact (hufDecompress_eq_ok hrun).1
  case rle =>
    obtain ⟨obj, -, ⟨⟩⟩ := except_map_eq_ok h
    refine ⟨fun c => rleReplay_corrupt, fun out hout => ?_⟩
    obtain ⟨-, hsum, rfl⟩ := rleDecompress_eq_ok_iff.1 hout
    exact (length_expandRuns _).trans hsum
  case lzw =>
    obtain ⟨obj, -, ⟨⟩⟩ := except_map_eq_ok h
    refine ⟨fun c hc => lzwReplay_corrupt (except_map_eq_error hc), fun out hout => ?_⟩
    obtain ⟨r, hrun, rfl⟩ := except_map_eq_ok hout
    exact (lzwDecompress_eq_ok hrun).1

/-- Settles O19: `run` judges the structure, the declared size and the elements in this order. -/
theorem checkOutputOrder : Obligations.CheckOutputOrder := by
  unfold Obligations.CheckOutputOrder
  intro s k hin
  have hends := decompress_endsAs s k
  rw [runCommand_decompress hin] at hends
  rw [declaredSize_eq]
  cases hdecoded : imageDecoded (inputBytes s) k with
  | error c =>
    rw [hdecoded] at hends
    have hcorrupt := imageDecoded_corrupt hdecoded
    refine ⟨fun c' hc => ?_, nofun, nofun⟩
    cases hc
    exact ⟨hcorrupt, raises_of_endsAs hends hcorrupt⟩
  | ok r =>
    obtain ⟨size, decoded⟩ := r
    rw [hdecoded] at hends
    change EndsAs k s (if s.cfg.capOut < size.toNat then _ else _) _ at hends
    refine ⟨nofun, fun size' hsize hbeyond => ?_, fun size' hsize hfits => ?_⟩ <;> cases hsize
    · rw [if_pos hbeyond] at hends
      exact raises_of_endsAs hends rfl
    · rw [if_neg (Nat.not_lt.2 hfits)] at hends
      obtain ⟨hcorrupt, hlength⟩ := imageDecoded_output hdecoded
      cases decoded with
      | error c => exact .inl (raises_of_endsAs hends (hcorrupt c rfl))
      | ok out =>
        obtain ⟨t, hexec, hstatus, hbusy, holen, -⟩ := completes_of_endsAs hends
        exact .inr ⟨t, hexec, hstatus, hbusy, BitVec.eq_of_toNat_eq (holen.trans (hlength out rfl))⟩

end Sys2Proof.Machine

/-! PROOFS. How the eight commands end, with bytes or with a cause (60_exceptions.md R330, R331). -/

namespace Sys2Proof.Machine

/-- Settles O15: both commands end as `run` answers. -/
theorem normalCompletion : Obligations.NormalCompletion := by
  unfold Obligations.NormalCompletion
  intro s k out hwf
  refine ⟨fun hrun => ?_, fun hrun => ?_⟩
  · obtain ⟨t, hexec, hstatus, hbusy, holen, hobuf, hunit⟩ := completes_of_endsAs (hrun ▸ compress_endsAs hwf k)
    exact ⟨t, hexec, hobuf, holen, hstatus, hbusy, hunit⟩
  · obtain ⟨t, hexec, hstatus, hbusy, holen, hobuf, hunit⟩ := completes_of_endsAs (hrun ▸ decompress_endsAs s k)
    exact ⟨t, hexec, hobuf, holen, hstatus, hbusy, hunit⟩

/-- Settles O16: both commands end as `run` answers, and a raise has the effects of R330. -/
theorem errorCompletion : Obligations.ErrorCompletion := by
  unfold Obligations.ErrorCompletion
  intro s k c hwf
  exact ⟨fun hrun => raises_of_endsAs (hrun ▸ compress_endsAs hwf k) rfl,
    fun hrun => raises_of_endsAs (hrun ▸ decompress_endsAs s k) rfl⟩

end Sys2Proof.Machine

/-! PROOFS. Several engines (60_exceptions.md R342). The idea: a step of an engine that exists replaces its own entry of
the list, and entries under different numbers are replaced in either order. -/

namespace Sys2Proof.Machine

section
variable {es fs : Engines} {m n : Nat} {s t : State}

theorem stepAt_of_absent (h : es[n]? = none) : stepAt n es = .next es := by
  rw [stepAt, h]

theorem stepAt_of_step (h : es[n]? = some s) (hstep : step s = .next t) : stepAt n es = .next (es.set n t) := by
  simp only [stepAt, h, hstep]

/-- What a step of engine `n` can do. -/
theorem stepAt_cases (h : stepAt n es = .next fs) :
    (es[n]? = none ∧ fs = es) ∨ ∃ s t, es[n]? = some s ∧ step s = .next t ∧ fs = es.set n t := by
  cases hn : es[n]? with
  | none =>
    rw [stepAt_of_absent hn] at h
    cases h
    exact .inl ⟨rfl, rfl⟩
  | some s =>
    simp only [stepAt, hn] at h
    split at h <;> cases h
    next t hstep => exact .inr ⟨s, t, rfl, hstep, rfl⟩

theorem stepAt_other (h : stepAt n es = .next fs) (hne : m ≠ n) : fs[m]? = es[m]? := by
  rcases stepAt_cases h with ⟨-, rfl⟩ | ⟨s, t, -, -, rfl⟩
  · rfl
  · exact List.getElem?_set_ne hne.symm

theorem stepAt_self (h : stepAt n es = .next fs) (hs : es[n]? = some s) :
    ∃ t, step s = .next t ∧ fs[n]? = some t := by
  rcases stepAt_cases h with ⟨hn, -⟩ | ⟨s', t, hs', hstep, rfl⟩
  · cases hn.symm.trans hs
  · cases hs'.symm.trans hs
    obtain ⟨hlt, -⟩ := List.getElem?_eq_some_iff.1 hs
    exact ⟨t, hstep, List.getElem?_set_self hlt⟩

theorem stepAt_comm {gs : Engines} (hne : m ≠ n) (h : stepAt n es = .next fs) (hm : stepAt m fs = .next gs) :
    ∃ hs, stepAt m es = .next hs ∧ stepAt n hs = .next gs := by
  have hother := stepAt_other h hne
  rcases stepAt_cases hm with ⟨habsent, rfl⟩ | ⟨s, t, hs, hstep, rfl⟩
  · exact ⟨es, stepAt_of_absent (hother ▸ habsent), h⟩
  · refine ⟨es.set m t, stepAt_of_step (hother ▸ hs) hstep, ?_⟩
    rcases stepAt_cases h with ⟨habsent, rfl⟩ | ⟨s', t', hs', hstep', rfl⟩
    · exact stepAt_of_absent ((List.getElem?_set_ne hne).trans habsent)
    · rw [List.set_comm _ _ hne.symm]
      exact stepAt_of_step ((List.getElem?_set_ne hne).trans hs') hstep'

end

/-- Settles O59: a step replaces the engine's own entry of the list. -/
theorem enginesIndependent : Obligations.EnginesIndependent := by
  unfold Obligations.EnginesIndependent
  intro es fs m n hne h
  exact ⟨stepAt_other h hne, fun s => stepAt_self h, fun gs => stepAt_comm hne h⟩

end Sys2Proof.Machine

/-! PROOFS. The three causes of InvalidArgument (60_exceptions.md R311, 45_dispatcher.md R271). The idea: of the causes
an operation can raise only those of the input tests are of this kind, the sequencer adds that of an unknown selector,
and no operation changes ALG, ILEN or CAP_IN. -/

namespace Sys2Proof.Machine

open Sys2Proof.Safety

variable {k : Codec} {s t u : State} {c : Cause}

/-- One of the three causes holds: the selector names no codec, or the input is empty or longer than IBUF (R311). -/
def InvalidCommand (s : State) : Prop := 3 < s.alg.toNat ∨ s.ilen.toNat = 0 ∨ s.cfg.capIn < s.ilen.toNat

theorem Keeps.invalidCommand (h : Keeps s t) (ht : InvalidCommand t) : InvalidCommand s := by
  rwa [InvalidCommand, h.alg, h.ilen, h.cfg] at ht

theorem invalidCommand_of_no_codec (hk : codecOf s.alg = none) : InvalidCommand s := .inl (codecOf_eq_none_iff.1 hk)

theorem invalidCommand_of_checkInput (h : checkInput s = .error c) : InvalidCommand s := by
  rcases checkInput_eq s with ⟨hzero, -⟩ | ⟨-, hcap, -⟩ | ⟨-, -, e⟩
  · exact .inr (.inl hzero)
  · exact .inr (.inr hcap)
  · rw [e] at h; cases h

/-! ### The three causes end a command -/

theorem checkInput_of_invalid (hk : codecOf s.alg = some k) (h : InvalidCommand s) :
    ∃ c, checkInput s = .error c ∧ causeKind c = .invalidArgument := by
  rcases checkInput_eq s with ⟨-, e⟩ | ⟨-, -, e⟩ | ⟨hne, hcap, -⟩
  · exact ⟨_, e, rfl⟩
  · exact ⟨_, e, rfl⟩
  · have halg : ¬ 4 ≤ s.alg.toNat := fun h => by rw [codecOf_eq_none_iff.2 h] at hk; cases hk
    unfold InvalidCommand at h
    omega

theorem exec_command_badInput (k : Codec) (h : checkInput s = .error c) :
    exec (commandOf s.dir k) s = .next (raise c s) := by
  rcases dir_cases s with hd | hd <;> rw [hd]
  · rw [exec_commandOf_compress, compressOp, h]; rfl
  · rw [exec_commandOf_decompress, decompressOp, h]; rfl

theorem engineTurn_accepted_badInput (hb : s.busy = 1) (hst : s.stage = .accepted) (hk : codecOf s.alg = some k)
    (h : checkInput s = .error c) : engineTurn s = .next (raise c s) := by
  have hwork := nextWork_accepted hb hst
  cases hg : s.grain with
  | command =>
    rw [engineTurn_of_run (hwork.trans (acceptedWork_command hk hg)) (exec_command_badInput k h), afterRun_stay]
  | operation => exact engineTurn_of_trap (hwork.trans (acceptedWork_badInput hk hg h))

theorem accepted_invalid_fails (ha : Accepted s) (h : InvalidCommand s) : FailsWith .invalidArgument s (step s) := by
  obtain ⟨-, hhost, hb, hst⟩ := ha
  rw [step_of_no_host hhost]
  cases hk : codecOf s.alg with
  | none =>
    rw [engineTurn_accepted_no_codec hb hst hk]
    exact failsWith_raise s rfl
  | some k =>
    obtain ⟨c, hc, hkind⟩ := checkInput_of_invalid hk h
    rw [engineTurn_accepted_badInput hb hst hk hc]
    exact failsWith_raise s hkind

/-! ### Which operations raise InvalidArgument -/

/-- The operation raises InvalidArgument only where one of the three causes holds. -/
def InvalidOnlyByCommand (f : State → Except Cause State) : Prop :=
  ∀ s c, f s = .error c → causeKind c = .invalidArgument → InvalidCommand s

/-- A cause of another kind is none of the three. -/
theorem invalidCommand_of_corrupt (hc : causeKind c = .corrupt) (h : causeKind c = .invalidArgument) :
    InvalidCommand s := by
  rw [hc] at h
  cases h

theorem invalidCommand_of_append {bs : List Byte} (hc : append bs u = .error c) (h : causeKind c = .invalidArgument) :
    InvalidCommand s := by
  rcases append_cases bs u with ⟨-, e⟩ | ⟨-, e⟩ <;> rw [e] at hc <;> cases hc
  cases h

theorem invalidOnly_andThen {f g : State → Except Cause State} (hf : InvalidOnlyByCommand f) (hkeep : KeepsFrame f)
    (hg : InvalidOnlyByCommand g) : InvalidOnlyByCommand fun s => andThen (f s) g := by
  intro s c h hc
  rcases andThen_eq_error.1 h with hfirst | ⟨t, hfirst, hsecond⟩
  · exact hf s c hfirst hc
  · exact (hkeep s t hfirst).invalidCommand (hg t c hsecond hc)

theorem invalidOnly_started {f : State → Except Cause State} (hf : InvalidOnlyByCommand f) :
    InvalidOnlyByCommand fun s => f (startOutput s) :=
  fun s c h hc => (keeps_startOutput s).invalidCommand (hf _ c h hc)

theorem invalidOnly_checkInput : InvalidOnlyByCommand checkInput := fun _ _ h _ => invalidCommand_of_checkInput h

theorem invalidOnly_checkOutput (size : State → U64) : InvalidOnlyByCommand fun s => checkOutput (size s) s := by
  intro s c h hc
  simp only [checkOutput] at h
  split at h <;> cases h
  cases hc

/-- A codec that passes the input tests raises nothing. -/
theorem invalidOnly_compress (k : Codec) : InvalidOnlyByCommand (codecCompressOp k) := by
  intro s c h _
  cases hcheck : checkInput s with
  | error c' => exact invalidCommand_of_checkInput hcheck
  | ok t =>
    obtain rfl := checkInput_eq_self hcheck
    obtain ⟨u, hu, -⟩ := codecCompressOp_of_input hcheck k
    rw [hu] at h
    cases h

theorem invalidOnly_serialize (k : Codec) : InvalidOnlyByCommand (codecSerializeOp k) := by
  intro s c h hc
  rw [codecSerializeOp_eq, serializeOp, imageFits] at h
  split at h
  · exact invalidCommand_of_append h hc
  next hfits =>
    split at hfits <;> cases hfits
    cases h
    rw [causeKind_imageCause] at hc
    cases hc

theorem invalidOnly_parse (k : Codec) : InvalidOnlyByCommand (codecParseOp k) := by
  intro s c h hc
  by_cases hcap : s.cfg.capIn < s.ilen.toNat
  · exact .inr (.inr hcap)
  · exact invalidCommand_of_corrupt (imageDecoded_corrupt (imageDecoded_of_parse_error (Nat.not_lt.1 hcap) h)) hc

theorem invalidOnly_decompress (k : Codec) : InvalidOnlyByCommand (codecDecompressOp k) := by
  intro s c h hc
  rw [codecDecompressOp_eq] at h
  cases hrun : decoderRun s k with
  | error c' =>
    rw [hrun] at h
    cases h
    exact invalidCommand_of_corrupt (decoderRun_corrupt hrun) hc
  | ok r =>
    rw [hrun] at h
    exact invalidCommand_of_append h hc

theorem invalidOnly_rlePair (count value : Byte) : InvalidOnlyByCommand (rlePairOp count value) := by
  intro s c h hc
  unfold rlePairOp at h
  split at h
  · exact invalidCommand_of_append h hc
  next helement => cases h; exact invalidCommand_of_corrupt (rleElement_corrupt helement) hc

theorem invalidOnly_lzwCode (code : U16) : InvalidOnlyByCommand (lzwCodeOp code) := by
  intro s c h hc
  unfold lzwCodeOp at h
  split at h
  · exact invalidCommand_of_append h hc
  next helement => cases h; exact invalidCommand_of_corrupt (lzwElement_corrupt helement) hc

theorem invalidOnly_lz77Token (token : Token) : InvalidOnlyByCommand (lz77TokenOp token) := by
  intro s c h hc
  unfold lz77TokenOp at h
  split at h
  · exact invalidCommand_of_append h hc
  next helement => cases h; exact invalidCommand_of_corrupt (lz77Element_corrupt helement) hc

theorem invalidOnly_hufSym (path : List Bool) : InvalidOnlyByCommand (hufSymOp path) := by
  intro s c h hc
  unfold hufSymOp at h
  split at h
  · cases h; cases hc
  · split at h
    · exact invalidCommand_of_append h hc
    next hbits => cases h; exact invalidCommand_of_corrupt (hufBits_corrupt hbits) hc

theorem keepsFrame_codecParseOp (k : Codec) : KeepsFrame (codecParseOp k) := fun _ _ h => (operated_parse h).toKeeps

theorem keepsFrame_started {f : State → Except Cause State} (hf : KeepsFrame f) :
    KeepsFrame fun s => f (startOutput s) := fun s _ h => (keeps_startOutput s).trans (hf _ _ h)

theorem invalidOnly_compressOp (k : Codec) :
    InvalidOnlyByCommand (compressOp (codecCompressOp k) (codecSerializeOp k)) :=
  invalidOnly_andThen
    (invalidOnly_andThen invalidOnly_checkInput keepsFrame_checkInput (invalidOnly_started (invalidOnly_compress k)))
    (keepsFrame_andThen keepsFrame_checkInput (keepsFrame_started (keepsFrame_codecCompressOp k)))
    (invalidOnly_serialize k)

theorem invalidOnly_decompressOp (k : Codec) :
    InvalidOnlyByCommand (decompressOp (codecParseOp k) (objectSize · k) (codecDecompressOp k)) :=
  have hparsed := keepsFrame_andThen keepsFrame_checkInput (keepsFrame_started (keepsFrame_codecParseOp k))
  invalidOnly_andThen
    (invalidOnly_andThen
      (invalidOnly_andThen invalidOnly_checkInput keepsFrame_checkInput (invalidOnly_started (invalidOnly_parse k)))
      hparsed (invalidOnly_checkOutput _))
    (keepsFrame_andThen hparsed (keepsFrame_checkOutput _)) (invalidOnly_decompress k)

/-! ### Which turns end with InvalidArgument -/

/-- If `t` is idle with STATUS 1, one of the three causes holds in `s`. -/
def InvalidOnlyIf (s t : State) : Prop := t.busy = 0 → t.status = 1 → InvalidCommand s

theorem invalidOnlyIf_busy (hb : t.busy = 1) : InvalidOnlyIf s t := by
  intro hidle
  rw [hb] at hidle
  cases hidle

theorem invalidOnlyIf_complete : InvalidOnlyIf s (complete t) := by
  intro _ hstatus
  cases hstatus

theorem causeKind_of_status (h : causeStatus c = 1) : causeKind c = .invalidArgument := by
  unfold causeStatus at h
  cases hk : causeKind c with
  | invalidArgument => rfl
  | outOfMemory => rw [hk] at h; cases h
  | corrupt => rw [hk] at h; cases h

theorem invalidOnlyIf_raise (h : causeKind c = .invalidArgument → InvalidCommand s) : InvalidOnlyIf s (raise c t) :=
  fun _ hstatus => h (causeKind_of_status hstatus)

theorem invalidOnlyIf_afterRun {after : After} (h : InvalidOnlyIf s u) : InvalidOnlyIf s (afterRun after u) := by
  unfold afterRun
  split
  · exact h
  next hbusy =>
    cases after
    case finish => exact invalidOnlyIf_complete
    all_goals exact invalidOnlyIf_busy ((busy_cases u).resolve_left hbusy)

theorem invalidOnlyIf_settle {f : State → Except Cause State} (hf : InvalidOnlyByCommand f)
    (hb : ∀ t, f s = .ok t → t.busy = 1) (h : settle s (f s) = .next t) : InvalidOnlyIf s t := by
  rcases settle_cases h with hok | ⟨c, herror, rfl⟩
  · exact invalidOnlyIf_busy (hb t hok)
  · exact invalidOnlyIf_raise (hf s c herror)

theorem invalidOnlyIf_settleCommand {f : State → Except Cause State} (hf : InvalidOnlyByCommand f)
    (h : settleCommand s (f s) = .next t) : InvalidOnlyIf s t := by
  rcases settleCommand_cases h with ⟨u, -, rfl⟩ | ⟨c, herror, rfl⟩
  · exact invalidOnlyIf_complete
  · exact invalidOnlyIf_raise (hf s c herror)

theorem exec_command_invalidOnlyIf (h : exec (commandOf s.dir k) s = .next t) : InvalidOnlyIf s t := by
  rcases dir_cases s with hd | hd <;> rw [hd] at h
  · rw [exec_commandOf_compress] at h
    exact invalidOnlyIf_settleCommand (invalidOnly_compressOp k) h
  · rw [exec_commandOf_decompress] at h
    exact invalidOnlyIf_settleCommand (invalidOnly_decompressOp k) h

theorem exec_firstOperation_invalidOnlyIf (hb : s.busy = 1) (h : exec (firstOperation s.dir k) s = .next t) :
    InvalidOnlyIf s t := by
  rcases dir_cases s with hd | hd <;> rw [hd] at h
  · rw [exec_firstOperation_compress] at h
    exact invalidOnlyIf_settle (invalidOnly_compress k) (fun _ hok => (operated_compress hok).busy.trans hb) h
  · rw [exec_firstOperation_decompress] at h
    exact invalidOnlyIf_settle (invalidOnly_parse k) (fun _ hok => (operated_parse hok).busy.trans hb) h

/-- The sequencer does not rest, and its work on `s` ends with InvalidArgument only if one of the three causes holds in
`s`. -/
def WorkInvalidOnlyIf (s : State) : Work → Prop
  | .rest => False
  | .trap c => causeKind c = .invalidArgument → InvalidCommand s
  | .go t => InvalidOnlyIf s t
  | .run i t _ => ∀ u, exec i t = .next u → InvalidOnlyIf s u

theorem acceptedWork_invalidOnlyIf (hb : s.busy = 1) : WorkInvalidOnlyIf s (acceptedWork s) := by
  cases hk : codecOf s.alg with
  | none => rw [acceptedWork_no_codec hk]; exact fun _ => invalidCommand_of_no_codec hk
  | some k =>
    cases hg : s.grain with
    | command => rw [acceptedWork_command hk hg]; exact fun u => exec_command_invalidOnlyIf
    | operation =>
      cases hc : checkInput s with
      | error c => rw [acceptedWork_badInput hk hg hc]; exact fun _ => invalidCommand_of_checkInput hc
      | ok t =>
        obtain rfl := checkInput_eq_self hc
        rw [acceptedWork_operation hk hg hc]
        exact fun u => exec_firstOperation_invalidOnlyIf (s := startOutput t) hb

theorem parsedWork_invalidOnlyIf (hb : s.busy = 1) : WorkInvalidOnlyIf s (parsedWork s k) := by
  by_cases hcap : s.cfg.capOut < (objectSize s k).toNat
  · rw [parsedWork, checkOutput_of_beyond hcap]
    exact nofun
  · rw [parsedWork, checkOutput_of_fits (Nat.not_lt.1 hcap)]
    cases k
    case huf =>
      intro u hu
      cases hu
      exact invalidOnlyIf_busy hb
    all_goals exact invalidOnlyIf_busy hb

theorem elementWork_invalidOnlyIf {f : Format} {at_ : Nat} {size : U64} {short : Cause}
    (hshort : causeKind short = .corrupt) (hcut : causeKind (cutCause f) = .corrupt)
    (hrun : ∀ i bs rest, decode f bs = .ok (i, rest) → ∀ u, exec i s = .next u → InvalidOnlyIf s u) :
    WorkInvalidOnlyIf s (elementWork s f at_ size short) := by
  unfold elementWork
  split
  · split
    · exact invalidOnlyIf_complete
    · exact invalidCommand_of_corrupt hshort
  · split
    next hdecode => exact hrun _ _ _ hdecode
    · exact invalidCommand_of_corrupt hcut

theorem symWork_invalidOnlyIf (hb : s.busy = 1) : WorkInvalidOnlyIf s (symWork s) := by
  unfold symWork
  split
  · split
    · exact invalidOnlyIf_complete
    · exact nofun
  · split
    · split
      · exact invalidOnlyIf_complete
      next happend => exact invalidCommand_of_append happend
    · split
      · exact invalidOnlyIf_complete
      · split
        next hdecode =>
          obtain ⟨path, rfl, -, -⟩ := decodeSym_eq_ok hdecode
          exact fun u => invalidOnlyIf_settle (invalidOnly_hufSym path) fun _ hok => (operated_hufSym hok).busy.trans hb
        · exact nofun
        · exact nofun

theorem decodingWork_invalidOnlyIf (hb : s.busy = 1) : WorkInvalidOnlyIf s (decodingWork s k) := by
  cases k
  case huf => exact symWork_invalidOnlyIf hb
  case rle =>
    refine elementWork_invalidOnlyIf rfl rfl fun i bs rest hdecode u => ?_
    obtain ⟨count, value, rfl, -⟩ := decode_rlePair_eq_ok hdecode
    exact invalidOnlyIf_settle (invalidOnly_rlePair count value) fun _ hok => (operated_rlePair hok).busy.trans hb
  case lzw =>
    refine elementWork_invalidOnlyIf rfl rfl fun i bs rest hdecode u => ?_
    obtain ⟨code, rfl, -⟩ := decode_lzwCode_eq_ok hdecode
    exact invalidOnlyIf_settle (invalidOnly_lzwCode code) fun _ hok => (operated_lzwCode hok).busy.trans hb
  case lz77 =>
    refine elementWork_invalidOnlyIf rfl rfl fun i bs rest hdecode u => ?_
    obtain ⟨token, hexec, -⟩ := decode_lzToken_eq_ok hdecode
    rw [hexec]
    exact invalidOnlyIf_settle (invalidOnly_lz77Token token) fun _ hok => (operated_lz77Token hok).busy.trans hb

theorem nextWork_no_codec (hb : s.busy = 1) (hst : s.stage ≠ .accepted) (hk : codecOf s.alg = none) :
    nextWork s = .trap .unknownAlgorithm := by
  cases hstage : s.stage <;> simp_all [nextWork]

theorem nextWork_invalidOnlyIf (hb : s.busy = 1) : WorkInvalidOnlyIf s (nextWork s) := by
  by_cases hst : s.stage = .accepted
  · rw [nextWork_accepted hb hst]
    exact acceptedWork_invalidOnlyIf hb
  · cases hk : codecOf s.alg with
    | none => rw [nextWork_no_codec hb hst hk]; exact fun _ => invalidCommand_of_no_codec hk
    | some k =>
      cases hstage : s.stage with
      | accepted => exact absurd hstage hst
      | coded =>
        rw [nextWork_coded hb hstage hk]
        intro u hu
        rw [exec_serializerOf] at hu
        exact invalidOnlyIf_settle (invalidOnly_serialize k)
          (fun _ hok => (operated_serialize (k' := k) hok).busy.trans hb) hu
      | parsed => rw [nextWork_parsed hb hstage hk]; exact parsedWork_invalidOnlyIf hb
      | decoding => rw [nextWork_decoding hb hstage hk]; exact decodingWork_invalidOnlyIf hb

theorem engineTurn_invalidOnlyIf (hb : s.busy = 1) (h : engineTurn s = .next t) : InvalidOnlyIf s t := by
  have hwork := nextWork_invalidOnlyIf hb
  cases hw : nextWork s with
  | rest => rw [hw] at hwork; exact hwork.elim
  | trap c =>
    rw [hw] at hwork
    rw [engineTurn_of_trap hw] at h
    cases h
    exact invalidOnlyIf_raise hwork
  | go v =>
    rw [hw] at hwork
    rw [engineTurn_of_go hw] at h
    cases h
    exact hwork
  | run i v after =>
    rw [hw] at hwork
    obtain ⟨u, hu⟩ := exec_answers_next i v
    rw [engineTurn_of_run hw hu] at h
    cases h
    exact invalidOnlyIf_afterRun (hwork u hu)

/-- Settles O8: the three causes end the first turn, and each turn's other causes are of another kind. -/
theorem invalidArgumentCauses : Obligations.InvalidArgumentCauses := by
  unfold Obligations.InvalidArgumentCauses
  refine ⟨fun s => accepted_invalid_fails, fun s t hhost hb hstep => ?_⟩
  rw [step_of_no_host hhost] at hstep
  exact engineTurn_invalidOnlyIf hb hstep

end Sys2Proof.Machine

/-! PROOFS. Reset, what the other host actions leave of an idle engine, and what the host reads and copies after a command
(70_reset_and_hazards.md R350, R351, R355, R357, 10_state.md R26, R30, R49). The idea: an access that is offered has one
result, so a step that succeeded left that state, and a busy engine's turn does not look at the host's list. -/

namespace Sys2Proof.Machine

open Sys2Proof.Safety

section
variable {s t : State} {rest : List HostAct} {r : Reg} {v : U64} {a n : Nat} {b : Byte} {bs : List Byte}

/-! ### What an access that succeeded left -/

theorem eq_of_hostWriteReg (h : hostWriteReg r v s = .next t) : t = writeReg s r v := by
  unfold hostWriteReg at h
  split at h
  · cases h
  · split at h <;> cases h
    rfl

theorem eq_of_hostReadReg (h : hostReadReg r s = .next t) : t = { s with observed := s.observed ++ [readReg s r] } := by
  unfold hostReadReg at h
  split at h <;> cases h
  rfl

theorem eq_of_hostWriteIbuf (h : hostWriteIbuf a bs s = .next t) : t = { s with ibuf := memWrite s.ibuf a bs } := by
  unfold hostWriteIbuf at h
  split at h
  · cases h
  · split at h <;> cases h
    rfl

theorem eq_of_hostReadObuf (h : hostReadObuf a s = .next t) :
    t = { s with observed := s.observed ++ [(obufByte s a).setWidth 64] } := by
  unfold hostReadObuf at h
  split at h
  · cases h
  · split at h
    · cases h
    · split at h <;> cases h
      rfl

theorem eq_of_hostCopyBack (h : hostCopyBack n s = .next t) :
    t = { s with ibuf := memWrite s.ibuf 0 ((List.range n).map (obufByte s)) } := by
  unfold hostCopyBack at h
  split at h
  · cases h
  · split at h
    · cases h
    · split at h <;> cases h
      rfl

/-! ### The accesses that are offered -/

/-- BUSY may be read at any time (20_memory.md R72). -/
theorem step_readBusy (h : s.host = .readReg .busy :: rest) :
    step s = .next { s with host := rest, observed := s.observed ++ [s.busy.setWidth 64] } := by
  rw [step_eq_hostReadReg h]
  exact if_neg fun hrefused => hrefused.2.1 rfl

theorem hostReadObuf_offered (hb : s.busy = 0) (ho : a < s.olen.toNat) (ha : a < s.cfg.capOut) :
    hostReadObuf a s = .next { s with observed := s.observed ++ [(obufByte s a).setWidth 64] } := by
  rw [hostReadObuf, if_neg (by simp [hb]), if_neg (Nat.not_le.2 ha), if_neg (Nat.not_le.2 ho)]

theorem hostCopyBack_offered (hb : s.busy = 0) (ho : n ≤ s.olen.toNat) (hn : n ≤ s.cfg.capIn) :
    hostCopyBack n s = .next { s with ibuf := memWrite s.ibuf 0 ((List.range n).map (obufByte s)) } := by
  rw [hostCopyBack, if_neg (by simp [hb]), if_neg (Nat.not_lt.2 hn), if_neg (Nat.not_lt.2 ho)]

theorem step_readObuf (h : s.host = .readObuf a :: rest) (hb : s.busy = 0) (ho : a < s.olen.toNat)
    (ha : a < s.cfg.capOut) :
    step s = .next { s with host := rest, observed := s.observed ++ [(obufByte s a).setWidth 64] } :=
  (step_eq_hostReadObuf h).trans (hostReadObuf_offered hb ho ha)

theorem step_copyBack (h : s.host = .copyBack n :: rest) (hb : s.busy = 0) (ho : n ≤ s.olen.toNat)
    (hn : n ≤ s.cfg.capIn) :
    step s = .next { s with host := rest, ibuf := memWrite s.ibuf 0 ((List.range n).map (obufByte s)) } :=
  (step_eq_hostCopyBack h).trans (hostCopyBack_offered hb ho hn)

theorem step_awaitIdle_idle (h : s.host = .awaitIdle :: rest) (hb : s.busy = 0) :
    step s = .next { s with host := rest } := by
  simp [step, whoMoves, h, hb]

theorem step_awaitIdle_busy (h : s.host = .awaitIdle :: rest) (hb : s.busy = 1) : step s = engineTurn s := by
  simp [step, whoMoves, h, hb]

theorem step_reset (h : s.host = .reset :: rest) : step s = .next (resetEngine { s with host := rest }) := by
  simp [step, whoMoves, h]

/-! ### What the host may change of an idle engine -/

/-- From `s` to `t` nothing changed but ALG, DIR, ILEN, IBUF and the host's own fields. -/
def HostChangesOnly (s t : State) : Prop :=
  t = { s with alg := t.alg, dir := t.dir, ilen := t.ilen, ibuf := t.ibuf, host := t.host, observed := t.observed }

theorem writeReg_start_of_bit0_clear (hv : v.getLsbD 0 = false) : writeReg s .start v = s := by
  refine if_neg fun hone => ?_
  have hset : (v.setWidth 1).getLsbD 0 = true := by rw [hone]; rfl
  rw [BitVec.getLsbD_setWidth, hv] at hset
  cases hset

theorem hostChangesOnly_writeReg (hstart : r = .start → v.getLsbD 0 = false) :
    HostChangesOnly s (writeReg { s with host := rest } r v) := by
  cases r
  case start => rw [writeReg_start_of_bit0_clear (hstart rfl)]; rfl
  all_goals rfl

/-- Every action but reset and a START write of 1, on an idle engine (70_reset_and_hazards.md R351). -/
theorem hostChangesOnly_step {act : HostAct} (hb : s.busy = 0) (hh : s.host = act :: rest) (hreset : act ≠ .reset)
    (hstart : ∀ v, act = .writeReg .start v → v.getLsbD 0 = false) (h : step s = .next t) : HostChangesOnly s t := by
  cases act with
  | writeReg r v =>
    rw [eq_of_hostWriteReg ((step_eq_hostWriteReg hh).symm.trans h)]
    exact hostChangesOnly_writeReg fun hr => hstart v (by rw [hr])
  | writeIbuf a bs => rw [eq_of_hostWriteIbuf ((step_eq_hostWriteIbuf hh).symm.trans h)]; rfl
  | readReg r => rw [eq_of_hostReadReg ((step_eq_hostReadReg hh).symm.trans h)]; rfl
  | readObuf a => rw [eq_of_hostReadObuf ((step_eq_hostReadObuf hh).symm.trans h)]; rfl
  | copyBack n => rw [eq_of_hostCopyBack ((step_eq_hostCopyBack hh).symm.trans h)]; rfl
  | reset => exact absurd rfl hreset
  | engineTurn =>
    rw [step_engineTurn hh, engineTurn_idle (s := { s with host := rest }) hb] at h
    cases h
    rfl
  | awaitIdle =>
    rw [step_awaitIdle_idle hh hb] at h
    cases h
    rfl

/-! ### The bytes the host takes -/

theorem obufByte_of_memRead (h : memRead s.obuf a = some b) : obufByte s a = b := by
  rw [obufByte, h, Option.getD_some]

/-- The bytes of the copy, at their addresses (70_reset_and_hazards.md R357). -/
theorem memRead_copy_below (ha : a < n) (h : memRead s.obuf a = some b) :
    memRead (memWrite s.ibuf 0 ((List.range n).map (obufByte s))) a = some b := by
  rw [memRead_memWrite, if_pos (by simpa using ha)]
  simp [ha, obufByte_of_memRead h]

theorem memRead_copy_beyond (ha : n ≤ a) :
    memRead (memWrite s.ibuf 0 ((List.range n).map (obufByte s))) a = memRead s.ibuf a := by
  rw [memRead_memWrite, if_neg (by simpa using ha)]

end

/-- Settles O13: reset sets each register, and each other action is taken on its own. -/
theorem resetEvent : Obligations.ResetEvent := by
  unfold Obligations.ResetEvent
  refine ⟨fun s rest h => ?_, fun s t act rest hb hh hreset hstart => hostChangesOnly_step hb hh hreset hstart,
    fun s hb hh => (step_of_no_host hh).trans (engineTurn_idle hb)⟩
  exact ⟨_, step_reset h, rfl, rfl, rfl, rfl, rfl, rfl, fun _ => rfl, fun _ => rfl, rfl, rfl⟩

/-- Settles O60: each read is one access that is offered, the copy reads before it writes, and the wait gives way to the
engine's turn. -/
theorem hostTakesResults : Obligations.HostTakesResults := by
  unfold Obligations.HostTakesResults
  intro s rest
  refine ⟨step_readBusy, fun h hb => step_readReg h (.inl hb), fun h hb => step_readReg h (.inl hb),
    fun a b h hb ho ha hread => ?_, fun n h hb ho hn => ?_, step_awaitIdle_idle, fun h hb => ?_, step_engineTurn⟩
  · rw [step_readObuf h hb ho ha, obufByte_of_memRead hread]
  · exact ⟨_, step_copyBack h hb ho hn, rfl, fun a b => memRead_copy_below, fun a => memRead_copy_beyond⟩
  · obtain ⟨t, ht⟩ := engineTurn_answers_next s
    have hstep := step_awaitIdle_busy h hb
    exact ⟨hstep, t, hstep.trans ht, (engineMove_of_turn hb ht).host⟩

end Sys2Proof.Machine
